-- ==== Sys2Proof/Word.lean ====
section
/-! DEFINITION. The plainest types and arithmetic of the LZ420 (spec 00_scope.md, 6.1 and 6.2): text,
calendar ticks and the whole-number operations the manual writes as clamp, ceil, trunc and round half up.
The LZ420 has no machine word: its quantities are whole numbers with ranges (00_scope.md 6.1). -/

namespace Sys2Proof

/-- A run of characters on the serial lines. -/
abbrev Text := List Char

/-- One token of a command line: what stands between two runs of spaces (R167). -/
abbrev Token := Text

/-- A calendar instant in ticks: seconds × 1,024 plus the tick fraction (R50). -/
abbrev Tick := Nat

/-- "Clamped to a–b" (00_scope.md 6.1). -/
def clampInt (lo hi x : Int) : Int := max lo (min hi x)

/-- "Clamped to 0–b" for a value read as a whole number, answered as a natural number. -/
def clampNat (lo hi : Nat) (x : Int) : Nat := (clampInt lo hi x).toNat

/-- `ceil(a / b)` for positive `b`. -/
def ceilDiv (a b : Nat) : Nat := (a + b - 1) / b

/-- A counter that stops at `top`. -/
def addUpTo (top a n : Nat) : Nat := min top (a + n)

end Sys2Proof
end

