-- ==== Sys2Proof/Syntax.lean ====
section
/-! DEFINITION. The commands and events of the LZ420: one constructor for each row of
spec/opcode_table.json, in the table's order. The table gives its rows no operands and no bits; the
operands here are what the rule of each row says the step is given: the tokens after the verb of a
command line (R167), or what a pin, a sensor or a clock shows at the event. -/

namespace Sys2Proof

/-- One step of the part (95_what_each_step_holds.md). The `args` of a line are the tokens after its verb. -/
inductive Instr where
  /-- R163, R164: a character has arrived on RXD; `framing` is true when its stop bit was found low. -/
  | receiveCharacter (value : BitVec 8) (framing : Bool)
  /-- R166: the LF ending the last line of the reply has been sent. -/
  | replySent
  /-- R168: a long line is complete. -/
  | longLine
  /-- R168: a bad line is complete. -/
  | badLine
  /-- R167: a command line whose verb is not one of the twenty-two. -/
  | unknownVerb (verb : Token) (args : List Token)
  /-- R5: a final LOAD line. -/
  | load (args : List Token)
  /-- R11: a LOAD line whose last token is a plus sign; `args` are the tokens before it. -/
  | loadPart (args : List Token)
  /-- R14: SHOW with a slot number. -/
  | showSlot (args : List Token)
  /-- R15: SHOW alone. -/
  | showPlan
  /-- R16 -/
  | clear (args : List Token)
  /-- R18 -/
  | adjust (args : List Token)
  /-- R28 -/
  | start (args : List Token)
  /-- R29 -/
  | stop (args : List Token)
  /-- R30 -/
  | pause (args : List Token)
  /-- R31 -/
  | resume (args : List Token)
  /-- R32 -/
  | nextSegment (args : List Token)
  /-- R33 -/
  | queue (args : List Token)
  /-- R55: TIME alone. -/
  | time
  /-- R56: TIME with arguments. -/
  | timeSet (args : List Token)
  /-- R102: METER alone, or with words other than the three forms below. -/
  | meter (args : List Token)
  /-- R103: METER LAST. -/
  | meterLast
  /-- R98: METER CLEAR. -/
  | meterClear
  /-- R104: METER DARK. -/
  | meterDark
  /-- R99 -/
  | calibrate (args : List Token)
  /-- R157 -/
  | frames (args : List Token)
  /-- R178 -/
  | poll (args : List Token)
  /-- R184 -/
  | store (args : List Token)
  /-- R184, R185: the read-back of a STORE ends; `good` is whether it matches what was written. -/
  | storeVerifyEnd (good : Bool)
  /-- R186 -/
  | recallImage (args : List Token)
  /-- R172 -/
  | ident (args : List Token)
  /-- R173 -/
  | status (args : List Token)
  /-- R170 -/
  | set (args : List Token)
  /-- R171 -/
  | get (args : List Token)
  /-- R174: RESET WARM, with any further tokens. -/
  | resetWarm (args : List Token)
  /-- R174: RESET COLD, with any further tokens. -/
  | resetCold (args : List Token)
  /-- R53: power-on of the part. -/
  | powerOn
  /-- R86, R163: nRST goes low. -/
  | nrstAssert
  /-- R187: nRST is released. -/
  | nrstRelease
  /-- R141: VBAT falls below 2,700 mV. -/
  | brownout
  /-- R141: VBAT has stood at or above 2,700 mV for 250 ms. -/
  | brownoutRecovery
  /-- R53: VBKP falls below its hold level. -/
  | backupDomainLoss
  /-- R188: step 4 of the start-up sequence. -/
  | autorunStart
  /-- R50: the prescaler makes a tick increment. -/
  | tickIncrement
  /-- R41, R48: the opening instant W arrives. -/
  | windowOpening
  /-- R67: the measure instant of the pending shot arrives. -/
  | measureInstant
  /-- R67: the rail-on instant arrives. -/
  | railOnInstant
  /-- R68: the cam_settle count expires. -/
  | settleExpiry
  /-- R69: the prime instant arrives. -/
  | primeInstant
  /-- R69: the wake pulse has lasted WP × 2,048 slow-clock cycles. -/
  | wakePulseEnd
  /-- R71: the due time D arrives. -/
  | dueTime
  /-- R73: the bulb count ends; `busy` is the level of BUSY at the release of TRIG (R75). -/
  | bulbEnd (busy : Bool)
  /-- R75: BUSY changes to its active level `cycles` slow-clock cycles after TRIG assert. -/
  | busyOpenEdge (cycles : Nat)
  /-- R75: BUSY is at its inactive level `cycles` slow-clock cycles after the release of TRIG. -/
  | busyWriteEdge (cycles : Nat)
  /-- R76 -/
  | openWatchExpiry
  /-- R76 -/
  | writeWatchExpiry
  /-- R74, R76 -/
  | writeFixedExpiry
  /-- R81: the 5 s rail hold ends. -/
  | retryHoldEnd
  /-- R46: TRIP changes level; `rising` is the direction of the edge. -/
  | tripEdge (rising : Bool)
  /-- R90: an integration on LUX ends, having collected `count`. -/
  | integrationEnd (count : Nat)
  /-- R90: the 1 ms computation ends. -/
  | computationEnd
  /-- R100: an integration on DARK ends, having collected `count`. -/
  | darkIntegrationEnd (count : Nat)
  /-- R131: the 64 s timer expires. -/
  | measurementTimerExpiry
  /-- R133: the 2 ms of a measurement have passed and the sensors read `volts` mV and `temp` °C. -/
  | measurementEnd (volts : Nat) (temp : Int)
  /-- R142: a heater frame ends and the next begins. -/
  | heaterFrameBoundary
  /-- R142: the on-time of the heater frame runs out. -/
  | heaterOnTimeEnd
  /-- R146, R147: a check period of 32 slow-clock cycles ends with `count` fast-clock cycles. -/
  | clockPeriodEnd (count : Nat)
  /-- R146: 655 slow-clock cycles have passed since the start began. -/
  | clockStartTimeout
  /-- R141: VBAT rises to 2,700 mV or above. -/
  | vbatReturn
  deriving DecidableEq, Repr

end Sys2Proof
end

