-- ==== Sys2Proof/Decode.lean ====
section
/-! DEFINITION. The command that a word spells by the bits of spec/opcode_table.json. The table gives none of its
68 rows a bit (every row's "fields" is empty and no row has "fixed" bits): the LZ420 has no instruction
words, its commands are lines of text and events on its pins. So no word spells a command. -/

namespace Sys2Proof

/-- No row of the table gives bits, so no word of any width spells a command. -/
def decodeTableWord (_nbits _w : Nat) : Option Instr := none

end Sys2Proof
end

