-- ==== Sys2Proof/Config.lean ====
section
/-! DEFINITION. The fixed numbers of the LZ420, each with the rule of spec/ that gives it. Nothing here is
left to an implementation: the manual states every one of them. -/

namespace Sys2Proof.Config

/-- R1: slots of the plan table. -/
def slotCount : Nat := 48
/-- R152: records the frame log keeps. -/
def logSize : Nat := 512
/-- R112: entries of the meter history. -/
def historySize : Nat := 8
/-- R164: line characters the receive buffer holds. -/
def lineLimit : Nat := 96
/-- R167: decimal digits of a number. -/
def numberDigits : Nat := 10
/-- R50: the last second of the calendar. -/
def maxSeconds : Nat := 4294967295
/-- 00_scope.md 6.2: ticks in a second. -/
def ticksPerSecond : Nat := 1024
/-- R85: the last frame number before the wrap. -/
def maxFrame : Nat := 4294967295
/-- R50: slow-clock cycles in a tick increment. -/
def tickCycles : Nat := 32
/-- 00_scope.md 6.2: ticks in a sixteenth. -/
def sixteenthTicks : Nat := 64
/-- R68: slow-clock cycles in a sixteenth. -/
def sixteenthCycles : Nat := 2048
/-- R57: seconds in a trim span. -/
def spanSeconds : Nat := 4096
/-- R36: handoffs a run can make without a picture. -/
def handoffLimit : Nat := 48
/-- R66: ticks from the measure instant to the rail-on instant. -/
def measureLeadTicks : Nat := 3
/-- R24: the last value of the shot index. -/
def maxShotIndex : Nat := 65535
/-- R40, R47: the last value of the skip and ignored-trip counters. -/
def maxHanded : Nat := 255
/-- R80: where the miss counter stops. -/
def maxMisses : Nat := 6
/-- R80: the misses that start a camera retry. -/
def retryMisses : Nat := 3
/-- R81: slow-clock cycles of the 5 s rail hold. -/
def retryHoldCycles : Nat := 163840
/-- R73: the largest shutter eighths timed on the fast clock. -/
def fastBulbMax : Nat := 79
/-- R75: the last value of lag and write time. -/
def maxMs : Nat := 65535
/-- R90: fast-clock cycles of one integration. -/
def integrationCycles : Nat := 200000
/-- R90: fast-clock cycles of the 1 ms computation, at 4 MHz. -/
def computationCycles : Nat := 4000
/-- R90: where a meter count stops. -/
def maxCount : Nat := 65535
/-- R87: the largest dark count. -/
def maxDark : Nat := 4095
/-- R100: integrations of a calibration. -/
def darkIntegrations : Nat := 8
/-- R101: ticks that must lie before a pending prime for an automatic calibration. -/
def calibrationLeadTicks : Nat := 1024
/-- R131: slow-clock cycles of the measurement timer. -/
def measurementTimerCycles : Nat := 2097152
/-- R133: the 2 ms of a measurement in slow-clock cycles, 65.536, to the next whole cycle. -/
def measurementCycles : Nat := 66
/-- R130: the largest voltage. -/
def maxMillivolts : Nat := 6000
/-- R136: the least distance of VR below VT. -/
def thresholdGap : Nat := 50
/-- R142: slow-clock cycles of a heater frame. -/
def heaterFrameCycles : Nat := 32768
/-- R142: slow-clock cycles of on-time for each unit of duty. -/
def dutyCycles : Nat := 512
/-- R141: the 250 ms of brownout recovery in slow-clock cycles. -/
def recoveryCycles : Nat := 8192
/-- R146: the lowest and highest good count of a check period. -/
def periodLow : Nat := 3800
/-- R146: the highest good count of a check period. -/
def periodHigh : Nat := 4012
/-- R146: good periods in a row that make the fast clock stable. -/
def goodPeriodsNeeded : Nat := 2
/-- R146: slow-clock cycles a start of the fast clock may take. -/
def clockStartCycles : Nat := 655
/-- R157: the most records of one readout. -/
def readoutMax : Nat := 8
/-- R9: the allowance of the ceiling check, in µs. -/
def ceilingAllowance : Nat := 250000
/-- 00_scope.md 6.2: µs in a sixteenth. -/
def sixteenthMicros : Nat := 62500
/-- R2: the range of IV. -/
def minInterval : Nat := 8
/-- R2: the largest IV. -/
def maxInterval : Nat := 1382400
/-- R123: the mantissa table of shutter times. -/
def mantissa : List Nat := [1000, 1091, 1189, 1297, 1414, 1542, 1682, 1834]

end Sys2Proof.Config
end

