-- ==== Sys2Proof/Machine/State.lean ====
section
/-! DEFINITION. The state of the LZ420 as plain data: every item that spec/ gives each of its twelve blocks
(00_scope.md 3.1), the pins of 00_scope.md 4, and the queue of commands that wait. Slow-clock and
fast-clock counts are held as the cycles still to run, kept to the tick (assumption log 3). -/

namespace Sys2Proof.Machine

/-- Why a step stops as a fault. No row of the table stops: the spec gives every command and every event an
effect, so nothing in this model raises one. -/
inductive Fault where
  /-- Reserved: raised by nothing in this model. Were it raised, the machine would stop, which is safe. -/
  | unreachable
  deriving DecidableEq, Repr

/-- Why a step is refused. -/
inductive Refusal where
  /-- Raised only by an arm of exec whose command has no meaning yet; no arm is left so. Safe: the machine stops. -/
  | notModelled (mnemonic : String)
  deriving DecidableEq, Repr

/-! ### The plan table (R1 to R4) -/

/-- SRC (R2). -/
inductive Source where
  | timed
  | trip
  deriving DecidableEq, Repr

/-- FOL (R4). -/
inductive Follow where
  | slot (n : Nat)
  | finish
  | ask
  deriving DecidableEq, Repr

/-- MODE with the fields of its group (R3). -/
inductive Mode where
  | fix (e : Nat)
  | ramp (first last : Nat)
  | met (key : Nat) (bias0 bias1 : Int) (k db slew elLow elHigh : Nat)
  deriving DecidableEq, Repr

/-- A segment record (R2, R3, R4); `win` and `until` are absent when their fields are. -/
structure Segment where
  iv : Nat
  n : Nat
  endAt : Option Nat
  win : Option (Nat × Nat)
  days : Nat
  src : Source
  div : Nat
  mode : Mode
  esMin : Nat
  esMax : Nat
  gm : Nat
  fol : Follow
  deriving DecidableEq, Repr

/-- The keys of the segment record (R2, R3, R4). -/
inductive SegKey where
  | iv | n | endAt | win | days | src | div | mode | e | er | keyValue | bias | depth | db | slew | el | es | gm | fol
  deriving DecidableEq, Repr

/-- The three words of MODE. -/
inductive ModeWord where
  | fix | ramp | met
  deriving DecidableEq, Repr

/-- The value of a field as written on a LOAD line, read but not yet checked for range. -/
inductive FieldValue where
  | num (v : Int)
  | pair (a b : Int)
  | src (v : Source)
  | mode (v : ModeWord)
  | finish
  | ask
  deriving DecidableEq, Repr

/-- One field of a LOAD line. -/
structure Field where
  key : SegKey
  value : FieldValue
  deriving DecidableEq, Repr

/-- The staging record (R11): a slot and the fields gathered so far, in the order they were staged. -/
structure Staging where
  slot : Nat
  fields : List Field
  deriving DecidableEq, Repr

/-- The plan table: 48 slots, none where EMPTY (R1), and the staging record (R11). -/
structure Plan where
  slots : List (Option Segment)
  staging : Option Staging
  deriving DecidableEq, Repr

/-! ### The settings (11.2) -/

/-- SY. -/
inductive SyncMode where
  | none | busyHigh | busyLow
  deriving DecidableEq, Repr

/-- TE: the qualifying edge of TRIP (R46). -/
inductive TripEdge where
  | fall | rise
  deriving DecidableEq, Repr

/-- The twenty-one settings of 11.2. `tr` is also the trim value of the backup domain (R57). -/
structure Settings where
  cs : Nat
  lm : Nat
  pl : Nat
  wp : Nat
  sy : SyncMode
  ot : Nat
  wt : Nat
  wf : Nat
  vt : Nat
  vr : Nat
  vh : Nat
  sa : Nat
  cc : Nat
  st : Nat
  hd : Nat
  hb : Int
  mc : Int
  te : TripEdge
  atOn : Bool
  ar : Option Nat
  tr : Int
  deriving DecidableEq, Repr

/-- The defaults of the table of 11.2. -/
def Settings.default : Settings :=
  { cs := 32, lm := 320, pl := 8, wp := 0, sy := .none, ot := 16, wt := 160, wf := 16,
    vt := 3500, vr := 3300, vh := 150, sa := 200, cc := 4, st := 2, hd := 0, hb := 2,
    mc := 0, te := .fall, atOn := true, ar := none, tr := 0 }

/-- The keys of the settings, in the order of R170. -/
inductive SetKey where
  | cs | lm | pl | wp | sy | ot | wt | wf | vt | vr | vh | sa | cc | st | hd | hb | mc | te | atOn | ar | tr
  deriving DecidableEq, Repr

/-- What the image holds (R183), and the contents a STORE has fixed for writing (R184). -/
structure ImageContents where
  slots : List (Option Segment)
  settings : Settings
  dark : Nat
  tcal : Option Int
  deriving DecidableEq, Repr

/-- The nonvolatile image (R183); `good` says whether its check word matches its contents. -/
structure Image where
  contents : ImageContents
  good : Bool
  deriving DecidableEq, Repr

/-! ### The command link (R163 to R175) -/

/-- A complete line (R164): a command line as its tokens, a long line or a bad line. -/
inductive Line where
  | command (toks : List Token)
  | long
  | bad
  deriving DecidableEq, Repr

/-- The reset that a RESET command orders for the end of its reply (R174). -/
inductive ResetOrder where
  | none | warm | cold
  deriving DecidableEq, Repr

/-- The link state (R166): WORKING holds the contents a STORE is writing, SENDING the reply lines going out. -/
inductive LinkState where
  | ready
  | working (writing : ImageContents)
  | sending (reply : List Text) (order : ResetOrder)
  deriving DecidableEq, Repr

/-- The receive buffer with its marks (R164), the pending slot (R165) and the link state (R166).
`afterCr` remembers that the last character was a CR that ended a line, for the LF that follows it. -/
structure Link where
  buffer : Text
  longMark : Bool
  badMark : Bool
  afterCr : Bool
  waiting : Option Line
  state : LinkState
  deriving DecidableEq, Repr

/-! ### The run sequencer (R21 to R24) -/

/-- The pause reason (R21). -/
inductive PauseReason where
  | host | camera
  deriving DecidableEq, Repr

/-- The run state (R21). -/
inductive RunState where
  | idle
  | active
  | starved
  | paused (reason : PauseReason)
  | suspended
  deriving DecidableEq, Repr

/-- The wait of an ACTIVE run (R22). -/
inductive Wait where
  | between | closed | timeless | tripWait
  deriving DecidableEq, Repr

/-- The stage of the sequencer's shot with its due time D (R23). -/
inductive Stage where
  | none
  | pending (due : Tick)
  | priming (due : Tick)
  | inFlight (due : Tick)
  deriving DecidableEq, Repr

/-- The live copy (R17): the slot, the record as ADJUST has changed it, and BO. -/
structure Live where
  slot : Nat
  seg : Segment
  bo : Int
  deriving DecidableEq, Repr

/-- The grid of the TIMED shot whose completion began the camera retry in progress (R44): its due time D, the
completion instant c, and its segment's interval once a later handoff has ended that segment (until then the
interval is the live copy's). -/
structure RetryGrid where
  due : Tick
  completed : Tick
  iv : Option Nat
  deriving DecidableEq, Repr

/-- The run sequencer. `opening` is the instant W of CLOSED (R22); `retryGrid` is what a camera retry in progress
will count its skips from (R44). -/
structure Sequencer where
  run : RunState
  current : Option Nat
  armed : Option Nat
  live : Option Live
  wait : Option Wait
  opening : Option Tick
  stage : Stage
  shotIndex : Nat
  lastDue : Option Tick
  skip : Nat
  ignored : Nat
  edges : Nat
  handoffs : Nat
  endWaiting : Bool
  suspWaiting : Bool
  anchorWaiting : Bool
  retryGrid : Option RetryGrid
  deriving DecidableEq, Repr

/-- R49: the sequencer after a warm reset and after a cold start. -/
def Sequencer.cold : Sequencer :=
  { run := .idle, current := none, armed := none, live := none, wait := none, opening := none,
    stage := .none, shotIndex := 0, lastDue := none, skip := 0, ignored := 0, edges := 0, handoffs := 0,
    endWaiting := false, suspWaiting := false, anchorWaiting := false, retryGrid := none }

/-! ### The calendar (R50, R53, R57) -/

/-- The backup domain. `powered` is whether the domain holds its state; `span` is the span counter and
`correction` the pending correction with its sign, 0 when none is pending (R57). -/
structure Calendar where
  seconds : Nat
  fraction : Nat
  valid : Bool
  span : Nat
  correction : Int
  lost : Bool
  powered : Bool
  deriving DecidableEq, Repr

/-! ### The exposure calculator (R106) -/

/-- The path of a result (R106), with B and the bias on the METERED path. -/
inductive Path where
  | metered (b : Nat) (bias : Int)
  | held
  | fixed
  | ramped
  deriving DecidableEq, Repr

/-- A result record (R106). -/
structure Exposure where
  e : Nat
  g : Nat
  es : Nat
  t : Nat
  clampHi : Bool
  clampLo : Bool
  path : Path
  deriving DecidableEq, Repr

/-- The exposure calculator; E_held UNSET is `none` (the first-frame marker). -/
structure Calculator where
  history : List Nat
  eHeld : Option Nat
  gHeld : Nat
  result : Option Exposure
  deriving DecidableEq, Repr

/-- R128: the calculator after a warm reset and after a cold start. -/
def Calculator.cold : Calculator := { history := [], eHeld := none, gHeld := 0, result := none }

/-! ### The shot engine (R65, R66) -/

/-- The phase (R65). -/
inductive Phase where
  | dormant | powering | ready | prime | exposing | writing | retryOff
  deriving DecidableEq, Repr

/-- The rail-on ask (R67, R132): for a shot, waiting for its rest measurement or for its rail-on instant;
for the trip hold (R79); for the end of a retry hold (R81). -/
inductive RailAsk where
  | none | shotWaiting | shotReady | holdWaiting | retryWaiting
  deriving DecidableEq, Repr

/-- What the held shot has gathered since TRIG assert (R66, R72). `fastLeft` is the fast-clock cycles left of a bulb
that the fast clock times, none where the slow clock times it: chosen at D (R73), or the fast clock having failed
since (R147). `bulbLeft`, `openLeft`, `writeLeft` and `fixedLeft` are the slow-clock cycles left of the bulb time
(counted for every bulb, R147), the open watch, the write watch and the write_fixed count; `lag` is present once
the open edge has been seen. -/
structure Flight where
  stamp : Option (Nat × Nat)
  slot : Nat
  index : Nat
  stretched : Bool
  skip : Nat
  trip : Option Nat
  sy : SyncMode
  ot : Nat
  wt : Nat
  wf : Nat
  fastLeft : Option Nat
  coarse : Bool
  bulbLeft : Nat
  openLeft : Nat
  noSync : Bool
  lag : Option Nat
  wr : Option Nat
  writeLeft : Nat
  fixedLeft : Option Nat
  deriving DecidableEq, Repr

/-- The held shot (R66): its due time and instants, the exposure once it has been computed, the frame flags
of its reading, and what it has gathered since TRIG assert. -/
structure Shot where
  due : Tick
  measureAt : Tick
  railOnAt : Tick
  primeAt : Tick
  exposure : Option Exposure
  heldMeter : Bool
  overFlag : Bool
  underFlag : Bool
  flight : Option Flight
  deriving DecidableEq, Repr

/-- The shot engine. `retrying` says that a camera retry is in progress (R81); `settleLeft`, `wakeLeft` and
`holdLeft` are slow-clock cycles left of cam_settle, of the wake pulse and of the rail hold. -/
structure Engine where
  phase : Phase
  shot : Option Shot
  ask : RailAsk
  retrying : Bool
  settleLeft : Nat
  wakeLeft : Nat
  holdLeft : Nat
  misses : Nat
  retries : Nat
  frameCounter : Nat
  deriving DecidableEq, Repr

/-- R86: the shot engine after a cold start. -/
def Engine.cold : Engine :=
  { phase := .dormant, shot := none, ask := .none, retrying := false, settleLeft := 0, wakeLeft := 0,
    holdLeft := 0, misses := 0, retries := 0, frameCounter := 0 }

/-- The pins (00_scope.md 4). `trig`, `wake` and `attn` are true while the line is asserted (driven low);
`camPwr` and `heat` are true while high; `busy` and `trip` are the levels last seen on the inputs. -/
structure Pins where
  camPwr : Bool
  trig : Bool
  wake : Bool
  gain : BitVec 3
  heat : Bool
  attn : Bool
  busy : Bool
  trip : Bool
  deriving DecidableEq, Repr

/-! ### The scene meter (R87) -/

/-- The requester of a reading (R87). -/
inductive Requester where
  | prime | host
  deriving DecidableEq, Repr

/-- Where a reading stands: waiting for the fast clock, integrating, or computing on the final count N with the D
and the MC read when the computation began; `left` is in fast-clock cycles (R88, R90, R93, R95). -/
inductive ReadStep where
  | waiting
  | integrating (left : Nat)
  | computing (left count dark : Nat) (mc : Int)
  deriving DecidableEq, Repr

/-- The meter state (R87) with the reading or calibration in progress. A calibration holds the recorded
temperature, the DARK integrations made and their sum, and the cycles left of the one running. -/
inductive MeterState where
  | idle
  | converting (who : Requester) (stage repeats : Nat) (step : ReadStep)
  | calibrating (temp : Int) (made sum : Nat) (left : Option Nat)
  deriving DecidableEq, Repr

/-- The one-off result (R103). -/
inductive OneOff where
  | none
  | pending (stage : Nat)
  | done (count stage b : Nat) (overFlag underFlag : Bool)
  | abandoned
  | unavailable
  deriving DecidableEq, Repr

/-- The outcome of the last calibration (R87). -/
inductive CalOutcome where
  | none | done | failed | abandoned
  deriving DecidableEq, Repr

/-- The scene meter (R87). -/
structure Meter where
  state : MeterState
  rangeStage : Nat
  dark : Nat
  tcal : Option Int
  overSeen : Bool
  underSeen : Bool
  oneOff : OneOff
  outcome : CalOutcome
  deriving DecidableEq, Repr

/-! ### The power supervisor (R130) -/

/-- The level (R130). -/
inductive Level where
  | normal | thrift | reserve
  deriving DecidableEq, Repr

/-- The kind of a measurement (R130). -/
inductive MeasKind where
  | rest | loaded
  deriving DecidableEq, Repr

/-- A finished measurement (R130). -/
structure Measurement where
  volts : Nat
  kind : MeasKind
  temp : Int
  veff : Nat
  deriving DecidableEq, Repr

/-- The measurement in progress (R130): its kind, whether it serves the timer, and the cycles left of its 2 ms. -/
structure Measuring where
  kind : MeasKind
  periodic : Bool
  left : Nat
  deriving DecidableEq, Repr

/-- The heater frame (R142): slow-clock cycles left of the frame and of its on-time, and its permission. -/
structure Heater where
  left : Nat
  onLeft : Nat
  permission : Bool
  deriving DecidableEq, Repr

/-- The power supervisor; the timer and the heater frames are `none` until the start-up series ends (R140). -/
structure Supervisor where
  level : Level
  last : Option Measurement
  measuring : Option Measuring
  timer : Option Nat
  heater : Option Heater
  deriving DecidableEq, Repr

/-- R150: the supervisor when a cold start begins. -/
def Supervisor.cold : Supervisor :=
  { level := .normal, last := none, measuring := none, timer := none, heater := none }

/-! ### The clock controller (R144) -/

/-- The clock state (R144). -/
inductive ClockState where
  | off | starting | running | failed
  deriving DecidableEq, Repr

/-- The clock controller: its state, its requester set, the good periods counted in a row and the slow-clock
cycles left for a start (R146). -/
structure Clock where
  state : ClockState
  meterAsks : Bool
  shotAsks : Bool
  goodPeriods : Nat
  startLeft : Nat
  deriving DecidableEq, Repr

/-- R151: the clock controller after a reset. -/
def Clock.cold : Clock := { state := .off, meterAsks := false, shotAsks := false, goodPeriods := 0, startLeft := 0 }

/-! ### The frame log (R154) and the notice set (R176) -/

/-- The frame flags (R155). -/
structure FrameFlags where
  clampHi : Bool
  clampLo : Bool
  coarse : Bool
  heldMeter : Bool
  overFlag : Bool
  underFlag : Bool
  noSync : Bool
  cut : Bool
  stretched : Bool
  deriving DecidableEq, Repr

/-- A frame record (R154); an optional field that is left out is `none`. -/
structure FrameRecord where
  number : Nat
  time : Option (Nat × Nat)
  slot : Nat
  index : Nat
  e : Nat
  es : Nat
  g : Nat
  t : Nat
  b : Option Nat
  bias : Option Int
  flags : FrameFlags
  skip : Nat
  trip : Option Nat
  lag : Option Nat
  wr : Option Nat
  volts : Nat
  temp : Int
  deriving DecidableEq, Repr

/-- The notice kinds, in the fixed order of R176. -/
inductive Notice where
  | segmentEnd | needNext | starved | runEnd | planLoop | level | cameraRetry | cameraFault
  | meterRange | clockFail | timeLost | storeBad
  deriving DecidableEq, Repr

/-- All kinds in the order of R176. -/
def Notice.all : List Notice :=
  [.segmentEnd, .needNext, .starved, .runEnd, .planLoop, .level, .cameraRetry, .cameraFault,
   .meterRange, .clockFail, .timeLost, .storeBad]

/-! ### The part as a whole -/

/-- What a start-up sequence found in the backup domain before its steps 1 and 2 changed it: the lost marker and the
trim value. A sequence that is broken off leaves both as it found them (R187). -/
structure Found where
  lost : Bool
  trim : Int
  deriving DecidableEq, Repr

/-- How far the part is: stopped (nRST low or no supply), in the start-up series, at the autorun step, or
working (R187, R175). -/
inductive StartUp where
  | stopped
  | series (found : Found)
  | autorun (found : Found)
  | working
  deriving DecidableEq, Repr

/-- What the start-up sequence in progress found; none outside a sequence. -/
def StartUp.found : StartUp → Option Found
  | .series f | .autorun f => some f
  | .stopped | .working => none

/-- VBAT against the brownout level (R141): below it, above it for part of the 250 ms, or good. -/
inductive Supply where
  | below
  | returning (left : Nat)
  | good
  deriving DecidableEq, Repr

/-- The whole state of the part, and the queue of the commands that wait, first in first out. -/
structure State where
  link : Link
  plan : Plan
  seq : Sequencer
  cal : Calendar
  engine : Engine
  pins : Pins
  meter : Meter
  expo : Calculator
  power : Supervisor
  clock : Clock
  log : List FrameRecord
  notices : List Notice
  settings : Settings
  image : Image
  startUp : StartUp
  supply : Supply
  nrstLow : Bool
  pending : List Instr
  deriving DecidableEq, Repr

/-- R1, R20: a plan table with every slot EMPTY. -/
def emptySlots : List (Option Segment) := List.replicate Config.slotCount none

/-- R175: the command link after every reset. -/
def Link.cold : Link :=
  { buffer := [], longMark := false, badMark := false, afterCr := false, waiting := none, state := .ready }

/-- R86, R141: the lines at rest; the two inputs keep the levels seen on them. -/
def Pins.rest (p : Pins) : Pins :=
  { camPwr := false, trig := false, wake := false, gain := 0, heat := false, attn := false,
    busy := p.busy, trip := p.trip }

/-- R105: the scene meter after a cold start on a bad image. -/
def Meter.cold : Meter :=
  { state := .idle, rangeStage := 2, dark := 0, tcal := none, overSeen := false, underSeen := false,
    oneOff := .none, outcome := .none }

/-- R183: the contents of an image that has never been written are never read, since the image is bad. -/
def Image.blank : Image :=
  { contents := { slots := emptySlots, settings := Settings.default, dark := 0, tcal := none }, good := false }

/-- R53: the backup domain as it restarts, with the lost marker set. -/
def Calendar.restarted : Calendar :=
  { seconds := 0, fraction := 0, valid := false, span := 0, correction := 0, lost := true, powered := true }

/-- The part before its first power-up: no supply, the backup domain without state, an image never written. -/
def State.unpowered : State :=
  { link := Link.cold, plan := { slots := emptySlots, staging := none }, seq := Sequencer.cold,
    cal := { Calendar.restarted with lost := false, powered := false }, engine := Engine.cold,
    pins := { camPwr := false, trig := false, wake := false, gain := 0, heat := false, attn := false,
              busy := false, trip := false },
    meter := Meter.cold, expo := Calculator.cold, power := Supervisor.cold, clock := Clock.cold,
    log := [], notices := [], settings := { Settings.default with atOn := false }, image := Image.blank,
    startUp := .stopped, supply := .below, nrstLow := false, pending := [] }

/-- The machine right after reset: the first power-up of a part that has never been powered, with steps 1 and 2
of the start-up sequence taken (R187) and the first measurement of the start-up series begun (R140). The
backup domain has restarted (R53), so TIME_LOST has been raised and the marker cleared; the image has never
been written, so it is bad (R183), every slot is EMPTY, every setting has its default and STORE_BAD has been
raised; AT has thereby become ON and ATTN is low (R182). -/
def State.reset : State :=
  { State.unpowered with
    cal := { Calendar.restarted with lost := false }
    pins := { State.unpowered.pins with attn := true }
    power := { Supervisor.cold with measuring := some { kind := .rest, periodic := false, left := Config.measurementCycles } }
    notices := [.timeLost, .storeBad]
    settings := Settings.default
    startUp := .series { lost := true, trim := 0 }
    supply := .good }

end Sys2Proof.Machine
end

