-- ==== Sys2Proof/WellFormed.lean ====
section
/-! DEFINITION. When a command of Syntax.lean is one the part can meet: tokens as the command link makes them
(R164, R167), lines within 96 characters, and each row's form of its line. exec does not rest on these
checks: it has a meaning for every term (an over-long or mis-sorted line is treated as the line it spells). -/

namespace Sys2Proof

/-- The twenty-two verbs of R167, in its order. -/
def verbNames : List Text :=
  ["LOAD".toList, "SHOW".toList, "CLEAR".toList, "START".toList, "STOP".toList, "PAUSE".toList,
   "RESUME".toList, "NEXT".toList, "QUEUE".toList, "ADJUST".toList, "TIME".toList] ++
  ["METER".toList, "CALIBRATE".toList, "FRAMES".toList, "POLL".toList, "STORE".toList,
   "RECALL".toList, "ID".toList, "STATUS".toList, "SET".toList, "GET".toList, "RESET".toList]

/-- The lone plus sign that ends a part line (R11). -/
def plusMark : Token := ['+']

/-- A printable character other than space, as a line holds it: no lower-case letter (R163, R164). -/
def charOk (c : Char) : Bool :=
  decide (33 ≤ c.toNat) && decide (c.toNat ≤ 126) && !(decide (97 ≤ c.toNat) && decide (c.toNat ≤ 122))

/-- A token is not empty and holds characters a line can hold (R167). -/
def tokenOk (t : Token) : Bool := !t.isEmpty && t.all charOk

/-- The characters of the line that these tokens spell with single spaces between them. -/
def lineLength (toks : List Token) : Nat := (toks.map List.length).sum + (toks.length - 1)

/-- A command line's tokens: each well-formed, and the line at most 96 characters long (R164). -/
def lineOk (toks : List Token) : Bool := toks.all tokenOk && decide (lineLength toks ≤ Config.lineLimit)

/-- The largest open_timeout and write_timeout in slow-clock cycles (R75 with the table of settings). -/
def maxOpenWatch : Nat := 64 * Config.sixteenthCycles
/-- See `maxOpenWatch`. -/
def maxWriteWatch : Nat := 960 * Config.sixteenthCycles

/-- The well-formedness of a command: its line is a line of its row, or its operand is one the part can capture. -/
def Instr.wf : Instr → Bool
  | .receiveCharacter _ _ => true
  | .replySent => true
  | .longLine => true
  | .badLine => true
  | .unknownVerb v args => lineOk (v :: args) && !verbNames.contains v
  | .load args => lineOk ("LOAD".toList :: args) && decide (args.getLast? ≠ some plusMark)
  | .loadPart args => lineOk (("LOAD".toList :: args) ++ [plusMark])
  | .showSlot args => lineOk ("SHOW".toList :: args) && !args.isEmpty
  | .showPlan => true
  | .clear args => lineOk ("CLEAR".toList :: args)
  | .adjust args => lineOk ("ADJUST".toList :: args)
  | .start args => lineOk ("START".toList :: args)
  | .stop args => lineOk ("STOP".toList :: args)
  | .pause args => lineOk ("PAUSE".toList :: args)
  | .resume args => lineOk ("RESUME".toList :: args)
  | .nextSegment args => lineOk ("NEXT".toList :: args)
  | .queue args => lineOk ("QUEUE".toList :: args)
  | .time => true
  | .timeSet args => lineOk ("TIME".toList :: args) && !args.isEmpty
  | .meter args => lineOk ("METER".toList :: args) &&
      !([["LAST".toList], ["CLEAR".toList], ["DARK".toList]].contains args)
  | .meterLast => true
  | .meterClear => true
  | .meterDark => true
  | .calibrate args => lineOk ("CALIBRATE".toList :: args)
  | .frames args => lineOk ("FRAMES".toList :: args)
  | .poll args => lineOk ("POLL".toList :: args)
  | .store args => lineOk ("STORE".toList :: args)
  | .storeVerifyEnd _ => true
  | .recallImage args => lineOk ("RECALL".toList :: args)
  | .ident args => lineOk ("ID".toList :: args)
  | .status args => lineOk ("STATUS".toList :: args)
  | .set args => lineOk ("SET".toList :: args)
  | .get args => lineOk ("GET".toList :: args)
  | .resetWarm args => lineOk ("RESET".toList :: "WARM".toList :: args)
  | .resetCold args => lineOk ("RESET".toList :: "COLD".toList :: args)
  | .powerOn => true
  | .nrstAssert => true
  | .nrstRelease => true
  | .brownout => true
  | .brownoutRecovery => true
  | .backupDomainLoss => true
  | .autorunStart => true
  | .tickIncrement => true
  | .windowOpening => true
  | .measureInstant => true
  | .railOnInstant => true
  | .settleExpiry => true
  | .primeInstant => true
  | .wakePulseEnd => true
  | .dueTime => true
  | .bulbEnd _ => true
  | .busyOpenEdge cycles => decide (cycles ≤ maxOpenWatch)
  | .busyWriteEdge cycles => decide (cycles ≤ maxWriteWatch)
  | .openWatchExpiry => true
  | .writeWatchExpiry => true
  | .writeFixedExpiry => true
  | .retryHoldEnd => true
  | .tripEdge _ => true
  | .integrationEnd count => decide (count ≤ Config.maxCount)
  | .computationEnd => true
  | .darkIntegrationEnd count => decide (count ≤ Config.maxCount)
  | .measurementTimerExpiry => true
  | .measurementEnd _ _ => true
  | .heaterFrameBoundary => true
  | .heaterOnTimeEnd => true
  | .clockPeriodEnd _ => true
  | .clockStartTimeout => true
  | .vbatReturn => true

end Sys2Proof
end

