-- ==== Sys2Proof/Machine/Operands.lean ====
section
/-! DEFINITION. The operand forms of command lines (R167, 9.9): tokens, numbers, fields, two-valued fields and
words, and the text of replies (R168). -/

namespace Sys2Proof.Machine

/-! ### Reading -/

/-- Splits at every `c`; the pieces between. -/
def splitOn (c : Char) : Text → List Text
  | [] => [[]]
  | x :: xs =>
    if x = c then [] :: splitOn c xs
    else match splitOn c xs with
      | [] => [[x]]
      | p :: ps => (x :: p) :: ps

/-- R167: a line's tokens, split at runs of spaces, leading and trailing spaces ignored. -/
def tokensOf (line : Text) : List Token := (splitOn ' ' line).filter (fun t => !t.isEmpty)

/-- The text before the first `c` and the text after it, where there is one. -/
def cutAt (c : Char) : Text → Option (Text × Text)
  | [] => none
  | x :: xs => if x = c then some ([], xs) else (cutAt c xs).map (fun p => (x :: p.1, p.2))

/-- A decimal digit. -/
def isDigit (c : Char) : Bool := decide ('0'.toNat ≤ c.toNat) && decide (c.toNat ≤ '9'.toNat)

/-- The value of a run of digits. -/
def digitsValue (ds : Text) : Nat := ds.foldl (fun acc c => acc * 10 + (c.toNat - '0'.toNat)) 0

/-- R167: one to ten decimal digits. -/
def digitsOk (ds : Text) : Bool := !ds.isEmpty && decide (ds.length ≤ Config.numberDigits) && ds.all isDigit

/-- R167: a number is an optional leading minus sign and one to ten decimal digits; none for a malformed one. -/
def readNumber : Token → Option Int
  | '-' :: ds => if digitsOk ds then some (-(digitsValue ds : Int)) else none
  | ds => if digitsOk ds then some (digitsValue ds : Int) else none

/-- R167: two numbers separated by one comma. -/
def readPair (t : Token) : Option (Int × Int) :=
  match splitOn ',' t with
  | [a, b] =>
    match readNumber a, readNumber b with
    | some x, some y => some (x, y)
    | _, _ => none
  | _ => none

/-- A slot number token: none when malformed (R6, R14, R16, 2.3). -/
def readSlot (t : Token) : Option Int := readNumber t

/-- R7, R14, R16, 2.3: a slot number in range. -/
def slotInRange (v : Int) : Bool := decide (0 ≤ v) && decide (v < Config.slotCount)

/-- The twenty-two verbs (R167). -/
inductive Verb where
  | load | show | clear | start | stop | pause | resume | next | queue | adjust | time
  | meter | calibrate | frames | poll | store | recall | ident | status | set | get | reset
  deriving DecidableEq, Repr

/-- The verbs in the order of `verbNames`. -/
def Verb.all : List Verb :=
  [.load, .show, .clear, .start, .stop, .pause, .resume, .next, .queue, .adjust, .time,
   .meter, .calibrate, .frames, .poll, .store, .recall, .ident, .status, .set, .get, .reset]

/-- A verb as it is written. -/
def Verb.word : Verb → String
  | .load => "LOAD"
  | .show => "SHOW"
  | .clear => "CLEAR"
  | .start => "START"
  | .stop => "STOP"
  | .pause => "PAUSE"
  | .resume => "RESUME"
  | .next => "NEXT"
  | .queue => "QUEUE"
  | .adjust => "ADJUST"
  | .time => "TIME"
  | .meter => "METER"
  | .calibrate => "CALIBRATE"
  | .frames => "FRAMES"
  | .poll => "POLL"
  | .store => "STORE"
  | .recall => "RECALL"
  | .ident => "ID"
  | .status => "STATUS"
  | .set => "SET"
  | .get => "GET"
  | .reset => "RESET"

/-- `Verb.word` as the characters of a line. -/
def Verb.text (v : Verb) : Text := (Verb.word v).toList

/-- R167: the verb of a command line's first token, none for an unknown verb. -/
def readVerb (t : Token) : Option Verb := Verb.all.find? (fun v => v.text = t)

/-- The keys of the segment record (R2, R3, R4). -/
def SegKey.all : List SegKey :=
  [.iv, .n, .endAt, .win, .days, .src, .div, .mode, .e, .er, .keyValue, .bias, .depth, .db, .slew, .el, .es, .gm, .fol]

/-- A segment key as it is written. -/
def SegKey.word : SegKey → String
  | .iv => "IV"
  | .n => "N"
  | .endAt => "UNTIL"
  | .win => "WIN"
  | .days => "DAYS"
  | .src => "SRC"
  | .div => "DIV"
  | .mode => "MODE"
  | .e => "E"
  | .er => "ER"
  | .keyValue => "KEY"
  | .bias => "BIAS"
  | .depth => "K"
  | .db => "DB"
  | .slew => "SLEW"
  | .el => "EL"
  | .es => "ES"
  | .gm => "GM"
  | .fol => "FOL"

/-- `SegKey.word` as the characters of a line. -/
def SegKey.text (k : SegKey) : Text := (SegKey.word k).toList

/-- The segment key a text names. -/
def readSegKey (t : Text) : Option SegKey := SegKey.all.find? (fun k => k.text = t)

/-- The value of a segment field, none when malformed (R6): a number, two numbers, or one of its words. -/
def readFieldValue (k : SegKey) (t : Text) : Option FieldValue :=
  match k with
  | .win | .er | .bias | .el | .es => (readPair t).map (fun p => .pair p.1 p.2)
  | .src =>
    if t = "TIMED".toList then some (.src .timed)
    else if t = "TRIP".toList then some (.src .trip) else none
  | .mode =>
    if t = "FIX".toList then some (.mode .fix)
    else if t = "RAMP".toList then some (.mode .ramp)
    else if t = "MET".toList then some (.mode .met) else none
  | .fol =>
    if t = "END".toList then some .finish
    else if t = "ASK".toList then some .ask else (readNumber t).map .num
  | _ => (readNumber t).map .num

/-- The keys of the settings in the order of R170. -/
def SetKey.all : List SetKey :=
  [.cs, .lm, .pl, .wp, .sy, .ot, .wt, .wf, .vt, .vr, .vh, .sa, .cc, .st, .hd, .hb, .mc, .te, .atOn, .ar, .tr]

/-- A setting key as it is written. -/
def SetKey.word : SetKey → String
  | .cs => "CS"
  | .lm => "LM"
  | .pl => "PL"
  | .wp => "WP"
  | .sy => "SY"
  | .ot => "OT"
  | .wt => "WT"
  | .wf => "WF"
  | .vt => "VT"
  | .vr => "VR"
  | .vh => "VH"
  | .sa => "SA"
  | .cc => "CC"
  | .st => "ST"
  | .hd => "HD"
  | .hb => "HB"
  | .mc => "MC"
  | .te => "TE"
  | .atOn => "AT"
  | .ar => "AR"
  | .tr => "TR"

/-- `SetKey.word` as the characters of a line. -/
def SetKey.text (k : SetKey) : Text := (SetKey.word k).toList

/-- The setting key a text names. -/
def readSetKey (t : Text) : Option SetKey := SetKey.all.find? (fun k => k.text = t)

/-- The value of a SET field as written: a number, or one of the setting's words (R170). -/
inductive SetValue where
  | num (v : Int)
  | sync (v : SyncMode)
  | edge (v : TripEdge)
  | attention (v : Bool)
  | noAutorun
  deriving DecidableEq, Repr

/-- The value of a SET field, none for a malformed number or a word that is not one of the setting's (R170). -/
def readSetValue (k : SetKey) (t : Text) : Option SetValue :=
  match k with
  | .sy =>
    if t = "NONE".toList then some (.sync .none)
    else if t = "BUSYH".toList then some (.sync .busyHigh)
    else if t = "BUSYL".toList then some (.sync .busyLow) else none
  | .te =>
    if t = "FALL".toList then some (.edge .fall)
    else if t = "RISE".toList then some (.edge .rise) else none
  | .atOn =>
    if t = "ON".toList then some (.attention true)
    else if t = "OFF".toList then some (.attention false) else none
  | .ar => if t = "OFF".toList then some .noAutorun else (readNumber t).map .num
  | _ => (readNumber t).map .num

/-! ### Writing -/

/-- Decimal digits of `n`, most significant first, put before `acc`; `fuel` bounds their number. -/
def digitsOf : Nat → Nat → Text → Text
  | 0, _, acc => acc
  | fuel + 1, n, acc =>
    if n < 10 then Char.ofNat ('0'.toNat + n) :: acc
    else digitsOf fuel (n / 10) (Char.ofNat ('0'.toNat + n % 10) :: acc)

/-- A number in decimal with no grouping (R14, R159). Twenty digits hold every number of this part. -/
def natText (n : Nat) : Text := digitsOf 20 n []

/-- A number in decimal, a negative one with a leading minus sign (R159). -/
def intText (v : Int) : Text := if v < 0 then '-' :: natText v.natAbs else natText v.natAbs

/-- A number or NONE. -/
def optText : Option Nat → Text
  | none => "NONE".toList
  | some n => natText n

/-- Texts joined by a separator. -/
def joinWith (sep : Text) : List Text → Text
  | [] => []
  | [t] => t
  | t :: ts => t ++ sep ++ joinWith sep ts

/-- key=value (R167). -/
def fieldText (key value : Text) : Text := key ++ '=' :: value

/-- Two values separated by a comma. -/
def pairText (a b : Text) : Text := a ++ ',' :: b

/-- R168: a success of one line: an equals sign, the verb, and the fields separated by single spaces. -/
def success (verb : Text) (fields : List Text) : Text := '=' :: joinWith [' '] (verb :: fields)

/-- The refusal codes (R168). -/
inductive Code where
  | malformed | range | conflict | inUse | empty | state | busy | store
  deriving DecidableEq, Repr

/-- A refusal code as it is written; `malformed` is SYNTAX. -/
def Code.word : Code → String
  | .malformed => "SYNTAX"
  | .range => "RANGE"
  | .conflict => "CONFLICT"
  | .inUse => "IN_USE"
  | .empty => "EMPTY"
  | .state => "STATE"
  | .busy => "BUSY"
  | .store => "STORE"

/-- `Code.word` as the characters of a line. -/
def Code.text (c : Code) : Text := (Code.word c).toList

/-- R168: a refusal: an exclamation mark, the code, the verb and the key at fault where one is named. -/
def refusal (code : Code) (verb : Verb) (key : Option Text) : Text :=
  '!' :: joinWith [' '] (code.text :: verb.text :: key.toList)

/-- R168: the refusal of an unknown verb and of a bad line. -/
def bareRefusal : Text := "!SYNTAX".toList

/-- R168: the refusal of a long line. -/
def longRefusal : Text := "!LONG".toList

/-- One success line of a verb. -/
def okLine (verb : Verb) (fields : List Text) : List Text := [success verb.text fields]

/-- One refusal line of a verb that names no key. -/
def noLine (code : Code) (verb : Verb) : List Text := [refusal code verb none]

/-- One refusal line of a verb that names a key. -/
def noLineKey (code : Code) (verb : Verb) (key : Text) : List Text := [refusal code verb (some key)]

end Sys2Proof.Machine
end

