-- ==== Sys2Proof/Machine/Ops.lean ====
section
/-! DEFINITION. The named operations over the state that the blocks share: the calendar instant, slots and live
copy, notices with ATTN, the counts that run on the slow and fast clocks, the frame log and the reply. -/

namespace Sys2Proof.Machine

/-- R50: the calendar instant in ticks. -/
def now (s : State) : Tick := s.cal.seconds * Config.ticksPerSecond + s.cal.fraction

/-- R1: the record of a slot, none where it is EMPTY. A number outside 0–47 names no slot. -/
def slotAt (s : State) (n : Nat) : Option Segment := s.plan.slots.getD n none

/-- R13: a slot is in use while Current or Armed names it. -/
def inUse (s : State) (n : Nat) : Bool := s.seq.current == some n || s.seq.armed == some n

/-- The current segment's record as the live copy holds it. -/
def liveSeg (s : State) : Option Segment := s.seq.live.map Live.seg

/-- The part is carrying out its work: the start-up sequence has ended (R175). -/
def working (s : State) : Bool := s.startUp == .working

/-- R181: ATTN is driven exactly while the notice set is not empty and attention is ON. -/
def refreshAttn (s : State) : State :=
  { s with pins := { s.pins with attn := !s.notices.isEmpty && s.settings.atOn } }

/-- R177: a raise adds its kind to the notice set, held in the fixed order of R176; ATTN follows (R181). -/
def raise (k : Notice) (s : State) : State :=
  refreshAttn { s with notices := Notice.all.filter (fun j => decide (j = k) || s.notices.contains j) }

/-- R178, R182: the notice set is emptied and ATTN released. -/
def clearNotices (s : State) : State := refreshAttn { s with notices := [] }

/-! ### Counts -/

/-- A slow-clock count has run out: it ends before the next tick increment, fewer than 32 cycles being left
(assumption log 3). Every expiry event on the slow clock asks this one question. -/
def ranOut (left : Nat) : Bool := decide (left < Config.tickCycles)

/-- A fast-clock count has run out: it ends within the check period now running (assumption log 4). -/
def fastRanOut (left : Nat) : Bool := decide (left ≤ Config.periodHigh)

/-- A calendar instant has arrived (R51). Every arrival asks this one question. -/
def arrived (s : State) (at' : Tick) : Bool := decide (at' ≤ now s)

/-- One tick's worth of slow-clock cycles taken off a count. -/
def countTick (left : Nat) : Nat := left - Config.tickCycles

/-! ### The frame log -/

/-- R153: a record is appended as the newest; with 512 held the oldest is removed first. -/
def appendRecord (log : List FrameRecord) (r : FrameRecord) : List FrameRecord :=
  (log ++ [r]).drop (log.length + 1 - Config.logSize)

/-- R161: the oldest number held. -/
def oldestNumber (log : List FrameRecord) : Option Nat := log.head?.map FrameRecord.number

/-- R161: the newest number held. -/
def newestNumber (log : List FrameRecord) : Option Nat := log.getLast?.map FrameRecord.number

/-! ### The last measurement -/

/-- The voltage of the last measurement. One always stands once the start-up series has ended (R154). -/
def lastVolts (s : State) : Nat := (s.power.last.map Measurement.volts).getD 0

/-- The temperature of the last measurement. -/
def lastTemp (s : State) : Int := (s.power.last.map Measurement.temp).getD 0

/-- R138: the stretch factor: 1 in NORMAL, ST in THRIFT and RESERVE. -/
def stretch (s : State) : Nat := if s.power.level = .normal then 1 else s.settings.st

end Sys2Proof.Machine
end

