-- ==== Sys2Proof/Machine/ExposureCalc.lean ====
section
/-! DEFINITION. The exposure calculator (chapter 6): ramps, the metered loop, the held path, the partition into
shutter and gain, the shutter time, commit and discard; and the meter's arithmetic of 5.3. -/

namespace Sys2Proof.Machine

/-- R123: the shutter time of shutter eighths, `mant[j] × 2^q` µs. -/
def shutterTime (es : Nat) : Nat := Config.mantissa.getD (es % 8) 0 * 2 ^ (es / 8)

/-- R9: the ceiling check passes: t(es_max) + 250,000 ≤ IV × 62,500. -/
def ceilingOk (esMax iv : Nat) : Bool :=
  decide (shutterTime esMax + Config.ceilingAllowance ≤ iv * Config.sixteenthMicros)

/-- R9: the smallest IV that passes the ceiling check, and never less than 8. -/
def smallestInterval (esMax : Nat) : Nat :=
  max Config.minInterval (ceilDiv (shutterTime esMax + Config.ceilingAllowance) Config.sixteenthMicros)

/-- R110, R114: a straight line from `a` at index 0 to `b` at index N − 1, its steps truncated toward zero. -/
def rampValue (a b : Int) (n i : Nat) : Int :=
  if n ≤ i + 1 then b else a + Int.tdiv ((b - a) * (i : Int)) ((n : Int) - 1)

/-- R114: the bias of the frame with index `i`; constant when N is 0 or 1. -/
def biasAt (b0 b1 : Int) (n i : Nat) : Int := if n ≤ 1 then b0 else rampValue b0 b1 n i

/-- R112: the history with a reading appended, at most 8 entries. -/
def pushHistory (h : List Nat) (b : Nat) : List Nat :=
  (h ++ [b]).drop (h.length + 1 - Config.historySize)

/-- R113: the mean of the newest min(K, held) entries, rounded half up. -/
def historyMean (h : List Nat) (k : Nat) : Nat :=
  let used := h.drop (h.length - k)
  (used.sum + used.length / 2) / used.length

/-- R116: the target, clamped to EL. -/
def targetOf (key mean : Nat) (bias : Int) (elLow elHigh : Nat) : Int :=
  clampInt elLow elHigh ((key : Int) - mean + bias)

/-- R118: the step from the held exposure toward the target, still within the deadband, at most SLEW. -/
def smooth (held target : Int) (db slew : Nat) : Int :=
  let d := target - held
  if d.natAbs ≤ db then held else held + d.sign * (min d.natAbs slew : Nat)

/-- R117, R118: the exposure of a METERED frame before the partition. -/
def meteredExposure (eHeld : Option Nat) (target : Int) (db slew elLow elHigh : Nat) : Nat :=
  match eHeld with
  | none => (clampInt elLow elHigh target).toNat
  | some h => (clampInt elLow elHigh (smooth h target db slew)).toNat

/-- R119: the exposure of the held path. -/
def heldExposure (eHeld : Option Nat) (elLow elHigh : Nat) : Nat :=
  match eHeld with
  | none => (elLow + elHigh) / 2
  | some h => (clampInt elLow elHigh (h : Int)).toNat

/-- R121: lowers the gain by one while the shutter at the lower gain lies at least 4 eighths below its ceiling. -/
def lowerGain (e esMax : Nat) : Nat → Nat
  | 0 => 0
  | g + 1 => if e + 4 ≤ esMax + 8 * g then lowerGain e esMax g else g + 1

/-- R120, R121: the gain code of an exposure, from the previous gain. -/
def gainFor (e gPrev esMax gMax : Nat) : Nat :=
  if esMax + 8 * gPrev < e then min gMax (ceilDiv (e - esMax) 8)
  else lowerGain e esMax (min gPrev gMax)

/-- R122: shutter eighths and clamp flags (CLAMP_HI, CLAMP_LO) of an exposure at a gain. -/
def shutterFor (e g esMin esMax : Nat) : Nat × Bool × Bool :=
  let es : Int := (e : Int) - 8 * g
  if (esMax : Int) < es then (esMax, false, true)
  else if es < (esMin : Int) then (esMin, true, false)
  else (es.toNat, false, false)

/-- R120 to R123: the result of an exposure under a segment's limits. -/
def partition (e gPrev : Nat) (seg : Segment) (path : Path) : Exposure :=
  let g := gainFor e gPrev seg.esMax seg.gm
  let sh := shutterFor e g seg.esMin seg.esMax
  { e := e, g := g, es := sh.1, t := shutterTime sh.1, clampHi := sh.2.1, clampLo := sh.2.2, path := path }

/-- R107: the kinds of reading a request carries. -/
inductive ReadingKind where
  | noReading
  | available (b : Nat)
  | unavailable
  deriving DecidableEq, Repr

/-- R111: the history after a request: an available reading of a MET segment joins it. -/
def historyAfter (mode : Mode) (k : ReadingKind) (h : List Nat) : List Nat :=
  match mode, k with
  | .met .., .available b => pushHistory h b
  | _, _ => h

/-- R109 to R119: the result of a request for the live copy, the shot index `i` and the calculator's state. -/
def exposureOf (live : Live) (i : Nat) (c : Calculator) (k : ReadingKind) : Exposure :=
  match live.seg.mode with
  | .fix e => partition e c.gHeld live.seg .fixed
  | .ramp a b => partition (rampValue a b live.seg.n i).toNat c.gHeld live.seg .ramped
  | .met key b0 b1 kk db slew lo hi =>
    match k with
    | .available b =>
      let mean := historyMean (pushHistory c.history b) kk
      let bias := biasAt b0 b1 live.seg.n i + live.bo
      partition (meteredExposure c.eHeld (targetOf key mean bias lo hi) db slew lo hi) c.gHeld live.seg
        (.metered b bias)
    | _ => partition (heldExposure c.eHeld lo hi) c.gHeld live.seg .held

/-- R124: the pending result is committed: E_held and G_held take its E and G. -/
def Calculator.commit (c : Calculator) : Calculator :=
  match c.result with
  | some r => { c with eHeld := some r.e, gHeld := r.g, result := none }
  | none => c

/-- R125: a pending result is discarded. -/
def Calculator.discard (c : Calculator) : Calculator := { c with result := none }

/-- R126: START and the autorun start empty the history and unset the held values. -/
def Calculator.fresh (c : Calculator) : Calculator := { c with history := [], eHeld := none, gHeld := 0 }

/-! ### From count to brightness (5.3) -/

/-- R93: the count less its dark share; a saturated count is not reduced. -/
def netCount (count dark stage : Nat) : Nat :=
  if count = Config.maxCount then Config.maxCount else count - dark / 4 ^ (3 - stage)

/-- R94: the piecewise logarithm in eighths. -/
def log8 (n : Nat) : Nat := if n = 0 then 0 else 8 * Nat.log2 n + (n - 2 ^ Nat.log2 n) * 8 / 2 ^ Nat.log2 n

/-- R95: the brightness of a reading. -/
def brightness (net stage : Nat) (mc : Int) : Nat :=
  clampNat 0 255 ((log8 net : Int) + 16 * (3 - (stage : Int)) + mc)

/-- R91: where the meter repeats an integration: the neighbouring stage, none when the count is final. -/
def repeatStage (count stage repeats : Nat) : Option Nat :=
  if 2 ≤ repeats then none
  else if count = Config.maxCount ∧ 0 < stage then some (stage - 1)
  else if count < 64 ∧ stage < 3 then some (stage + 1)
  else none

/-- R91: the range stage for the next reading. -/
def nextStage (count stage : Nat) : Nat :=
  if 49152 ≤ count ∧ 0 < stage then stage - 1
  else if count < 2048 ∧ stage < 3 then stage + 1
  else stage

/-! ### The effective voltage and the level (R134, R135) -/

/-- R134: the effective voltage. -/
def effectiveVolts (volts : Nat) (kind : MeasKind) (temp : Int) (sa cc : Nat) : Nat :=
  min Config.maxMillivolts
    ((match kind with | .rest => volts | .loaded => volts + sa) + cc * (max 0 (-temp)).toNat)

/-- R135: the level after a measurement. -/
def levelAfter (level : Level) (veff vt vr vh : Nat) : Level :=
  match level with
  | .normal => if veff < vt then .thrift else .normal
  | .thrift => if vt + vh ≤ veff then .normal else if veff < vr then .reserve else .thrift
  | .reserve => if vr + vh ≤ veff then .thrift else .reserve

/-- R73: the slow-clock cycles of a shutter time, round half up (t × 32,768 / 1,000,000). -/
def slowCycles (t : Nat) : Nat := (t * 65536 + 1000000) / 2000000

/-- R75: a count of slow-clock cycles in milliseconds, saturating at 65,535. -/
def toMs (cycles : Nat) : Nat := min Config.maxMs (cycles * 1000 / 32768)

end Sys2Proof.Machine
end

