-- ==== Sys2Proof/Machine/Flags.lean ====
section
/-! DEFINITION. The flags of the LZ420: the frame flags of R155, the range flags of a reading (R96) and the
sticky range flags (R97). -/

namespace Sys2Proof.Machine

/-- R96: OVER, when the final integration is saturated at stage 0. -/
def overFlagOf (count stage : Nat) : Bool := decide (count = Config.maxCount) && decide (stage = 0)

/-- R96: UNDER, when the final N' is less than 16 at stage 3. -/
def underFlagOf (net stage : Nat) : Bool := decide (net < 16) && decide (stage = 3)

/-- R97: whether a reading with these flags sets a sticky flag that is clear, which raises METER_RANGE. -/
def setsSticky (m : Meter) (overFlag underFlag : Bool) : Bool :=
  (overFlag && !m.overSeen) || (underFlag && !m.underSeen)

/-- R97: the sticky flags after a reading with these flags. -/
def stickyAfter (m : Meter) (overFlag underFlag : Bool) : Meter :=
  { m with overSeen := m.overSeen || overFlag, underSeen := m.underSeen || underFlag }

/-- R155, R78: the flags of a frame, gathered from their owners. -/
def frameFlagsOf (x : Exposure) (shot : Shot) (f : Flight) (cut : Bool) : FrameFlags :=
  { clampHi := x.clampHi, clampLo := x.clampLo, coarse := f.coarse, heldMeter := shot.heldMeter,
    overFlag := shot.overFlag, underFlag := shot.underFlag, noSync := f.noSync, cut := cut,
    stretched := f.stretched }

/-- R155: the flags present with their names, in the order of the table. -/
def frameFlagNames (f : FrameFlags) : List Text :=
  ([(f.clampHi, "CLAMP_HI".toList), (f.clampLo, "CLAMP_LO".toList), (f.coarse, "COARSE".toList),
    (f.heldMeter, "HELD_METER".toList), (f.overFlag, "OVER".toList), (f.underFlag, "UNDER".toList),
    (f.noSync, "NO_SYNC".toList), (f.cut, "CUT".toList), (f.stretched, "STRETCHED".toList)]).filterMap
    (fun p => if p.1 then some p.2 else none)

/-- R103: FLAGS of a one-off result, which carries at most one of the two. -/
def rangeFlagText (overFlag underFlag : Bool) : Text :=
  if overFlag then "OVER".toList else if underFlag then "UNDER".toList else "NONE".toList

/-- R173: RANGE of STATUS: the sticky flags set. -/
def stickyText (m : Meter) : Text :=
  match m.overSeen, m.underSeen with
  | false, false => "NONE".toList
  | true, false => "OVER".toList
  | false, true => "UNDER".toList
  | true, true => "OVER,UNDER".toList

end Sys2Proof.Machine
end

