-- ==== Sys2Proof/Machine/ClockMeter.lean ====
section
/-! DEFINITION. The fast clock controller (7.5), the scene meter's readings and calibrations (chapter 5), and the
exposure request of a prime (R107), which ends a reading for a shot. -/

namespace Sys2Proof.Machine

/-! ### The exposure request (R70, R107) -/

/-- R64: the gain lines carry G as a three-line binary number. -/
def driveGain (g : Nat) (s : State) : State := { s with pins := { s.pins with gain := BitVec.ofNat 3 g } }

/-- R107, R70: the calculator computes the result of the held shot, the shot takes it and the gain lines are
driven with its G. An unavailable reading flags a MET frame HELD_METER. -/
def requestExposure (k : ReadingKind) (overFlag underFlag : Bool) (s : State) : State :=
  match s.seq.live, s.engine.shot with
  | some live, some shot =>
    let x := exposureOf live s.seq.shotIndex s.expo k
    let shot' := { shot with exposure := some x, heldMeter := decide (x.path = .held),
                             overFlag := overFlag, underFlag := underFlag }
    driveGain x.g
      { s with
        expo := { s.expo with history := historyAfter live.seg.mode k s.expo.history, result := some x }
        engine := { s.engine with shot := some shot' } }
  | _, _ => s

/-! ### The requester set (R145, R148) -/

/-- The two requesters of the fast clock (R144). -/
inductive ClockUser where
  | meter | shot
  deriving DecidableEq, Repr

/-- The requester is in the set. -/
def Clock.asks (c : Clock) : ClockUser → Bool
  | .meter => c.meterAsks
  | .shot => c.shotAsks

/-- The set with a requester put in or taken out. -/
def Clock.setAsk (c : Clock) (u : ClockUser) (v : Bool) : Clock :=
  match u with
  | .meter => { c with meterAsks := v }
  | .shot => { c with shotAsks := v }

/-- R145: the oscillator is started and its stability tested afresh. -/
def Clock.begin (c : Clock) : Clock :=
  { c with state := .starting, goodPeriods := 0, startLeft := Config.clockStartCycles }

/-- R145: a request joins the set; in OFF and FAILED it makes a new start. -/
def Clock.request (u : ClockUser) (c : Clock) : Clock :=
  if c.asks u then c
  else
    let c' := c.setAsk u true
    match c.state with
    | .off | .failed => c'.begin
    | .starting | .running => c'

/-- R148: a drop leaves the set; an empty set in STARTING or RUNNING stops the oscillator, FAILED stays. -/
def Clock.drop (u : ClockUser) (c : Clock) : Clock :=
  let c' := c.setAsk u false
  if c'.meterAsks || c'.shotAsks then c'
  else match c.state with
    | .starting | .running => { c' with state := .off, goodPeriods := 0, startLeft := 0 }
    | .off | .failed => c'

/-- A block drops its request. -/
def dropClock (u : ClockUser) (s : State) : State := { s with clock := s.clock.drop u }

/-- R88: an operation of the meter that waits for the clock begins its first integration. -/
def MeterState.clockReady : MeterState → MeterState
  | .converting who stage repeats .waiting => .converting who stage repeats (.integrating Config.integrationCycles)
  | .calibrating temp made sum none => .calibrating temp made sum (some Config.integrationCycles)
  | m => m

/-- R88, R146: the meter is told that the clock is RUNNING. -/
def tellMeterRunning (s : State) : State :=
  { s with meter := { s.meter with state := s.meter.state.clockReady } }

/-- R145: a block requests the clock; with the clock RUNNING the meter is told so at once (R88). -/
def requestClock (u : ClockUser) (s : State) : State :=
  let s' := { s with clock := s.clock.request u }
  if u = .meter ∧ s'.clock.state = .running then tellMeterRunning s' else s'

/-! ### Readings (R89 to R92) -/

/-- R89: the meter begins a reading at the range stage it holds and requests the fast clock. -/
def beginReading (who : Requester) (s : State) : State :=
  requestClock .meter
    { s with meter := { s.meter with state := .converting who s.meter.rangeStage 0 .waiting } }

/-- The meter drops its request and returns to IDLE. -/
def meterToIdle (s : State) : State := dropClock .meter { s with meter := { s.meter with state := .idle } }

/-- R92: a reading in progress is abandoned; the range stage is kept, an abandoned host reading leaves its
one-off result at ABANDONED (R103). -/
def abandonReading (s : State) : State :=
  match s.meter.state with
  | .converting .host _ _ _ => meterToIdle { s with meter := { s.meter with oneOff := .abandoned } }
  | .converting .prime _ _ _ => meterToIdle s
  | _ => s

/-- A reading for a prime is in progress. -/
def primeReading (s : State) : Bool :=
  match s.meter.state with
  | .converting .prime _ _ _ => true
  | _ => false

/-- R89: the prime of a MET shot asks for a reading: it begins, taking the meter from a host reading; a meter
CALIBRATING reports it unavailable at once, and the shot takes the held path (R70). -/
def primeAsksReading (s : State) : State :=
  match s.meter.state with
  | .calibrating .. => requestExposure .unavailable false false s
  | .converting .host _ _ _ => beginReading .prime (abandonReading s)
  | .idle => beginReading .prime s
  | .converting .prime _ _ _ => s

/-- R88, R100, R147: the meter is told that the fast clock has failed: a reading ends unavailable and a
calibration FAILED, and the meter drops its request. A prime's shot takes the held path. -/
def meterClockFailed (s : State) : State :=
  match s.meter.state with
  | .idle => s
  | .converting .host _ _ _ => meterToIdle { s with meter := { s.meter with oneOff := .unavailable } }
  | .converting .prime _ _ _ => requestExposure .unavailable false false (meterToIdle s)
  | .calibrating .. => meterToIdle { s with meter := { s.meter with outcome := .failed } }

/-- The fast-clock count of a bulb in progress is changed. -/
def Engine.mapFast (change : Option Nat → Option Nat) (e : Engine) : Engine :=
  { e with shot := e.shot.map (fun shot =>
      { shot with flight := shot.flight.map (fun f => { f with fastLeft := change f.fastLeft }) }) }

/-- R146, R147: the fast clock fails: the oscillator stops, CLOCK_FAIL is raised and the requesters are told. A bulb
that it timed goes on with its slow-clock count. -/
def failClock (s : State) : State :=
  meterClockFailed
    (raise .clockFail { s with
      clock := { s.clock with state := .failed, goodPeriods := 0, startLeft := 0 }
      engine := s.engine.mapFast (fun _ => none) })

/-- R90, R93, R95, R97, R103: a reading is finished, with the D and the MC that its computation began with (R93 and
R95 read both "at the computation"; which moment of the 1 ms is assumption log 21): the range stage and sticky flags
are set, the meter returns to IDLE and reports the result to its requester. -/
def finishReading (who : Requester) (stage count dark : Nat) (mc : Int) (s : State) : State :=
  let net := netCount count dark stage
  let b := brightness net stage mc
  let hi := overFlagOf count stage
  let lo := underFlagOf net stage
  let fresh := setsSticky s.meter hi lo
  let m := { stickyAfter s.meter hi lo with rangeStage := nextStage count stage }
  let s1 := meterToIdle { s with meter := m }
  let s2 := if fresh then raise .meterRange s1 else s1
  match who with
  | .host => { s2 with meter := { s2.meter with oneOff := .done count stage b hi lo } }
  | .prime => requestExposure (.available b) hi lo s2

/-! ### Calibrations (R100) -/

/-- R100: a calibration begins: the temperature is recorded and the fast clock requested. -/
def beginCalibration (temp : Int) (s : State) : State :=
  requestClock .meter { s with meter := { s.meter with state := .calibrating temp 0 0 none } }

/-- R100, R186: a calibration in progress ends ABANDONED without changing D or T_cal. -/
def abandonCalibration (s : State) : State :=
  match s.meter.state with
  | .calibrating .. => meterToIdle { s with meter := { s.meter with outcome := .abandoned } }
  | _ => s

/-- R100: D from the sum of the eight counts: the floor of their mean, clamped to 0–4,095. -/
def darkFrom (sum : Nat) : Nat := min Config.maxDark (sum / Config.darkIntegrations)

end Sys2Proof.Machine
end

