-- ==== Sys2Proof/Machine/Window.lean ====
section
/-! DEFINITION. The calendar's own arithmetic: the count and its trim (R50, R57, R58), the derived day, minute
and weekday, the window test (R59), the opening instant (R60), the close (R61) and the end time (R62). -/

namespace Sys2Proof.Machine

/-- 00_scope.md 6.2: the day number of a seconds count. -/
def dayOf (sec : Nat) : Nat := sec / 86400

/-- 00_scope.md 6.2: the minute of the day. -/
def minuteOf (sec : Nat) : Nat := sec % 86400 / 60

/-- 00_scope.md 6.2: the weekday of a day number. -/
def weekdayOf (day : Nat) : Nat := day % 7

/-- R59: the weekday of the day before; the day before day 0 counts as weekday 6. -/
def weekdayBefore (day : Nat) : Nat := (weekdayOf day + 6) % 7

/-- R2: weekday `w` is included when (DAYS div 2^w) mod 2 = 1. -/
def includesDay (days w : Nat) : Bool := decide (days / 2 ^ w % 2 = 1)

/-- R59: the window test at an instant given in ticks. -/
def windowOpen (win : Option (Nat × Nat)) (days : Nat) (x : Tick) : Bool :=
  match win with
  | none => true
  | some (a, b) =>
    let sec := x / Config.ticksPerSecond
    let d := dayOf sec
    let m := minuteOf sec
    if a = b then includesDay days (weekdayOf d)
    else if a < b then decide (a ≤ m) && decide (m < b) && includesDay days (weekdayOf d)
    else (decide (a ≤ m) && includesDay days (weekdayOf d)) ||
      (decide (m < b) && includesDay days (weekdayBefore d))

/-- The window test of a segment. -/
def segOpen (seg : Segment) (x : Tick) : Bool := windowOpen seg.win seg.days x

/-- R60: the start of minute `a` of day `d`, in ticks. -/
def minuteStart (d a : Nat) : Tick := (d * 86400 + a * 60) * Config.ticksPerSecond

/-- R60: the candidates for the opening instant, in rising order, with their days. -/
def openingCandidates (a b : Nat) (x : Tick) : List (Nat × Tick) :=
  let d0 := dayOf (x / Config.ticksPerSecond)
  if a = b then (List.range 7).map (fun i => (d0 + 1 + i, minuteStart (d0 + 1 + i) 0))
  else (List.range 8).map (fun i => (d0 + i, minuteStart (d0 + i) a))

/-- R60: the opening instant W later than `x`: the first candidate later than `x` on an included day. -/
def nextOpening (win : Option (Nat × Nat)) (days : Nat) (x : Tick) : Option Tick :=
  match win with
  | none => none
  | some (a, b) =>
    ((openingCandidates a b x).find?
      (fun c => decide (x < c.2) && includesDay days (weekdayOf c.1))).map Prod.snd

/-- R61: at a minute start, the window is closed now and was open one tick before. -/
def windowCloses (seg : Segment) (sec : Nat) : Bool :=
  decide (sec % 60 = 0) && !segOpen seg (sec * Config.ticksPerSecond) &&
    segOpen seg (sec * Config.ticksPerSecond - 1)

/-- R58: what a tick increment adds: 2 under a positive correction, 0 under a negative one, else 1. -/
def tickAdds (correction : Int) : Nat := if 0 < correction then 2 else if correction < 0 then 0 else 1

/-- R58: the correction after an increment has taken one from it. -/
def correctionAfter (correction : Int) : Int :=
  if 0 < correction then correction - 1 else if correction < 0 then correction + 1 else 0

/-- R50: the calendar stands at its last instant and counts no further. -/
def Calendar.atEnd (c : Calendar) : Bool :=
  decide (c.seconds = Config.maxSeconds) && decide (c.fraction = Config.ticksPerSecond - 1)

/-- R57: the increase of the seconds count: the span counter goes on, and at 4,096 the span ends and a pending
correction of TR is set (none with TR = 0). -/
def Calendar.nextSecond (tr : Int) (c : Calendar) : Calendar :=
  if c.span + 1 = Config.spanSeconds then
    { c with seconds := c.seconds + 1, span := 0, correction := if tr = 0 then c.correction else tr }
  else { c with seconds := c.seconds + 1, span := c.span + 1 }

/-- R50, R58: one tick increment under the trim value `tr`. An increment that would pass the last instant
leaves the calendar there. -/
def Calendar.tick (tr : Int) (c : Calendar) : Calendar :=
  if c.atEnd then c
  else
    let f := c.fraction + tickAdds c.correction
    let c' := { c with correction := correctionAfter c.correction }
    if f < Config.ticksPerSecond then { c' with fraction := f }
    else if c.seconds = Config.maxSeconds then { c' with fraction := Config.ticksPerSecond - 1 }
    else { c'.nextSecond tr with fraction := f - Config.ticksPerSecond }

/-- R56 steps 1 to 3: TIME sets the count, the validity flag and the span counter, and discards a correction. -/
def Calendar.setTo (sec frac : Nat) (c : Calendar) : Calendar :=
  { c with seconds := sec, fraction := frac, valid := true, span := 0, correction := 0 }

/-- R62: the end time of the live copy is reached on a valid calendar. -/
def untilReached (s : State) : Bool :=
  s.cal.valid &&
    match (liveSeg s).bind Segment.endAt with
    | some u => decide (u ≤ s.cal.seconds)
    | none => false

/-- R27: the segment waits for a valid calendar: it carries WIN or UNTIL and the calendar is invalid. -/
def needsCalendar (seg : Segment) (s : State) : Bool :=
  !s.cal.valid && (seg.win.isSome || seg.endAt.isSome)

end Sys2Proof.Machine
end

