-- ==== Sys2Proof/Machine/Rail.lean ====
section
/-! DEFINITION. The shot engine's own operations (chapter 4): the rest measurement asked before the rail comes
on, the rail, the prime, TRIG assert, the frame record, withdrawal, abandonment and stand-down; with the
start of a battery measurement (R133) that the rail asks for. -/

namespace Sys2Proof.Machine

/-! ### Measurements begin (R132, R133) -/

/-- R133: a measurement begins: its kind is REST with CAMPWR low and LOADED with it high, and HEAT goes low. -/
def startMeasurement (periodic : Bool) (s : State) : State :=
  { s with
    power := { s.power with
      measuring := some
        { kind := if s.pins.camPwr then .loaded else .rest, periodic := periodic, left := Config.measurementCycles } }
    pins := { s.pins with heat := false } }

/-- R131, R132: a periodic measurement is asked: one in progress serves the timer too. -/
def askPeriodic (s : State) : State :=
  match s.power.measuring with
  | some m => { s with power := { s.power with measuring := some { m with periodic := true } } }
  | none => startMeasurement true s

/-- R67, R132: the shot engine asks for its rail-on measurement. One in progress is waited for: a REST one serves
the rail-on, after a LOADED one a fresh REST one begins. -/
def askRail (a : RailAsk) (s : State) : State :=
  let s' := { s with engine := { s.engine with ask := a } }
  match s.power.measuring with
  | some _ => s'
  | none => startMeasurement false s'

/-! ### The shot held -/

/-- R66: a shot due at `d` with its instants, from the settings in force. -/
def newShot (s : State) (d : Tick) : Shot :=
  let lead := (s.settings.pl + s.settings.cs) * Config.sixteenthTicks
  { due := d, measureAt := d - lead - Config.measureLeadTicks, railOnAt := d - lead,
    primeAt := d - s.settings.pl * Config.sixteenthTicks, exposure := none, heldMeter := false,
    overFlag := false, underFlag := false, flight := none }

/-- R23, R66: the sequencer sets its stage PENDING at `d` and hands the shot to the engine. -/
def handShot (d : Tick) (s : State) : State :=
  { s with
    seq := { s.seq with stage := .pending d }
    engine := { s.engine with shot := some (newShot s d) } }

/-- The shot that is pending: handed, its prime not begun. -/
def pendingShot (s : State) : Option Shot :=
  match s.seq.stage with
  | .pending _ => s.engine.shot
  | _ => none

/-! ### The prime (R69) -/

/-- R69 step 4: the reading or the exposure of the prime. -/
def primeExposure (s : State) : State :=
  match (liveSeg s).map Segment.mode with
  | some (.met ..) => primeAsksReading s
  | some _ => requestExposure .noReading false false s
  | none => s

/-- R69: the engine enters PRIME: the stage becomes PRIMING, the fast clock is requested, WAKE is asserted for a
wake pulse (none when the prime begins at D), and the reading or the exposure is asked for. -/
def beginPrime (s : State) : State :=
  match s.seq.stage with
  | .pending d =>
    let pulse := decide (0 < s.settings.wp) && !arrived s d
    primeExposure
      (requestClock .shot
        { s with
          seq := { s.seq with stage := .priming d }
          engine := { s.engine with
            phase := .prime, settleLeft := 0,
            wakeLeft := if pulse then s.settings.wp * Config.sixteenthCycles else 0 }
          pins := { s.pins with wake := pulse } })
  | _ => s

/-- WAKE is released and its count ended. -/
def releaseWake (s : State) : State :=
  { s with engine := { s.engine with wakeLeft := 0 }, pins := { s.pins with wake := false } }

/-- R67: no rail-on measurement has been asked for a shot: one that the trip hold asked for serves the shot too
(R132). -/
def shotMayAsk (s : State) : Bool :=
  match s.engine.ask with
  | .none | .holdWaiting => true
  | .shotWaiting | .shotReady | .retryWaiting => false

/-- R67: the measure instant of the pending shot in DORMANT asks for the rest measurement. -/
def measureArrives (shot : Shot) (s : State) : State :=
  if arrived s shot.measureAt && shotMayAsk s then askRail .shotWaiting s else s

/-- R66, R51: an instant already passed when it is handed arrives at once: in DORMANT the measure instant asks
for the rest measurement, in READY the prime instant begins the prime. -/
def arrivals (s : State) : State :=
  match pendingShot s with
  | none => s
  | some shot =>
    match s.engine.phase with
    | .dormant => measureArrives shot s
    | .ready => if arrived s shot.primeAt then beginPrime s else s
    | _ => s

/-! ### TRIG assert (R71, R72, R73) -/

/-- R71: the prime ends at D: a reading still running is abandoned and the exposure is computed on the held path. -/
def endPrime (s : State) : State :=
  match s.engine.shot.bind Shot.exposure with
  | some _ => s
  | none => requestExposure .unavailable false false (if primeReading s then abandonReading s else s)

/-- R52: the time stamp, absent while the calendar is invalid. -/
def timeStamp (s : State) : Option (Nat × Nat) :=
  if s.cal.valid then some (s.cal.seconds, s.cal.fraction) else none

/-- R72, R73, R45: what the shot takes at TRIG assert. A bulb on the fast clock is counted in 4 × t of its cycles, and
in slow-clock cycles alongside (R147). -/
def newFlight (s : State) (live : Live) (x : Exposure) : Flight :=
  let short := decide (x.es ≤ Config.fastBulbMax)
  let fast := short && decide (s.clock.state = .running)
  { stamp := timeStamp s, slot := live.slot, index := s.seq.shotIndex + 1, stretched := decide (1 < stretch s),
    skip := s.seq.skip, trip := if live.seg.src = .trip then some s.seq.ignored else none,
    sy := s.settings.sy, ot := s.settings.ot, wt := s.settings.wt, wf := s.settings.wf,
    fastLeft := if fast then some (4 * x.t) else none, coarse := short && !fast, bulbLeft := slowCycles x.t,
    openLeft := if s.settings.sy = .none then 0 else s.settings.ot * Config.sixteenthCycles,
    noSync := false, lag := none, wr := none, writeLeft := 0, fixedLeft := none }

/-- R72: TRIG is asserted: WAKE released, the exposure committed, the stage IN_FLIGHT, the handoff counter 0, the
skip and ignored-trip counts handed to the shot. -/
def assertTrig (s : State) : State :=
  match s.seq.stage, s.engine.shot, s.seq.live with
  | .priming d, some shot, some live =>
    match shot.exposure with
    | some x =>
      { s with
        seq := { s.seq with stage := .inFlight d, handoffs := 0, skip := 0, ignored := 0 }
        expo := s.expo.commit
        engine := { s.engine with
          phase := .exposing, wakeLeft := 0, shot := some { shot with flight := some (newFlight s live x) } }
        pins := { s.pins with trig := true, wake := false } }
    | none => s
  | _, _, _ => s

/-- R71: the due time in PRIME. -/
def dueInPrime (s : State) : State := assertTrig (endPrime s)

/-- R71: the due time met before the prime: the engine passes through PRIME at D, with no wake pulse; a reading
is begun and abandoned at that instant (R89). -/
def dueBeforePrime (s : State) : State := dueInPrime (beginPrime s)

/-! ### Frame records (R77 step 1, R78, R85) -/

/-- R78: the frame record of the shot. -/
def recordOf (s : State) (shot : Shot) (x : Exposure) (f : Flight) (cut : Bool) (number : Nat) : FrameRecord :=
  { number := number, time := f.stamp, slot := f.slot, index := f.index, e := x.e, es := x.es, g := x.g, t := x.t,
    b := match x.path with | .metered b _ => some b | _ => none,
    bias := match x.path with | .metered _ v => some v | _ => none,
    flags := frameFlagsOf x shot f cut, skip := f.skip, trip := f.trip, lag := f.lag,
    wr := if cut then none else f.wr, volts := lastVolts s, temp := lastTemp s }

/-- R85, R153, R156: the record is numbered and appended; at the last number the log is first emptied. -/
def writeFrame (cut : Bool) (s : State) : State :=
  match s.engine.shot with
  | some shot =>
    match shot.exposure, shot.flight with
    | some x, some f =>
      let wrap := decide (s.engine.frameCounter = Config.maxFrame)
      let number := if wrap then 1 else s.engine.frameCounter + 1
      { s with
        log := appendRecord (if wrap then [] else s.log) (recordOf s shot x f cut number)
        engine := { s.engine with frameCounter := number } }
    | _, _ => s
  | none => s

/-! ### The rail (R64, R79) -/

/-- R64, R79: CAMPWR and the gain lines go low and the phase becomes DORMANT. -/
def railOff (s : State) : State :=
  { s with
    engine := { s.engine with phase := .dormant, ask := .none, settleLeft := 0 }
    pins := { s.pins with camPwr := false, gain := 0 } }

/-- R79: the trip hold: the run ACTIVE, the level NORMAL, the segment a TRIP segment in TRIP_WAIT. -/
def tripHold (s : State) : Bool :=
  decide (s.seq.run = .active) && decide (s.power.level = .normal) && decide (s.seq.wait = some .tripWait) &&
    decide ((liveSeg s).map Segment.src = some .trip)

/-- R79 step 4: the pending shot's rail-on instant lies more than linger_min after now. -/
def lingersOff (s : State) (shot : Shot) : Bool :=
  decide (now s + s.settings.lm * Config.sixteenthTicks + (s.settings.cs + s.settings.pl) * Config.sixteenthTicks
    < shot.due)

/-- R79 steps 2 to 4: the rail goes off. -/
def railGoesOff (s : State) : Bool :=
  decide (s.power.level = .thrift) ||
    match pendingShot s with
    | none => true
    | some shot => lingersOff s shot

/-- A rail-on that only the trip hold asked for is dropped when the hold ends before its measurement does; the
measurement runs on and is used (DESIGN CHOICE, assumption log 20: R67 speaks of a withdrawn shot only). -/
def dropHoldAsk (s : State) : State :=
  if s.engine.ask = .holdWaiting then { s with engine := { s.engine with ask := .none } } else s

/-- R79: the rail decision. None is made during a retry or while a shot is priming or in flight; in DORMANT only
the trip hold acts. A shot still pending when the rail goes off has its measure instant again. -/
def railDecision (s : State) : State :=
  if s.engine.retrying then s
  else match s.engine.phase with
    | .prime | .exposing | .writing | .retryOff => s
    | .dormant =>
      if tripHold s then (if s.engine.ask = .none then askRail .holdWaiting s else s)
      else arrivals (dropHoldAsk s)
    | .powering | .ready =>
      if tripHold s then s
      else if railGoesOff s then arrivals (railOff s) else s

/-- R66, R79, R82: after the sequencer has set or dropped a shot, instants already passed arrive and the rail
decision is made. -/
def afterReplan (s : State) : State := railDecision (arrivals s)

/-! ### Withdrawal, abandonment, stand-down, cut (R82, R84) -/

/-- A rail-on asked for a shot does not take place when the shot is withdrawn (R67). -/
def RailAsk.withoutShot : RailAsk → RailAsk
  | .shotWaiting | .shotReady => .none
  | a => a

/-- R82: a pending shot is withdrawn with its instants. -/
def withdrawShot (s : State) : State :=
  match s.seq.stage with
  | .pending _ =>
    { s with
      seq := { s.seq with stage := .none }
      engine := { s.engine with shot := none, ask := s.engine.ask.withoutShot } }
  | _ => s

/-- R82, R125: a prime is abandoned: WAKE released, the clock request and a reading dropped, the pending result
discarded; the phase becomes READY. -/
def abandonPrime (s : State) : State :=
  match s.seq.stage with
  | .priming _ =>
    let s1 := dropClock .shot (releaseWake s)
    let s2 := if primeReading s1 then abandonReading s1 else s1
    { s2 with
      seq := { s2.seq with stage := .none }
      expo := s2.expo.discard
      engine := { s2.engine with phase := .ready, shot := none } }
  | _ => s

/-- A pending shot is withdrawn or a priming one abandoned; a shot in flight is left. -/
def dropShot (s : State) : State := abandonPrime (withdrawShot s)

/-- A shot is in flight. -/
def inFlight (s : State) : Bool :=
  match s.seq.stage with
  | .inFlight _ => true
  | _ => false

/-- R82: the engine is stood down from a retry: the retry ends and the rail is off. The retry counter stays. -/
def standDown (s : State) : State :=
  if s.engine.retrying then
    railOff { s with
      seq := { s.seq with retryGrid := none }
      engine := { s.engine with retrying := false, holdLeft := 0 } }
  else s

/-- R84: STOP cuts a shot in flight: TRIG is released, the clock request dropped, and the frame recorded with CUT. -/
def cutShot (s : State) : State :=
  if inFlight s then
    let s1 := writeFrame true (dropClock .shot { s with pins := { s.pins with trig := false } })
    { s1 with seq := { s1.seq with stage := .none }, engine := { s1.engine with shot := none } }
  else s

end Sys2Proof.Machine
end

