-- ==== Sys2Proof/Machine/Meters.lean ====
section
/-! DEFINITION. The host's commands of the scene meter (5.4 to 5.6), the frame log (8.4) and the notice set (10.2). -/

namespace Sys2Proof.Machine

/-! ### METER and CALIBRATE -/

/-- R99, R102, R139: the meter takes a host's request: it is IDLE, no prime is running, the level is not RESERVE. -/
def meterFree (s : State) : Bool :=
  decide (s.meter.state = .idle) && decide (s.engine.phase ≠ .prime) && decide (s.power.level ≠ .reserve)

/-- R102: METER begins a one-off reading. -/
def meterBegin (s : State) : State × List Text :=
  if meterFree s then
    (beginReading .host { s with meter := { s.meter with oneOff := .pending s.meter.rangeStage } },
      okLine .meter ["BEGUN".toList, fieldText "STAGE".toList (natText s.meter.rangeStage)])
  else (s, noLine .busy .meter)

/-- R103: the one-off result as METER LAST reports it. -/
def oneOffText : OneOff → List Text
  | .none => ["NONE".toList]
  | .pending g => ["PENDING".toList, fieldText "STAGE".toList (natText g)]
  | .done n g b hi lo =>
    ["DONE".toList, fieldText "N".toList (natText n), fieldText "STAGE".toList (natText g),
     fieldText "B".toList (natText b), fieldText "FLAGS".toList (rangeFlagText hi lo)]
  | .abandoned => ["ABANDONED".toList]
  | .unavailable => ["UNAVAILABLE".toList]

/-- The meter state as METER DARK reports it (R104). -/
def meterStateWord : MeterState → String
  | .idle => "IDLE"
  | .converting .. => "CONVERTING"
  | .calibrating .. => "CALIBRATING"

/-- `meterStateWord` as the characters of a line. -/
def meterStateText (x : MeterState) : Text := (meterStateWord x).toList

/-- The calibration outcome (R87). -/
def outcomeWord : CalOutcome → String
  | .none => "NONE"
  | .done => "DONE"
  | .failed => "FAILED"
  | .abandoned => "ABANDONED"

/-- `outcomeWord` as the characters of a line. -/
def outcomeText (x : CalOutcome) : Text := (outcomeWord x).toList

/-- T_cal or UNSET (R104). -/
def tcalText : Option Int → Text
  | none => "UNSET".toList
  | some t => intText t

/-- R104: the report of METER DARK. -/
def meterDarkReply (s : State) : List Text :=
  okLine .meter ["DARK".toList, fieldText "D".toList (natText s.meter.dark),
    fieldText "TCAL".toList (tcalText s.meter.tcal), fieldText "STATE".toList (meterStateText s.meter.state),
    fieldText "LAST".toList (outcomeText s.meter.outcome)]

/-- R98: METER CLEAR. -/
def clearSticky (s : State) : State := { s with meter := { s.meter with overSeen := false, underSeen := false } }

/-- METER (R98, R102, R103, R104). -/
def ownMeter (args : List Token) (s : State) : State × List Text :=
  if args = [] then meterBegin s
  else if args = ["LAST".toList] then (s, okLine .meter ("LAST".toList :: oneOffText s.meter.oneOff))
  else if args = ["CLEAR".toList] then (clearSticky s, okLine .meter ["CLEAR".toList])
  else if args = ["DARK".toList] then (s, meterDarkReply s)
  else (s, noLine .malformed .meter)

/-- CALIBRATE (R99). -/
def ownCalibrate (args : List Token) (s : State) : State × List Text :=
  if args = [] then
    if meterFree s then (beginCalibration (lastTemp s) s, okLine .calibrate ["BEGUN".toList])
    else (s, noLine .busy .calibrate)
  else (s, noLine .malformed .calibrate)

/-! ### FRAMES (R157, R158, R159) -/

/-- key=value of an optional field, left out when absent (R154). -/
def optField (key : Text) : Option Text → List Text
  | none => []
  | some t => [fieldText key t]

/-- R155: FLAGS, the names separated by commas, or NONE. -/
def flagsText (f : FrameFlags) : Text :=
  if frameFlagNames f = [] then "NONE".toList else joinWith [','] (frameFlagNames f)

/-- R159: a record line: =FRAME and the fields in the order of R154. -/
def recordLine (r : FrameRecord) : Text :=
  success "FRAME".toList
    ([fieldText "N".toList (natText r.number)] ++
     optField "TIME".toList (r.time.map (fun p => pairText (natText p.1) (natText p.2))) ++
     [fieldText "SLOT".toList (natText r.slot), fieldText "I".toList (natText r.index),
      fieldText "E".toList (natText r.e), fieldText "ES".toList (natText r.es), fieldText "G".toList (natText r.g),
      fieldText "TUS".toList (natText r.t)] ++
     optField "B".toList (r.b.map natText) ++ optField "BIAS".toList (r.bias.map intText) ++
     [fieldText "FLAGS".toList (flagsText r.flags), fieldText "SKIP".toList (natText r.skip)] ++
     optField "TRIP".toList (r.trip.map natText) ++ optField "LAG".toList (r.lag.map natText) ++
     optField "WR".toList (r.wr.map natText) ++
     [fieldText "V".toList (natText r.volts), fieldText "TEMP".toList (intText r.temp)])

/-- R158: the records of a readout from number `n`, at most `c`. -/
def chosenRecords (log : List FrameRecord) (n c : Nat) : List FrameRecord :=
  (log.filter (fun r => decide (n ≤ r.number))).take c

/-- R158: the GAP marker: the oldest number, when `n` lies before it. -/
def gapNumber (log : List FrameRecord) (n : Nat) : Option Nat :=
  match oldestNumber log with
  | some o => if n < o then some o else none
  | none => none

/-- R159: the lines of a readout: one for each record, then the end line. -/
def readout (log : List FrameRecord) (n c : Nat) : List Text :=
  let rs := chosenRecords log n c
  rs.map recordLine ++
    okLine .frames (["END".toList, fieldText "SENT".toList (natText rs.length)] ++
      optField "GAP".toList ((gapNumber log n).map natText) ++
      [fieldText "NEWEST".toList (optText (newestNumber log))])

/-- R157: the start number and the count of FRAMES; none for a malformed one or a third argument. -/
def readFrames : List Token → Option (Int × Int)
  | [a] => (readNumber a).map (fun x => (x, (Config.readoutMax : Int)))
  | [a, b] =>
    match readNumber a, readNumber b with
    | some x, some y => some (x, y)
    | _, _ => none
  | _ => none

/-- FRAMES (R157) reads the log and changes nothing. -/
def ownFrames (args : List Token) (s : State) : State × List Text :=
  match readFrames args with
  | none => (s, noLine .malformed .frames)
  | some (n, c) =>
    if 1 ≤ n ∧ n ≤ (Config.maxFrame : Int) then (s, readout s.log n.toNat (clampNat 1 Config.readoutMax c))
    else (s, noLine .range .frames)

/-! ### POLL (R178) -/

/-- A notice kind as it is written (R176). -/
def Notice.word : Notice → String
  | .segmentEnd => "SEGMENT_END"
  | .needNext => "NEED_NEXT"
  | .starved => "STARVED"
  | .runEnd => "RUN_END"
  | .planLoop => "PLAN_LOOP"
  | .level => "LEVEL"
  | .cameraRetry => "CAMERA_RETRY"
  | .cameraFault => "CAMERA_FAULT"
  | .meterRange => "METER_RANGE"
  | .clockFail => "CLOCK_FAIL"
  | .timeLost => "TIME_LOST"
  | .storeBad => "STORE_BAD"

/-- `Notice.word` as the characters of a line. -/
def Notice.text (k : Notice) : Text := (Notice.word k).toList

/-- R178: the kinds present in the order of R176, or NONE. -/
def pollReply (s : State) : List Text :=
  if s.notices = [] then okLine .poll ["NONE".toList]
  else okLine .poll ((Notice.all.filter (fun k => s.notices.contains k)).map Notice.text)

/-- POLL (R178). -/
def ownPoll (args : List Token) (s : State) : State × List Text :=
  if args = [] then (clearNotices s, pollReply s) else (s, noLine .malformed .poll)

end Sys2Proof.Machine
end

