-- ==== Sys2Proof/Machine/PlanTable.lean ====
section
/-! DEFINITION. The plan table's commands (chapter 1): LOAD with its four classes of checks and its part lines,
SHOW, CLEAR and ADJUST. -/

namespace Sys2Proof.Machine

/-! ### The syntax class (R6) -/

/-- R6: the key named in a refusal, where the token has one. -/
def keyNamed (t : Text) : Option Text := if t.isEmpty then none else some t

/-- R6: one field, with the keys already in the record; the key named in the refusal of a faulty one. -/
def readField (seen : List SegKey) (t : Token) : Except (Option Text) Field :=
  match cutAt '=' t with
  | none => .error none
  | some (kt, vt) =>
    match readSegKey kt with
    | none => .error (keyNamed kt)
    | some key =>
      if seen.contains key then .error (some kt)
      else match readFieldValue key vt with
        | none => .error (some kt)
        | some v => .ok { key := key, value := v }

/-- R5, R6: the fields read from left to right, after those whose keys are `seen`. -/
def readFields (seen : List SegKey) : List Token → Except (Option Text) (List Field)
  | [] => .ok []
  | t :: ts =>
    match readField seen t with
    | .error e => .error e
    | .ok f =>
      match readFields (f.key :: seen) ts with
      | .error e => .error e
      | .ok fs => .ok (f :: fs)

/-- The value of a key in a record being built. -/
def valueOf (fs : List Field) (key : SegKey) : Option FieldValue :=
  (fs.find? (fun f => decide (f.key = key))).map Field.value

/-- The key is given. -/
def given (fs : List Field) (key : SegKey) : Bool := (valueOf fs key).isSome

/-- The number of a key. -/
def numOf (fs : List Field) (key : SegKey) : Option Int :=
  match valueOf fs key with
  | some (.num v) => some v
  | _ => none

/-- The two numbers of a key. -/
def pairOf (fs : List Field) (key : SegKey) : Option (Int × Int) :=
  match valueOf fs key with
  | some (.pair a b) => some (a, b)
  | _ => none

/-- The MODE word given. -/
def modeOf (fs : List Field) : Option ModeWord :=
  match valueOf fs .mode with
  | some (.mode m) => some m
  | _ => none

/-- SRC with its default (R2). -/
def sourceOf (fs : List Field) : Source :=
  match valueOf fs .src with
  | some (.src v) => v
  | _ => .timed

/-- R6: the field that a mode requires. -/
def modeField : ModeWord → SegKey
  | .fix => .e
  | .ramp => .er
  | .met => .keyValue

/-- R6: the fields that must be present, in the order they are looked for. -/
def requiredKeys (fs : List Field) : List SegKey :=
  match modeOf fs with
  | none => [.iv, .n, .mode]
  | some m => [.iv, .n, .mode, modeField m, .es]

/-- R6: the first missing field. -/
def missingKey (fs : List Field) : Option SegKey := (requiredKeys fs).find? (fun key => !given fs key)

/-! ### The range class (R7) -/

/-- R2, R3, R4: the range of the numbers of a field; DIV is in range only at 1, 4 or 16. -/
def numberOk : SegKey → Int → Bool
  | .iv, v => decide (8 ≤ v) && decide (v ≤ 1382400)
  | .n, v => decide (0 ≤ v) && decide (v ≤ 65535)
  | .endAt, v => decide (0 ≤ v) && decide (v ≤ 4294967295)
  | .win, v => decide (0 ≤ v) && decide (v ≤ 1439)
  | .days, v => decide (1 ≤ v) && decide (v ≤ 127)
  | .src, _ => true
  | .div, v => decide (v = 1) || decide (v = 4) || decide (v = 16)
  | .mode, _ => true
  | .e, v => decide (0 ≤ v) && decide (v ≤ 199)
  | .er, v => decide (0 ≤ v) && decide (v ≤ 199)
  | .keyValue, v => decide (0 ≤ v) && decide (v ≤ 255)
  | .bias, v => decide (-64 ≤ v) && decide (v ≤ 64)
  | .depth, v => decide (1 ≤ v) && decide (v ≤ 8)
  | .db, v => decide (0 ≤ v) && decide (v ≤ 8)
  | .slew, v => decide (1 ≤ v) && decide (v ≤ 24)
  | .el, v => decide (0 ≤ v) && decide (v ≤ 199)
  | .es, v => decide (0 ≤ v) && decide (v ≤ 151)
  | .gm, v => decide (0 ≤ v) && decide (v ≤ 6)
  | .fol, v => slotInRange v

/-- R7: every number of a field is in range. -/
def fieldInRange (f : Field) : Bool :=
  match f.value with
  | .num v => numberOk f.key v
  | .pair a b => numberOk f.key a && numberOk f.key b
  | _ => true

/-- R7: the first field out of range. -/
def outOfRange (fs : List Field) : Option SegKey :=
  (fs.find? (fun f => !fieldInRange f)).map Field.key

/-! ### The combination class (R8, R9) -/

/-- R8 line 6: the mode that a mode field belongs to. -/
def modeOfKey : SegKey → Option ModeWord
  | .e => some .fix
  | .er => some .ramp
  | .keyValue | .bias | .depth | .db | .slew | .el => some .met
  | _ => none

/-- R8 line 6: a field of another mode is present. -/
def foreignField (fs : List Field) : Option SegKey :=
  (fs.find? (fun f => (modeOfKey f.key).isSome && decide (modeOfKey f.key ≠ modeOf fs))).map Field.key

/-- R8 line 7: DAYS without WIN, or DIV without SRC=TRIP. -/
def strayField (fs : List Field) : Option SegKey :=
  (fs.find? (fun f => (decide (f.key = .days) && !given fs .win) ||
    (decide (f.key = .div) && decide (sourceOf fs = .timed)))).map Field.key

/-- A pair with its default, as natural numbers. -/
def pairNat (fs : List Field) (key : SegKey) (a b : Nat) : Nat × Nat :=
  match pairOf fs key with
  | some (x, y) => (x.toNat, y.toNat)
  | none => (a, b)

/-- A number with its default, as a natural number. -/
def numNat (fs : List Field) (key : SegKey) (d : Nat) : Nat := ((numOf fs key).map Int.toNat).getD d

/-- R8: the key of the first illegal combination, in the order of the table. -/
def conflictKey (fs : List Field) : Option SegKey :=
  let es := pairNat fs .es 0 0
  let gm := numNat fs .gm 0
  let n := numNat fs .n 0
  let bias := (pairOf fs .bias).getD (0, 0)
  let el := pairNat fs .el 0 199
  if es.2 < es.1 then some .es
  else if 0 < gm ∧ es.2 < es.1 + 12 then some .gm
  else if modeOf fs = some .ramp ∧ n < 2 then some .n
  else if modeOf fs = some .met ∧ n = 0 ∧ bias.1 ≠ bias.2 then some .bias
  else if modeOf fs = some .met ∧ el.2 < el.1 then some .el
  else match foreignField fs with
    | some key => some key
    | none =>
      match strayField fs with
      | some key => some key
      | none =>
        if sourceOf fs = .timed ∧ ceilingOk es.2 (numNat fs .iv 0) = false then some .iv else none

/-! ### The record (R2, R3, R4, R5) -/

/-- The mode group of a record, with its defaults (R3). -/
def buildMode (fs : List Field) : Mode :=
  match modeOf fs with
  | some .ramp =>
    let er := pairNat fs .er 0 0
    .ramp er.1 er.2
  | some .met =>
    let bias := (pairOf fs .bias).getD (0, 0)
    let el := pairNat fs .el 0 199
    .met (numNat fs .keyValue 0) bias.1 bias.2 (numNat fs .depth 4) (numNat fs .db 2) (numNat fs .slew 3) el.1 el.2
  | _ => .fix (numNat fs .e 0)

/-- FOL with its default END (R4). -/
def buildFollow (fs : List Field) : Follow :=
  match valueOf fs .fol with
  | some (.num v) => .slot v.toNat
  | some .ask => .ask
  | _ => .finish

/-- R5: the record that the fields build, every defaulted field filled in. -/
def buildSegment (fs : List Field) : Segment :=
  { iv := numNat fs .iv 0
    n := numNat fs .n 0
    endAt := (numOf fs .endAt).map Int.toNat
    win := (pairOf fs .win).map (fun p => (p.1.toNat, p.2.toNat))
    days := numNat fs .days 127
    src := sourceOf fs
    div := numNat fs .div 1
    mode := buildMode fs
    esMin := (pairNat fs .es 0 0).1
    esMax := (pairNat fs .es 0 0).2
    gm := numNat fs .gm 0
    fol := buildFollow fs }

/-! ### LOAD (R5, R10, R11, R12) -/

/-- A refusal with the key it names, if any. -/
def refuse (code : Code) (verb : Verb) (key : Option Text) : List Text := [refusal code verb key]

/-- The staging record is emptied. -/
def unstage (s : State) : State := { s with plan := { s.plan with staging := none } }

/-- R11, R12: the fields staged for a slot. -/
def stagedFor (s : State) (slot : Int) : List Field :=
  match s.plan.staging with
  | some st => if (st.slot : Int) = slot then st.fields else []
  | none => []

/-- R5: the checks of a record for a slot in the classes syntax (missing fields), range, combination; the code
and the key of the first fault. -/
def recordFault (slot : Int) (fs : List Field) : Option (Code × Option Text) :=
  match missingKey fs with
  | some key => some (.malformed, some key.text)
  | none =>
    if slotInRange slot = false then some (.range, none)
    else match outOfRange fs with
      | some key => some (.range, some key.text)
      | none =>
        match conflictKey fs with
        | some key => some (.conflict, some key.text)
        | none => none

/-- R1, R5: a slot takes a record or becomes EMPTY. -/
def setSlot (n : Nat) (r : Option Segment) (s : State) : State :=
  { s with plan := { s.plan with slots := s.plan.slots.set n r } }

/-- R5, R10, R12: a final LOAD line. After it, accepted or refused, the staging record is empty. -/
def loadFinal (args : List Token) (s : State) : State × List Text :=
  let s' := unstage s
  match args with
  | [] => (s', noLine .malformed .load)
  | t :: rest =>
    match readSlot t with
    | none => (s', noLine .malformed .load)
    | some slot =>
      let staged := stagedFor s slot
      match readFields (staged.map Field.key) rest with
      | .error key => (s', refuse .malformed .load key)
      | .ok fs =>
        match recordFault slot (staged ++ fs) with
        | some (code, key) => (s', refuse code .load key)
        | none =>
          if inUse s slot.toNat then (s', noLine .inUse .load)
          else (setSlot slot.toNat (some (buildSegment (staged ++ fs))) s', okLine .load [natText slot.toNat])

/-- R11: a part line. Refused, it empties the staging record; accepted, its fields join it. -/
def loadPartial (args : List Token) (s : State) : State × List Text :=
  let s' := unstage s
  match args with
  | [] => (s', noLine .malformed .load)
  | t :: rest =>
    match readSlot t with
    | none => (s', noLine .malformed .load)
    | some slot =>
      let staged := stagedFor s slot
      match readFields (staged.map Field.key) rest with
      | .error key => (s', refuse .malformed .load key)
      | .ok fs =>
        if slotInRange slot = false then (s', noLine .range .load)
        else match outOfRange fs with
          | some key => (s', noLineKey .range .load key.text)
          | none =>
            ({ s with plan := { s.plan with staging := some { slot := slot.toNat, fields := staged ++ fs } } },
              okLine .load [natText slot.toNat, plusMark])

/-- LOAD: a part line when its last token is a plus sign (R11), else a final line (R12). -/
def ownLoad (args : List Token) (s : State) : State × List Text :=
  if args.getLast? = some plusMark then loadPartial args.dropLast s else loadFinal args s

/-! ### SHOW and CLEAR (R14, R15, R16) -/

/-- A slot argument alone on its line, checked for syntax and range (R14, R16, 2.3); `none` for a good one. -/
def slotArg (verb : Verb) (args : List Token) : Except (List Text) Nat :=
  match args with
  | [t] =>
    match readSlot t with
    | none => .error (noLine .malformed verb)
    | some v => if slotInRange v then .ok v.toNat else .error (noLine .range verb)
  | _ => .error (noLine .malformed verb)

/-- R14: the USE field. -/
def useText (s : State) (n : Nat) : Text :=
  match s.seq.current == some n, s.seq.armed == some n with
  | true, true => "BOTH".toList
  | true, false => "CURRENT".toList
  | false, true => "ARMED".toList
  | false, false => "NONE".toList

/-- key=number. -/
def numField (key : SegKey) (v : Nat) : Text := fieldText key.text (natText v)

/-- key=number,number. -/
def pairField (key : SegKey) (a b : Text) : Text := fieldText key.text (pairText a b)

/-- R14: the fields of the mode, MODE first. -/
def modeFields : Mode → List Text
  | .fix e => [fieldText SegKey.mode.text "FIX".toList, numField .e e]
  | .ramp a b => [fieldText SegKey.mode.text "RAMP".toList, pairField .er (natText a) (natText b)]
  | .met key b0 b1 kk db slew lo hi =>
    [fieldText SegKey.mode.text "MET".toList, numField .keyValue key, pairField .bias (intText b0) (intText b1),
     numField .depth kk, numField .db db, numField .slew slew, pairField .el (natText lo) (natText hi)]

/-- FOL as it is written. -/
def followText : Follow → Text
  | .slot n => natText n
  | .finish => "END".toList
  | .ask => "ASK".toList

/-- SRC as it is written. -/
def sourceWord : Source → String
  | .timed => "TIMED"
  | .trip => "TRIP"

/-- `sourceWord` as the characters of a line. -/
def sourceText (x : Source) : Text := (sourceWord x).toList

/-- R14: the fields of a record in the order of the tables of R2, R3 and R4; an absent UNTIL or WIN is left out,
DAYS with WIN, and DIV is listed for a TRIP record only. -/
def segmentFields (seg : Segment) : List Text :=
  [numField .iv seg.iv, numField .n seg.n] ++
  (match seg.endAt with | some u => [numField .endAt u] | none => []) ++
  (match seg.win with
    | some (a, b) => [pairField .win (natText a) (natText b), numField .days seg.days]
    | none => []) ++
  [fieldText SegKey.src.text (sourceText seg.src)] ++
  (if seg.src = .trip then [numField .div seg.div] else []) ++
  modeFields seg.mode ++
  [pairField .es (natText seg.esMin) (natText seg.esMax), numField .gm seg.gm,
   fieldText SegKey.fol.text (followText seg.fol)]

/-- R14: the report of one slot. -/
def showSlotText (s : State) (n : Nat) : List Text :=
  match slotAt s n with
  | none => okLine .show [natText n, "EMPTY".toList]
  | some seg =>
    okLine .show ([natText n, "READY".toList, fieldText "USE".toList (useText s n)] ++ segmentFields seg)

/-- R15: the numbers of the READY slots in increasing order. -/
def readySlots (s : State) : List Nat :=
  (List.range Config.slotCount).filter (fun n => (slotAt s n).isSome)

/-- R15: the report of the plan table as a whole. -/
def showPlanText (s : State) : List Text :=
  let ready := if readySlots s = [] then "NONE".toList else joinWith [','] ((readySlots s).map natText)
  okLine .show [fieldText "READY".toList ready, fieldText "CURRENT".toList (optText s.seq.current),
    fieldText "ARMED".toList (optText s.seq.armed)]

/-- SHOW (R14, R15) changes nothing. -/
def ownShow (args : List Token) (s : State) : State × List Text :=
  if args = [] then (s, showPlanText s)
  else match slotArg .show args with
    | .error e => (s, e)
    | .ok n => (s, showSlotText s n)

/-- CLEAR (R16). -/
def ownClear (args : List Token) (s : State) : State × List Text :=
  match slotArg .clear args with
  | .error e => (s, e)
  | .ok n =>
    if inUse s n then (s, noLine .inUse .clear)
    else (setSlot n none s, okLine .clear [natText n])

/-! ### ADJUST (R18) -/

/-- The three keys of ADJUST. -/
inductive AdjustKey where
  | iv | key | bo
  deriving DecidableEq, Repr

/-- A key of ADJUST as it is written. -/
def AdjustKey.word : AdjustKey → String
  | .iv => "IV"
  | .key => "KEY"
  | .bo => "BO"

/-- `AdjustKey.word` as the characters of a line. -/
def AdjustKey.text (a : AdjustKey) : Text := (AdjustKey.word a).toList

/-- The key of ADJUST that a text names. -/
def readAdjustKey (t : Text) : Option AdjustKey :=
  [AdjustKey.iv, .key, .bo].find? (fun a => a.text = t)

/-- R18: the fields of ADJUST from left to right, or the key named in the refusal: with several faulty tokens on the
line, the leftmost one's (DESIGN CHOICE, assumption log 19). -/
def readAdjust (seen : List AdjustKey) : List Token → Except (Option Text) (List (AdjustKey × Int))
  | [] => .ok []
  | t :: ts =>
    match cutAt '=' t with
    | none => .error none
    | some (kt, vt) =>
      match readAdjustKey kt with
      | none => .error (keyNamed kt)
      | some a =>
        if seen.contains a then .error (some kt)
        else match readNumber vt with
          | none => .error (some kt)
          | some v =>
            match readAdjust (a :: seen) ts with
            | .error e => .error e
            | .ok rest => .ok ((a, v) :: rest)

/-- R18: the segment is metered. -/
def isMet (seg : Segment) : Bool :=
  match seg.mode with
  | .met .. => true
  | _ => false

/-- R18: the least IV that ADJUST clamps up to. -/
def adjustFloor (seg : Segment) : Nat :=
  match seg.src with
  | .timed => smallestInterval seg.esMax
  | .trip => Config.minInterval

/-- R18: one value clamped and written into the live copy. -/
def adjustField (p : AdjustKey × Int) (live : Live) : Live :=
  match p.1 with
  | .iv => { live with seg := { live.seg with
      iv := clampNat (adjustFloor live.seg) Config.maxInterval p.2 } }
  | .key =>
    match live.seg.mode with
    | .met _ b0 b1 kk db slew lo hi =>
      { live with seg := { live.seg with mode := .met (clampNat 0 255 p.2) b0 b1 kk db slew lo hi } }
    | _ => live
  | .bo => { live with bo := clampInt (-64) 64 p.2 }

/-- R18: the values the live copy now holds. -/
def adjustReply (live : Live) : List Text :=
  match live.seg.mode with
  | .met key .. =>
    okLine .adjust [fieldText "IV".toList (natText live.seg.iv), fieldText "KEY".toList (natText key),
      fieldText "BO".toList (intText live.bo)]
  | _ => okLine .adjust [fieldText "IV".toList (natText live.seg.iv)]

/-- R18: ADJUST: the checks in the order SYNTAX, STATE, CONFLICT; all or nothing. With both KEY and BO on the line of a
FIX or RAMP segment the CONFLICT names the leftmost of them (DESIGN CHOICE, assumption log 19: R18 gives no order). -/
def ownAdjust (args : List Token) (s : State) : State × List Text :=
  if args = [] then (s, noLine .malformed .adjust)
  else match readAdjust [] args with
    | .error key => (s, refuse .malformed .adjust key)
    | .ok fields =>
      match s.seq.live with
      | none => (s, noLine .state .adjust)
      | some live =>
        match fields.find? (fun p => decide (p.1 ≠ .iv) && !isMet live.seg) with
        | some p => (s, noLineKey .conflict .adjust p.1.text)
        | none =>
          let live' := fields.foldl (fun l p => adjustField p l) live
          ({ s with seq := { s.seq with live := some live' } }, adjustReply live')

end Sys2Proof.Machine
end

