-- ==== Sys2Proof/Machine/Sequence.lean ====
section
/-! DEFINITION. The run sequencer's shared procedures (chapter 2): the schedule and its re-anchors, the grid,
segment ends and handoffs with the loop guard, the completion report, and what a change of level does to a run. -/

namespace Sys2Proof.Machine

/-! ### Schedules (R27, R38, R39, R41) -/

/-- R38: the grid step, IV × 64 × s ticks, with the stretch factor of the level. -/
def gridStep (seg : Segment) (s : State) : Nat := seg.iv * Config.sixteenthTicks * stretch s

/-- R38: the preparation time P. At a completion in THRIFT the phase is taken as DORMANT. -/
def prepTicks (atCompletion : Bool) (s : State) : Nat :=
  let lead := s.settings.pl * Config.sixteenthTicks
  let full := (s.settings.pl + s.settings.cs) * Config.sixteenthTicks
  if atCompletion && decide (s.power.level = .thrift) then full
  else match s.engine.phase with
    | .dormant | .retryOff => full
    | .powering => lead + ceilDiv s.engine.settleLeft Config.tickCycles
    | .ready | .prime | .exposing | .writing => lead

/-- The wait is set with its opening instant. -/
def setWait (w : Option Wait) (o : Option Tick) (s : State) : State :=
  { s with seq := { s.seq with wait := w, opening := o } }

/-- R27 step 2, R41: a due time of a TIMED segment, subjected to the window test: in a closed window the wait is
CLOSED and the shot is set at the opening instant W. -/
def placeDue (seg : Segment) (d : Tick) (s : State) : State :=
  if segOpen seg d then handShot d (setWait (some .between) none s)
  else match nextOpening seg.win seg.days d with
    | some w => handShot w (setWait (some .closed) (some w) s)
    | none => setWait (some .closed) none s

/-- R27 step 3: the wait of a TRIP segment by its window now. The edge counter is kept, also where the window has opened
while the run was PAUSED or SUSPENDED, or is open at the instant that TIME sets (DESIGN CHOICE, assumption log 22: R46
clears the count at each window opening and keeps it through PAUSED and SUSPENDED). -/
def placeTrip (seg : Segment) (s : State) : State :=
  if segOpen seg (now s) then setWait (some .tripWait) none s
  else setWait (some .closed) (nextOpening seg.win seg.days (now s)) s

/-- R22: the wait of a segment that is given no due time: one held off by a camera retry, or one whose run is ACTIVE
again with a shot in flight (R31, R43). -/
def waitUnscheduled (seg : Segment) (s : State) : State :=
  if needsCalendar seg s then setWait (some .timeless) none s
  else match seg.src with
    | .timed => setWait (some .between) none s
    | .trip => placeTrip seg s

/-- R27, R39: the segment's schedule is started with a target. During a camera retry the start is held until the
retry ends (R44): the segment has its wait (R22) and no due time. -/
def startSchedule (atCompletion : Bool) (target : Tick) (s : State) : State :=
  match liveSeg s with
  | none => s
  | some seg =>
    if s.engine.retrying || needsCalendar seg s then waitUnscheduled seg s
    else match seg.src with
      | .timed => placeDue seg (max target (now s + prepTicks atCompletion s)) s
      | .trip => placeTrip seg s

/-- The current segment has its wait without a due time. -/
def holdSchedule (s : State) : State :=
  match liveSeg s with
  | none => s
  | some seg => waitUnscheduled seg s

/-- The run is made ACTIVE: with no shot in flight the schedule is started with the target "now" (R31, R43). -/
def activate (s : State) : State :=
  let s' := { s with seq := { s.seq with run := .active } }
  if inFlight s then holdSchedule s' else startSchedule false (now s) s'

/-! ### Handoffs (R25, R26, R35, R36) -/

/-- R26: the slot that FOL gives as it stands: a READY slot, else none. -/
def resolveFollow (s : State) : Follow → Option Nat
  | .slot n => if (slotAt s n).isSome then some n else none
  | .finish => none
  | .ask => none

/-- R26: the segment that becomes Current asks for its next: FOL = ASK, or FOL names an EMPTY slot. -/
def asksNext (s : State) : Follow → Bool
  | .slot n => (slotAt s n).isNone
  | .finish => false
  | .ask => true

/-- R44: the grid of the retry as a handoff leaves it: the interval of the segment that ends is kept. -/
def RetryGrid.keepInterval (ended : Option Segment) (g : RetryGrid) : RetryGrid :=
  { g with iv := g.iv.or (ended.map Segment.iv) }

/-- R25 steps 1 to 3: Current and the live copy with BO = 0, the counters, Armed with NEED_NEXT. -/
def fillCurrent (n : Nat) (seg : Segment) (s : State) : State :=
  let s' := { s with seq := { s.seq with
    current := some n, live := some { slot := n, seg := seg, bo := 0 }, armed := resolveFollow s seg.fol,
    shotIndex := 0, lastDue := none, skip := 0, ignored := 0, edges := 0, stage := .none, wait := none,
    opening := none, endWaiting := false, anchorWaiting := false,
    retryGrid := s.seq.retryGrid.map (RetryGrid.keepInterval (liveSeg s)) } }
  if asksNext s seg.fol then raise .needNext s' else s'

/-- The run leaves its segment: pointers, live copy and everything waiting become none; a retry is stood down
(R29, R35, R82). -/
def clearRun (r : RunState) (s : State) : State :=
  standDown { s with seq := { s.seq with
    run := r, current := none, armed := none, live := none, wait := none, opening := none, stage := .none,
    endWaiting := false, suspWaiting := false, anchorWaiting := false, retryGrid := none } }

/-- R35 steps 2 and 3: the slot that follows, with its record: Armed, or FOL resolved once more. -/
def followSlot (s : State) : Option (Nat × Segment) :=
  let pick (o : Option Nat) : Option (Nat × Segment) := o.bind (fun n => (slotAt s n).map (fun seg => (n, seg)))
  match pick s.seq.armed with
  | some p => some p
  | none => pick ((liveSeg s).bind (fun seg => resolveFollow s seg.fol))

/-- R35 step 4: nothing follows: the run goes to IDLE with FOL = END, and to STARVED otherwise. -/
def endRun (s : State) : State :=
  if (liveSeg s).map Segment.fol = some .finish then raise .runEnd (clearRun .idle s)
  else raise .starved (clearRun .starved s)

/-- R25 step 5: the schedule of a segment just made Current in an ACTIVE run; one that is held back has only its
wait (R22). -/
def beginSegment (hold atCompletion : Bool) (s : State) : State :=
  if s.seq.run = .active then
    if hold then holdSchedule s else startSchedule atCompletion (now s) s
  else s

/-- R35, R36: the current segment ends. `left` is the number of handoffs the loop guard still allows; a segment
whose end time has passed ends at once (R25 step 4). `hold` is the handoff that R37 step 2 holds back. -/
def endSegment (hold atCompletion : Bool) : Nat → State → State
  | 0, s =>
    let s1 := raise .segmentEnd s
    match followSlot s1 with
    | none => endRun s1
    | some _ => raise .planLoop (clearRun .idle s1)
  | left + 1, s =>
    let s1 := raise .segmentEnd s
    match followSlot s1 with
    | none => endRun s1
    | some (n, seg) =>
      let s2 := fillCurrent n seg { s1 with seq := { s1.seq with handoffs := s1.seq.handoffs + 1 } }
      if untilReached s2 then endSegment hold atCompletion left s2 else beginSegment hold atCompletion s2

/-- R36: handoffs the loop guard still allows. -/
def handoffsLeft (s : State) : Nat := Config.handoffLimit - s.seq.handoffs

/-- R25: a slot becomes Current by START, QUEUE in STARVED or autorun. -/
def makeCurrent (n : Nat) (seg : Segment) (s : State) : State :=
  let s' := fillCurrent n seg s
  if untilReached s' then endSegment false false (handoffsLeft s') s' else beginSegment false false s'

/-- R34: an end arises: with a shot in flight it waits; otherwise the shot is dropped and it is taken at once. -/
def takeEnd (s : State) : State :=
  if inFlight s then { s with seq := { s.seq with endWaiting := true } }
  else
    let s' := dropShot s
    afterReplan (endSegment false false (handoffsLeft s') s')

/-- R28, R33: the run state a run is started in. -/
def startedRun (s : State) : RunState := if s.power.level = .reserve then .suspended else .active

/-- R28, R188: a run is started on a slot, its handoff counter 0, the history emptied, the held values unset and
the miss and retry counters 0 (R80). -/
def startRun (n : Nat) (seg : Segment) (s : State) : State :=
  afterReplan (makeCurrent n seg
    { s with
      seq := { s.seq with handoffs := 0, run := startedRun s }
      expo := s.expo.fresh
      engine := { s.engine with misses := 0, retries := 0 } })

/-! ### Completions (R37, R40, R44) -/

/-- The number of grid points D + k × step, k ≥ 1, that are not later than `x`. -/
def gridPoints (d step x : Nat) : Nat := (x - d) / step

/-- R40: the next due time of the grid: grid points not later than the completion are skipped and counted. -/
def gridNext (seg : Segment) (d : Tick) (s : State) : State :=
  let step := gridStep seg s
  let passed := gridPoints d step (now s)
  placeDue seg (d + (passed + 1) * step)
    { s with seq := { s.seq with skip := addUpTo Config.maxHanded s.seq.skip passed } }

/-- R37 step 6: the next due time of an ACTIVE run after a completion. -/
def nextAfterShot (anchor : Bool) (d : Tick) (s : State) : State :=
  if anchor then startSchedule true (now s) s
  else match liveSeg s with
    | none => s
    | some seg =>
      match seg.src with
      | .timed => gridNext seg d s
      | .trip => s

/-- The run is halted: no wait is held outside ACTIVE (R22). -/
def haltRun (r : RunState) (s : State) : State :=
  setWait none none { s with seq := { s.seq with run := r } }

/-- R37 step 2: the completion ends the segment: by its count, or by an end that waited. -/
def completionEnds (s : State) : Bool :=
  s.seq.endWaiting ||
    match liveSeg s with
    | some seg => decide (seg.n ≠ 0) && decide (s.seq.shotIndex = seg.n)
    | none => false

/-- R44: what a retry that begins at the completion of the shot due at `d` will count its skips from: nothing for a
TRIP segment. -/
def gridOfRetry (d : Tick) (s : State) : Option RetryGrid :=
  if (liveSeg s).map Segment.src = some .timed then some { due := d, completed := now s, iv := none } else none

/-- R37: the completion report, with the start of a retry or a fault. -/
def reportCompletion (retry fault : Bool) (s : State) : State :=
  match s.seq.stage with
  | .inFlight d =>
    let susp := s.seq.suspWaiting
    let anchor := s.seq.anchorWaiting
    let s1 := { s with seq := { s.seq with
      stage := .none, shotIndex := addUpTo Config.maxShotIndex s.seq.shotIndex 1, lastDue := some d } }
    let ends := completionEnds s1
    let s2 := if ends then endSegment (retry || fault || susp) true (handoffsLeft s1) s1 else s1
    let s3 := if fault && s2.seq.current.isSome then haltRun (.paused .camera) s2 else s2
    let s4 := if susp && decide (s3.seq.run = .active) then haltRun .suspended s3 else s3
    let s5 := { s4 with seq := { s4.seq with suspWaiting := false, anchorWaiting := false } }
    if decide (s5.seq.run = .active) then
      if retry then
        { s5 with seq := { s5.seq with retryGrid := if ends then none else gridOfRetry d s5 } }
      else if ends then s5 else nextAfterShot anchor d s5
    else s5
  | _ => s

/-- R44: the grid points passed during the retry, later than the completion that began it and not later than now, on
the grid of the shot that completed; none while the segment is a TRIP segment (assumption log 13). -/
def retrySkips (seg : Segment) (s : State) : Nat :=
  match s.seq.retryGrid, seg.src with
  | some g, .timed =>
    let step := gridStep { seg with iv := g.iv.getD seg.iv } s
    gridPoints g.due step (now s) - gridPoints g.due step g.completed
  | _, _ => 0

/-- R44: the engine reports the end of the retry: the skips are counted and an ACTIVE run re-anchors. -/
def retryEnded (s : State) : State :=
  let passed := match liveSeg s with
    | some seg => retrySkips seg s
    | none => 0
  let s' := { s with
    seq := { s.seq with skip := addUpTo Config.maxHanded s.seq.skip passed, retryGrid := none }
    engine := { s.engine with retrying := false } }
  if s'.seq.run = .active then startSchedule false (now s') s' else s'

/-! ### Changes of level (R43, R137, R138) -/

/-- R43: the segment whose pending shot a change of the stretch factor re-anchors: a TIMED one in BETWEEN. -/
def restretched (s : State) : Option Segment :=
  match s.seq.stage, liveSeg s with
  | .pending _, some seg =>
    if s.seq.run = .active ∧ s.seq.wait = some .between ∧ seg.src = .timed then some seg else none
  | _, _ => none

/-- R43: a change of the stretch factor: a pending shot of a running grid is re-anchored to the last due time plus
the new step, or to now where there is no last due time. -/
def stretchChange (s : State) : State :=
  match restretched s with
  | some seg =>
    let target := match s.seq.lastDue with
      | some l => l + gridStep seg s
      | none => now s
    startSchedule false target (withdrawShot s)
  | none => s

/-- R43: entry to RESERVE: an ACTIVE run is SUSPENDED, at once or after the shot in flight. -/
def enterReserve (s : State) : State :=
  if s.seq.run = .active then
    if inFlight s then { s with seq := { s.seq with suspWaiting := true } }
    else haltRun .suspended (standDown (dropShot s))
  else s

/-- R43: leaving RESERVE: a suspension that waits is cleared; a SUSPENDED run becomes ACTIVE. -/
def leaveReserve (s : State) : State :=
  let s' := { s with seq := { s.seq with suspWaiting := false } }
  if s.seq.run = .suspended then activate s' else s'

/-- R137: the run sequencer's action on a change of level already made. -/
def seqLevelChange (old new : Level) (s : State) : State :=
  match old, new with
  | _, .reserve => enterReserve s
  | .reserve, _ => leaveReserve s
  | _, _ => if s.settings.st = 1 then s else stretchChange s

/-- R29: the run is stopped: the shot cut, abandoned or withdrawn, a retry stood down, the run IDLE and the rail
off. Nothing changes in IDLE. -/
def stopRun (s : State) : State :=
  if s.seq.run = .idle then s else railOff (clearRun .idle (standDown (dropShot (cutShot s))))

/-- R30: PAUSE of an ACTIVE or SUSPENDED run. -/
def pauseRun (s : State) : State :=
  let s1 := if s.seq.run = .active then standDown (dropShot s) else s
  let s2 := haltRun (.paused .host) { s1 with seq := { s1.seq with suspWaiting := false } }
  afterReplan s2

end Sys2Proof.Machine
end

