-- ==== Sys2Proof/Machine/Shots.lean ====
section
/-! DEFINITION. The end of a shot (R77, R80 to R83), the rise of the rail and the settle (R67, R68, R81), the end
of a measurement with the level it decides (7.2, 7.3), the heater (7.4) and the start-up series (R140). -/

namespace Sys2Proof.Machine

/-! ### Completion (R77) -/

/-- R80: the completion starts a camera retry: a miss, counted, in an ACTIVE run, the third or later, none begun. -/
def startsRetry (miss : Bool) (s : State) : Bool :=
  miss && decide (s.seq.run = .active) && decide (Config.retryMisses ≤ s.engine.misses) &&
    decide (s.engine.retries = 0)

/-- R80, R83: the completion gives a camera fault: the miss counter at 6 with the retry counter at 1. -/
def givesFault (miss : Bool) (s : State) : Bool :=
  miss && decide (s.engine.misses = Config.maxMisses) && decide (s.engine.retries = 1)

/-- R80: a miss is counted, or a completion that is no miss clears both counters. -/
def countMiss (miss : Bool) (s : State) : State :=
  if miss then
    { s with engine := { s.engine with misses := addUpTo Config.maxMisses s.engine.misses 1 } }
  else { s with engine := { s.engine with misses := 0, retries := 0 } }

/-- R81: the retry begins: the rail off, RETRY_OFF for 5 s, CAMERA_RETRY raised. -/
def beginRetry (s : State) : State :=
  let s' := railOff s
  raise .cameraRetry
    { s' with engine := { s'.engine with phase := .retryOff, retrying := true, holdLeft := Config.retryHoldCycles } }

/-- R77: a shot completes. -/
def completeShot (miss : Bool) (s : State) : State :=
  let s1 := writeFrame false s
  let s2 := countMiss miss { s1 with engine := { s1.engine with shot := none } }
  let retry := startsRetry miss s2
  let fault := !retry && givesFault miss s2
  let s3 := reportCompletion retry fault s2
  if retry then
    if s3.seq.run = .active then beginRetry s3 else railOff s3
  else if fault then raise .cameraFault (railOff s3)
  else arrivals (railDecision { s3 with engine := { s3.engine with phase := .ready } })

/-- The shot in flight with what it has gathered. -/
def flightOf (s : State) : Option (Shot × Flight) :=
  s.engine.shot.bind (fun shot => shot.flight.map (fun f => (shot, f)))

/-- The shot in flight takes a new gathering. -/
def setFlight (shot : Shot) (f : Flight) (s : State) : State :=
  { s with engine := { s.engine with shot := some { shot with flight := some f } } }

/-- R74, R76: write_fixed is counted from now; with WF = 0 the shot completes at once. -/
def beginWriteFixed (miss : Bool) (shot : Shot) (f : Flight) (s : State) : State :=
  if f.wf = 0 then completeShot miss s
  else setFlight shot { f with fixedLeft := some (f.wf * Config.sixteenthCycles) } s

/-- R75: the level of BUSY that is active under a sync mode. -/
def activeLevel (sy : SyncMode) : Bool := decide (sy = .busyHigh)

/-! ### The rail rises (R67, R68) -/

/-- R68, R81: the settle has ended: the phase becomes READY. A retry ends here and the run re-anchors (R44);
otherwise a prime that waited begins. -/
def settled (s : State) : State :=
  let s' := { s with engine := { s.engine with phase := .ready, settleLeft := 0 } }
  if s.engine.retrying then afterReplan (retryEnded s') else arrivals s'

/-- R67, R68, R71: CAMPWR rises and cam_settle is counted. A due time already passed cuts the settle at once; with
cam_settle 0 the phase passes on to READY. -/
def railRise (s : State) : State :=
  let s' := { s with
    engine := { s.engine with phase := .powering, ask := .none,
                              settleLeft := s.settings.cs * Config.sixteenthCycles }
    pins := { s.pins with camPwr := true } }
  match pendingShot s' with
  | some shot =>
    if arrived s' shot.due then dueBeforePrime s'
    else if s.settings.cs = 0 then settled s' else s'
  | none => if s.settings.cs = 0 then settled s' else s'

/-- R67, R81, R132: the REST measurement that a rail-on asked for has ended. A shot's rail rises at its rail-on
instant; the trip hold's and a retry's at once, and a retry's sets the retry counter to 1. -/
def releaseRail (s : State) : State :=
  match s.engine.ask with
  | .none | .shotReady => s
  | .holdWaiting => railRise s
  | .retryWaiting => railRise { s with engine := { s.engine with retries := 1 } }
  | .shotWaiting =>
    match pendingShot s with
    | some shot =>
      if arrived s shot.railOnAt then railRise s
      else { s with engine := { s.engine with ask := .shotReady } }
    | none => s

/-- A rail-on waits for a measurement. -/
def railWaits (s : State) : Bool :=
  match s.engine.ask with
  | .shotWaiting | .holdWaiting | .retryWaiting => true
  | .none | .shotReady => false

/-! ### The heater (R142, R143) -/

/-- R142: the frame that begins fixes its on-time and its permission. -/
def newHeater (s : State) : Heater :=
  { left := Config.heaterFrameCycles, onLeft := s.settings.hd * Config.dutyCycles,
    permission := decide (s.power.level = .normal) && decide (0 < s.settings.hd) &&
      decide (lastTemp s ≤ s.settings.hb) && s.power.last.isSome }

/-- R143: what the heater frame calls for. -/
def heatCalled (s : State) : Bool :=
  match s.power.heater with
  | some h => h.permission && decide (0 < h.onLeft) && decide (s.power.level = .normal)
  | none => false

/-- R143: HEAT follows the frame, and is low throughout a measurement. -/
def driveHeat (s : State) : State :=
  { s with pins := { s.pins with heat := heatCalled s && s.power.measuring.isNone } }

/-- R142: a heater frame begins. -/
def beginHeaterFrame (s : State) : State :=
  driveHeat { s with power := { s.power with heater := some (newHeater s) } }

/-- R143: the level leaves NORMAL: HEAT goes low and the frame loses its permission. -/
def heaterLosesPermission (s : State) : State :=
  { s with
    power := { s.power with heater := s.power.heater.map (fun h => { h with permission := false }) }
    pins := { s.pins with heat := false } }

/-! ### Measurements end (R133, R135, R101) -/

/-- R135, R137: the level changes: LEVEL is raised and the change reported to the sequencer, the heater and the
shot engine. -/
def changeLevel (new : Level) (s : State) : State :=
  let old := s.power.level
  if new = old then s
  else
    let s1 := raise .level { s with power := { s.power with level := new } }
    let s2 := if old = .normal then heaterLosesPermission s1 else s1
    afterReplan (seqLevelChange old new s2)

/-- R101: the drift test: |T − T_cal| of 8 °C or more, or T_cal unset. -/
def drifted (tcal : Option Int) (temp : Int) : Bool :=
  match tcal with
  | none => true
  | some t => decide (8 ≤ (temp - t).natAbs)

/-- R101: no prime is running and a pending one lies at least 1 s ahead. -/
def primeFar (s : State) : Bool :=
  decide (s.engine.phase ≠ .prime) &&
    match pendingShot s with
    | some shot => decide (now s + Config.calibrationLeadTicks ≤ shot.primeAt)
    | none => true

/-- R101: the meter recalibrates by itself when the temperature of a timer measurement has drifted. -/
def driftTest (temp : Int) (s : State) : State :=
  if drifted s.meter.tcal temp && decide (s.meter.state = .idle) && decide (s.power.level ≠ .reserve) && primeFar s
  then beginCalibration temp s else s

/-- R133, R134: the sensors' values as a finished measurement, V and T clamped. -/
def finishedMeasurement (volts : Nat) (temp : Int) (kind : MeasKind) (s : State) : Measurement :=
  let v := min Config.maxMillivolts volts
  let t := clampInt (-40) 85 temp
  { volts := v, kind := kind, temp := t, veff := effectiveVolts v kind t s.settings.sa s.settings.cc }

/-- The level that a finished measurement decides (R135). -/
def decidedLevel (m : Measurement) (s : State) : Level :=
  levelAfter s.power.level m.veff s.settings.vt s.settings.vr s.settings.vh

/-- R140: the end of a measurement of the start-up series: a step from NORMAL to THRIFT takes another; any other
outcome ends the series, starts the timer and the first heater frame and makes the drift test. `found` goes on to the
autorun step. -/
def seriesStep (found : Found) (old : Level) (s : State) : State :=
  if old = .normal ∧ s.power.level = .thrift then startMeasurement false s
  else
    driftTest (lastTemp s)
      (beginHeaterFrame { s with
        power := { s.power with timer := some Config.measurementTimerCycles }
        startUp := .autorun found })

/-- R133: the end of a measurement outside the start-up series: the drift test if it served the timer, HEAT, and
the rail-on that waits, served by a REST measurement, or by a fresh one after a LOADED one (R132). -/
def afterMeasurement (m : Measuring) (temp : Int) (s : State) : State :=
  let s1 := if m.periodic then driftTest temp s else s
  let s2 := driveHeat s1
  if railWaits s2 && s2.power.measuring.isNone then
    if m.kind = .rest then releaseRail s2 else startMeasurement false s2
  else s2

/-- R133: a measurement ends: V, T and V_eff are stored and the level is decided. -/
def endMeasurement (m : Measuring) (volts : Nat) (temp : Int) (s : State) : State :=
  let r := finishedMeasurement volts temp m.kind s
  let old := s.power.level
  let s1 := { s with power := { s.power with measuring := none, last := some r } }
  let s2 := changeLevel (decidedLevel r s) s1
  match s.startUp with
  | .series found => seriesStep found old s2
  | .stopped | .autorun _ | .working => afterMeasurement m r.temp s2

end Sys2Proof.Machine
end

