-- ==== Sys2Proof/Machine/RunCommands.lean ====
section
/-! DEFINITION. The commands of the run sequencer (2.3): START, STOP, PAUSE, RESUME, NEXT and QUEUE; and those of
the calendar: TIME (R55, R56, R42). -/

namespace Sys2Proof.Machine

/-- START (R28). -/
def ownStart (args : List Token) (s : State) : State × List Text :=
  match slotArg .start args with
  | .error e => (s, e)
  | .ok n =>
    if s.seq.run = .idle then
      match slotAt s n with
      | none => (s, noLine .empty .start)
      | some seg => (startRun n seg s, okLine .start [natText n])
    else (s, noLine .state .start)

/-- STOP (R29). -/
def ownStop (args : List Token) (s : State) : State × List Text :=
  if args = [] then (stopRun s, okLine .stop []) else (s, noLine .malformed .stop)

/-- PAUSE (R30). -/
def ownPause (args : List Token) (s : State) : State × List Text :=
  if args = [] then
    match s.seq.run with
    | .active | .suspended => (pauseRun s, okLine .pause [])
    | .idle | .starved | .paused _ => (s, noLine .state .pause)
  else (s, noLine .malformed .pause)

/-- R31: the miss and retry counters are cleared. -/
def clearMisses (s : State) : State := { s with engine := { s.engine with misses := 0, retries := 0 } }

/-- RESUME (R31). -/
def ownResume (args : List Token) (s : State) : State × List Text :=
  if args = [] then
    match s.seq.run with
    | .paused _ =>
      let s' := clearMisses s
      if s.power.level = .reserve then
        ({ s' with seq := { s'.seq with run := .suspended } }, okLine .resume ["SUSPENDED".toList])
      else (afterReplan (activate s'), okLine .resume ["ACTIVE".toList])
    | .idle | .starved | .active | .suspended => (s, noLine .state .resume)
  else (s, noLine .malformed .resume)

/-- NEXT (R32). -/
def ownNext (args : List Token) (s : State) : State × List Text :=
  if args = [] then
    match s.seq.run with
    | .active | .suspended | .paused _ => (takeEnd s, okLine .next [])
    | .idle | .starved => (s, noLine .state .next)
  else (s, noLine .malformed .next)

/-- QUEUE (R33). -/
def ownQueue (args : List Token) (s : State) : State × List Text :=
  match slotArg .queue args with
  | .error e => (s, e)
  | .ok n =>
    if s.seq.run = .idle then (s, noLine .state .queue)
    else match slotAt s n with
      | none => (s, noLine .empty .queue)
      | some seg =>
        if s.seq.run = .starved then
          (afterReplan (makeCurrent n seg { s with seq := { s.seq with handoffs := 0, run := startedRun s } }),
            okLine .queue [natText n])
        else ({ s with seq := { s.seq with armed := some n } }, okLine .queue [natText n])

/-! ### TIME -/

/-- R55: the report of the calendar. -/
def timeReply (s : State) : List Text :=
  let sec := s.cal.seconds
  okLine .time [natText sec, natText s.cal.fraction, if s.cal.valid then "VALID".toList else "INVALID".toList,
    fieldText "DAY".toList (natText (dayOf sec)), fieldText "MIN".toList (natText (minuteOf sec)),
    fieldText "WD".toList (natText (weekdayOf (dayOf sec)))]

/-- R42: what TIME does to the run, taken in order against the new time. In PAUSED and SUSPENDED a shot in flight is left
as it is: if the run is ACTIVE again when it completes, the grid continues from its due time D, counted on the old
time, as R31 says of the completion (DESIGN CHOICE, assumption log 13: R42 says that the next schedule begins from
the new time). -/
def retime (s : State) : State :=
  let s1 := { s with seq := { s.seq with lastDue := none } }
  let due := untilReached s1
  let s2 := if due then takeEnd s1 else s1
  if decide (s2.seq.run = .active) && (inFlight s1 || !due) then
    if inFlight s2 then { s2 with seq := { s2.seq with anchorWaiting := true } }
    else
      let s3 := dropShot s2
      afterReplan (startSchedule false (now s3) s3)
  else s2

/-- R56: TIME sets the calendar and reports the set to the run sequencer. -/
def setTime (sec frac : Nat) (s : State) : State := retime { s with cal := s.cal.setTo sec frac }

/-- R56: the two numbers of TIME s f, the fraction 0 when missing; none for a malformed or a third argument. -/
def readTime : List Token → Option (Int × Int)
  | [a] => (readNumber a).map (fun x => (x, 0))
  | [a, b] =>
    match readNumber a, readNumber b with
    | some x, some y => some (x, y)
    | _, _ => none
  | _ => none

/-- R56: the seconds and the fraction in range. -/
def timeInRange (sec frac : Int) : Bool :=
  decide (0 ≤ sec) && decide (sec ≤ (Config.maxSeconds : Int)) && decide (0 ≤ frac) &&
    decide (frac < (Config.ticksPerSecond : Int))

/-- TIME (R55, R56). -/
def ownTime (args : List Token) (s : State) : State × List Text :=
  if args = [] then (s, timeReply s)
  else match readTime args with
    | none => (s, noLine .malformed .time)
    | some (sec, frac) =>
      if timeInRange sec frac then
        let s' := setTime sec.toNat frac.toNat s
        (s', timeReply s')
      else (s, noLine .range .time)

end Sys2Proof.Machine
end

