-- ==== Sys2Proof/Machine/SettingsStore.lean ====
section
/-! DEFINITION. SET and GET (9.7), the nonvolatile image with STORE and RECALL (11.3), STATUS and ID (9.8), and
the resets: cold start (11.4), autorun (R188) and warm reset (11.5). -/

namespace Sys2Proof.Machine

/-! ### SET and GET (R170, R171) -/

/-- R138: ST is taken as the largest of 1, 2, 4 and 8 not above the value, and 1 for a value below 1. -/
def takeStretch (v : Int) : Nat := if 8 ≤ v then 8 else if 4 ≤ v then 4 else if 2 ≤ v then 2 else 1

/-- R136: VR held no higher than VT − 50. -/
def capReserve (c : Settings) : Settings := { c with vr := min c.vr (c.vt - Config.thresholdGap) }

/-- R170: one setting takes a value with its clamps; a word goes to its own setting. -/
def takeSetting (key : SetKey) (v : SetValue) (c : Settings) : Settings :=
  match key, v with
  | .cs, .num x => { c with cs := clampNat 0 480 x }
  | .lm, .num x => { c with lm := clampNat 0 9600 x }
  | .pl, .num x => { c with pl := clampNat 4 64 x }
  | .wp, .num x => { c with wp := clampNat 0 32 x }
  | .sy, .sync w => { c with sy := w }
  | .ot, .num x => { c with ot := clampNat 1 64 x }
  | .wt, .num x => { c with wt := clampNat 1 960 x }
  | .wf, .num x => { c with wf := clampNat 0 960 x }
  | .vt, .num x => capReserve { c with vt := clampNat 3000 4500 x }
  | .vr, .num x => capReserve { c with vr := clampNat 2800 4400 x }
  | .vh, .num x => { c with vh := clampNat 0 500 x }
  | .sa, .num x => { c with sa := clampNat 0 1000 x }
  | .cc, .num x => { c with cc := clampNat 0 15 x }
  | .st, .num x => { c with st := takeStretch x }
  | .hd, .num x => { c with hd := clampNat 0 64 x }
  | .hb, .num x => { c with hb := clampInt (-40) 30 x }
  | .mc, .num x => { c with mc := clampInt (-64) 63 x }
  | .te, .edge w => { c with te := w }
  | .atOn, .attention w => { c with atOn := w }
  | .ar, .num x => { c with ar := some (clampNat 0 47 x) }
  | .ar, .noAutorun => { c with ar := none }
  | .tr, .num x => { c with tr := clampInt (-127) 127 x }
  | _, _ => c

/-- R138, R180: what a setting's new value sets going at once: AT drives or releases ATTN, and a change of the
stretch factor in force, in THRIFT, is a stretch change. -/
def settingActs (key : SetKey) (old : Settings) (s : State) : State :=
  match key with
  | .atOn => refreshAttn s
  | .st =>
    if s.power.level = .thrift ∧ s.settings.st ≠ old.st ∧ (restretched s).isSome = true then
      afterReplan (stretchChange s)
    else s
  | _ => s

/-- R170: one field of an accepted SET is applied. -/
def applySetting (p : SetKey × SetValue) (s : State) : State :=
  settingActs p.1 s.settings { s with settings := takeSetting p.1 p.2 s.settings }

/-- A setting's value as it is written (R171). -/
def settingText (c : Settings) : SetKey → Text
  | .cs => natText c.cs
  | .lm => natText c.lm
  | .pl => natText c.pl
  | .wp => natText c.wp
  | .sy => match c.sy with
    | .none => "NONE".toList
    | .busyHigh => "BUSYH".toList
    | .busyLow => "BUSYL".toList
  | .ot => natText c.ot
  | .wt => natText c.wt
  | .wf => natText c.wf
  | .vt => natText c.vt
  | .vr => natText c.vr
  | .vh => natText c.vh
  | .sa => natText c.sa
  | .cc => natText c.cc
  | .st => natText c.st
  | .hd => natText c.hd
  | .hb => intText c.hb
  | .mc => intText c.mc
  | .te => match c.te with
    | .fall => "FALL".toList
    | .rise => "RISE".toList
  | .atOn => if c.atOn then "ON".toList else "OFF".toList
  | .ar => match c.ar with
    | none => "OFF".toList
    | some n => natText n
  | .tr => intText c.tr

/-- key=value of a setting. -/
def settingField (c : Settings) (key : SetKey) : Text := fieldText key.text (settingText c key)

/-- R170: the fields of SET from left to right, or the key named in the refusal: with several faulty tokens on the line,
the leftmost one's (DESIGN CHOICE, assumption log 19: R170 gives no order). -/
def readSets (seen : List SetKey) : List Token → Except (Option Text) (List (SetKey × SetValue))
  | [] => .ok []
  | t :: ts =>
    match cutAt '=' t with
    | none => .error none
    | some (kt, vt) =>
      match readSetKey kt with
      | none => .error (keyNamed kt)
      | some key =>
        if seen.contains key then .error (some kt)
        else match readSetValue key vt with
          | none => .error (some kt)
          | some v =>
            match readSets (key :: seen) ts with
            | .error e => .error e
            | .ok rest => .ok ((key, v) :: rest)

/-- R170: the fields applied one after another, with the value taken of each. -/
def applySets : List (SetKey × SetValue) → State → State × List Text
  | [], s => (s, [])
  | p :: ps, s =>
    let s' := applySetting p s
    let rest := applySets ps s'
    (rest.1, settingField s'.settings p.1 :: rest.2)

/-- R136: a VT field applied to these settings moves VR. -/
def movesReserve (p : SetKey × SetValue) (c : Settings) : Bool :=
  decide (p.1 = .vt) && decide ((takeSetting p.1 p.2 c).vr ≠ c.vr)

/-- R170: a VT field has moved VR and VR is not given later on the line. -/
def reserveMoved : List (SetKey × SetValue) → Settings → Bool
  | [], _ => false
  | p :: ps, c =>
    (movesReserve p c && !(ps.map Prod.fst).contains .vr) || reserveMoved ps (takeSetting p.1 p.2 c)

/-- SET (R170). -/
def ownSet (args : List Token) (s : State) : State × List Text :=
  if args = [] then (s, noLine .malformed .set)
  else match readSets [] args with
    | .error key => (s, refuse .malformed .set key)
    | .ok fields =>
      let r := applySets fields s
      let moved := if reserveMoved fields s.settings then [settingField r.1.settings .vr] else []
      (r.1, okLine .set (r.2 ++ moved))

/-- R171: the keys of GET, or the key named in the refusal: with several faulty tokens on the line, the leftmost one's
(DESIGN CHOICE, assumption log 19: R171 gives no order). -/
def readKeys (seen : List SetKey) : List Token → Except Text (List SetKey)
  | [] => .ok []
  | t :: ts =>
    match readSetKey t with
    | none => .error t
    | some key =>
      if seen.contains key then .error t
      else match readKeys (key :: seen) ts with
        | .error e => .error e
        | .ok rest => .ok (key :: rest)

/-- GET (R171) changes nothing. -/
def ownGet (args : List Token) (s : State) : State × List Text :=
  match readKeys [] args with
  | .error t => (s, noLineKey .malformed .get t)
  | .ok keys => (s, okLine .get ((if args = [] then SetKey.all else keys).map (settingField s.settings)))

/-! ### The image (R183 to R186) -/

/-- R184: the contents of the image as the part holds them at this moment. -/
def imageNow (s : State) : ImageContents :=
  { slots := s.plan.slots, settings := s.settings, dark := s.meter.dark, tcal := s.meter.tcal }

/-- R186, R187: a good image is loaded: slots, settings, D and T_cal, the staging record emptied, ATTN following AT. -/
def loadImage (c : ImageContents) (s : State) : State :=
  refreshAttn { s with
    plan := { slots := c.slots, staging := none }
    settings := c.settings
    meter := { s.meter with dark := c.dark, tcal := c.tcal } }

/-- RECALL (R186). -/
def ownRecall (args : List Token) (s : State) : State × List Text :=
  if args = [] then
    if s.seq.run = .idle then
      if s.image.good then (loadImage s.image.contents (abandonCalibration s), okLine .recall [])
      else (raise .storeBad s, noLine .store .recall)
    else (s, noLine .state .recall)
  else (s, noLine .malformed .recall)

/-! ### ID and STATUS (R172, R173) -/

/-- ID (R172). -/
def ownIdent (args : List Token) (s : State) : State × List Text :=
  if args = [] then (s, okLine .ident ["AMELTRA".toList, "LZ420".toList, "2".toList])
  else (s, noLine .malformed .ident)

/-- RUN of STATUS. -/
def runWord : RunState → String
  | .idle => "IDLE"
  | .active => "ACTIVE"
  | .starved => "STARVED"
  | .paused _ => "PAUSED"
  | .suspended => "SUSPENDED"

/-- `runWord` as the characters of a line. -/
def runText (x : RunState) : Text := (runWord x).toList

/-- REASON of STATUS. -/
def reasonWord : RunState → String
  | .paused .host => "HOST"
  | .paused .camera => "CAMERA"
  | _ => "NONE"

/-- `reasonWord` as the characters of a line. -/
def reasonText (x : RunState) : Text := (reasonWord x).toList

/-- R23: the next due time: D in PENDING and PRIMING, none in NONE and IN_FLIGHT. -/
def nextDue (s : State) : Option Tick :=
  match s.seq.stage with
  | .pending d | .priming d => some d
  | .none | .inFlight _ => none

/-- DUE of STATUS: seconds,fraction or NONE. -/
def dueText (s : State) : Text :=
  match nextDue s with
  | some d => pairText (natText (d / Config.ticksPerSecond)) (natText (d % Config.ticksPerSecond))
  | none => "NONE".toList

/-- WAIT of STATUS. -/
def waitWord : Option Wait → String
  | some .between => "BETWEEN"
  | some .closed => "CLOSED"
  | some .timeless => "TIMELESS"
  | some .tripWait => "TRIP_WAIT"
  | none => "NONE"

/-- `waitWord` as the characters of a line. -/
def waitText (x : Option Wait) : Text := (waitWord x).toList

/-- LEVEL of STATUS. -/
def levelWord : Level → String
  | .normal => "NORMAL"
  | .thrift => "THRIFT"
  | .reserve => "RESERVE"

/-- `levelWord` as the characters of a line. -/
def levelText (x : Level) : Text := (levelWord x).toList

/-- RAIL of STATUS: the shot engine's phase. -/
def phaseWord : Phase → String
  | .dormant => "DORMANT"
  | .powering => "POWERING"
  | .ready => "READY"
  | .prime => "PRIME"
  | .exposing => "EXPOSING"
  | .writing => "WRITING"
  | .retryOff => "RETRY_OFF"

/-- `phaseWord` as the characters of a line. -/
def phaseText (x : Phase) : Text := (phaseWord x).toList

/-- EHELD of STATUS. -/
def heldText : Option Nat → Text
  | some e => natText e
  | none => "UNSET".toList

/-- CLOCK of STATUS. -/
def clockWord : ClockState → String
  | .off => "OFF"
  | .starting => "STARTING"
  | .running => "RUNNING"
  | .failed => "FAILED"

/-- `clockWord` as the characters of a line. -/
def clockText (x : ClockState) : Text := (clockWord x).toList

/-- R173: the fields of STATUS in their order. -/
def statusReply (s : State) : List Text :=
  okLine .status
    ([fieldText "RUN".toList (runText s.seq.run), fieldText "REASON".toList (reasonText s.seq.run),
      fieldText "CURRENT".toList (optText s.seq.current), fieldText "ARMED".toList (optText s.seq.armed),
      fieldText "INDEX".toList (natText (if s.seq.live.isSome then s.seq.shotIndex else 0)),
      fieldText "DUE".toList (dueText s), fieldText "WAIT".toList (waitText s.seq.wait)] ++
     [fieldText "LEVEL".toList (levelText s.power.level), fieldText "V".toList (natText (lastVolts s)),
      fieldText "TEMP".toList (intText (lastTemp s)), fieldText "RAIL".toList (phaseText s.engine.phase),
      fieldText "EHELD".toList (heldText s.expo.eHeld), fieldText "GHELD".toList (natText s.expo.gHeld),
      fieldText "RANGE".toList (stickyText s.meter),
      fieldText "CALENDAR".toList (if s.cal.valid then "VALID".toList else "INVALID".toList)] ++
     [fieldText "OLDEST".toList (optText (oldestNumber s.log)),
      fieldText "NEWEST".toList (optText (newestNumber s.log)),
      fieldText "CLOCK".toList (clockText s.clock.state)])

/-- STATUS (R173) changes nothing. -/
def ownStatus (args : List Token) (s : State) : State × List Text :=
  if args = [] then (s, statusReply s) else (s, noLine .malformed .status)

/-! ### Cold start (R187) and autorun (R188) -/

/-- Every block at its power-on values, the lines at rest (R20, R49, R86, R105, R128, R141, R150, R151, R162,
R175, R182). The backup domain, the image, the slots, the settings but AT, D and T_cal are left for the
start-up sequence. -/
def powerOnValues (s : State) : State :=
  { s with
    link := Link.cold
    plan := { s.plan with staging := none }
    seq := Sequencer.cold
    engine := Engine.cold
    pins := s.pins.rest
    meter := { Meter.cold with dark := s.meter.dark, tcal := s.meter.tcal }
    expo := Calculator.cold
    power := Supervisor.cold
    clock := Clock.cold
    log := []
    notices := []
    settings := { s.settings with atOn := false } }

/-- R187 step 1: the lost marker is reported and cleared. -/
def reportLost (s : State) : State :=
  if s.cal.lost then raise .timeLost { s with cal := { s.cal with lost := false } } else s

/-- R187 step 2: a good image is loaded; a bad one gives EMPTY slots, the defaults, D 0 and T_cal unset. -/
def checkImage (s : State) : State :=
  if s.image.good then loadImage s.image.contents s
  else raise .storeBad (loadImage Image.blank.contents s)

/-- R187: a cold start: power-on values, steps 1 and 2, and the first measurement of the start-up series (R140). -/
def coldStart (s : State) : State :=
  startMeasurement false { checkImage (reportLost (powerOnValues s)) with
    startUp := .series { lost := s.cal.lost, trim := s.settings.tr } }

/-- R187: nothing of a broken start-up sequence survives: the lost marker and the trim value, which lie in the backup
domain, are again as the sequence found them. -/
def undoStartUp (s : State) : State :=
  match s.startUp.found with
  | some f => { s with cal := { s.cal with lost := f.lost }, settings := { s.settings with tr := f.trim } }
  | none => s

/-- R185: a STORE that was writing is cut and leaves the image bad. Its writing is taken to last from its taking to the
end of its verify, as long as the link is WORKING (DESIGN CHOICE, assumption log 8: R185 does not say what a cut of the
read-back alone leaves). -/
def cutStore (s : State) : State :=
  match s.link.state with
  | .working _ => { s with image := { s.image with good := false } }
  | .ready | .sending .. => s

/-- R141, R163, R185, R187: the part stops: the lines at rest, a STORE in progress cut, and a start-up sequence in
progress undone. The calendar stands otherwise. -/
def stopPart (s : State) : State :=
  { powerOnValues (cutStore (undoStartUp s)) with startUp := .stopped }

/-- R188: AR starts its slot's run as START does; an EMPTY slot raises NEED_NEXT. -/
def autorun (s : State) : State :=
  match s.settings.ar with
  | none => s
  | some n =>
    match slotAt s n with
    | some seg => startRun n seg s
    | none => raise .needNext s

/-- R53: the backup domain restarts when power returns to it after it has lost its state. -/
def restartDomain (s : State) : State :=
  if s.cal.powered then s
  else { s with cal := Calendar.restarted, settings := { s.settings with tr := 0 } }

/-! ### Warm reset (R189) -/

/-- R105: the meter at a warm reset: a calibration in progress ends ABANDONED, D and T_cal are kept. -/
def warmMeter (m : Meter) : Meter :=
  { m with
    state := .idle, rangeStage := 2, overSeen := false, underSeen := false, oneOff := .none
    outcome := match m.state with | .calibrating .. => .abandoned | _ => m.outcome }

/-- R189: a warm reset: it acts as STOP, then the blocks take their warm-reset values. -/
def warmReset (s : State) : State :=
  let s1 := stopRun s
  clearNotices { s1 with
    link := Link.cold
    plan := { s1.plan with staging := none }
    seq := Sequencer.cold
    engine := { s1.engine with misses := 0, retries := 0 }
    meter := warmMeter s1.meter
    expo := Calculator.cold
    clock := Clock.cold }

end Sys2Proof.Machine
end

