-- ==== Sys2Proof/Machine/LinkOps.lean ====
section
/-! DEFINITION. The command link (chapter 9): assembling lines (R164), the pending slot (R165), taking lines and
sending replies (R166), verbs and their owners (R167), the line-level refusals (R168) and RESET (R174). -/

namespace Sys2Proof.Machine

/-- What a taken line is answered: reply lines; nothing yet, a STORE being written (R184); or reply lines with
the reset to make when they have been sent (R174). -/
inductive Answer where
  | lines (t : List Text)
  | storing (c : ImageContents)
  | resetting (t : List Text) (order : ResetOrder)
  deriving DecidableEq, Repr

/-- STORE (R184) fixes the contents to be written. -/
def ownStore (args : List Token) (s : State) : State × Answer :=
  if args = [] then (s, .storing (imageNow s)) else (s, .lines (noLine .malformed .store))

/-- RESET (R174). -/
def ownReset (args : List Token) (s : State) : State × Answer :=
  if args = ["WARM".toList] then (s, .resetting (okLine .reset ["WARM".toList]) .warm)
  else if args = ["COLD".toList] then (s, .resetting (okLine .reset ["COLD".toList]) .cold)
  else (s, .lines (noLine .malformed .reset))

/-- The answer of an owner that replies in the same event. -/
def replied (p : State × List Text) : State × Answer := (p.1, .lines p.2)

/-- R167: the owner of a verb answers the rest of the line's tokens. -/
def owner (v : Verb) (args : List Token) (s : State) : State × Answer :=
  match v with
  | .load => replied (ownLoad args s)
  | .show => replied (ownShow args s)
  | .clear => replied (ownClear args s)
  | .start => replied (ownStart args s)
  | .stop => replied (ownStop args s)
  | .pause => replied (ownPause args s)
  | .resume => replied (ownResume args s)
  | .next => replied (ownNext args s)
  | .queue => replied (ownQueue args s)
  | .adjust => replied (ownAdjust args s)
  | .time => replied (ownTime args s)
  | .meter => replied (ownMeter args s)
  | .calibrate => replied (ownCalibrate args s)
  | .frames => replied (ownFrames args s)
  | .poll => replied (ownPoll args s)
  | .store => ownStore args s
  | .recall => replied (ownRecall args s)
  | .ident => replied (ownIdent args s)
  | .status => replied (ownStatus args s)
  | .set => replied (ownSet args s)
  | .get => replied (ownGet args s)
  | .reset => ownReset args s

/-- R166, R167, R168: the answer to a line that is taken. -/
def answerLine (l : Line) (s : State) : State × Answer :=
  match l with
  | .long => (s, .lines [longRefusal])
  | .bad => (s, .lines [bareRefusal])
  | .command [] => (s, .lines [bareRefusal])
  | .command (t :: args) =>
    match readVerb t with
    | none => (s, .lines [bareRefusal])
    | some v => owner v args s

/-- The link takes a new state. -/
def setLink (k : LinkState) (s : State) : State := { s with link := { s.link with state := k } }

/-- R166: the answer is ready: the reply begins and the state becomes SENDING; a STORE leaves it WORKING. -/
def beginReply (p : State × Answer) : State :=
  match p.2 with
  | .lines t => setLink (.sending t .none) p.1
  | .storing c => setLink (.working c) p.1
  | .resetting t order => setLink (.sending t order) p.1

/-- R166, R175: in READY, with the start-up sequence ended, the line in the pending slot is taken and answered. -/
def takeLine (s : State) : State :=
  match s.link.waiting, s.link.state with
  | some l, .ready =>
    if working s then beginReply (answerLine l { s with link := { s.link with waiting := none } }) else s
  | _, _ => s

/-- R165: a completed line goes to the pending slot if it is empty and is discarded otherwise; in READY it is
taken at that moment. -/
def completeLine (l : Line) (s : State) : State :=
  match s.link.waiting with
  | none => takeLine { s with link := { s.link with waiting := some l } }
  | some _ => s

/-- R163, R175: lines reach the link while the part is not stopped. -/
def offerLine (l : Line) (s : State) : State :=
  if s.startUp = .stopped then s else completeLine l s

/-- A command line of a verb and its tokens. -/
def offerCommand (v : Verb) (args : List Token) (s : State) : State := offerLine (.command (v.text :: args)) s

/-! ### Characters (R163, R164) -/

/-- The kinds of a received character (R163). -/
inductive CharKind where
  | line (c : Char)
  | cr
  | lf
  | bad
  deriving DecidableEq, Repr

/-- R163: a character with a framing error is bad; 32 to 126 are line characters; 13 and 10 are endings. Letters
are taken as capitals (R164). -/
def charKind (value : Nat) (framing : Bool) : CharKind :=
  if framing then .bad
  else if 32 ≤ value ∧ value ≤ 126 then
    .line (Char.ofNat (if 97 ≤ value ∧ value ≤ 122 then value - 32 else value))
  else if value = 13 then .cr
  else if value = 10 then .lf
  else .bad

/-- R164: what the receive buffer yields at an ending; none for an empty line. -/
def bufferLine (k : Link) : Option Line :=
  if k.longMark then some .long
  else if k.badMark then some .bad
  else if tokensOf k.buffer = [] then none
  else some (.command (tokensOf k.buffer))

/-- R164: an ending empties the buffer and completes its line. -/
def endLine (byCr : Bool) (s : State) : State :=
  let s' := { s with link := { s.link with buffer := [], longMark := false, badMark := false, afterCr := byCr } }
  match bufferLine s.link with
  | some l => completeLine l s'
  | none => s'

/-- R164: the effect of a received character on the receive buffer. -/
def receive (k : CharKind) (s : State) : State :=
  match k with
  | .line c =>
    if s.link.buffer.length < Config.lineLimit then
      { s with link := { s.link with buffer := s.link.buffer ++ [c], afterCr := false } }
    else { s with link := { s.link with longMark := true, afterCr := false } }
  | .bad => { s with link := { s.link with badMark := true, afterCr := false } }
  | .cr => endLine true s
  | .lf => if s.link.afterCr then { s with link := { s.link with afterCr := false } } else endLine false s

/-! ### TXD (R163) -/

/-- R163: the characters of a reply: each of its lines, followed by CR and LF. -/
def replyCharacters (reply : List Text) : Text := reply.flatMap (fun line => line ++ [Char.ofNat 13, Char.ofNat 10])

/-- R163: a character as ten bit times on TXD: a low start bit, 8 data bits with the least significant first, a high
stop bit. -/
def characterBits (c : Char) : List Bool := false :: (List.range 8).map c.toNat.testBit ++ [true]

/-- R163, R166: the characters that TXD is sending: the reply's in SENDING, none otherwise. -/
def txdCharacters (s : State) : Text :=
  match s.link.state with
  | .sending reply _ => replyCharacters reply
  | .ready | .working _ => []

/-- R163: the levels of TXD, one for each bit time from the start of the reply to REPLY_SENT; outside them, and so
wherever the list is empty, TXD rests at the high level. The pin is a view of the link state and holds nothing of
its own. -/
def txdLevels (s : State) : List Bool := (txdCharacters s).flatMap characterBits

/-! ### Ends of replies (R166, R174, R184) -/

/-- R166, R174: the reply has been sent: the link becomes READY and takes a waiting line, or makes the reset ordered. -/
def replyDone (s : State) : State :=
  match s.link.state with
  | .sending _ .none => takeLine (setLink .ready s)
  | .sending _ .warm => warmReset (setLink .ready s)
  | .sending _ .cold => coldStart (setLink .ready s)
  | .ready | .working _ => s

/-- R184, R185: the verify of a STORE ends: the image is good with the new contents, or it is marked bad. -/
def verifyDone (good : Bool) (s : State) : State :=
  match s.link.state with
  | .working c =>
    setLink (.sending (if good then okLine .store [] else noLine .store .store) .none)
      { s with image := { contents := c, good := good } }
  | .ready | .sending _ _ => s

end Sys2Proof.Machine
end

