-- ==== Sys2Proof/Machine/HostLines.lean ====
section
/-! DEFINITION. The meanings of the rows that the host sends: characters, complete lines of each verb, and the
ends of replies. A row that is a line is that line arriving complete at the command link: in READY it is taken
and carried out at once (R166), while a reply is being sent it waits in the pending slot, and a line that finds
the slot full is discarded (R165). -/

namespace Sys2Proof.Machine

/-- The outcome of a command or event: this part goes on after every one. -/
abbrev Out := Host.Outcome State Fault Refusal

/-- RECEIVE_CHARACTER (R163, R164): RXD is ignored while the part is stopped. -/
def execReceiveCharacter (value : BitVec 8) (framing : Bool) (s : State) : Out :=
  .next (if s.startUp = .stopped then s else receive (charKind value.toNat framing) s)

/-- REPLY_SENT (R166, R174). -/
def execReplySent (s : State) : Out := .next (replyDone s)

/-- LONG_LINE (R164, R168). -/
def execLongLine (s : State) : Out := .next (offerLine .long s)

/-- BAD_LINE (R164, R168). -/
def execBadLine (s : State) : Out := .next (offerLine .bad s)

/-- UNKNOWN_VERB (R167, R168). -/
def execUnknownVerb (verb : Token) (args : List Token) (s : State) : Out :=
  .next (offerLine (.command (verb :: args)) s)

/-- LOAD (R5, R12). -/
def execLoad (args : List Token) (s : State) : Out := .next (offerCommand .load args s)

/-- LOAD_PART (R11): the tokens and the plus sign. -/
def execLoadPart (args : List Token) (s : State) : Out := .next (offerCommand .load (args ++ [plusMark]) s)

/-- SHOW with a slot number (R14). -/
def execShowSlot (args : List Token) (s : State) : Out := .next (offerCommand .show args s)

/-- SHOW alone (R15). -/
def execShowPlan (s : State) : Out := .next (offerCommand .show [] s)

/-- CLEAR (R16). -/
def execClear (args : List Token) (s : State) : Out := .next (offerCommand .clear args s)

/-- ADJUST (R18). -/
def execAdjust (args : List Token) (s : State) : Out := .next (offerCommand .adjust args s)

/-- START (R28). -/
def execStart (args : List Token) (s : State) : Out := .next (offerCommand .start args s)

/-- STOP (R29). -/
def execStop (args : List Token) (s : State) : Out := .next (offerCommand .stop args s)

/-- PAUSE (R30). -/
def execPause (args : List Token) (s : State) : Out := .next (offerCommand .pause args s)

/-- RESUME (R31). -/
def execResume (args : List Token) (s : State) : Out := .next (offerCommand .resume args s)

/-- NEXT (R32). -/
def execNextSegment (args : List Token) (s : State) : Out := .next (offerCommand .next args s)

/-- QUEUE (R33). -/
def execQueue (args : List Token) (s : State) : Out := .next (offerCommand .queue args s)

/-- TIME alone (R55). -/
def execTime (s : State) : Out := .next (offerCommand .time [] s)

/-- TIME with arguments (R56). -/
def execTimeSet (args : List Token) (s : State) : Out := .next (offerCommand .time args s)

/-- METER (R102). -/
def execMeter (args : List Token) (s : State) : Out := .next (offerCommand .meter args s)

/-- METER LAST (R103). -/
def execMeterLast (s : State) : Out := .next (offerCommand .meter ["LAST".toList] s)

/-- METER CLEAR (R98). -/
def execMeterClear (s : State) : Out := .next (offerCommand .meter ["CLEAR".toList] s)

/-- METER DARK (R104). -/
def execMeterDark (s : State) : Out := .next (offerCommand .meter ["DARK".toList] s)

/-- CALIBRATE (R99). -/
def execCalibrate (args : List Token) (s : State) : Out := .next (offerCommand .calibrate args s)

/-- FRAMES (R157). -/
def execFrames (args : List Token) (s : State) : Out := .next (offerCommand .frames args s)

/-- POLL (R178). -/
def execPoll (args : List Token) (s : State) : Out := .next (offerCommand .poll args s)

/-- STORE (R184). -/
def execStore (args : List Token) (s : State) : Out := .next (offerCommand .store args s)

/-- STORE_VERIFY_END (R184, R185). -/
def execStoreVerifyEnd (good : Bool) (s : State) : Out := .next (verifyDone good s)

/-- RECALL (R186). -/
def execRecall (args : List Token) (s : State) : Out := .next (offerCommand .recall args s)

/-- ID (R172). -/
def execIdent (args : List Token) (s : State) : Out := .next (offerCommand .ident args s)

/-- STATUS (R173). -/
def execStatus (args : List Token) (s : State) : Out := .next (offerCommand .status args s)

/-- SET (R170). -/
def execSet (args : List Token) (s : State) : Out := .next (offerCommand .set args s)

/-- GET (R171). -/
def execGet (args : List Token) (s : State) : Out := .next (offerCommand .get args s)

/-- RESET WARM (R174). -/
def execResetWarm (args : List Token) (s : State) : Out := .next (offerCommand .reset ("WARM".toList :: args) s)

/-- RESET COLD (R174). -/
def execResetCold (args : List Token) (s : State) : Out := .next (offerCommand .reset ("COLD".toList :: args) s)

end Sys2Proof.Machine
end

