-- ==== Sys2Proof/Machine/PowerEvents.lean ====
section
/-! DEFINITION. The meanings of the rows of the supply, nRST, the start-up sequence, the tick increment, the
power supervisor's measurements, the heater and the fast clock. An event that its own block does not await in
the state as it stands does not occur there and changes nothing (assumption log 2). -/

namespace Sys2Proof.Machine

/-! ### Supply and reset -/

/-- POWER_ON (R53, R187): VBAT comes to an unsupplied part: a backup domain without state restarts, and a cold
start begins unless nRST is held low. -/
def execPowerOn (s : State) : Out :=
  .next (if s.supply = .below then
      let s' := restartDomain { s with supply := .good }
      if s.nrstLow then s' else coldStart s'
    else s)

/-- NRST_ASSERT (R86, R163, R185). -/
def execNrstAssert (s : State) : Out := .next (stopPart { s with nrstLow := true })

/-- NRST_RELEASE (R187): with the supply good, a cold start begins. -/
def execNrstRelease (s : State) : Out :=
  .next (if s.nrstLow then
      let s' := { s with nrstLow := false }
      if s.supply = .good then coldStart s' else s'
    else s)

/-- BROWNOUT (R141). -/
def execBrownout (s : State) : Out := .next (stopPart { s with supply := .below })

/-- VBAT_RETURN (R141, R53): the domain is fed from VBAT again, and the 250 ms begin. -/
def execVbatReturn (s : State) : Out :=
  .next (if s.supply = .below then restartDomain { s with supply := .returning Config.recoveryCycles } else s)

/-- BROWNOUT_RECOVERY (R141): the 250 ms have run without a break; a cold start begins unless nRST is held low. -/
def execBrownoutRecovery (s : State) : Out :=
  .next (match s.supply with
    | .returning left =>
      if ranOut left then
        let s' := { s with supply := .good }
        if s.nrstLow then s' else coldStart s'
      else s
    | .below | .good => s)

/-- R53: the backup domain without its state, until power returns to it. -/
def loseDomain (s : State) : State :=
  { s with cal := { Calendar.restarted with lost := false, powered := false }, settings := { s.settings with tr := 0 } }

/-- BACKUP_DOMAIN_LOSS (R53): fed from VBKP, the domain loses its state. -/
def execBackupDomainLoss (s : State) : Out := .next (if s.supply = .below then loseDomain s else s)

/-- AUTORUN_START (R188, R175): step 4 of the start-up sequence, after which the link takes its first line. -/
def execAutorunStart (s : State) : Out :=
  .next (match s.startUp with
    | .autorun _ => takeLine (autorun { s with startUp := .working })
    | .stopped | .series _ | .working => s)

/-! ### The tick increment -/

/-- The slow-clock counts of a shot in flight. -/
def Flight.tick (f : Flight) : Flight :=
  { f with bulbLeft := countTick f.bulbLeft, openLeft := countTick f.openLeft,
           writeLeft := countTick f.writeLeft, fixedLeft := f.fixedLeft.map countTick }

/-- The slow-clock counts of the shot engine. -/
def Engine.tick (e : Engine) : Engine :=
  { e with
    settleLeft := countTick e.settleLeft, wakeLeft := countTick e.wakeLeft, holdLeft := countTick e.holdLeft
    shot := e.shot.map (fun shot => { shot with flight := shot.flight.map Flight.tick }) }

/-- The slow-clock counts of the power supervisor. -/
def Supervisor.tick (p : Supervisor) : Supervisor :=
  { p with
    measuring := p.measuring.map (fun m => { m with left := countTick m.left })
    timer := p.timer.map countTick
    heater := p.heater.map (fun h => { h with left := countTick h.left, onLeft := countTick h.onLeft }) }

/-- The 250 ms count of brownout recovery. -/
def Supply.tick : Supply → Supply
  | .returning left => .returning (countTick left)
  | x => x

/-- R50: 32 slow-clock cycles pass for every count that runs on the slow clock. -/
def countSlow (s : State) : State :=
  { s with
    engine := s.engine.tick
    power := s.power.tick
    clock := { s.clock with startLeft := countTick s.clock.startLeft }
    supply := s.supply.tick }

/-- R48, R61: the close of the window of a TRIP segment in TRIP_WAIT: the wait becomes CLOSED with the next opening
instant; a shot pending or priming is dropped and its event counted as ignored. -/
def closeTrip (seg : Segment) (s : State) : State :=
  let held := match s.seq.stage with
    | .pending _ | .priming _ => true
    | .none | .inFlight _ => false
  let s1 := setWait (some .closed) (nextOpening seg.win seg.days (now s)) (dropShot s)
  afterReplan
    (if held then { s1 with seq := { s1.seq with ignored := addUpTo Config.maxHanded s1.seq.ignored 1 } } else s1)

/-- R61: the close report: the run ACTIVE, the calendar valid, a TRIP segment with WIN in TRIP_WAIT. -/
def closeReport (s : State) : State :=
  match liveSeg s with
  | some seg =>
    if s.seq.run = .active ∧ s.cal.valid = true ∧ seg.src = .trip ∧ s.seq.wait = some .tripWait ∧
        windowCloses seg s.cal.seconds = true then closeTrip seg s
    else s
  | none => s

/-- R34, R61, R62: the seconds count has increased: the end time is tested, then the close of the window. The end is
so taken before any arrival of the same instant: a due time at UNTIL × 1,024 asserts no TRIG (DESIGN CHOICE,
assumption log 15: the rules give no order). -/
def secondPassed (s : State) : State :=
  closeReport (if untilReached s then takeEnd s else s)

/-- TICK_INCREMENT (R50, R53, R57, R58, R61, R62): the calendar counts. A tick comes only while the slow clock runs,
so one that finds the backup domain without its state shows that power has returned on VBKP: the domain has restarted
and counts from 0 (assumption log 10). -/
def execTickIncrement (s : State) : Out :=
  let s0 := restartDomain s
  let s1 := countSlow { s0 with cal := s0.cal.tick s0.settings.tr }
  .next (if s0.cal.seconds < s1.cal.seconds then secondPassed s1 else s1)

/-! ### Measurements, heater, fast clock -/

/-- MEASUREMENT_TIMER_EXPIRY (R131). -/
def execMeasurementTimerExpiry (s : State) : Out :=
  .next (match s.power.timer with
    | some left =>
      if ranOut left then
        askPeriodic { s with power := { s.power with timer := some Config.measurementTimerCycles } }
      else s
    | none => s)

/-- MEASUREMENT_END (R133, R135, R140, R101). -/
def execMeasurementEnd (volts : Nat) (temp : Int) (s : State) : Out :=
  .next (match s.power.measuring with
    | some m => if ranOut m.left then endMeasurement m volts temp s else s
    | none => s)

/-- HEATER_FRAME_BOUNDARY (R142). -/
def execHeaterFrameBoundary (s : State) : Out :=
  .next (match s.power.heater with
    | some h => if ranOut h.left then beginHeaterFrame s else s
    | none => s)

/-- HEATER_ON_TIME_END (R142): with the duty at 64 the on-time is the whole frame and its end is the boundary. -/
def execHeaterOnTimeEnd (s : State) : Out :=
  .next (match s.power.heater with
    | some h =>
      if ranOut h.onLeft && !ranOut h.left then
        driveHeat { s with power := { s.power with heater := some { h with onLeft := 0 } } }
      else s
    | none => s)

/-- R146: the count of a check period is good. -/
def goodPeriod (count : Nat) : Bool := decide (Config.periodLow ≤ count) && decide (count ≤ Config.periodHigh)

/-- R90: fast-clock cycles pass for the integration or computation in progress. -/
def MeterState.advance (cycles : Nat) : MeterState → MeterState
  | .converting who stage repeats (.integrating left) => .converting who stage repeats (.integrating (left - cycles))
  | .converting who stage repeats (.computing left count dark mc) =>
    .converting who stage repeats (.computing (left - cycles) count dark mc)
  | .calibrating temp made sum (some left) => .calibrating temp made sum (some (left - cycles))
  | m => m

/-- R73, R90: fast-clock cycles pass for every count that runs on the fast clock. -/
def countFast (cycles : Nat) (s : State) : State :=
  { s with
    meter := { s.meter with state := s.meter.state.advance cycles }
    engine := s.engine.mapFast (Option.map (· - cycles)) }

/-- R146: the clock is stable: RUNNING, and each requester is told. -/
def clockStable (s : State) : State :=
  tellMeterRunning { s with clock := { s.clock with state := .running, goodPeriods := 0, startLeft := 0 } }

/-- CLOCK_PERIOD_END (R146, R147). -/
def execClockPeriodEnd (count : Nat) (s : State) : Out :=
  .next (match s.clock.state with
    | .starting =>
      if goodPeriod count then
        if s.clock.goodPeriods + 1 < Config.goodPeriodsNeeded then
          { s with clock := { s.clock with goodPeriods := s.clock.goodPeriods + 1 } }
        else clockStable s
      else { s with clock := { s.clock with goodPeriods := 0 } }
    | .running =>
      if goodPeriod count then countFast count s else failClock s
    | .off | .failed => s)

/-- CLOCK_START_TIMEOUT (R146). -/
def execClockStartTimeout (s : State) : Out :=
  .next (match s.clock.state with
    | .starting => if ranOut s.clock.startLeft then failClock s else s
    | .off | .running | .failed => s)

end Sys2Proof.Machine
end

