-- ==== Sys2Proof/Machine/ShotEvents.lean ====
section
/-! DEFINITION. The meanings of the rows of the calendar's arrivals, the shot engine, the camera's BUSY line, the
trip input and the scene meter. An event that its own block does not await in the state as it stands does not
occur there and changes nothing (assumption log 2). -/

namespace Sys2Proof.Machine

/-! ### Arrivals of calendar instants (R51) -/

/-- R41, R48: the window opens: a TIMED segment returns to BETWEEN, a TRIP segment to TRIP_WAIT with its edge
counter at 0. -/
def openWindow (seg : Segment) (s : State) : State :=
  match seg.src with
  | .timed => setWait (some .between) none s
  | .trip =>
    afterReplan (setWait (some .tripWait) none { s with seq := { s.seq with edges := 0 } })

/-- WINDOW_OPENING (R41, R48). -/
def execWindowOpening (s : State) : Out :=
  .next (match s.seq.wait, s.seq.opening, liveSeg s with
    | some .closed, some w, some seg => if arrived s w then openWindow seg s else s
    | _, _, _ => s)

/-- MEASURE_INSTANT (R67). -/
def execMeasureInstant (s : State) : Out :=
  .next (match pendingShot s with
    | some shot => if s.engine.phase = .dormant then measureArrives shot s else s
    | none => s)

/-- RAIL_ON_INSTANT (R67): CAMPWR rises if the rest measurement has ended. -/
def execRailOnInstant (s : State) : Out :=
  .next (match pendingShot s with
    | some shot =>
      if arrived s shot.railOnAt && decide (s.engine.phase = .dormant) && decide (s.engine.ask = .shotReady) then
        railRise s
      else s
    | none => s)

/-- PRIME_INSTANT (R69): in POWERING the prime waits for the settle (R68). -/
def execPrimeInstant (s : State) : Out :=
  .next (match pendingShot s with
    | some shot =>
      if arrived s shot.primeAt && decide (s.engine.phase = .ready) then beginPrime s else s
    | none => s)

/-- DUE_TIME (R71): in DORMANT the shot waits for the rise of CAMPWR. -/
def execDueTime (s : State) : Out :=
  .next (match s.seq.stage, s.engine.phase with
    | .priming d, .prime => if arrived s d then dueInPrime s else s
    | .pending d, .powering => if arrived s d then dueBeforePrime s else s
    | .pending d, .ready => if arrived s d then dueBeforePrime s else s
    | _, _ => s)

/-! ### The shot engine's counts -/

/-- SETTLE_EXPIRY (R68, R81). -/
def execSettleExpiry (s : State) : Out :=
  .next (if s.engine.phase = .powering ∧ ranOut s.engine.settleLeft = true then settled s else s)

/-- WAKE_PULSE_END (R69). -/
def execWakePulseEnd (s : State) : Out :=
  .next (if s.pins.wake = true ∧ ranOut s.engine.wakeLeft = true then releaseWake s else s)

/-- R73: the bulb count ends: TRIG is released, the clock request dropped, the phase WRITING; the level of BUSY at
the release is read. -/
def releaseTrig (busy : Bool) (s : State) : State :=
  dropClock .shot
    { s with
      engine := { s.engine with phase := .writing }
      pins := { s.pins with trig := false, busy := busy } }

/-- R74, R75, R76: what follows the release: write_fixed without a sync line or after the open watch has expired;
completion when BUSY is already inactive after its open edge; otherwise the write watch. -/
def afterRelease (busy : Bool) (shot : Shot) (f : Flight) (s : State) : State :=
  if f.sy = .none then beginWriteFixed false shot f s
  else if f.noSync then beginWriteFixed true shot f s
  else if f.lag.isSome && decide (busy ≠ activeLevel f.sy) then
    completeShot false (setFlight shot { f with wr := some 0 } s)
  else setFlight shot { f with writeLeft := f.wt * Config.sixteenthCycles } s

/-- R73, R147: the count that times the bulb has run out: the fast clock's where it times the bulb, else the slow
clock's. -/
def bulbRanOut (f : Flight) : Bool :=
  match f.fastLeft with
  | some left => fastRanOut left
  | none => ranOut f.bulbLeft

/-- BULB_END (R73). -/
def execBulbEnd (busy : Bool) (s : State) : Out :=
  .next (match flightOf s, s.engine.phase with
    | some (shot, f), .exposing =>
      if bulbRanOut f then afterRelease busy shot f (releaseTrig busy s) else s
    | _, _ => s)

/-- R75: the open edge is awaited: a sync line, the open watch running, no open edge yet. -/
def awaitsOpenEdge (f : Flight) : Bool := decide (f.sy ≠ .none) && !f.noSync && f.lag.isNone

/-- BUSY_OPEN_EDGE (R75): within the open watch the lag is recorded; a later change is no open edge. -/
def execBusyOpenEdge (cycles : Nat) (s : State) : Out :=
  .next (match flightOf s with
    | some (shot, f) =>
      if awaitsOpenEdge f && decide (cycles ≤ f.ot * Config.sixteenthCycles) then
        let s' := { s with pins := { s.pins with busy := activeLevel f.sy } }
        setFlight shot { f with lag := some (toMs cycles) } s'
      else s
    | none => s)

/-- R75: the write watch runs: after the release, the open edge seen, write_fixed not being counted. -/
def awaitsWriteEdge (s : State) (f : Flight) : Bool :=
  decide (s.engine.phase = .writing) && decide (f.sy ≠ .none) && f.lag.isSome && !f.noSync

/-- BUSY_WRITE_EDGE (R75, R77): within the write watch the write time is recorded and the shot completes. -/
def execBusyWriteEdge (cycles : Nat) (s : State) : Out :=
  .next (match flightOf s with
    | some (shot, f) =>
      if awaitsWriteEdge s f && decide (cycles ≤ f.wt * Config.sixteenthCycles) then
        let s' := { s with pins := { s.pins with busy := !activeLevel f.sy } }
        completeShot false (setFlight shot { f with wr := some (toMs cycles) } s')
      else s
    | none => s)

/-- OPEN_WATCH_EXPIRY (R76): the frame is flagged NO_SYNC; after the release write_fixed begins at once. -/
def execOpenWatchExpiry (s : State) : Out :=
  .next (match flightOf s with
    | some (shot, f) =>
      if awaitsOpenEdge f && ranOut f.openLeft then
        let f' := { f with noSync := true }
        let s' := setFlight shot f' s
        if s.engine.phase = .writing then beginWriteFixed true shot f' s' else s'
      else s
    | none => s)

/-- WRITE_WATCH_EXPIRY (R76): the shot completes as a miss flagged NO_SYNC. -/
def execWriteWatchExpiry (s : State) : Out :=
  .next (match flightOf s with
    | some (shot, f) =>
      if awaitsWriteEdge s f && ranOut f.writeLeft then
        completeShot true (setFlight shot { f with noSync := true } s)
      else s
    | none => s)

/-- WRITE_FIXED_EXPIRY (R74, R76): the shot completes; after an expired open watch it is a miss. -/
def execWriteFixedExpiry (s : State) : Out :=
  .next (match flightOf s with
    | some (_, f) =>
      match f.fixedLeft with
      | some left => if ranOut left then completeShot f.noSync s else s
      | none => s
    | none => s)

/-- RETRY_HOLD_END (R81): the rest measurement is asked before CAMPWR rises. -/
def execRetryHoldEnd (s : State) : Out :=
  .next (if s.engine.phase = .retryOff ∧ s.engine.ask = .none ∧ ranOut s.engine.holdLeft = true then
      askRail .retryWaiting s
    else s)

/-! ### The trip input (R46, R47) -/

/-- R46: edge counting is enabled. -/
def countsEdges (s : State) : Bool :=
  decide (s.seq.run = .active) && decide (s.seq.wait = some .tripWait) &&
    decide ((liveSeg s).map Segment.src = some .trip)

/-- R46: the edge is a qualifying one. -/
def qualifies (te : TripEdge) (rising : Bool) : Bool := rising == decide (te = .rise)

/-- R47: the spacing from the last due time has passed. -/
def spacingPassed (seg : Segment) (s : State) : Bool :=
  match s.seq.lastDue with
  | none => true
  | some l => decide (l + gridStep seg s ≤ now s)

/-- R47: an ignored event is counted. -/
def ignoreTrip (s : State) : State :=
  { s with seq := { s.seq with ignored := addUpTo Config.maxHanded s.seq.ignored 1 } }

/-- R47: a trip event makes a shot due at now + P, or is ignored and counted. -/
def tripEvent (seg : Segment) (s : State) : State :=
  if decide (s.seq.stage = .none) && !s.engine.retrying && spacingPassed seg s then
    let d := now s + prepTicks false s
    if segOpen seg d then arrivals (handShot d s) else ignoreTrip s
  else ignoreTrip s

/-- R46: a qualifying edge is counted; the one that would bring the counter to DIV sets it to 0 and is a trip event. -/
def countEdge (seg : Segment) (s : State) : State :=
  if seg.div ≤ s.seq.edges + 1 then tripEvent seg { s with seq := { s.seq with edges := 0 } }
  else { s with seq := { s.seq with edges := s.seq.edges + 1 } }

/-- TRIP after an edge. -/
def tripLevel (rising : Bool) (s : State) : State := { s with pins := { s.pins with trip := rising } }

/-- TRIP_EDGE (R46, R47). -/
def execTripEdge (rising : Bool) (s : State) : Out :=
  .next (match liveSeg s with
    | some seg =>
      if countsEdges s && qualifies s.settings.te rising then countEdge seg (tripLevel rising s)
      else tripLevel rising s
    | none => tripLevel rising s)

/-! ### The scene meter (R90, R100) -/

/-- R90, R91: an integration of count `n` at a stage has ended: it is repeated at a neighbouring stage, or it is
final and its result is computed, with D and MC as they stand now (R93, R95; assumption log 21). -/
def afterIntegration (who : Requester) (stage repeats n dark : Nat) (mc : Int) : MeterState :=
  match repeatStage n stage repeats with
  | some g => .converting who g (repeats + 1) (.integrating Config.integrationCycles)
  | none => .converting who stage repeats (.computing Config.computationCycles n dark mc)

/-- INTEGRATION_END (R90, R91): the integration is repeated at a neighbouring stage, or it is final and computed. -/
def execIntegrationEnd (count : Nat) (s : State) : Out :=
  .next (match s.meter.state with
    | .converting who stage repeats (.integrating left) =>
      if fastRanOut left then
        { s with meter := { s.meter with
          state := afterIntegration who stage repeats (min Config.maxCount count) s.meter.dark s.settings.mc } }
      else s
    | _ => s)

/-- COMPUTATION_END (R90, R93 to R97). -/
def execComputationEnd (s : State) : Out :=
  .next (match s.meter.state with
    | .converting who stage _ (.computing left n dark mc) =>
      if fastRanOut left then finishReading who stage n dark mc s else s
    | _ => s)

/-- DARK_INTEGRATION_END (R100): at the eighth, D and T_cal are set and the outcome is DONE. -/
def execDarkIntegrationEnd (count : Nat) (s : State) : Out :=
  .next (match s.meter.state with
    | .calibrating temp made sum (some left) =>
      if fastRanOut left then
        let sum' := sum + min Config.maxCount count
        if made + 1 < Config.darkIntegrations then
          { s with meter := { s.meter with
            state := .calibrating temp (made + 1) sum' (some Config.integrationCycles) } }
        else
          meterToIdle { s with meter := { s.meter with dark := darkFrom sum', tcal := some temp, outcome := .done } }
      else s
    | _ => s)

end Sys2Proof.Machine
end

