-- ==== Sys2Proof/Machine/Dispatch.lean ====
section
/-! DEFINITION. The dispatch: one arm for each command of Syntax.lean, in the order of the table, each one direct
call of that command's meaning. -/

namespace Sys2Proof.Machine

def exec (i : Instr) (s : State) : Host.Outcome State Fault Refusal :=
  match i with
  | .receiveCharacter value framing => Sys2Proof.Machine.execReceiveCharacter value framing s
  | .replySent => Sys2Proof.Machine.execReplySent s
  | .longLine => Sys2Proof.Machine.execLongLine s
  | .badLine => Sys2Proof.Machine.execBadLine s
  | .unknownVerb verb args => Sys2Proof.Machine.execUnknownVerb verb args s
  | .load args => Sys2Proof.Machine.execLoad args s
  | .loadPart args => Sys2Proof.Machine.execLoadPart args s
  | .showSlot args => Sys2Proof.Machine.execShowSlot args s
  | .showPlan => Sys2Proof.Machine.execShowPlan s
  | .clear args => Sys2Proof.Machine.execClear args s
  | .adjust args => Sys2Proof.Machine.execAdjust args s
  | .start args => Sys2Proof.Machine.execStart args s
  | .stop args => Sys2Proof.Machine.execStop args s
  | .pause args => Sys2Proof.Machine.execPause args s
  | .resume args => Sys2Proof.Machine.execResume args s
  | .nextSegment args => Sys2Proof.Machine.execNextSegment args s
  | .queue args => Sys2Proof.Machine.execQueue args s
  | .time => Sys2Proof.Machine.execTime s
  | .timeSet args => Sys2Proof.Machine.execTimeSet args s
  | .meter args => Sys2Proof.Machine.execMeter args s
  | .meterLast => Sys2Proof.Machine.execMeterLast s
  | .meterClear => Sys2Proof.Machine.execMeterClear s
  | .meterDark => Sys2Proof.Machine.execMeterDark s
  | .calibrate args => Sys2Proof.Machine.execCalibrate args s
  | .frames args => Sys2Proof.Machine.execFrames args s
  | .poll args => Sys2Proof.Machine.execPoll args s
  | .store args => Sys2Proof.Machine.execStore args s
  | .storeVerifyEnd good => Sys2Proof.Machine.execStoreVerifyEnd good s
  | .recallImage args => Sys2Proof.Machine.execRecall args s
  | .ident args => Sys2Proof.Machine.execIdent args s
  | .status args => Sys2Proof.Machine.execStatus args s
  | .set args => Sys2Proof.Machine.execSet args s
  | .get args => Sys2Proof.Machine.execGet args s
  | .resetWarm args => Sys2Proof.Machine.execResetWarm args s
  | .resetCold args => Sys2Proof.Machine.execResetCold args s
  | .powerOn => Sys2Proof.Machine.execPowerOn s
  | .nrstAssert => Sys2Proof.Machine.execNrstAssert s
  | .nrstRelease => Sys2Proof.Machine.execNrstRelease s
  | .brownout => Sys2Proof.Machine.execBrownout s
  | .brownoutRecovery => Sys2Proof.Machine.execBrownoutRecovery s
  | .backupDomainLoss => Sys2Proof.Machine.execBackupDomainLoss s
  | .autorunStart => Sys2Proof.Machine.execAutorunStart s
  | .tickIncrement => Sys2Proof.Machine.execTickIncrement s
  | .windowOpening => Sys2Proof.Machine.execWindowOpening s
  | .measureInstant => Sys2Proof.Machine.execMeasureInstant s
  | .railOnInstant => Sys2Proof.Machine.execRailOnInstant s
  | .settleExpiry => Sys2Proof.Machine.execSettleExpiry s
  | .primeInstant => Sys2Proof.Machine.execPrimeInstant s
  | .wakePulseEnd => Sys2Proof.Machine.execWakePulseEnd s
  | .dueTime => Sys2Proof.Machine.execDueTime s
  | .bulbEnd busy => Sys2Proof.Machine.execBulbEnd busy s
  | .busyOpenEdge cycles => Sys2Proof.Machine.execBusyOpenEdge cycles s
  | .busyWriteEdge cycles => Sys2Proof.Machine.execBusyWriteEdge cycles s
  | .openWatchExpiry => Sys2Proof.Machine.execOpenWatchExpiry s
  | .writeWatchExpiry => Sys2Proof.Machine.execWriteWatchExpiry s
  | .writeFixedExpiry => Sys2Proof.Machine.execWriteFixedExpiry s
  | .retryHoldEnd => Sys2Proof.Machine.execRetryHoldEnd s
  | .tripEdge rising => Sys2Proof.Machine.execTripEdge rising s
  | .integrationEnd count => Sys2Proof.Machine.execIntegrationEnd count s
  | .computationEnd => Sys2Proof.Machine.execComputationEnd s
  | .darkIntegrationEnd count => Sys2Proof.Machine.execDarkIntegrationEnd count s
  | .measurementTimerExpiry => Sys2Proof.Machine.execMeasurementTimerExpiry s
  | .measurementEnd volts temp => Sys2Proof.Machine.execMeasurementEnd volts temp s
  | .heaterFrameBoundary => Sys2Proof.Machine.execHeaterFrameBoundary s
  | .heaterOnTimeEnd => Sys2Proof.Machine.execHeaterOnTimeEnd s
  | .clockPeriodEnd count => Sys2Proof.Machine.execClockPeriodEnd count s
  | .clockStartTimeout => Sys2Proof.Machine.execClockStartTimeout s
  | .vbatReturn => Sys2Proof.Machine.execVbatReturn s

end Sys2Proof.Machine
end

