-- ==== Sys2Proof/Machine/Step.lean ====
section
/-! DEFINITION. One step of the LZ420: the command at the front of the queue is carried out; with no command
waiting the part idles (assumption log 1). -/

namespace Sys2Proof.Machine

/-- The command at the front of the queue is run with the rest of the queue; on an empty queue the block idles. -/
def step (s : State) : Host.Outcome State Fault Refusal :=
  match s.pending with
  | [] => .next s
  | c :: rest => exec c { s with pending := rest }

/-- The command that a table word spells, put at the front of the queue; the state unchanged where the word spells
none, as no word does (assumption log 1). -/
def State.withFetchWord (s : State) (nbits w : Nat) : State :=
  match decodeTableWord nbits w with
  | some c => { s with pending := c :: s.pending }
  | none => s

end Sys2Proof.Machine
end

