-- ==== Sys2Proof/Safety.lean ====
section
/-! DEFINITION. The words that claims about the LZ420 are made in: the line of a line command, a link that is free to
take a line, and the invariants of each block, every one of them the form in which a rule of spec/ says what
always holds. -/

namespace Sys2Proof.Machine

/-! ### Lines -/

/-- The line that a command brings to the link; none for an event that is not a line. -/
def lineOf : Instr → Option Line
  | .receiveCharacter _ _ => none
  | .replySent => none
  | .longLine => some .long
  | .badLine => some .bad
  | .unknownVerb verb args => some (.command (verb :: args))
  | .load args => some (.command ("LOAD".toList :: args))
  | .loadPart args => some (.command ("LOAD".toList :: (args ++ [plusMark])))
  | .showSlot args => some (.command ("SHOW".toList :: args))
  | .showPlan => some (.command ["SHOW".toList])
  | .clear args => some (.command ("CLEAR".toList :: args))
  | .adjust args => some (.command ("ADJUST".toList :: args))
  | .start args => some (.command ("START".toList :: args))
  | .stop args => some (.command ("STOP".toList :: args))
  | .pause args => some (.command ("PAUSE".toList :: args))
  | .resume args => some (.command ("RESUME".toList :: args))
  | .nextSegment args => some (.command ("NEXT".toList :: args))
  | .queue args => some (.command ("QUEUE".toList :: args))
  | .time => some (.command ["TIME".toList])
  | .timeSet args => some (.command ("TIME".toList :: args))
  | .meter args => some (.command ("METER".toList :: args))
  | .meterLast => some (.command ["METER".toList, "LAST".toList])
  | .meterClear => some (.command ["METER".toList, "CLEAR".toList])
  | .meterDark => some (.command ["METER".toList, "DARK".toList])
  | .calibrate args => some (.command ("CALIBRATE".toList :: args))
  | .frames args => some (.command ("FRAMES".toList :: args))
  | .poll args => some (.command ("POLL".toList :: args))
  | .store args => some (.command ("STORE".toList :: args))
  | .storeVerifyEnd _ => none
  | .recallImage args => some (.command ("RECALL".toList :: args))
  | .ident args => some (.command ("ID".toList :: args))
  | .status args => some (.command ("STATUS".toList :: args))
  | .set args => some (.command ("SET".toList :: args))
  | .get args => some (.command ("GET".toList :: args))
  | .resetWarm args => some (.command ("RESET".toList :: "WARM".toList :: args))
  | .resetCold args => some (.command ("RESET".toList :: "COLD".toList :: args))
  | .powerOn => none
  | .nrstAssert => none
  | .nrstRelease => none
  | .brownout => none
  | .brownoutRecovery => none
  | .backupDomainLoss => none
  | .autorunStart => none
  | .tickIncrement => none
  | .windowOpening => none
  | .measureInstant => none
  | .railOnInstant => none
  | .settleExpiry => none
  | .primeInstant => none
  | .wakePulseEnd => none
  | .dueTime => none
  | .bulbEnd _ => none
  | .busyOpenEdge _ => none
  | .busyWriteEdge _ => none
  | .openWatchExpiry => none
  | .writeWatchExpiry => none
  | .writeFixedExpiry => none
  | .retryHoldEnd => none
  | .tripEdge _ => none
  | .integrationEnd _ => none
  | .computationEnd => none
  | .darkIntegrationEnd _ => none
  | .measurementTimerExpiry => none
  | .measurementEnd _ _ => none
  | .heaterFrameBoundary => none
  | .heaterOnTimeEnd => none
  | .clockPeriodEnd _ => none
  | .clockStartTimeout => none
  | .vbatReturn => none

/-- The link takes a line at once: the part is working, the link READY and its pending slot empty (R166). -/
abbrev LinkFree (s : State) : Prop :=
  s.startUp = .working ∧ s.link.state = .ready ∧ s.link.waiting = none

/-- The state with these reply lines going out (R166). -/
abbrev State.answering (s : State) (reply : List Text) : State := setLink (.sending reply .none) s

/-! ### Records and settings -/

/-- R3: the fields of a mode group in range, with the combinations 3 to 5 of R8 that concern the group. -/
def modeValid (n : Nat) : Mode → Bool
  | .fix e => decide (e ≤ 199)
  | .ramp a b => decide (a ≤ 199) && decide (b ≤ 199) && decide (2 ≤ n)
  | .met key b0 b1 k db slew lo hi =>
    decide (key ≤ 255) && decide (b0.natAbs ≤ 64) && decide (b1.natAbs ≤ 64) && decide (1 ≤ k) && decide (k ≤ 8) &&
      decide (db ≤ 8) && decide (1 ≤ slew) && decide (slew ≤ 24) && decide (lo ≤ hi) && decide (hi ≤ 199) &&
      (decide (0 < n) || decide (b0 = b1))

/-- R2: the timing fields in range, with combination 7 of R8. -/
def timingValid (g : Segment) : Bool :=
  decide (Config.minInterval ≤ g.iv) && decide (g.iv ≤ Config.maxInterval) && decide (g.n ≤ 65535) &&
    (match g.endAt with | none => true | some u => decide (u ≤ Config.maxSeconds)) &&
    (match g.win with | none => decide (g.days = 127) | some (a, b) => decide (a ≤ 1439) && decide (b ≤ 1439)) &&
    decide (1 ≤ g.days) && decide (g.days ≤ 127) &&
    (match g.src with | .timed => decide (g.div = 1) | .trip => decide (g.div = 1) || decide (g.div = 4) || decide (g.div = 16))

/-- R3, R8: the shutter and gain limits, with combinations 1 and 2. -/
def limitsValid (g : Segment) : Bool :=
  decide (g.esMin ≤ g.esMax) && decide (g.esMax ≤ 151) && decide (g.gm ≤ 6) &&
    (decide (g.gm = 0) || decide (g.esMin + 12 ≤ g.esMax))

/-- R4: a follow field names a slot of the table, END or ASK. -/
def followValid : Follow → Bool
  | .slot n => decide (n < Config.slotCount)
  | .finish => true
  | .ask => true

/-- R1: a record that has passed every check of LOAD (R2 to R4, R7 to R9). -/
def Segment.valid (g : Segment) : Bool :=
  timingValid g && limitsValid g && modeValid g.n g.mode && followValid g.fol &&
    (decide (g.src = .trip) || ceilingOk g.esMax g.iv)

/-- The table of 11.2: every setting in its range, and VR at most VT − 50. -/
def Settings.valid (c : Settings) : Bool :=
  decide (c.cs ≤ 480) && decide (c.lm ≤ 9600) && decide (4 ≤ c.pl) && decide (c.pl ≤ 64) && decide (c.wp ≤ 32) &&
    decide (1 ≤ c.ot) && decide (c.ot ≤ 64) && decide (1 ≤ c.wt) && decide (c.wt ≤ 960) && decide (c.wf ≤ 960) &&
    decide (3000 ≤ c.vt) && decide (c.vt ≤ 4500) && decide (2800 ≤ c.vr) && decide (c.vr ≤ 4400) &&
    decide (c.vr + 50 ≤ c.vt) && decide (c.vh ≤ 500) && decide (c.sa ≤ 1000) && decide (c.cc ≤ 15) &&
    (decide (c.st = 1) || decide (c.st = 2) || decide (c.st = 4) || decide (c.st = 8)) && decide (c.hd ≤ 64) &&
    decide (-40 ≤ c.hb) && decide (c.hb ≤ 30) && decide (-64 ≤ c.mc) && decide (c.mc ≤ 63) &&
    (match c.ar with | none => true | some n => decide (n < Config.slotCount)) &&
    decide (-127 ≤ c.tr) && decide (c.tr ≤ 127)

/-- Slots as R1 says: 48 of them, each EMPTY or holding a record that has passed every check. -/
def slotsValid (l : List (Option Segment)) : Bool :=
  decide (l.length = Config.slotCount) && l.all (fun o => match o with | none => true | some g => g.valid)

/-- The contents of an image, written or being written. -/
def ImageContents.valid (c : ImageContents) : Bool := slotsValid c.slots && c.settings.valid

/-- The contents that a STORE in progress is writing (R184). -/
def writingContents (k : LinkState) : Option ImageContents :=
  match k with
  | .working c => some c
  | .ready => none
  | .sending _ _ => none

/-- R6, R11: a staged field's value has the form its key wants. -/
def fieldFormed (f : Field) : Bool :=
  match f.key, f.value with
  | .win, .pair _ _ | .er, .pair _ _ | .bias, .pair _ _ | .el, .pair _ _ | .es, .pair _ _ => true
  | .src, .src _ => true
  | .mode, .mode _ => true
  | .fol, .num _ | .fol, .finish | .fol, .ask => true
  | .iv, .num _ | .n, .num _ | .endAt, .num _ | .days, .num _ | .div, .num _ | .e, .num _ | .keyValue, .num _
  | .depth, .num _ | .db, .num _ | .slew, .num _ | .gm, .num _ => true
  | _, _ => false

/-- The fields of the staging record (R11). -/
def stagedFields (p : Plan) : List Field :=
  match p.staging with
  | some st => st.fields
  | none => []

/-! ### Invariants -/

/-- R1, 11.2: every record the part holds has passed the checks of LOAD and every setting is in its range: in the
plan table, in the live copy as ADJUST has changed it (R18), in the image and in a STORE being written; the fields
staged for a record have passed the syntax class (R11), and the trim that a start-up sequence found is in its range
(R57). -/
abbrev RecordsValid (s : State) : Prop :=
  slotsValid s.plan.slots = true ∧ (stagedFields s.plan).all fieldFormed = true ∧ s.settings.valid = true ∧
    s.image.contents.valid = true ∧ (∀ c, writingContents s.link.state = some c → c.valid = true) ∧
    (∀ l, s.seq.live = some l → l.seg.valid = true) ∧
    (∀ f, s.startUp.found = some f → -127 ≤ f.trim ∧ f.trim ≤ 127)

/-- R176, R181: the notice set holds each kind at most once, in the fixed order, and ATTN is driven exactly while
the set is not empty and attention is ON. -/
abbrev AttnFollows (s : State) : Prop :=
  s.notices = Notice.all.filter (fun k => s.notices.contains k) ∧
    s.pins.attn = (!s.notices.isEmpty && s.settings.atOn)

/-- R143: HEAT is off whenever the level is not NORMAL and throughout every measurement. -/
abbrev HeatAllowed (s : State) : Prop :=
  s.pins.heat = true → s.power.level = .normal ∧ s.power.measuring = none

/-- Each number of the list is one more than the number before it. -/
def consecutive : List Nat → Prop
  | [] => True
  | [_] => True
  | a :: b :: rest => b = a + 1 ∧ consecutive (b :: rest)

/-- R152, R85: at most 512 records, numbered consecutively, the newest with the frame counter's number. -/
abbrev LogSound (s : State) : Prop :=
  s.log.length ≤ Config.logSize ∧ consecutive (s.log.map FrameRecord.number) ∧
    (∀ n, newestNumber s.log = some n → n = s.engine.frameCounter) ∧ s.engine.frameCounter ≤ Config.maxFrame

/-- R106, R112: at most 8 brightness values in the history, each in 0–255, and G_held 0 while E_held is UNSET. -/
abbrev CalculatorSound (s : State) : Prop :=
  s.expo.history.length ≤ Config.historySize ∧ (∀ b ∈ s.expo.history, b ≤ 255) ∧
    (s.expo.eHeld = none → s.expo.gHeld = 0)

/-- R144, R148, R88: the clock runs or starts only while it is requested, and is not OFF while it is; the meter has
its request in the set exactly while it is not IDLE. -/
abbrev ClockRequested (s : State) : Prop :=
  s.clock.meterAsks = !decide (s.meter.state = .idle) ∧
    (s.clock.state = .off → s.clock.meterAsks = false ∧ s.clock.shotAsks = false) ∧
    (s.clock.state = .starting ∨ s.clock.state = .running → s.clock.meterAsks = true ∨ s.clock.shotAsks = true)

/-- R21: a run that has a segment: ACTIVE, PAUSED or SUSPENDED. -/
def hasSegment : RunState → Bool
  | .active => true
  | .paused _ => true
  | .suspended => true
  | .idle => false
  | .starved => false

/-- R13, R21, R22: both pointers and the live copy are none in IDLE and STARVED; in the other states Current names the
slot of the live copy; a slot named by Current or by Armed is never EMPTY; a wait is held exactly in ACTIVE. -/
abbrev PointersSound (s : State) : Prop :=
  s.plan.slots.length = Config.slotCount ∧ s.image.contents.slots.length = Config.slotCount ∧
    (∀ c, writingContents s.link.state = some c → c.slots.length = Config.slotCount) ∧
    (hasSegment s.seq.run = false → s.seq.current = none ∧ s.seq.armed = none ∧ s.seq.live = none) ∧
    (hasSegment s.seq.run = true → s.seq.current = s.seq.live.map Live.slot ∧ s.seq.current.isSome = true) ∧
    (∀ n, inUse s n = true → (slotAt s n).isSome = true) ∧
    (s.seq.wait.isSome = true ↔ s.seq.run = .active)

/-- R65: the rail is on in POWERING, READY, PRIME, EXPOSING and WRITING. -/
def railOn : Phase → Bool
  | .dormant => false
  | .powering => true
  | .ready => true
  | .prime => true
  | .exposing => true
  | .writing => true
  | .retryOff => false

/-- R64: the camera lines stand as the table gives them for the phase; a gain code only on a powered adapter. -/
abbrev LinesFollowPhase (s : State) : Prop :=
  s.pins.camPwr = railOn s.engine.phase ∧ s.pins.trig = decide (s.engine.phase = .exposing) ∧
    (s.pins.wake = true → s.engine.phase = .prime) ∧ (s.pins.camPwr = false → s.pins.gain = 0)

/-- R23, R65, R66: the stage of the sequencer's shot and the phase and held shot of the shot engine agree. -/
def stageMatches (s : State) : Bool :=
  match s.seq.stage, s.engine.shot with
  | .none, none =>
    decide (s.engine.phase = .dormant) || decide (s.engine.phase = .powering) || decide (s.engine.phase = .ready) ||
      decide (s.engine.phase = .retryOff)
  | .pending _, some shot =>
    (decide (s.engine.phase = .dormant) || decide (s.engine.phase = .powering) || decide (s.engine.phase = .ready)) &&
      shot.exposure.isNone && shot.flight.isNone
  | .priming _, some shot =>
    decide (s.engine.phase = .prime) && shot.flight.isNone && (shot.exposure.isSome || primeReading s)
  | .inFlight _, some shot =>
    (decide (s.engine.phase = .exposing) || decide (s.engine.phase = .writing)) && shot.exposure.isSome &&
      shot.flight.isSome
  | _, _ => false

/-- A shot counts write_fixed (R74, R76). -/
def countsFixed (s : State) : Bool := ((s.engine.shot.bind Shot.flight).bind Flight.fixedLeft).isSome

/-- The agreement of the sequencer, the shot engine, the scene meter and the clock controller over a shot: the
stage with the phase; a live copy and a run with a segment for every shot, and an ACTIVE run for one not yet in
flight (R23, R29, R30, R43); a reading for a prime only in PRIME with no exposure yet (R70, R71); the shot
engine's clock request from the prime to the release of TRIG (R69, R73); a retry only with no shot and in an
ACTIVE run (R81, R82); a rail-on asked only with the rail off (R67); write_fixed counted only after the release
of TRIG (R74, R76). -/
abbrev ShotSound (s : State) : Prop :=
  stageMatches s = true ∧ (s.seq.stage ≠ .none → s.seq.live.isSome = true ∧ hasSegment s.seq.run = true) ∧
    (s.seq.stage ≠ .none → inFlight s = false → s.seq.run = .active) ∧
    (primeReading s = true → s.engine.phase = .prime ∧ s.engine.shot.bind Shot.exposure = none) ∧
    (s.clock.shotAsks = decide (s.engine.phase = .prime ∨ s.engine.phase = .exposing)) ∧
    (s.engine.retrying = true →
      s.seq.stage = .none ∧ s.seq.run = .active ∧ (s.engine.phase = .retryOff ∨ s.engine.phase = .powering)) ∧
    (s.engine.phase = .retryOff → s.engine.retrying = true) ∧
    (s.engine.ask ≠ .none → s.engine.phase = .dormant ∨ s.engine.phase = .retryOff) ∧
    (countsFixed s = true → s.engine.phase = .writing)

/-- The camera lines with the agreement they rest on. -/
abbrev EngineSound (s : State) : Prop := LinesFollowPhase s ∧ ShotSound s

end Sys2Proof.Machine
end

