-- ==== Sys2Proof/Certificates/Slice0/Obligations.lean ====
section
/-! DEFINITION. The statements for the provers: what the rules of spec/ say that the commands and events of the LZ420
do, and what every step keeps. -/

open Sys2Proof Sys2Proof.Machine

/-! ### The queue -/

/-- The block's step: the command at the front of the queue is carried out on the state with the rest of the queue;
with no command waiting nothing changes (the queue and the idle step are the model's choice, assumption log 1). -/
def Obligations.StepRunsFrontCommand : Prop :=
  (∀ (c : Instr) (rest : List Instr) (s : State),
    step { s with pending := c :: rest } = exec c { s with pending := rest }) ∧
  (∀ s : State, s.pending = [] → step s = .next s)

/-- Everything but these parts of the state is as it was. -/
abbrev onlyLink (s t : State) : Prop := t = { s with link := t.link }

/-- What no command of the run and no event of a shot changes: the slots, the settings, the image, the dark count and
its temperature, the level with its last measurement, timer and heater frame, and the supply. -/
abbrev storesKept (s t : State) : Prop :=
  t.plan = s.plan ∧ t.settings = s.settings ∧ t.image = s.image ∧ t.meter.dark = s.meter.dark ∧
    t.meter.tcal = s.meter.tcal ∧ t.power.level = s.power.level ∧ t.power.last = s.power.last ∧
    t.power.timer = s.power.timer ∧ t.power.heater = s.power.heater ∧ t.supply = s.supply ∧ t.nrstLow = s.nrstLow ∧
    t.startUp = s.startUp

/-- No frame is recorded. -/
abbrev noFrame (s t : State) : Prop := t.log = s.log ∧ t.engine.frameCounter = s.engine.frameCounter

/-- What each row leaves as it was, whatever state it meets; a row that can take a waiting line leaves what every line
leaves. -/
abbrev keptBy : Instr → State → State → Prop
  | .longLine, s, t | .badLine, s, t | .unknownVerb _ _, s, t | .showSlot _, s, t | .showPlan, s, t | .time, s, t
  | .meterLast, s, t | .meterDark, s, t | .frames _, s, t | .store _, s, t | .ident _, s, t | .status _, s, t
  | .get _, s, t | .resetWarm _, s, t | .resetCold _, s, t => onlyLink s t
  | .load _, s, t | .loadPart _, s, t | .clear _, s, t => t = { s with link := t.link, plan := t.plan }
  | .adjust _, s, t => t = { s with link := t.link, seq := { s.seq with live := t.seq.live } }
  | .start _, s, t | .pause _, s, t | .resume _, s, t | .nextSegment _, s, t | .queue _, s, t =>
    storesKept s t ∧ noFrame s t ∧ t.cal = s.cal
  | .stop _, s, t => storesKept s t ∧ t.cal = s.cal ∧ t.notices = s.notices ∧ t.power = s.power
  | .timeSet _, s, t => storesKept s t ∧ noFrame s t
  | .meter _, s, t | .meterClear, s, t | .calibrate _, s, t =>
    t = { s with link := t.link, meter := t.meter, clock := t.clock }
  | .poll _, s, t => t = { s with link := t.link, notices := t.notices, pins := { s.pins with attn := t.pins.attn } }
  | .storeVerifyEnd _, s, t => t = { s with link := t.link, image := t.image }
  | .recallImage _, s, t =>
    t = { s with link := t.link, plan := t.plan, settings := t.settings, meter := t.meter, clock := t.clock,
                 notices := t.notices, pins := { s.pins with attn := t.pins.attn } }
  | .set _, s, t =>
    noFrame s t ∧ t.plan = s.plan ∧ t.cal = s.cal ∧ t.image = s.image ∧ t.notices = s.notices ∧
      t.power.level = s.power.level ∧ t.power.last = s.power.last ∧ t.expo.history = s.expo.history
  | .receiveCharacter _ _, s, t => t.supply = s.supply ∧ t.nrstLow = s.nrstLow ∧ t.image = s.image
  | .replySent, s, t => t.supply = s.supply ∧ t.nrstLow = s.nrstLow ∧ t.image = s.image
  | .autorunStart, s, t => t.supply = s.supply ∧ t.nrstLow = s.nrstLow ∧ t.image = s.image
  | .powerOn, s, t | .nrstRelease, s, t | .brownoutRecovery, s, t => t.image = s.image
  | .nrstAssert, s, t | .brownout, s, t =>
    t.cal = { s.cal with lost := t.cal.lost } ∧ (s.startUp.found = none → t.cal = s.cal) ∧
      t.plan.slots = s.plan.slots ∧ t.image.contents = s.image.contents ∧ t.meter.dark = s.meter.dark ∧ t.meter.tcal = s.meter.tcal
  | .backupDomainLoss, s, t => t = { s with cal := t.cal, settings := { s.settings with tr := t.settings.tr } }
  | .vbatReturn, s, t =>
    t = { s with cal := t.cal, settings := { s.settings with tr := t.settings.tr }, supply := t.supply }
  | .tickIncrement, s, t =>
    noFrame s t ∧ t.link = s.link ∧ t.plan = s.plan ∧ t.settings = { s.settings with tr := t.settings.tr } ∧
      (s.cal.powered = true → t.settings = s.settings) ∧ t.image = s.image ∧ t.startUp = s.startUp ∧
      t.nrstLow = s.nrstLow ∧ t.power.level = s.power.level ∧ t.power.last = s.power.last
  | .windowOpening, s, t | .measureInstant, s, t | .railOnInstant, s, t | .settleExpiry, s, t
  | .primeInstant, s, t | .dueTime, s, t | .retryHoldEnd, s, t | .tripEdge _, s, t =>
    storesKept s t ∧ noFrame s t ∧ t.link = s.link ∧ t.cal = s.cal ∧ t.notices = s.notices
  | .wakePulseEnd, s, t =>
    t = { s with engine := { s.engine with wakeLeft := t.engine.wakeLeft }, pins := { s.pins with wake := t.pins.wake } }
  | .busyOpenEdge _, s, t =>
    t = { s with engine := { s.engine with shot := t.engine.shot }, pins := { s.pins with busy := t.pins.busy } }
  | .bulbEnd _, s, t | .busyWriteEdge _, s, t | .openWatchExpiry, s, t | .writeWatchExpiry, s, t
  | .writeFixedExpiry, s, t => storesKept s t ∧ t.link = s.link ∧ t.cal = s.cal
  | .integrationEnd _, s, t => t = { s with meter := { s.meter with state := t.meter.state } }
  | .darkIntegrationEnd _, s, t => t = { s with meter := t.meter, clock := t.clock }
  | .computationEnd, s, t | .clockPeriodEnd _, s, t | .clockStartTimeout, s, t =>
    storesKept s t ∧ noFrame s t ∧ t.link = s.link ∧ t.cal = s.cal ∧ t.seq = s.seq ∧ t.power = s.power ∧
      t.engine.phase = s.engine.phase
  | .measurementTimerExpiry, s, t =>
    t = { s with power := { s.power with measuring := t.power.measuring, timer := t.power.timer }
                 pins := { s.pins with heat := t.pins.heat } }
  | .measurementEnd _ _, s, t =>
    noFrame s t ∧ t.link = s.link ∧ t.plan = s.plan ∧ t.cal = s.cal ∧ t.settings = s.settings ∧ t.image = s.image ∧
      t.supply = s.supply ∧ t.nrstLow = s.nrstLow
  | .heaterFrameBoundary, s, t | .heaterOnTimeEnd, s, t =>
    t = { s with power := { s.power with heater := t.power.heater }, pins := { s.pins with heat := t.pins.heat } }

/-- No command and no event stops the part: each leads to a next state, in which the queue of those that wait is as it
was, and, for every command and event that the part can meet (WellFormed.lean: R163, R164, R167), so is everything
outside what the rules let the row change. That an event which the part does not await in the state as it stands also
leads to a next state, the same one, is the model's choice (assumption log 2). -/
def Obligations.EveryRowRunsWithinItsFrame : Prop :=
  ∀ (c : Instr) (s : State), ∃ t, exec c s = .next t ∧ t.pending = s.pending ∧ (c.wf = true → keptBy c s t)

/-! ### The command link (chapter 9) -/

/-- The state with the receive buffer emptied at an ending (R164). -/
def emptiedBuffer (byCr : Bool) (s : State) : State :=
  { s with link := { s.link with buffer := [], longMark := false, badMark := false, afterCr := byCr } }

/-- R163, R164: what a character does to the receive buffer, but for the two endings. R164: an ending empties the buffer
and completes the line it held, which then meets the link as its own row does; an LF right after a CR that ended a
line has no effect on the buffer. -/
def Obligations.CharactersMakeLines : Prop :=
  (∀ (v : BitVec 8) (framing : Bool) (s : State), s.startUp ≠ .stopped →
      (framing = false → 32 ≤ v.toNat → v.toNat ≤ 126 → s.link.buffer.length < 96 →
        exec (.receiveCharacter v framing) s = .next { s with link := { s.link with
          buffer := s.link.buffer ++ [Char.ofNat (if 97 ≤ v.toNat ∧ v.toNat ≤ 122 then v.toNat - 32 else v.toNat)],
          afterCr := false } }) ∧
      (framing = false → 32 ≤ v.toNat → v.toNat ≤ 126 → 96 ≤ s.link.buffer.length →
        exec (.receiveCharacter v framing) s =
          .next { s with link := { s.link with longMark := true, afterCr := false } }) ∧
      ((framing = true ∨ 126 < v.toNat ∨ (v.toNat < 32 ∧ v.toNat ≠ 13 ∧ v.toNat ≠ 10)) →
        exec (.receiveCharacter v framing) s =
          .next { s with link := { s.link with badMark := true, afterCr := false } })) ∧
  (∀ (s : State), s.startUp ≠ .stopped →
      (s.link.afterCr = true →
        exec (.receiveCharacter 10 false) s = .next { s with link := { s.link with afterCr := false } }) ∧
      (∀ (v : BitVec 8), v = 13 ∨ (v = 10 ∧ s.link.afterCr = false) →
        (s.link.longMark = true →
          exec (.receiveCharacter v false) s = exec .longLine (emptiedBuffer (v = 13) s)) ∧
        (s.link.longMark = false → s.link.badMark = true →
          exec (.receiveCharacter v false) s = exec .badLine (emptiedBuffer (v = 13) s)) ∧
        (s.link.longMark = false → s.link.badMark = false → (∀ ch ∈ s.link.buffer, ch = ' ') →
          exec (.receiveCharacter v false) s = .next (emptiedBuffer (v = 13) s)) ∧
        (s.link.longMark = false → s.link.badMark = false →
          ∀ (c : Instr) (toks : List Token), tokensOf s.link.buffer = toks → toks ≠ [] →
            lineOf c = some (.command toks) →
            exec (.receiveCharacter v false) s = exec c (emptiedBuffer (v = 13) s))))

/-- R165, R166, R175: a line completed while the link is busy, or while the start-up sequence runs, waits in the pending
slot; a line that finds the slot full is discarded. R166: when the reply has been sent the link becomes READY; a
line that waited is then taken as if it came at that moment. R163: TXD carries the lines of the reply going out, each
ended by CR and LF, every character as ten bit times, and rests high while no reply is being sent. -/
def Obligations.LinesWaitTheirTurn : Prop :=
  (∀ (c : Instr) (l : Line) (s : State), lineOf c = some l → s.startUp ≠ .stopped →
      (s.link.waiting.isSome = true → exec c s = .next s) ∧
      (s.link.waiting = none → (s.link.state ≠ .ready ∨ s.startUp ≠ .working) →
        exec c s = .next { s with link := { s.link with waiting := some l } })) ∧
  (∀ (s : State) (r : List Text), s.link.state = .sending r .none →
      (s.link.waiting = none ∨ s.startUp ≠ .working → exec .replySent s = .next (setLink .ready s)) ∧
      (∀ (c : Instr) (l : Line), s.startUp = .working → lineOf c = some l → s.link.waiting = some l →
        exec .replySent s = exec c { s with link := { s.link with state := .ready, waiting := none } })) ∧
  (∀ (s : State) (r : List Text) (order : ResetOrder),
      (s.link.state = .sending r order →
        txdCharacters s = (r.map fun line => line ++ [Char.ofNat 13, Char.ofNat 10]).flatten ∧
          ∀ i, i < (txdCharacters s).length → ∀ c, (txdCharacters s)[i]? = some c →
            (txdLevels s)[10 * i]? = some false ∧ (txdLevels s)[10 * i + 9]? = some true ∧
              ∀ b < 8, (txdLevels s)[10 * i + 1 + b]? = some (decide (c.toNat / 2 ^ b % 2 = 1))) ∧
      ((s.link.state = .ready ∨ ∃ c, s.link.state = .working c) → txdLevels s = []))

/-- R172: ID, in full. R173: STATUS answers one line of eighteen fields in their order and changes nothing else; with a
token after the verb it is refused with SYNTAX. -/
def Obligations.IdAndStatusReport : Prop :=
  (∀ (s : State), LinkFree s →
      exec (.ident []) s = .next (s.answering ["=ID AMELTRA LZ420 2".toList]) ∧
      (∀ (t : Token) (ts : List Token), exec (.ident (t :: ts)) s = .next (s.answering ["!SYNTAX ID".toList]))) ∧
  (∀ (s : State), LinkFree s →
      exec (.status []) s = .next (s.answering ["=STATUS RUN=".toList ++ runText s.seq.run ++
        " REASON=".toList ++ reasonText s.seq.run ++ " CURRENT=".toList ++ optText s.seq.current ++
        " ARMED=".toList ++ optText s.seq.armed ++
        " INDEX=".toList ++ natText (if s.seq.live.isSome then s.seq.shotIndex else 0) ++
        " DUE=".toList ++ (match s.seq.stage with
          | .pending d | .priming d => natText (d / 1024) ++ ",".toList ++ natText (d % 1024)
          | .none | .inFlight _ => "NONE".toList) ++
        " WAIT=".toList ++ waitText s.seq.wait ++ " LEVEL=".toList ++ levelText s.power.level ++
        " V=".toList ++ natText (lastVolts s) ++ " TEMP=".toList ++ intText (lastTemp s) ++
        " RAIL=".toList ++ phaseText s.engine.phase ++ " EHELD=".toList ++ heldText s.expo.eHeld ++
        " GHELD=".toList ++ natText s.expo.gHeld ++ " RANGE=".toList ++ stickyText s.meter ++
        " CALENDAR=".toList ++ (if s.cal.valid then "VALID".toList else "INVALID".toList) ++
        " OLDEST=".toList ++ optText (oldestNumber s.log) ++ " NEWEST=".toList ++ optText (newestNumber s.log) ++
        " CLOCK=".toList ++ clockText s.clock.state]) ∧
      ∀ (t : Token) (ts : List Token), exec (.status (t :: ts)) s = .next (s.answering ["!SYNTAX STATUS".toList]))

/-! ### The plan table (chapter 1) -/

/-- No field is staged for a slot, so that a final line for it stands alone (R12). -/
def notStaged (n : Nat) (s : State) : Prop := ∀ st, s.plan.staging = some st → st.slot ≠ n

/-- R5, R10, R14: a record that SHOW lists field by field is loaded back by LOAD with those fields, and is the same
record again; while its slot is in use the LOAD is refused. Either way the staging record is then empty. -/
def Obligations.LoadTakesShownRecord : Prop :=
  ∀ (n : Nat) (g : Segment) (s : State), LinkFree s → n < 48 → g.valid = true → notStaged n s →
    exec (.load (natText n :: segmentFields g)) s = .next
      (if inUse s n then (unstage s).answering ["!IN_USE LOAD".toList]
        else { s with plan := { slots := s.plan.slots.set n (some g), staging := none } }.answering
          ["=LOAD ".toList ++ natText n])

/-- The keys that take a number, with the range of the tables of R2 and R3; DIV has three values of its own. -/
abbrev numberKey : SegKey → Option (Int × Int)
  | .iv => some (8, 1382400)
  | .n => some (0, 65535)
  | .endAt => some (0, 4294967295)
  | .days => some (1, 127)
  | .e => some (0, 199)
  | .keyValue => some (0, 255)
  | .depth => some (1, 8)
  | .db => some (0, 8)
  | .slew => some (1, 24)
  | .gm => some (0, 6)
  | .win | .src | .div | .mode | .er | .bias | .el | .es | .fol => none

/-- The keys that take two numbers, with the range of each. -/
abbrev pairKey : SegKey → Option (Int × Int)
  | .win => some (0, 1439)
  | .er => some (0, 199)
  | .bias => some (-64, 64)
  | .el => some (0, 199)
  | .es => some (0, 151)
  | .iv | .n | .endAt | .days | .src | .div | .mode | .e | .keyValue | .depth | .db | .slew | .gm | .fol => none

/-- A value that its key does not take (R6). -/
abbrev malformedFor (k : SegKey) (u : Text) : Prop :=
  match k with
  | .win | .er | .bias | .el | .es =>
    (∀ c ∈ u, c ≠ ',') ∨
      ∃ a b, u = a ++ ',' :: b ∧ (∀ c ∈ a, c ≠ ',') ∧ (readNumber a = none ∨ readNumber b = none)
  | .src => u ≠ "TIMED".toList ∧ u ≠ "TRIP".toList
  | .mode => u ≠ "FIX".toList ∧ u ≠ "RAMP".toList ∧ u ≠ "MET".toList
  | .fol => readNumber u = none ∧ u ≠ "END".toList ∧ u ≠ "ASK".toList
  | .iv | .n | .endAt | .days | .div | .e | .keyValue | .depth | .db | .slew | .gm => readNumber u = none

/-- A number out of the range of its field (R2, R3, R4, R7): DIV takes 1, 4 and 16, FOL a slot of the table. -/
abbrev outsideFor (k : SegKey) (v : Int) : Prop :=
  match k with
  | .div => v ≠ 1 ∧ v ≠ 4 ∧ v ≠ 16
  | .fol => v < 0 ∨ 47 < v
  | _ => ∃ r ∈ numberKey k, v < r.1 ∨ r.2 < v

/-- The token gives the field of this key. -/
abbrev givesKey (k : SegKey) (t : Token) : Prop := ∃ u, t = k.text ++ '=' :: u

/-- The fields that a record needs, in the order they are looked for (R6). -/
abbrev neededKeys (g : Segment) : List SegKey :=
  [.iv, .n, .mode, match g.mode with | .fix _ => .e | .ramp .. => .er | .met .. => .keyValue, .es]

/-- Every number of the record lies in the range of its own field (R2, R3, R4), whatever the combinations. -/
abbrev numbersInRange (g : Segment) : Prop :=
  8 ≤ g.iv ∧ g.iv ≤ 1382400 ∧ g.n ≤ 65535 ∧ (∀ u ∈ g.endAt, u ≤ 4294967295) ∧
    (∀ w ∈ g.win, w.1 ≤ 1439 ∧ w.2 ≤ 1439) ∧ 1 ≤ g.days ∧ g.days ≤ 127 ∧ (g.div = 1 ∨ g.div = 4 ∨ g.div = 16) ∧
    (match g.mode with
      | .fix e => e ≤ 199
      | .ramp a b => a ≤ 199 ∧ b ≤ 199
      | .met key b0 b1 k db slew lo hi =>
        key ≤ 255 ∧ b0.natAbs ≤ 64 ∧ b1.natAbs ≤ 64 ∧ 1 ≤ k ∧ k ≤ 8 ∧ db ≤ 8 ∧ 1 ≤ slew ∧ slew ≤ 24 ∧ lo ≤ 199 ∧
          hi ≤ 199) ∧
    g.esMin ≤ 151 ∧ g.esMax ≤ 151 ∧ g.gm ≤ 6 ∧ (∀ m, g.fol = .slot m → m < 48)

/-- Line 8 of the table of R8: the ceiling check of R9. -/
abbrev ceilingKey (g : Segment) : Option SegKey :=
  if g.src = .timed ∧ g.iv * 62500 < shutterTime g.esMax + 250000 then some .iv else none

/-- The table of R8 for a record written with the fields of its own mode: the key of the first combination refused. -/
abbrev combinationKey (g : Segment) : Option SegKey :=
  if g.esMax < g.esMin then some .es
  else if 0 < g.gm ∧ g.esMax < g.esMin + 12 then some .gm
  else match g.mode with
    | .ramp _ _ => if g.n < 2 then some .n else ceilingKey g
    | .met _ b0 b1 _ _ _ lo hi =>
      if g.n = 0 ∧ b0 ≠ b1 then some .bias else if hi < lo then some .el else ceilingKey g
    | .fix _ => ceilingKey g

/-- A key of another mode than the record's (line 6 of the table of R8). -/
abbrev foreignKey (g : Segment) (k : SegKey) : Prop :=
  match g.mode, k with
  | .fix _, .e | .ramp .., .er => False
  | .met .., .keyValue | .met .., .bias | .met .., .depth | .met .., .db | .met .., .slew | .met .., .el => False
  | _, .e | _, .er | _, .keyValue | _, .bias | _, .depth | _, .db | _, .slew | _, .el => True
  | _, _ => False

/-- A final LOAD line is refused with this reply, the staging record emptied. -/
abbrev loadRefused (args : List Token) (reply : Text) (s : State) : Prop :=
  exec (.load args) s = .next ((unstage s).answering [reply])

/-- A part line of LOAD is refused with this reply, the staging record emptied (R11, R12). -/
abbrev partRefused (args : List Token) (reply : Text) (s : State) : Prop :=
  exec (.loadPart args) s = .next ((unstage s).answering [reply])

/-- The state with these fields staged for slot `n`. -/
abbrev withStaged (n : Nat) (fs : List Sys2Proof.Machine.Field) (s : State) : State :=
  { s with plan := { s.plan with staging := some { slot := n, fields := fs } } }

/-- The fields that a part line for slot `n` finds staged for it. -/
abbrev fieldsStaged (n : Nat) (s : State) : List Sys2Proof.Machine.Field :=
  match s.plan.staging with
  | some st => if st.slot = n then st.fields else []
  | none => []

/-- R11, R12: the fields of a record given on part lines, one or more, and then on a final line make the same record,
whatever was done between the lines. R11: whatever a part line holds, it is answered in one line and changes no slot;
accepted, it adds its fields to those staged for its slot, and refused it empties the staging record. A part line
refused by code and key: with SYNTAX for a slot number missing or malformed, and after good fields for a token that is
no field (a plus sign that is not the last one too), an unknown key, a key repeated on the line or staged before, and
a malformed value; with RANGE for a slot number or, in a line that is otherwise good, for a field's number out of its
range. A final line that repeats a staged key is refused with SYNTAX (R12). A line for another slot than the one
staged, part or final, is taken as if nothing were staged. -/
def Obligations.LoadJoinsPartLines : Prop :=
  (∀ (n : Nat) (g : Segment) (xs ys : List Token) (s : State), LinkFree s → n < 48 → g.valid = true → notStaged n s →
    xs ++ ys = segmentFields g →
    ∃ fs, exec (.loadPart (natText n :: xs)) s = .next
        ((withStaged n fs s).answering ["=LOAD ".toList ++ natText n ++ " +".toList]) ∧
      (∀ u : State, LinkFree u → u.plan.staging = some { slot := n, fields := fs } → inUse u n = false →
        exec (.load (natText n :: ys)) u = .next
          ({ u with plan := { slots := u.plan.slots.set n (some g), staging := none } }.answering
            ["=LOAD ".toList ++ natText n])) ∧
      ∀ ys₁ ys₂, ys₁ ++ ys₂ = ys → ∃ fs',
        (∀ u : State, LinkFree u → u.plan.staging = some { slot := n, fields := fs } →
          exec (.loadPart (natText n :: ys₁)) u = .next
            ((withStaged n (fs ++ fs') u).answering ["=LOAD ".toList ++ natText n ++ " +".toList])) ∧
        ∀ u : State, LinkFree u → u.plan.staging = some { slot := n, fields := fs ++ fs' } → inUse u n = false →
          exec (.load (natText n :: ys₂)) u = .next
            ({ u with plan := { slots := u.plan.slots.set n (some g), staging := none } }.answering
              ["=LOAD ".toList ++ natText n])) ∧
  (∀ (args : List Token) (s : State), LinkFree s →
      (∃ line, line.head? = some '!' ∧ partRefused args line s) ∨
        ∃ n fs, n < 48 ∧ exec (.loadPart args) s = .next
          ((withStaged n (fieldsStaged n s ++ fs) s).answering ["=LOAD ".toList ++ natText n ++ " +".toList])) ∧
  (∀ (s : State), LinkFree s →
      partRefused [] "!SYNTAX LOAD".toList s ∧
      (∀ t ts, readNumber t = none → partRefused (t :: ts) "!SYNTAX LOAD".toList s) ∧
      ∀ (n : Nat) (g : Segment), n < 48 → g.valid = true → notStaged n s → ∀ xs ys, xs ++ ys = segmentFields g →
        ∀ zs : List Token,
          (∀ t, (∀ c ∈ t, c ≠ '=') → partRefused (natText n :: xs ++ t :: zs) "!SYNTAX LOAD".toList s) ∧
          (∀ k u, (∀ c ∈ k, c ≠ '=') → k ≠ [] → (∀ j : SegKey, j.text ≠ k) →
            partRefused (natText n :: xs ++ (k ++ '=' :: u) :: zs) ("!SYNTAX LOAD ".toList ++ k) s) ∧
          (∀ k u, (∃ t ∈ xs, givesKey k t) →
            partRefused (natText n :: xs ++ (k.text ++ '=' :: u) :: zs) ("!SYNTAX LOAD ".toList ++ k.text) s) ∧
          (∀ k u, (∀ t ∈ xs, ¬ givesKey k t) → malformedFor k u →
            partRefused (natText n :: xs ++ (k.text ++ '=' :: u) :: zs) ("!SYNTAX LOAD ".toList ++ k.text) s)) ∧
  (∀ (n : Nat) (g : Segment) (fs : List Sys2Proof.Machine.Field) (s : State), LinkFree s → n < 48 → g.valid = true →
      s.plan.staging = some { slot := n, fields := fs } →
      ∀ xs ys, xs ++ ys = segmentFields g → (∀ t ∈ xs, ∀ f ∈ fs, ¬ givesKey f.key t) →
        ∀ f ∈ fs, ∀ (u : Text) (zs : List Token),
          partRefused (natText n :: xs ++ (f.key.text ++ '=' :: u) :: zs) ("!SYNTAX LOAD ".toList ++ f.key.text) s ∧
          loadRefused (natText n :: xs ++ (f.key.text ++ '=' :: u) :: zs) ("!SYNTAX LOAD ".toList ++ f.key.text) s) ∧
  (∀ (s : State), LinkFree s →
      (∀ t v g, readNumber t = some v → (v < 0 ∨ 47 < v) → g.valid = true →
        (∀ st, s.plan.staging = some st → (st.slot : Int) ≠ v) → ∀ xs ys, xs ++ ys = segmentFields g →
        partRefused (t :: xs) "!RANGE LOAD".toList s) ∧
      ∀ (n : Nat) (g : Segment), n < 48 → g.valid = true → notStaged n s →
        ∀ xs f ys zs k, segmentFields g = xs ++ f :: (ys ++ zs) → givesKey k f →
          (∀ v : Int, v.natAbs < 10 ^ 10 → outsideFor k v →
            partRefused (natText n :: xs ++ (k.text ++ '=' :: intText v) :: ys) ("!RANGE LOAD ".toList ++ k.text) s) ∧
          (∀ v w : Int, v.natAbs < 10 ^ 10 → w.natAbs < 10 ^ 10 →
            (∃ r ∈ pairKey k, v < r.1 ∨ r.2 < v ∨ w < r.1 ∨ r.2 < w) →
            partRefused (natText n :: xs ++ (k.text ++ '=' :: intText v ++ ',' :: intText w) :: ys)
              ("!RANGE LOAD ".toList ++ k.text) s)) ∧
  ∀ (t : Token) (v : Int) (ts : List Token) (s : State), LinkFree s → readNumber t = some v →
    (∀ st, s.plan.staging = some st → (st.slot : Int) ≠ v) →
    exec (.loadPart (t :: ts)) s = exec (.loadPart (t :: ts)) (unstage s) ∧
      exec (.load (t :: ts)) s = exec (.load (t :: ts)) (unstage s)

/-- R1, R5, R12: whatever a final LOAD line holds, it is answered in one line and empties the staging record; a refusal
leaves every slot as it was, and an acceptance writes one slot that is not in use with a record that has passed
every check. Nothing but the plan table and the link changes. R8, R9: a TIMED record that is good but for the
ceiling check is refused for IV; the smallest interval that passes the check, at least 8, is the one the manual
gives. R6, R7, R8: the refusals by code and key: a slot number missing, malformed or out of range; after good fields
a token that is no field, an unknown or repeated key, a malformed value; the first needed field that is missing; a
number out of its range; the first combination refused, a field of another mode, and a stray DAYS or DIV. -/
def Obligations.EveryLoadIsChecked : Prop :=
  (∀ (args : List Token) (s : State), LinkFree s → args.getLast? ≠ some plusMark →
      (stagedFields s.plan).all fieldFormed = true →
      ∃ t line, exec (.load args) s = .next t ∧ t = { s with plan := t.plan, link := t.link } ∧
        t.link = { s.link with state := .sending [line] .none } ∧ t.plan.staging = none ∧
        ((line.head? = some '!' ∧ t.plan.slots = s.plan.slots) ∨
          ∃ n g, line = "=LOAD ".toList ++ natText n ∧ n < 48 ∧ inUse s n = false ∧ g.valid = true ∧
            t.plan.slots = s.plan.slots.set n (some g))) ∧
  ((∀ (n : Nat) (g : Segment) (s : State), LinkFree s → n < 48 → notStaged n s → g.src = .timed →
      timingValid g = true → limitsValid g = true → modeValid g.n g.mode = true → followValid g.fol = true →
      g.iv * 62500 < shutterTime g.esMax + 250000 →
      exec (.load (natText n :: segmentFields g)) s = .next ((unstage s).answering ["!CONFLICT LOAD IV".toList])) ∧
    (∀ es iv : Nat, 8 ≤ iv → (smallestInterval es ≤ iv ↔ shutterTime es + 250000 ≤ iv * 62500)) ∧
    ∀ es : Nat, 8 ≤ smallestInterval es) ∧
  (∀ (s : State), LinkFree s →
      loadRefused [] "!SYNTAX LOAD".toList s ∧
      (∀ t ts, readNumber t = none → loadRefused (t :: ts) "!SYNTAX LOAD".toList s) ∧
      ∀ (n : Nat) (g : Segment), n < 48 → g.valid = true → notStaged n s →
        (∀ xs ys, xs ++ ys = segmentFields g →
          (∀ t, (∀ c ∈ t, c ≠ '=') → (t ≠ ['+'] ∨ ys ≠ []) →
            loadRefused (natText n :: xs ++ t :: ys) "!SYNTAX LOAD".toList s) ∧
          (∀ k u, (∀ c ∈ k, c ≠ '=') → k ≠ [] → (∀ j : SegKey, j.text ≠ k) →
            loadRefused (natText n :: xs ++ (k ++ '=' :: u) :: ys) ("!SYNTAX LOAD ".toList ++ k) s) ∧
          (∀ k u, (∃ t ∈ xs, givesKey k t) →
            loadRefused (natText n :: xs ++ (k.text ++ '=' :: u) :: ys) ("!SYNTAX LOAD ".toList ++ k.text) s) ∧
          (∀ k u, (∀ t ∈ xs, ¬ givesKey k t) → malformedFor k u →
            loadRefused (natText n :: xs ++ (k.text ++ '=' :: u) :: ys) ("!SYNTAX LOAD ".toList ++ k.text) s)) ∧
        (∀ fs, fs.Sublist (segmentFields g) → ∀ before k rest, neededKeys g = before ++ k :: rest →
          (∀ j ∈ before, ∃ t ∈ fs, givesKey j t) → (∀ t ∈ fs, ¬ givesKey k t) →
          loadRefused (natText n :: fs) ("!SYNTAX LOAD ".toList ++ k.text) s)) ∧
  (∀ (s : State), LinkFree s →
      (∀ t v g, readNumber t = some v → (v < 0 ∨ 47 < v) → g.valid = true →
        (∀ st, s.plan.staging = some st → (st.slot : Int) ≠ v) →
        loadRefused (t :: segmentFields g) "!RANGE LOAD".toList s) ∧
      ∀ (n : Nat) (g : Segment), n < 48 → g.valid = true → notStaged n s →
        ∀ xs f ys k, segmentFields g = xs ++ f :: ys → givesKey k f →
          (∀ v : Int, v.natAbs < 10 ^ 10 → outsideFor k v →
            loadRefused (natText n :: xs ++ (k.text ++ '=' :: intText v) :: ys) ("!RANGE LOAD ".toList ++ k.text) s) ∧
          (∀ v w : Int, v.natAbs < 10 ^ 10 → w.natAbs < 10 ^ 10 →
            (∃ r ∈ pairKey k, v < r.1 ∨ r.2 < v ∨ w < r.1 ∨ r.2 < w) →
            loadRefused (natText n :: xs ++ (k.text ++ '=' :: intText v ++ ',' :: intText w) :: ys)
              ("!RANGE LOAD ".toList ++ k.text) s)) ∧
  (∀ (n : Nat) (g : Segment) (s : State), LinkFree s → n < 48 → notStaged n s →
      (numbersInRange g → ∀ k ∈ combinationKey g,
        loadRefused (natText n :: segmentFields g) ("!CONFLICT LOAD ".toList ++ k.text) s) ∧
      (g.valid = true → ∀ xs ys, xs ++ ys = segmentFields g →
        (∀ k, foreignKey g k →
          (∀ v : Int, (∃ r ∈ numberKey k, r.1 ≤ v ∧ v ≤ r.2) →
            loadRefused (natText n :: xs ++ (k.text ++ '=' :: intText v) :: ys) ("!CONFLICT LOAD ".toList ++ k.text) s) ∧
          (∀ v w : Int, (∃ r ∈ pairKey k, r.1 ≤ v ∧ v ≤ r.2 ∧ r.1 ≤ w ∧ w ≤ r.2) →
            loadRefused (natText n :: xs ++ (k.text ++ '=' :: intText v ++ ',' :: intText w) :: ys)
              ("!CONFLICT LOAD ".toList ++ k.text) s)) ∧
        (∀ d : Nat, g.win = none → 1 ≤ d → d ≤ 127 →
          loadRefused (natText n :: xs ++ ("DAYS=".toList ++ natText d) :: ys) "!CONFLICT LOAD DAYS".toList s) ∧
        (∀ d : Nat, g.src = .timed → d = 1 ∨ d = 4 ∨ d = 16 →
          loadRefused (natText n :: xs ++ ("DIV=".toList ++ natText d) :: ys) "!CONFLICT LOAD DIV".toList s)))

/-- R14: SHOW with a slot number reports the slot and changes nothing; a malformed number is refused with SYNTAX and a
number outside 0–47 with RANGE; a second token is refused with SYNTAX whatever the first is (read from the table of
R168: assumption log 19). R15: SHOW alone reports the READY slots in increasing order and the two pointers, and
changes nothing. -/
def Obligations.ShowReportsSlotsAndPlan : Prop :=
  (∀ (n : Nat) (s : State), LinkFree s → n < 48 →
      (slotAt s n = none →
        exec (.showSlot [natText n]) s = .next (s.answering ["=SHOW ".toList ++ natText n ++ " EMPTY".toList])) ∧
      ∀ g, slotAt s n = some g →
        exec (.showSlot [natText n]) s = .next (s.answering ["=SHOW ".toList ++ natText n ++ " READY USE=".toList ++
          (if s.seq.current = some n then (if s.seq.armed = some n then "BOTH".toList else "CURRENT".toList)
            else if s.seq.armed = some n then "ARMED".toList else "NONE".toList) ++ ' ' ::
          joinWith [' '] (segmentFields g)])) ∧
  (∀ (s : State), LinkFree s →
      exec .showPlan s = .next (s.answering ["=SHOW READY=".toList ++
        (if (List.range 48).all (fun n => (slotAt s n).isNone) then "NONE".toList
          else joinWith [','] (((List.range 48).filter (fun n => (slotAt s n).isSome)).map natText)) ++
        " CURRENT=".toList ++ (match s.seq.current with | some n => natText n | none => "NONE".toList) ++
        " ARMED=".toList ++ (match s.seq.armed with | some n => natText n | none => "NONE".toList)])) ∧
  (∀ (t u : Token) (ts : List Token) (s : State), LinkFree s →
      (readNumber t = none → exec (.showSlot [t]) s = .next (s.answering ["!SYNTAX SHOW".toList])) ∧
      (∀ v, readNumber t = some v → (v < 0 ∨ 47 < v) →
        exec (.showSlot [t]) s = .next (s.answering ["!RANGE SHOW".toList])) ∧
      exec (.showSlot (t :: u :: ts)) s = .next (s.answering ["!SYNTAX SHOW".toList]))

/-- R16: CLEAR empties a slot that is not in use, leaves one that is, and refuses a missing, malformed or out-of-range
slot number; the staging record stays as it is. -/
def Obligations.ClearEmptiesSlot : Prop :=
  ∀ (s : State), LinkFree s →
    (∀ n, n < 48 → exec (.clear [natText n]) s = .next
      (if inUse s n then s.answering ["!IN_USE CLEAR".toList]
        else { s with plan := { s.plan with slots := s.plan.slots.set n none } }.answering
          ["=CLEAR ".toList ++ natText n])) ∧
    exec (.clear []) s = .next (s.answering ["!SYNTAX CLEAR".toList]) ∧
    (∀ t, readNumber t = none → exec (.clear [t]) s = .next (s.answering ["!SYNTAX CLEAR".toList])) ∧
    (∀ t v, readNumber t = some v → (v < 0 ∨ 47 < v) →
      exec (.clear [t]) s = .next (s.answering ["!RANGE CLEAR".toList]))

/-- The live copy with an interval clamped as R18 gives it for its source. -/
def liveWithInterval (l : Live) (v : Int) : Live :=
  { l with seg := { l.seg with iv :=
    (max (match l.seg.src with | .timed => (smallestInterval l.seg.esMax : Int) | .trip => 8) (min 1382400 v)).toNat } }

/-- An ADJUST line of these fields. -/
abbrev adjustLine (ps : List (AdjustKey × Int)) : List Token := ps.map fun p => p.1.text ++ '=' :: intText p.2

/-- Fields that pass the syntax class of ADJUST: no key twice, no number of more than ten digits. -/
abbrev adjustFormed (ps : List (AdjustKey × Int)) : Prop :=
  (ps.map Prod.fst).Nodup ∧ ∀ p ∈ ps, p.2.natAbs < 10 ^ 10

/-- The number that the line gives a key. -/
abbrev adjustGives (ps : List (AdjustKey × Int)) (k : AdjustKey) : Option Int :=
  (ps.find? fun p => p.1 = k).map Prod.snd

/-- R18: ADJUST clamps each of its values into the live copy and answers the values it now holds; in a FIX or RAMP
segment KEY and BO are refused with CONFLICT, naming the key (the leftmost where the line has both: the model's
choice, assumption log 19); where there is no live copy every well-formed ADJUST is refused with STATE; a line with no
field, or after good fields a token that is no field, an unknown or repeated key or a malformed number, is refused
with SYNTAX in every state. A refused ADJUST changes no field. -/
def Obligations.AdjustClampsLiveCopy : Prop :=
  (∀ (ps : List (AdjustKey × Int)) (s : State), LinkFree s → adjustFormed ps →
    (ps ≠ [] → s.seq.live = none → exec (.adjust (adjustLine ps)) s = .next (s.answering ["!STATE ADJUST".toList])) ∧
    (∀ l, s.seq.live = some l → isMet l.seg = false → ∀ p, ps.find? (fun p => p.1 ≠ .iv) = some p →
      exec (.adjust (adjustLine ps)) s = .next (s.answering ["!CONFLICT ADJUST ".toList ++ p.1.text])) ∧
    (∀ l, s.seq.live = some l → ∀ key b0 b1 k db slew lo hi, l.seg.mode = .met key b0 b1 k db slew lo hi → ps ≠ [] →
      ∀ (iv key' : Nat) (bo : Int),
        iv = (match adjustGives ps .iv with | some v => (liveWithInterval l v).seg.iv | none => l.seg.iv) →
        key' = (match adjustGives ps .key with | some v => (max 0 (min 255 v)).toNat | none => key) →
        bo = (match adjustGives ps .bo with | some v => max (-64) (min 64 v) | none => l.bo) →
        exec (.adjust (adjustLine ps)) s = .next
          ({ s with seq := { s.seq with live := some { l with
              bo := bo, seg := { l.seg with iv := iv, mode := .met key' b0 b1 k db slew lo hi } } } }.answering
            ["=ADJUST IV=".toList ++ natText iv ++ " KEY=".toList ++ natText key' ++ " BO=".toList ++ intText bo])) ∧
    exec (.adjust []) s = .next (s.answering ["!SYNTAX ADJUST".toList]) ∧
    ∀ ts : List Token,
      (∀ t, (∀ c ∈ t, c ≠ '=') →
        exec (.adjust (adjustLine ps ++ t :: ts)) s = .next (s.answering ["!SYNTAX ADJUST".toList])) ∧
      (∀ k u, (∀ c ∈ k, c ≠ '=') → k ≠ [] → (∀ a : AdjustKey, a.text ≠ k) →
        exec (.adjust (adjustLine ps ++ (k ++ '=' :: u) :: ts)) s =
          .next (s.answering ["!SYNTAX ADJUST ".toList ++ k])) ∧
      (∀ (a : AdjustKey) u, (a ∈ ps.map Prod.fst ∨ readNumber u = none) →
        exec (.adjust (adjustLine ps ++ (a.text ++ '=' :: u) :: ts)) s =
          .next (s.answering ["!SYNTAX ADJUST ".toList ++ a.text]))) ∧
  ∀ (v : Int) (s : State), LinkFree s → v.natAbs < 10 ^ 10 →
    (s.seq.live = none →
      exec (.adjust ["IV=".toList ++ intText v]) s = .next (s.answering ["!STATE ADJUST".toList])) ∧
    ∀ l, s.seq.live = some l →
      ((∀ key b0 b1 k db slew lo hi, l.seg.mode ≠ .met key b0 b1 k db slew lo hi) →
        exec (.adjust ["IV=".toList ++ intText v]) s = .next
          ({ s with seq := { s.seq with live := some (liveWithInterval l v) } }.answering
            ["=ADJUST IV=".toList ++ natText (liveWithInterval l v).seg.iv]) ∧
        exec (.adjust ["KEY=".toList ++ intText v]) s = .next (s.answering ["!CONFLICT ADJUST KEY".toList]) ∧
        exec (.adjust ["BO=".toList ++ intText v]) s = .next (s.answering ["!CONFLICT ADJUST BO".toList])) ∧
      ∀ key b0 b1 k db slew lo hi, l.seg.mode = .met key b0 b1 k db slew lo hi →
        exec (.adjust ["IV=".toList ++ intText v]) s = .next
          ({ s with seq := { s.seq with live := some (liveWithInterval l v) } }.answering
            ["=ADJUST IV=".toList ++ natText (liveWithInterval l v).seg.iv ++ " KEY=".toList ++ natText key ++
              " BO=".toList ++ intText l.bo]) ∧
        exec (.adjust ["KEY=".toList ++ intText v]) s = .next
          ({ s with seq := { s.seq with live := some { l with seg := { l.seg with
              mode := .met (max 0 (min 255 v)).toNat b0 b1 k db slew lo hi } } } }.answering
            ["=ADJUST IV=".toList ++ natText l.seg.iv ++ " KEY=".toList ++ natText (max 0 (min 255 v)).toNat ++
              " BO=".toList ++ intText l.bo]) ∧
        exec (.adjust ["BO=".toList ++ intText v]) s = .next
          ({ s with seq := { s.seq with live := some { l with bo := max (-64) (min 64 v) } } }.answering
            ["=ADJUST IV=".toList ++ natText l.seg.iv ++ " KEY=".toList ++ natText key ++
              " BO=".toList ++ intText (max (-64) (min 64 v))])

/-! ### The run sequencer (chapter 2) -/

/-- The command is carried out and the state it leads to has a property. -/
abbrev leadsTo (c : Instr) (s : State) (P : State → Prop) : Prop := ∃ t, exec c s = .next t ∧ P t

/-- The segment's end time, if it has one, has not been reached on a valid calendar (R25 step 4). -/
abbrev endAhead (g : Segment) (s : State) : Prop :=
  s.cal.valid = true → ∀ u ∈ g.endAt, s.cal.seconds < u

/-- The Armed pointer that a follow field gives (R26). -/
abbrev armedFrom (s : State) : Follow → Option Nat
  | .slot m => if (slotAt s m).isSome then some m else none
  | .finish => none
  | .ask => none

/-- R26: a segment asks for its next when its follow field is ASK or names an EMPTY slot. -/
abbrev needsNext (s : State) : Follow → Prop
  | .slot m => slotAt s m = none
  | .finish => False
  | .ask => True

/-- R25 steps 1 to 3: slot `n` with record `g` has become Current, and NEED_NEXT is raised as its follow field asks. -/
abbrev madeCurrent (n : Nat) (g : Segment) (s t : State) : Prop :=
  t.seq.current = some n ∧ t.seq.live = some { slot := n, seg := g, bo := 0 } ∧
    t.seq.armed = armedFrom s g.fol ∧ t.seq.shotIndex = 0 ∧ t.seq.lastDue = none ∧ t.seq.skip = 0 ∧
    t.seq.ignored = 0 ∧ t.seq.edges = 0 ∧
    (Notice.needNext ∈ t.notices ↔ Notice.needNext ∈ s.notices ∨ needsNext s g.fol)

/-- The run state that a run is started in (R28, R33). -/
abbrev startedAs (s : State) (t : State) : Prop :=
  t.seq.run = if s.power.level = .reserve then .suspended else .active

/-- What a command of the run leaves alone. -/
abbrev runFrame (s t : State) : Prop :=
  t.plan = s.plan ∧ t.cal = s.cal ∧ t.log = s.log ∧ t.settings = s.settings ∧ t.image = s.image ∧
    t.engine.frameCounter = s.engine.frameCounter ∧ t.power.level = s.power.level ∧ t.startUp = s.startUp

/-- The link is sending this one reply line. -/
abbrev replies (s t : State) (line : Text) : Prop := t.link = { s.link with state := .sending [line] .none }

/-- The schedule that R27 gives a segment whose first due time is aimed at `d`: the wait, the stage and the opening
instant. -/
abbrev scheduledAt (g : Segment) (d : Tick) (s t : State) : Prop :=
  if s.cal.valid = false ∧ (g.win.isSome = true ∨ g.endAt.isSome = true) then
    t.seq.wait = some .timeless ∧ t.seq.stage = .none
  else if g.src = .timed then
    if windowOpen g.win g.days d = true then t.seq.wait = some .between ∧ nextDue t = some d
    else t.seq.wait = some .closed ∧ t.seq.opening = nextOpening g.win g.days d ∧
      nextDue t = nextOpening g.win g.days d
  else if windowOpen g.win g.days (now s) = true then t.seq.wait = some .tripWait ∧ t.seq.stage = .none
  else t.seq.wait = some .closed ∧ t.seq.opening = nextOpening g.win g.days (now s) ∧ t.seq.stage = .none

/-- The wait of a segment that is given no due time: held off by a camera retry, or with a shot in flight (R22, R31,
R43). For a TRIP segment, and for one that needs the calendar, it is the wait of R27. -/
abbrev waitsUnscheduled (g : Segment) (s t : State) : Prop :=
  if s.cal.valid = false ∧ (g.win.isSome = true ∨ g.endAt.isSome = true) then t.seq.wait = some .timeless
  else if g.src = .timed then t.seq.wait = some .between
  else if windowOpen g.win g.days (now s) = true then t.seq.wait = some .tripWait
  else t.seq.wait = some .closed ∧ t.seq.opening = nextOpening g.win g.days (now s)

/-- R25 step 4: the segment carries an end time that a valid calendar has reached. -/
abbrev endPassed (g : Segment) (s : State) : Prop := s.cal.valid = true ∧ ∃ u ∈ g.endAt, u ≤ s.cal.seconds

/-- The run has ended with this state: no pointer and no live copy. -/
abbrev runEndedIn (r : RunState) (t : State) : Prop :=
  t.seq.run = r ∧ t.seq.current = none ∧ t.seq.armed = none ∧ t.seq.live = none

/-- What a row that makes slot `n` Current leads to when the end time of its record `g` has passed (R25 step 4, R35,
R36): SEGMENT_END at once, and a run that ends as the follow field says, or the follower made Current by a first
handoff; a segment that follows itself ends with PLAN_LOOP. -/
abbrev endsAtOnce (c : Instr) (n : Nat) (g : Segment) (s : State) : Prop :=
  (g.fol = .finish → leadsTo c s fun t =>
    runEndedIn .idle t ∧ Notice.segmentEnd ∈ t.notices ∧ Notice.runEnd ∈ t.notices) ∧
  (needsNext s g.fol → leadsTo c s fun t =>
    runEndedIn .starved t ∧ Notice.segmentEnd ∈ t.notices ∧ Notice.starved ∈ t.notices) ∧
  (∀ m h, g.fol = .slot m → slotAt s m = some h → endAhead h s → leadsTo c s fun t =>
    madeCurrent m h s t ∧ startedAs s t ∧ t.seq.handoffs = 1 ∧ Notice.segmentEnd ∈ t.notices) ∧
  (g.fol = .slot n → leadsTo c s fun t =>
    runEndedIn .idle t ∧ Notice.segmentEnd ∈ t.notices ∧ Notice.planLoop ∈ t.notices ∧
      (Notice.runEnd ∈ t.notices ↔ Notice.runEnd ∈ s.notices))

/-- R38: the preparation time by the shot engine's phase. -/
abbrev preparation (s : State) : Nat :=
  match s.engine.phase with
  | .dormant | .retryOff => (s.settings.pl + s.settings.cs) * 64
  | .powering => s.settings.pl * 64 + (s.engine.settleLeft + 31) / 32
  | .ready | .prime | .exposing | .writing => s.settings.pl * 64

/-- R28: START of a READY slot in IDLE, its end time not yet reached: the handoff counter is 0, the history empty and
the held values unset, and the slot becomes Current in an ACTIVE or SUSPENDED run. R27, R38, R39: the schedule of a
segment that START makes Current in an ACTIVE run: TIMELESS while it needs a calendar that is not valid; a TIMED one
due after the preparation time, or at the next opening of its window; a TRIP one in TRIP_WAIT or CLOSED by its
window now. R25 step 4, R35, R36: a START of a segment whose end time has passed ends it at once. -/
def Obligations.StartBeginsRun : Prop :=
  (∀ (n : Nat) (g : Segment) (s : State), LinkFree s → n < 48 → s.seq.run = .idle → slotAt s n = some g →
      endAhead g s →
      leadsTo (.start [natText n]) s fun t =>
        madeCurrent n g s t ∧ startedAs s t ∧ t.seq.handoffs = 0 ∧ t.expo.history = [] ∧ t.expo.eHeld = none ∧
          t.expo.gHeld = 0 ∧ replies s t ("=START ".toList ++ natText n) ∧ runFrame s t) ∧
  (∀ (n : Nat) (g : Segment) (s : State), LinkFree s → n < 48 → s.seq.run = .idle → slotAt s n = some g →
      endAhead g s → s.power.level ≠ .reserve → s.engine.retrying = false →
      leadsTo (.start [natText n]) s fun t => scheduledAt g (now s + preparation s) s t) ∧
  (∀ (n : Nat) (g : Segment) (s : State), LinkFree s → n < 48 → s.seq.run = .idle → slotAt s n = some g →
      endPassed g s → endsAtOnce (.start [natText n]) n g s)

/-- R168: a long line is answered !LONG alone; a bad line, and a command line whose verb is not known, !SYNTAX. A verb
that takes no token answers a line with tokens !SYNTAX and its name, and nothing else changes. 2.3: START and QUEUE
check the slot number first, then the run state, then the slot; each command of the run is refused in the run states
that do not take it. A refused command changes nothing. -/
def Obligations.UnfitCommandsRefused : Prop :=
  (∀ (s : State), LinkFree s →
      exec .longLine s = .next (s.answering ["!LONG".toList]) ∧
      exec .badLine s = .next (s.answering ["!SYNTAX".toList]) ∧
      (∀ (verb : Token) (args : List Token), verb ∉ verbNames →
        exec (.unknownVerb verb args) s = .next (s.answering ["!SYNTAX".toList]))) ∧
  (∀ (s : State) (t : Token) (ts : List Token), LinkFree s →
      exec (.stop (t :: ts)) s = .next (s.answering ["!SYNTAX STOP".toList]) ∧
      exec (.pause (t :: ts)) s = .next (s.answering ["!SYNTAX PAUSE".toList]) ∧
      exec (.resume (t :: ts)) s = .next (s.answering ["!SYNTAX RESUME".toList]) ∧
      exec (.nextSegment (t :: ts)) s = .next (s.answering ["!SYNTAX NEXT".toList]) ∧
      exec (.calibrate (t :: ts)) s = .next (s.answering ["!SYNTAX CALIBRATE".toList]) ∧
      exec (.poll (t :: ts)) s = .next (s.answering ["!SYNTAX POLL".toList]) ∧
      exec (.store (t :: ts)) s = .next (s.answering ["!SYNTAX STORE".toList]) ∧
      exec (.recallImage (t :: ts)) s = .next (s.answering ["!SYNTAX RECALL".toList]) ∧
      exec (.resetWarm (t :: ts)) s = .next (s.answering ["!SYNTAX RESET".toList]) ∧
      exec (.resetCold (t :: ts)) s = .next (s.answering ["!SYNTAX RESET".toList])) ∧
  (∀ (n : Nat) (s : State), LinkFree s → n < 48 →
      (s.seq.run ≠ .idle → exec (.start [natText n]) s = .next (s.answering ["!STATE START".toList])) ∧
      (s.seq.run = .idle → slotAt s n = none →
        exec (.start [natText n]) s = .next (s.answering ["!EMPTY START".toList])) ∧
      (s.seq.run = .idle → exec (.queue [natText n]) s = .next (s.answering ["!STATE QUEUE".toList])) ∧
      (s.seq.run ≠ .idle → slotAt s n = none →
        exec (.queue [natText n]) s = .next (s.answering ["!EMPTY QUEUE".toList])) ∧
      (s.seq.run ≠ .active → s.seq.run ≠ .suspended →
        exec (.pause []) s = .next (s.answering ["!STATE PAUSE".toList])) ∧
      ((∀ r, s.seq.run ≠ .paused r) → exec (.resume []) s = .next (s.answering ["!STATE RESUME".toList])) ∧
      (s.seq.run = .idle ∨ s.seq.run = .starved →
        exec (.nextSegment []) s = .next (s.answering ["!STATE NEXT".toList])) ∧
      exec (.start []) s = .next (s.answering ["!SYNTAX START".toList]) ∧
      exec (.queue []) s = .next (s.answering ["!SYNTAX QUEUE".toList]) ∧
      (∀ t, readNumber t = none →
        exec (.start [t]) s = .next (s.answering ["!SYNTAX START".toList]) ∧
        exec (.queue [t]) s = .next (s.answering ["!SYNTAX QUEUE".toList])) ∧
      ∀ t v, readNumber t = some v → (v < 0 ∨ 47 < v) →
        exec (.start [t]) s = .next (s.answering ["!RANGE START".toList]) ∧
        exec (.queue [t]) s = .next (s.answering ["!RANGE QUEUE".toList]))

/-- R30: PAUSE of an ACTIVE or SUSPENDED run: a shot not yet in flight is dropped, a shot in flight is left, a camera
retry is ended, and the segment stands. R31: RESUME clears the miss and retry counters; in RESERVE the run becomes
SUSPENDED, otherwise ACTIVE, with the schedule started from now when no shot is in flight. -/
def Obligations.PauseAndResume : Prop :=
  (∀ (s : State), LinkFree s → EngineSound s → (s.seq.run = .active ∨ s.seq.run = .suspended) →
      leadsTo (.pause []) s fun t =>
        t.seq.run = .paused .host ∧ t.seq.wait = none ∧ t.seq.suspWaiting = false ∧ t.engine.retrying = false ∧
          t.seq.stage = (if inFlight s then s.seq.stage else .none) ∧ t.seq.current = s.seq.current ∧
          t.seq.armed = s.seq.armed ∧ t.seq.live = s.seq.live ∧ t.seq.shotIndex = s.seq.shotIndex ∧
          t.seq.skip = s.seq.skip ∧ t.notices = s.notices ∧ replies s t "=PAUSE".toList ∧ runFrame s t) ∧
  (∀ (r : PauseReason) (s : State), LinkFree s → s.seq.run = .paused r →
      (s.power.level = .reserve → exec (.resume []) s = .next
        ({ s with seq := { s.seq with run := .suspended }
                  engine := { s.engine with misses := 0, retries := 0 } }.answering ["=RESUME SUSPENDED".toList])) ∧
      (s.power.level ≠ .reserve →
        leadsTo (.resume []) s fun t =>
          t.seq.run = .active ∧ t.engine.misses = 0 ∧ t.engine.retries = 0 ∧ t.seq.current = s.seq.current ∧
            t.seq.armed = s.seq.armed ∧ t.seq.live = s.seq.live ∧ t.notices = s.notices ∧
            (inFlight s = true → t.seq.stage = s.seq.stage) ∧
            (∀ l, s.seq.live = some l → s.seq.stage = .none → s.engine.retrying = false →
              scheduledAt l.seg (now s + preparation s) s t) ∧
            replies s t "=RESUME ACTIVE".toList ∧ runFrame s t))

/-- R35 steps 2 and 3: the slot that follows, READY or not: Armed, or with none Armed the slot of the follow field. -/
abbrev follower (l : Live) (s : State) : Option Nat :=
  match s.seq.armed, l.seg.fol with
  | some m, _ => some m
  | none, .slot m => some m
  | none, .finish => none
  | none, .ask => none

/-- Slot `m` with record `g` has taken over from the segment of `s` by the last of `n` handoffs, in the run state
`run` (R25, R35, R36). In ACTIVE its schedule has been started with the earliest due time `target`, on the calendar of
`u`, unless a camera retry holds it: the retry then goes on and the segment has its wait at once (R44; the wait is
assumption log 14). In another run state it has neither shot nor wait. -/
abbrev handedTo (m : Nat) (g : Segment) (n : Nat) (s u : State) (target : Tick) (run : RunState) (held : Prop)
    (t : State) : Prop :=
  madeCurrent m g s t ∧ t.seq.run = run ∧ t.seq.handoffs = s.seq.handoffs + n ∧ Notice.segmentEnd ∈ t.notices ∧
    (run ≠ .active → t.seq.stage = .none ∧ t.seq.wait = none) ∧
    (run = .active → held → t.engine.retrying = true ∧ t.seq.stage = .none ∧ waitsUnscheduled g u t) ∧
    (run = .active → ¬ held → s.seq.stage = .none ∨ EngineSound s → scheduledAt g target u t)

/-- What a row that ends the segment of `l` leads to (R34, R35, R36), end times being tested by the calendar of `u`:
the slot that follows becomes Current; one whose own end time has passed hands on at once, and one that follows
itself, or a handoff counter at 48, ends the run with PLAN_LOOP; with nothing to follow the run ends as the follow
field says. A shot of the ended segment that was pending or priming is dropped. -/
abbrev endsSegment (c : Instr) (l : Live) (s u : State) (target : Tick) (run : RunState) (held : Prop) : Prop :=
  (∀ m, follower l s = some m → ∀ g, slotAt s m = some g →
    (endAhead g u → s.seq.handoffs < 48 → leadsTo c s (handedTo m g 1 s u target run held)) ∧
    (endPassed g u →
      (∀ k h, g.fol = .slot k → slotAt s k = some h → endAhead h u → s.seq.handoffs < 47 →
        leadsTo c s (handedTo k h 2 s u target run held)) ∧
      (g.fol = .slot m → leadsTo c s fun t =>
        runEndedIn .idle t ∧ Notice.segmentEnd ∈ t.notices ∧ Notice.planLoop ∈ t.notices ∧
          (Notice.runEnd ∈ t.notices ↔ Notice.runEnd ∈ s.notices))) ∧
    (48 ≤ s.seq.handoffs → leadsTo c s fun t =>
      runEndedIn .idle t ∧ Notice.segmentEnd ∈ t.notices ∧ Notice.planLoop ∈ t.notices ∧
        (Notice.runEnd ∈ t.notices ↔ Notice.runEnd ∈ s.notices))) ∧
  (s.seq.armed = none → l.seg.fol = .finish → leadsTo c s fun t =>
    runEndedIn .idle t ∧ Notice.segmentEnd ∈ t.notices ∧ Notice.runEnd ∈ t.notices) ∧
  (s.seq.armed = none → needsNext s l.seg.fol → leadsTo c s fun t =>
    runEndedIn .starved t ∧ Notice.segmentEnd ∈ t.notices ∧ Notice.starved ∈ t.notices)

/-- R32: a NEXT taken with a shot in flight marks the end as waiting; otherwise it ends the segment at once, a pending
shot withdrawn and a priming one abandoned. R35, R36: the handoff at the end of a segment that NEXT takes at once: the
Armed slot, or with none Armed the READY slot that the follow field names, becomes Current in the same run state and
is counted as a handoff; with the handoff counter at 48 it does not, and the run ends with PLAN_LOOP; with nothing to
follow the run ends as the follow field says. R27, R22, R44: in an ACTIVE run the schedule of the segment handed to
starts from now, or, during a camera retry, is held: the retry goes on, no shot is set and the segment has its wait at
once (the wait in that case is assumption log 14). A segment handed to whose end time has passed hands on at once, and
one that follows itself ends with PLAN_LOOP. -/
def Obligations.NextHandsOff : Prop :=
  (∀ (l : Live) (s : State), LinkFree s → hasSegment s.seq.run = true → s.seq.live = some l →
      (inFlight s = true → exec (.nextSegment []) s = .next
        ({ s with seq := { s.seq with endWaiting := true } }.answering ["=NEXT".toList])) ∧
      (inFlight s = false →
        leadsTo (.nextSegment []) s fun t => Notice.segmentEnd ∈ t.notices ∧ replies s t "=NEXT".toList ∧ runFrame s t)) ∧
  ∀ (l : Live) (s : State), LinkFree s → hasSegment s.seq.run = true → s.seq.live = some l → inFlight s = false →
    endsSegment (.nextSegment []) l s s (now s + preparation s) s.seq.run (s.engine.retrying = true)

/-- R33: QUEUE of a READY slot sets Armed; in STARVED the slot becomes Current at once, with the handoff counter 0 and
the history and held values as they were. R188, R175: the autorun step: AR OFF starts nothing, an EMPTY slot raises
NEED_NEXT, a READY one is started as START does; the link takes lines from then on. R25 step 4, R36: either one of a
segment whose end time has passed ends it at once. -/
def Obligations.QueueAndAutorun : Prop :=
  (∀ (n : Nat) (g : Segment) (s : State), LinkFree s → n < 48 → slotAt s n = some g →
      (hasSegment s.seq.run = true → exec (.queue [natText n]) s = .next
        ({ s with seq := { s.seq with armed := some n } }.answering ["=QUEUE ".toList ++ natText n])) ∧
      (s.seq.run = .starved → endAhead g s →
        leadsTo (.queue [natText n]) s fun t =>
          madeCurrent n g s t ∧ startedAs s t ∧ t.seq.handoffs = 0 ∧ t.expo.history = s.expo.history ∧
            t.expo.eHeld = s.expo.eHeld ∧ t.expo.gHeld = s.expo.gHeld ∧
            replies s t ("=QUEUE ".toList ++ natText n) ∧ runFrame s t) ∧
      (s.seq.run = .starved → endPassed g s → endsAtOnce (.queue [natText n]) n g s)) ∧
  (∀ (found : Found) (s : State), s.startUp = .autorun found → s.link.waiting = none →
      (s.settings.ar = none → exec .autorunStart s = .next { s with startUp := .working }) ∧
      (∀ n, s.settings.ar = some n → slotAt s n = none →
        leadsTo .autorunStart s fun t =>
          t.startUp = .working ∧ t.seq = s.seq ∧ Notice.needNext ∈ t.notices ∧ t.engine = s.engine) ∧
      ∀ n, s.settings.ar = some n → ∀ g, slotAt s n = some g →
        (endAhead g s → leadsTo .autorunStart s fun t =>
          t.startUp = .working ∧ madeCurrent n g s t ∧ startedAs s t ∧ t.seq.handoffs = 0 ∧ t.expo.history = [] ∧
            t.expo.eHeld = none ∧ t.expo.gHeld = 0 ∧ t.link = s.link) ∧
        (endPassed g s → endsAtOnce .autorunStart n g s))

/-- Trip edges are counted and this edge is a qualifying one (R46). -/
abbrev edgeCounts (l : Live) (rising : Bool) (s : State) : Prop :=
  s.seq.run = .active ∧ s.seq.wait = some .tripWait ∧ s.seq.live = some l ∧ l.seg.src = .trip ∧
    (rising = true ↔ s.settings.te = .rise)

/-- R47: a trip event is taken: no shot is held, no retry is in progress, and the spacing has passed. -/
abbrev tripTaken (l : Live) (s : State) : Prop :=
  s.seq.stage = .none ∧ s.engine.retrying = false ∧ (∀ x ∈ s.seq.lastDue, x + l.seg.iv * 64 * stretch s ≤ now s)

/-- R46, R47: an edge that is not counted only changes the level of TRIP; a counted one raises the edge counter, and the
one that would bring it to DIV sets it to 0 and is a trip event, which makes a shot due at now + P or is ignored and
counted. -/
def Obligations.TripEdgesMakeShots : Prop :=
  ∀ (rising : Bool) (s : State),
    (s.seq.live = none → exec (.tripEdge rising) s = .next { s with pins := { s.pins with trip := rising } }) ∧
    ∀ l, s.seq.live = some l →
    (¬ edgeCounts l rising s → exec (.tripEdge rising) s = .next { s with pins := { s.pins with trip := rising } }) ∧
    (edgeCounts l rising s → s.seq.edges + 1 < l.seg.div →
      exec (.tripEdge rising) s = .next
        { s with seq := { s.seq with edges := s.seq.edges + 1 }, pins := { s.pins with trip := rising } }) ∧
    (edgeCounts l rising s → l.seg.div ≤ s.seq.edges + 1 →
      (¬ tripTaken l s ∨ windowOpen l.seg.win l.seg.days (now s + preparation s) = false) →
      exec (.tripEdge rising) s = .next
        { s with seq := { s.seq with edges := 0, ignored := min 255 (s.seq.ignored + 1) }
                 pins := { s.pins with trip := rising } }) ∧
    (edgeCounts l rising s → l.seg.div ≤ s.seq.edges + 1 → tripTaken l s →
      windowOpen l.seg.win l.seg.days (now s + preparation s) = true →
      leadsTo (.tripEdge rising) s fun t =>
        nextDue t = some (now s + preparation s) ∧ t.seq.edges = 0 ∧ t.seq.ignored = s.seq.ignored ∧
          t.seq.wait = some .tripWait ∧ t.seq.run = .active ∧ t.seq.live = s.seq.live ∧ t.log = s.log ∧
          t.pins.trip = rising)

/-! ### The calendar (chapter 3) -/

/-- What a tick increment adds to the fraction (R50, R58). -/
abbrev tickStep (c : Calendar) : Nat := if 0 < c.correction then 2 else if c.correction < 0 then 0 else 1

/-- The calendar's counts are in their ranges (R50, R57). -/
abbrev calendarInRange (c : Calendar) : Prop := c.seconds ≤ 4294967295 ∧ c.fraction < 1024 ∧ c.span < 4096

/-- 32 slow-clock cycles taken off the counts of a shot in flight. -/
abbrev flightCounted (f : Flight) : Flight :=
  { f with bulbLeft := f.bulbLeft - 32, openLeft := f.openLeft - 32, writeLeft := f.writeLeft - 32,
           fixedLeft := f.fixedLeft.map (· - 32) }

/-- R50, R57, R58: a tick increment adds 0, 1 or 2 ticks to the instant by the sign of the correction pending, never
past the last instant; the correction moves one toward 0, but stands at the last instant (assumption log 16); each
increase of the seconds count moves the span counter, and the one that ends a span sets a correction of TR, none while
TR is 0 (one still pending then goes on: assumption log 16). The validity flag stands. A tick increment within a
second takes 32 slow-clock cycles off every count that runs on the slow clock and moves the fraction; nothing else
changes (the counts are kept to the tick by assumption log 3). -/
def Obligations.TickAdvancesCalendarAndCounts : Prop :=
  (∀ (s : State), s.cal.powered = true → calendarInRange s.cal →
      leadsTo .tickIncrement s fun t =>
        now t = min (4294967295 * 1024 + 1023) (now s + tickStep s.cal) ∧ calendarInRange t.cal ∧
          t.cal.valid = s.cal.valid ∧ t.cal.lost = s.cal.lost ∧
          t.cal.span = (if s.cal.seconds < t.cal.seconds then (s.cal.span + 1) % 4096 else s.cal.span) ∧
          t.cal.correction =
            (if s.cal.seconds < t.cal.seconds ∧ s.cal.span = 4095 ∧ s.settings.tr ≠ 0 then s.settings.tr
              else if s.cal.seconds = 4294967295 ∧ s.cal.fraction = 1023 then s.cal.correction
              else if 0 < s.cal.correction then s.cal.correction - 1
              else if s.cal.correction < 0 then s.cal.correction + 1 else 0)) ∧
  (∀ (s : State), s.cal.powered = true → s.cal.fraction + tickStep s.cal < 1024 →
      (s.cal.seconds = 4294967295 → s.cal.fraction < 1023) →
      exec .tickIncrement s = .next { s with
        cal := { s.cal with
          fraction := s.cal.fraction + tickStep s.cal
          correction := if 0 < s.cal.correction then s.cal.correction - 1
            else if s.cal.correction < 0 then s.cal.correction + 1 else 0 }
        engine := { s.engine with
          settleLeft := s.engine.settleLeft - 32, wakeLeft := s.engine.wakeLeft - 32
          holdLeft := s.engine.holdLeft - 32
          shot := s.engine.shot.map fun x => { x with flight := x.flight.map flightCounted } }
        power := { s.power with
          measuring := s.power.measuring.map fun m => { m with left := m.left - 32 }
          timer := s.power.timer.map (· - 32)
          heater := s.power.heater.map fun h => { h with left := h.left - 32, onLeft := h.onLeft - 32 } }
        clock := { s.clock with startLeft := s.clock.startLeft - 32 }
        supply := match s.supply with
          | .returning left => .returning (left - 32)
          | .below => .below
          | .good => .good })

/-- The tick increment at hand raises the seconds count of a valid calendar to `sec`. -/
abbrev secondBegins (sec : Nat) (s : State) : Prop :=
  s.cal.powered = true ∧ s.cal.valid = true ∧ s.cal.fraction = 1023 ∧ s.cal.correction = 0 ∧
    s.cal.seconds + 1 = sec ∧ sec ≤ 4294967295

/-- R60: asked at an instant X at which the window is closed, the search finds W for every weekday mask, and W is the
first instant later than X at which the window is open. -/
def Obligations.OpeningIsFirstOpenInstant : Prop :=
  ∀ (a b days : Nat) (x : Tick), a < 1440 → b < 1440 → 1 ≤ days → days ≤ 127 →
    windowOpen (some (a, b)) days x = false →
    ∃ w, nextOpening (some (a, b)) days x = some w ∧ x < w ∧ w % 1024 = 0 ∧
      windowOpen (some (a, b)) days w = true ∧ ∀ y, x ≤ y → y < w → windowOpen (some (a, b)) days y = false

/-- R34, R62: the increase of the seconds count that reaches UNTIL ends the segment, with a pending shot withdrawn and
a priming one abandoned, or marks the end as waiting when a shot is in flight; a shot due at that very tick has not
been taken (the model's choice, assumption log 15). R35, R36: the slot that follows is then Current, its schedule
started from that instant (R27) or held by a camera retry with its wait at once (R44; the wait is assumption log 14),
or the run has ended as the follow field says or by the loop guard. R48, R61: the close of the window of a TRIP
segment in TRIP_WAIT: the wait becomes CLOSED with the next opening instant; a shot pending or priming is dropped and
counted as ignored, a shot in flight stays. R41, R48: when the opening instant W arrives, a TIMED segment in CLOSED
returns to BETWEEN and a TRIP segment to TRIP_WAIT with its edge counter at 0; before W, and in another wait, nothing
changes (assumption log 2). -/
def Obligations.WindowsOpenAndClose : Prop :=
  (∀ (l : Live) (u sec : Nat) (s : State), s.seq.live = some l → l.seg.endAt = some u → secondBegins sec s →
      u ≤ sec →
      leadsTo .tickIncrement s fun t =>
        if inFlight s = true then t.seq.endWaiting = true ∧ t.seq.stage = s.seq.stage ∧ t.seq.live = s.seq.live
        else Notice.segmentEnd ∈ t.notices) ∧
  (∀ (l : Live) (u sec : Nat) (s : State), s.seq.live = some l → l.seg.endAt = some u → secondBegins sec s →
      u ≤ sec → inFlight s = false →
      endsSegment .tickIncrement l s { s with cal := { s.cal with seconds := sec, fraction := 0 } }
        (sec * 1024 + preparation { s with engine := { s.engine with settleLeft := s.engine.settleLeft - 32 } })
        s.seq.run (s.engine.retrying = true)) ∧
  (∀ (l : Live) (sec : Nat) (s : State), s.seq.live = some l → l.seg.src = .trip → l.seg.endAt = none →
      s.seq.run = .active → s.seq.wait = some .tripWait → secondBegins sec s → sec % 60 = 0 →
      windowOpen l.seg.win l.seg.days (sec * 1024 - 1) = true → windowOpen l.seg.win l.seg.days (sec * 1024) = false →
      leadsTo .tickIncrement s fun t =>
        t.seq.wait = some .closed ∧ t.seq.opening = nextOpening l.seg.win l.seg.days (sec * 1024) ∧
          (inFlight s = true → t.seq.stage = s.seq.stage ∧ t.seq.ignored = s.seq.ignored) ∧
          (s.seq.stage = .none → t.seq.stage = .none ∧ t.seq.ignored = s.seq.ignored) ∧
          (nextDue s ≠ none → t.seq.stage = .none ∧ t.seq.ignored = min 255 (s.seq.ignored + 1)) ∧
          t.seq.live = s.seq.live ∧ t.seq.run = .active ∧ t.log = s.log) ∧
  (∀ (l : Live) (w : Tick) (s : State), s.seq.live = some l → s.seq.opening = some w →
      (s.seq.wait = some .closed → w ≤ now s → l.seg.src = .timed →
        exec .windowOpening s = .next { s with seq := { s.seq with wait := some .between, opening := none } }) ∧
      (s.seq.wait = some .closed → w ≤ now s → l.seg.src = .trip →
        leadsTo .windowOpening s fun t =>
          t.seq.wait = some .tripWait ∧ t.seq.opening = none ∧ t.seq.edges = 0 ∧ t.seq.live = s.seq.live ∧
            t.seq.run = s.seq.run ∧ t.seq.ignored = s.seq.ignored ∧ t.cal = s.cal ∧ t.log = s.log) ∧
      ((s.seq.wait ≠ some .closed ∨ now s < w) → exec .windowOpening s = .next s))

/-- The line that TIME answers (R55). -/
abbrev timeLine (c : Calendar) : Text :=
  "=TIME ".toList ++ natText c.seconds ++ ' ' :: natText c.fraction ++
    (if c.valid then " VALID DAY=".toList else " INVALID DAY=".toList) ++ natText (c.seconds / 86400) ++
    " MIN=".toList ++ natText (c.seconds % 86400 / 60) ++ " WD=".toList ++ natText (c.seconds / 86400 % 7)

/-- The calendar that TIME sets (R56 steps 1 to 3). -/
abbrev calendarSetTo (sec frac : Nat) (c : Calendar) : Calendar :=
  { c with seconds := sec, fraction := frac, valid := true, span := 0, correction := 0 }

/-- R42, R56: TIME s f sets the calendar and reports it; the last due time becomes none. An ACTIVE run whose end time
the set has not reached re-anchors to the new time, at once or, with a shot in flight, at its completion, or, during a
camera retry, at its end (R44), with its wait taken by the new time (the wait during a retry is assumption log 14); in
every other run state nothing else changes. A TIME that reaches the end time of the segment ends it in ACTIVE, PAUSED
and SUSPENDED (R34, R42 step 2): with a shot in flight the end waits for its completion, and so does the re-anchor of
an ACTIVE run; otherwise the handoff is made at once with the schedule started from the new time (R35, R36). -/
def Obligations.TimeSetsCalendar : Prop :=
  ∀ (sec frac : Nat) (s : State), LinkFree s → sec ≤ 4294967295 → frac < 1024 →
    (leadsTo (.timeSet [natText sec, natText frac]) s fun t =>
      t.cal = calendarSetTo sec frac s.cal ∧ replies s t (timeLine (calendarSetTo sec frac s.cal)) ∧
        t.log = s.log ∧ t.plan = s.plan ∧ t.settings = s.settings) ∧
    (s.seq.run ≠ .active → (∀ l ∈ s.seq.live, ∀ u ∈ l.seg.endAt, sec < u) →
      exec (.timeSet [natText sec, natText frac]) s = .next
        ({ s with cal := calendarSetTo sec frac s.cal, seq := { s.seq with lastDue := none } }.answering
          [timeLine (calendarSetTo sec frac s.cal)])) ∧
    (∀ l, s.seq.live = some l → s.seq.run = .active → EngineSound s → (∀ u ∈ l.seg.endAt, sec < u) →
      leadsTo (.timeSet [natText sec, natText frac]) s fun t =>
        t.seq.lastDue = none ∧ t.seq.live = s.seq.live ∧ t.seq.run = .active ∧
          (inFlight s = true → t.seq.stage = s.seq.stage ∧ t.seq.anchorWaiting = true ∧ t.seq.wait = s.seq.wait) ∧
          (inFlight s = false → s.engine.retrying = false →
            scheduledAt l.seg (sec * 1024 + frac + preparation s)
              { s with cal := calendarSetTo sec frac s.cal } t) ∧
          (s.engine.retrying = true → t.engine.retrying = true ∧ t.seq.stage = .none ∧
            waitsUnscheduled l.seg { s with cal := calendarSetTo sec frac s.cal } t)) ∧
    ∀ l, s.seq.live = some l → hasSegment s.seq.run = true → (∃ u ∈ l.seg.endAt, u ≤ sec) →
      (inFlight s = true → exec (.timeSet [natText sec, natText frac]) s = .next
        ({ s with cal := calendarSetTo sec frac s.cal
                  seq := { s.seq with
                    lastDue := none, endWaiting := true
                    anchorWaiting := s.seq.anchorWaiting || decide (s.seq.run = RunState.active) } }.answering
          [timeLine (calendarSetTo sec frac s.cal)])) ∧
      (inFlight s = false →
        endsSegment (.timeSet [natText sec, natText frac]) l s { s with cal := calendarSetTo sec frac s.cal }
          (sec * 1024 + frac + preparation s) s.seq.run (s.engine.retrying = true))

/-- R55: TIME alone reports the count, the validity and the derived day, minute and weekday, and changes nothing. R56: a
missing fraction is 0; a value out of range is refused with RANGE and a malformed one, or a third argument, with
SYNTAX, the calendar left as it was. -/
def Obligations.TimeReportsAndChecks : Prop :=
  (∀ (s : State), LinkFree s → exec .time s = .next (s.answering [timeLine s.cal])) ∧
  (∀ (s : State) (t u : Token), LinkFree s →
      (∀ sec : Nat, sec ≤ 4294967295 →
        exec (.timeSet [natText sec]) s = exec (.timeSet [natText sec, natText 0]) s) ∧
      (∀ x, readNumber t = some x → (x < 0 ∨ 4294967295 < x) →
        exec (.timeSet [t]) s = .next (s.answering ["!RANGE TIME".toList])) ∧
      (∀ x y, readNumber t = some x → readNumber u = some y → (x < 0 ∨ 4294967295 < x ∨ y < 0 ∨ 1023 < y) →
        exec (.timeSet [t, u]) s = .next (s.answering ["!RANGE TIME".toList])) ∧
      ((readNumber t = none ∨ readNumber u = none) →
        exec (.timeSet [t, u]) s = .next (s.answering ["!SYNTAX TIME".toList])) ∧
      ∀ v vs, exec (.timeSet (t :: u :: v :: vs)) s = .next (s.answering ["!SYNTAX TIME".toList]))

/-! ### Supply, resets and start-up (R53, R141, R175, R187, R189) -/

/-- R53: fed from VBAT, the backup domain is not lost; fed from VBKP it loses its state, and restarts from 0, invalid,
with the lost marker set and the trim 0, when power returns to it: with VBAT, or on VBKP, where the first tick after the
return counts on from 0; a domain that kept its state is left as it was. VBAT's return begins the 250 ms of R141. The
model's choices: the loss takes effect at once on the values that the restart gives, and a return on VBKP is seen at
that tick (assumption log 10); a loss or a return of VBAT that the supply cannot meet changes nothing (assumption logs
2 and 11). -/
def Obligations.BackupDomainRestarts : Prop :=
  ∀ (s : State),
    (s.supply ≠ .below → exec .backupDomainLoss s = .next s ∧ exec .vbatReturn s = .next s) ∧
    (s.supply = .below → s.cal.powered = true →
      exec .vbatReturn s = .next { s with supply := .returning 8192 }) ∧
    (s.supply = .below →
      leadsTo .backupDomainLoss s fun t =>
        t.cal.powered = false ∧ t.plan = s.plan ∧ t.image = s.image ∧
          exec .vbatReturn t = .next { s with
            cal := { seconds := 0, fraction := 0, valid := false, span := 0, correction := 0, lost := true,
                     powered := true }
            settings := { s.settings with tr := 0 }
            supply := .returning 8192 } ∧
          leadsTo .tickIncrement t fun u =>
            u.cal = { seconds := 0, fraction := 1, valid := false, span := 0, correction := 0, lost := true,
                      powered := true } ∧
              u.settings = { s.settings with tr := 0 } ∧ u.supply = .below ∧ u.seq = s.seq ∧ u.notices = s.notices)

/-- What a cold start makes of a state, with the start-up sequence taken to the start of its measurements (R20, R49,
R86, R105, R128, R150, R151, R162, R175, R182, R187): the power-on values of each block, the marker of a lost calendar
reported, and the image loaded if it is good; the marker and the trim that it found are kept for a sequence that is
broken off. -/
abbrev coldStarted (s t : State) : Prop :=
  t.seq = Sequencer.cold ∧ t.engine = Engine.cold ∧ t.expo = Calculator.cold ∧ t.clock = Clock.cold ∧
    t.link = Link.cold ∧ t.log = [] ∧
    t.power = { level := .normal, last := none, timer := none, heater := none,
                measuring := some { kind := .rest, periodic := false, left := 66 } } ∧
    t.plan = { slots := if s.image.good then s.image.contents.slots else emptySlots, staging := none } ∧
    t.settings = (if s.image.good then s.image.contents.settings else Settings.default) ∧
    t.meter = { Meter.cold with
      dark := if s.image.good then s.image.contents.dark else 0
      tcal := if s.image.good then s.image.contents.tcal else none } ∧
    t.notices = (if s.cal.lost then [Notice.timeLost] else []) ++ (if s.image.good then [] else [Notice.storeBad]) ∧
    t.cal = { s.cal with lost := false } ∧ t.image = s.image ∧
    t.startUp = .series { lost := s.cal.lost, trim := s.settings.tr } ∧
    t.pins = { camPwr := false, trig := false, wake := false, gain := 0, heat := false,
               attn := (s.cal.lost || !s.image.good) && t.settings.atOn, busy := s.pins.busy, trip := s.pins.trip }

/-- R53, R141, R187: power-on, the release of nRST and the end of the 250 ms each begin a cold start, power-on on a
restarted backup domain where it had lost its state; nRST held low holds the start back. R174, R187: RESET COLD
makes a cold start when its reply has been sent. That POWER_ON finds the supply below the brownout level, that nRST and
VBAT are independent, and that a release of nRST with the supply not good starts nothing, is the model's choice
(assumption log 11). -/
def Obligations.ColdStartsBegin : Prop :=
  (∀ (s : State),
      (s.supply = .below → s.nrstLow = false → s.cal.powered = true →
        leadsTo .powerOn s fun t => coldStarted s t ∧ t.supply = .good ∧ t.nrstLow = false) ∧
      (s.supply = .below → s.nrstLow = false → s.cal.powered = false →
        leadsTo .powerOn s fun t => coldStarted
          { s with cal := { seconds := 0, fraction := 0, valid := false, span := 0, correction := 0, lost := true,
                            powered := true }
                   settings := { s.settings with tr := 0 } } t ∧ t.supply = .good) ∧
      (s.supply = .good → s.nrstLow = true →
        leadsTo .nrstRelease s fun t => coldStarted s t ∧ t.supply = .good ∧ t.nrstLow = false) ∧
      (∀ left < 32, s.supply = .returning left → s.nrstLow = false →
        leadsTo .brownoutRecovery s fun t => coldStarted s t ∧ t.supply = .good ∧ t.nrstLow = false) ∧
      (∀ left < 32, s.supply = .returning left → s.nrstLow = true →
        exec .brownoutRecovery s = .next { s with supply := .good }) ∧
      (s.supply = .below → s.nrstLow = true → s.cal.powered = true →
        exec .powerOn s = .next { s with supply := .good }) ∧
      (s.supply ≠ .good → s.nrstLow = true → exec .nrstRelease s = .next { s with nrstLow := false })) ∧
  (∀ (s : State) (r : List Text), s.link.state = .sending r .cold →
      leadsTo .replySent s fun t => coldStarted s t ∧ t.supply = s.supply ∧ t.nrstLow = s.nrstLow)

/-- R86, R141, R163, R185: nRST held low and a brownout stop the part: the camera, heater and ATTN lines are at rest,
a STORE in progress leaves the image bad (up to the end of its verify: the model's choice, assumption log 8), TXD
rests high, and lines and characters are ignored. R187: the calendar stands, and of a start-up sequence that is broken
off nothing survives: the lost marker and the trim are as it found them (also where nRST breaks it off: assumption log
10). HEAT low under nRST is read from the pin table of 00_scope.md 4 (assumption log 9). -/
def Obligations.StoppedPartIsAtRest : Prop :=
  ∀ (s : State) (c : Instr), (c = .nrstAssert ∨ c = .brownout) →
    leadsTo c s fun t =>
      t.startUp = .stopped ∧
        t.cal = (match s.startUp with
          | .series f | .autorun f => { s.cal with lost := f.lost }
          | .stopped | .working => s.cal) ∧
        t.settings.tr = (match s.startUp with
          | .series f | .autorun f => f.trim
          | .stopped | .working => s.settings.tr) ∧
        t.link = Link.cold ∧ t.log = [] ∧
        t.pins = { camPwr := false, trig := false, wake := false, gain := 0, heat := false, attn := false,
                   busy := s.pins.busy, trip := s.pins.trip } ∧
        t.image.contents = s.image.contents ∧
        t.image.good = (s.image.good && (writingContents s.link.state).isNone) ∧
        t.nrstLow = (decide (c = .nrstAssert) || s.nrstLow) ∧
        t.supply = (if c = .brownout then .below else s.supply) ∧
        txdLevels t = [] ∧ (∀ i l, lineOf i = some l → exec i t = .next t) ∧
        ∀ v f, exec (.receiveCharacter v f) t = .next t

/-- A shot with what it has gathered since TRIG assert is held (R66). -/
abbrev shotFlying (x : Shot) (f : Flight) (s : State) : Prop := s.engine.shot = some x ∧ x.flight = some f

/-- The frame record that a shot's end writes (R78, R85), field by field. -/
abbrev recordsFrame (x : Shot) (e : Exposure) (f : Flight) (cut : Bool) (wr : Option Nat) (s t : State) : Prop :=
  t.engine.frameCounter = (if s.engine.frameCounter = 4294967295 then 1 else s.engine.frameCounter + 1) ∧
    ∃ r ∈ t.log.getLast?,
      t.log = (if s.engine.frameCounter = 4294967295 then [r] else (s.log ++ [r]).drop (s.log.length + 1 - 512)) ∧
      r.number = t.engine.frameCounter ∧ r.time = f.stamp ∧ r.slot = f.slot ∧ r.index = f.index ∧ r.e = e.e ∧
      r.es = e.es ∧ r.g = e.g ∧ r.t = e.t ∧
      r.b = (match e.path with | .metered b _ => some b | .held | .fixed | .ramped => none) ∧
      r.bias = (match e.path with | .metered _ v => some v | .held | .fixed | .ramped => none) ∧
      r.flags = { clampHi := e.clampHi, clampLo := e.clampLo, coarse := f.coarse, heldMeter := x.heldMeter,
                  overFlag := x.overFlag, underFlag := x.underFlag, noSync := f.noSync, cut := cut,
                  stretched := f.stretched } ∧
      r.skip = f.skip ∧ r.trip = f.trip ∧ r.lag = f.lag ∧ r.wr = wr ∧
      (∀ m ∈ s.power.last, r.volts = m.volts ∧ r.temp = m.temp)

/-- A shot in flight whose exposure stands. -/
abbrev frameInHand (x : Shot) (e : Exposure) (f : Flight) (s : State) : Prop :=
  shotFlying x f s ∧ x.exposure = some e ∧ inFlight s = true

/-- R174: RESET WARM and RESET COLD are answered first, with the reset ordered for the end of the reply. R189, R174: the
warm reset that RESET WARM orders, made when its reply has been sent with the run IDLE: what it clears, and by
equality everything that it keeps. R189, R29: a warm reset in any other run state first ends the run as STOP does:
no shot, the rail off, the camera lines at rest; the slots, the settings, the image, the calendar and the level are
kept, and so are the frame log and the frame counter, but for the record of a shot in flight, which is cut. -/
def Obligations.WarmResetIsOrderedAndClears : Prop :=
  (∀ (s : State), LinkFree s →
      exec (.resetWarm []) s = .next (setLink (.sending ["=RESET WARM".toList] .warm) s) ∧
      exec (.resetCold []) s = .next (setLink (.sending ["=RESET COLD".toList] .cold) s)) ∧
  (∀ (s : State) (r : List Text), s.link.state = .sending r .warm → s.seq.run = .idle →
      exec .replySent s = .next { s with
        link := { buffer := [], longMark := false, badMark := false, afterCr := false, waiting := none, state := .ready }
        plan := { s.plan with staging := none }
        seq := Sequencer.cold
        engine := { s.engine with misses := 0, retries := 0 }
        meter := { s.meter with
          state := .idle, rangeStage := 2, overSeen := false, underSeen := false, oneOff := .none
          outcome := match s.meter.state with
            | .calibrating .. => .abandoned
            | .idle | .converting .. => s.meter.outcome }
        expo := { history := [], eHeld := none, gHeld := 0, result := none }
        clock := { state := .off, meterAsks := false, shotAsks := false, goodPeriods := 0, startLeft := 0 }
        notices := []
        pins := { s.pins with attn := false } }) ∧
  (∀ (s : State) (r : List Text), s.link.state = .sending r .warm → s.seq.run ≠ .idle → EngineSound s →
      leadsTo .replySent s fun t =>
        t.seq = Sequencer.cold ∧ t.engine.phase = .dormant ∧ t.engine.shot = none ∧ t.engine.misses = 0 ∧
          t.engine.retries = 0 ∧ t.engine.retrying = false ∧ t.pins.camPwr = false ∧ t.pins.trig = false ∧
          t.pins.wake = false ∧ t.pins.gain = 0 ∧ t.pins.attn = false ∧ t.notices = [] ∧ t.link = Link.cold ∧
          t.expo = Calculator.cold ∧ t.clock = Clock.cold ∧ t.meter.state = .idle ∧
          t.plan = { s.plan with staging := none } ∧ t.settings = s.settings ∧ t.image = s.image ∧ t.cal = s.cal ∧
          t.power = s.power ∧
          (inFlight s = false → t.log = s.log ∧ t.engine.frameCounter = s.engine.frameCounter) ∧
          ∀ x e f, frameInHand x e f s → recordsFrame x e f true none s t)

/-! ### The shot engine (chapter 4) -/

/-- A shot due at `d` is pending with these instants (R23, R66). -/
abbrev shotPending (d : Tick) (x : Shot) (s : State) : Prop := s.seq.stage = .pending d ∧ s.engine.shot = some x

/-- R68, R81, R44: the settle expiry makes the phase READY and begins a prime that waited; the settle of a camera
retry ends the retry, counts the grid points passed since the completion that began it, on the grid of the shot that
completed then (with a handoff since, of the segment that has ended: assumption log 13), and re-anchors. -/
def Obligations.SettleExpiryEndsPowering : Prop :=
  ∀ (s : State), s.engine.phase = .powering → s.engine.settleLeft < 32 →
    (s.engine.retrying = false → (∀ x, pendingShot s = some x → now s < x.primeAt) →
      exec .settleExpiry s = .next { s with engine := { s.engine with phase := .ready, settleLeft := 0 } }) ∧
    (s.engine.retrying = false → ∀ x, pendingShot s = some x → x.primeAt ≤ now s → s.seq.live.isSome = true →
      leadsTo .settleExpiry s fun t =>
        t.engine.phase = .prime ∧ nextDue t = nextDue s ∧ t.clock.shotAsks = true) ∧
    (s.engine.retrying = true → s.seq.run = .active → s.seq.stage = .none →
      ∀ l, s.seq.live = some l →
      leadsTo .settleExpiry s fun t =>
        t.engine.retrying = false ∧ t.seq.retryGrid = none ∧
          t.seq.skip = min 255 (s.seq.skip + (match s.seq.retryGrid with
            | none => 0
            | some p => if l.seg.src = .timed then
                (now s - p.due) / (p.iv.getD l.seg.iv * 64 * stretch s) -
                  (p.completed - p.due) / (p.iv.getD l.seg.iv * 64 * stretch s)
              else 0)) ∧
          scheduledAt l.seg (now s + s.settings.pl * 64) s t)

/-- The exposure of a frame of a FIX or RAMP segment with shot index `i`, and its path (R3, R109, R110). -/
abbrev plainExposure (g : Segment) (i : Nat) : Option (Int × Path) :=
  match g.mode with
  | .fix e => some (e, .fixed)
  | .ramp a b => some (if g.n ≤ i + 1 then (b : Int) else a + Int.tdiv (((b : Int) - a) * i) ((g.n : Int) - 1), .ramped)
  | .met .. => none

/-- The meter is reading for the host. -/
abbrev hostReads (m : MeterState) : Bool := match m with | .converting .host _ _ _ => true | _ => false

/-- The meter is calibrating. -/
abbrev calibrates (m : MeterState) : Bool := match m with | .calibrating .. => true | _ => false

/-- R69, R70, R89, R109, R110: the prime begins in READY at the prime instant: the stage becomes PRIMING, the fast clock
is requested for the shot, WAKE is asserted for WP sixteenths (not when the prime begins at D). A FIX or RAMP
segment has its exposure at once, with G on the gain lines; a MET segment's reading begins, taking the meter from a
host's reading, or the shot takes the held path at once while the meter calibrates. R69: WAKE is released when the
wake pulse has run out, and not before (assumption log 2). -/
def Obligations.PrimeInstantBeginsPrime : Prop :=
  (∀ (d : Tick) (x : Shot) (l : Live) (s : State), shotPending d x s → s.engine.phase = .ready →
      s.seq.live = some l →
      (x.primeAt ≤ now s →
        leadsTo .primeInstant s fun t =>
          t.engine.phase = .prime ∧ t.seq.stage = .priming d ∧ t.clock.shotAsks = true ∧
            t.pins.wake = (decide (0 < s.settings.wp) && decide (now s < d)) ∧
            t.engine.wakeLeft = (if 0 < s.settings.wp ∧ now s < d then s.settings.wp * 2048 else 0) ∧
            (∀ p, plainExposure l.seg s.seq.shotIndex = some p →
              t.engine.shot.bind Shot.exposure = some (partition p.1.toNat s.expo.gHeld l.seg p.2) ∧
                t.pins.gain = BitVec.ofNat 3 (partition p.1.toNat s.expo.gHeld l.seg p.2).g ∧ t.meter = s.meter) ∧
            (isMet l.seg = true → s.meter.state = .idle → t.clock.meterAsks = true ∧ primeReading t = true ∧
              t.engine.shot.bind Shot.exposure = x.exposure ∧ t.pins.gain = s.pins.gain) ∧
            (isMet l.seg = true → hostReads s.meter.state = true → primeReading t = true ∧
              t.meter.oneOff = .abandoned ∧ t.meter.rangeStage = s.meter.rangeStage) ∧
            (isMet l.seg = true → calibrates s.meter.state = true → t.meter = s.meter ∧
              ∃ e ∈ t.engine.shot.bind Shot.exposure, e.path = .held ∧ t.pins.gain = BitVec.ofNat 3 e.g) ∧
            t.seq.live = s.seq.live ∧ t.seq.run = s.seq.run ∧ t.notices = s.notices ∧ t.log = s.log) ∧
      (now s < x.primeAt → exec .primeInstant s = .next s)) ∧
  (∀ (s : State), s.pins.wake = true →
      (s.engine.wakeLeft < 32 → exec .wakePulseEnd s = .next { s with
        engine := { s.engine with wakeLeft := 0 }, pins := { s.pins with wake := false } }) ∧
      (32 ≤ s.engine.wakeLeft → exec .wakePulseEnd s = .next s))

/-- R45, R52, R72, R73, R124: the due time of a shot in PRIME whose exposure stands: TRIG is asserted and WAKE released,
the exposure is committed, the shot takes its stamp, slot, index, clock and counts, and the handoff, skip and
ignored-trip counters are 0. R73, R147: a bulb on the fast clock is counted in 4 × t of its cycles, and every bulb in
slow-clock cycles. R75: with a sync line the open watch of OT × 2,048 slow-clock cycles runs from now; the write watch
and write_fixed do not yet run. -/
def Obligations.DueTimeAssertsTrig : Prop :=
  ∀ (d : Tick) (x : Shot) (e : Exposure) (l : Live) (s : State), s.seq.stage = .priming d → s.engine.phase = .prime →
    s.engine.shot = some x → x.exposure = some e → s.expo.result = some e → s.seq.live = some l → d ≤ now s →
    ∃ f : Flight, exec .dueTime s = .next { s with
        seq := { s.seq with stage := .inFlight d, handoffs := 0, skip := 0, ignored := 0 }
        expo := { s.expo with eHeld := some e.e, gHeld := e.g, result := none }
        engine := { s.engine with phase := .exposing, wakeLeft := 0, shot := some { x with flight := some f } }
        pins := { s.pins with trig := true, wake := false } } ∧
      f.stamp = (if s.cal.valid then some (s.cal.seconds, s.cal.fraction) else none) ∧ f.slot = l.slot ∧
      f.index = s.seq.shotIndex + 1 ∧ f.stretched = decide (1 < stretch s) ∧ f.skip = s.seq.skip ∧
      f.trip = (if l.seg.src = .trip then some s.seq.ignored else none) ∧
      f.fastLeft = (if e.es ≤ 79 ∧ s.clock.state = .running then some (4 * e.t) else none) ∧
      f.coarse = decide (e.es ≤ 79 ∧ s.clock.state ≠ .running) ∧
      f.bulbLeft = (2 * (e.t * 32768) + 1000000) / (2 * 1000000) ∧ f.lag = none ∧ f.wr = none ∧ f.noSync = false ∧
      f.sy = s.settings.sy ∧ f.ot = s.settings.ot ∧ f.wt = s.settings.wt ∧ f.wf = s.settings.wf ∧
      f.openLeft = (if s.settings.sy = .none then 0 else s.settings.ot * 2048) ∧ f.writeLeft = 0 ∧ f.fixedLeft = none

/-- R71, R92, R119: a MET reading that still runs at the due time is abandoned, the meter returns to IDLE, and the shot
is taken on the held path, flagged HELD_METER: the held exposure clamped to EL, or the middle of EL while it is
UNSET, split by the partition, with its G on the gain lines. R71: a due time that arrives in POWERING or READY,
before the prime, takes the shot through PRIME at that instant, with no wake pulse; one that has not arrived, or
that meets the rail off, changes nothing (assumption logs 2 and 17). -/
def Obligations.DueTimeCutsPrimeShort : Prop :=
  (∀ (d : Tick) (key k db slew lo hi : Nat) (b0 b1 : Int) (x : Shot) (l : Live) (s : State),
      s.seq.stage = .priming d → s.engine.phase = .prime → s.engine.shot = some x → x.exposure = none →
      s.seq.live = some l → l.seg.mode = .met key b0 b1 k db slew lo hi → primeReading s = true → d ≤ now s →
      leadsTo .dueTime s fun t =>
        t.pins.trig = true ∧ t.engine.phase = .exposing ∧ t.seq.stage = .inFlight d ∧ t.meter.state = .idle ∧
          t.meter.rangeStage = s.meter.rangeStage ∧ t.clock.meterAsks = false ∧ t.expo.history = s.expo.history ∧
          ∃ y ∈ t.engine.shot, y.heldMeter = true ∧ y.overFlag = false ∧ y.underFlag = false ∧
            ∃ e ∈ y.exposure,
              e.e = (match s.expo.eHeld with | none => (lo + hi) / 2 | some h => max lo (min hi h)) ∧
              e = partition e.e s.expo.gHeld l.seg .held ∧ t.pins.gain = BitVec.ofNat 3 e.g ∧
              t.expo.eHeld = some e.e ∧ t.expo.gHeld = e.g) ∧
  (∀ (d : Tick) (x : Shot) (s : State), shotPending d x s → s.seq.live.isSome = true →
      (d ≤ now s → (s.engine.phase = .powering ∨ s.engine.phase = .ready) →
        leadsTo .dueTime s fun t =>
          t.engine.phase = .exposing ∧ t.pins.trig = true ∧ t.pins.wake = false ∧ t.seq.stage = .inFlight d ∧
            t.clock.shotAsks = true) ∧
      ((now s < d ∨ s.engine.phase = .dormant) → exec .dueTime s = .next s))

/-- The state with the shot's gathering changed. -/
abbrev withFlight (x : Shot) (f : Flight) (s : State) : State :=
  { s with engine := { s.engine with shot := some { x with flight := some f } } }

/-- R73, R147: the count that times the bulb has run out: the fast clock's, to its check period (assumption log 4),
where it times the bulb, otherwise the slow clock's, to its tick (assumption log 3). -/
abbrev bulbEnded (f : Flight) : Prop :=
  match f.fastLeft with
  | some left => left ≤ 4012
  | none => f.bulbLeft < 32

/-- R73, R74, R75: the end of the bulb count: TRIG is released, the shot engine drops its clock request, the phase is
WRITING, and write_fixed or the write watch is counted from now; with WF = 0, or BUSY already back, the shot
completes at the release, as a miss where the open watch has expired (R76). Before the count has run out, nothing
changes (assumption log 2). -/
def Obligations.BulbEndReleasesTrig : Prop :=
  ∀ (busy : Bool) (x : Shot) (f : Flight) (s : State), shotFlying x f s → s.engine.phase = .exposing →
    (¬ bulbEnded f → exec (.bulbEnd busy) s = .next s) ∧
    (bulbEnded f → f.sy = .none → 0 < f.wf →
      exec (.bulbEnd busy) s = .next (withFlight x { f with fixedLeft := some (f.wf * 2048) } { s with
        engine := { s.engine with phase := .writing }
        pins := { s.pins with trig := false, busy := busy }
        clock := s.clock.drop .shot })) ∧
    (bulbEnded f → f.sy ≠ .none → f.noSync = true → 0 < f.wf →
      exec (.bulbEnd busy) s = .next (withFlight x { f with fixedLeft := some (f.wf * 2048) } { s with
        engine := { s.engine with phase := .writing }
        pins := { s.pins with trig := false, busy := busy }
        clock := s.clock.drop .shot })) ∧
    (bulbEnded f → f.sy ≠ .none → f.noSync = false → (f.lag = none ∨ (busy = true ↔ f.sy = .busyHigh)) →
      exec (.bulbEnd busy) s = .next (withFlight x { f with writeLeft := f.wt * 2048 } { s with
        engine := { s.engine with phase := .writing }
        pins := { s.pins with trig := false, busy := busy }
        clock := s.clock.drop .shot })) ∧
    (bulbEnded f → inFlight s = true → x.exposure.isSome = true →
      ((f.sy = .none ∧ f.wf = 0) ∨ (f.sy ≠ .none ∧ f.noSync = true ∧ f.wf = 0) ∨
        (f.sy ≠ .none ∧ f.noSync = false ∧ f.lag.isSome = true ∧ ¬ (busy = true ↔ f.sy = .busyHigh))) →
      leadsTo (.bulbEnd busy) s fun t =>
        t.pins.trig = false ∧ inFlight t = false ∧
          t.engine.misses = (if f.sy ≠ .none ∧ f.noSync = true then min 6 (s.engine.misses + 1) else 0) ∧
          newestNumber t.log = some (if s.engine.frameCounter = 4294967295 then 1 else s.engine.frameCounter + 1))

/-- R75: the open edge within the open watch records the lag; the write edge is looked for only after it. An edge that
no watch awaits changes nothing (assumption log 2). R76: the expiry of the open watch without an open edge flags the
frame NO_SYNC; after the release write_fixed is counted from then, and with WF = 0 the shot completes at once. -/
def Obligations.OpenEdgeAndOpenWatch : Prop :=
  (∀ (cycles : Nat) (x : Shot) (f : Flight) (s : State), shotFlying x f s →
      (f.sy ≠ .none → f.noSync = false → f.lag = none → cycles ≤ f.ot * 2048 →
        exec (.busyOpenEdge cycles) s = .next (withFlight x
          { f with lag := some (min 65535 (cycles * 1000 / 32768)) }
          { s with pins := { s.pins with busy := decide (f.sy = .busyHigh) } })) ∧
      ((f.sy = .none ∨ f.noSync = true ∨ f.lag.isSome = true ∨ f.ot * 2048 < cycles) →
        exec (.busyOpenEdge cycles) s = .next s) ∧
      (f.lag = none → exec (.busyWriteEdge cycles) s = .next s)) ∧
  (∀ (x : Shot) (f : Flight) (s : State), shotFlying x f s → f.sy ≠ .none → f.noSync = false → f.lag = none →
      (f.openLeft < 32 → s.engine.phase = .exposing →
        exec .openWatchExpiry s = .next (withFlight x { f with noSync := true } s)) ∧
      (f.openLeft < 32 → s.engine.phase = .writing → 0 < f.wf →
        exec .openWatchExpiry s = .next
          (withFlight x { f with noSync := true, fixedLeft := some (f.wf * 2048) } s)) ∧
      (f.openLeft < 32 → s.engine.phase = .writing → f.wf = 0 → ∀ e, x.exposure = some e → inFlight s = true →
        leadsTo .openWatchExpiry s fun t =>
          recordsFrame x e { f with noSync := true } false f.wr s t ∧ inFlight t = false ∧
            t.engine.misses = min 6 (s.engine.misses + 1)) ∧
      (32 ≤ f.openLeft → exec .openWatchExpiry s = .next s))

/-- R77, R78, R85, R153: the write edge, the expiry of the write watch and the expiry of write_fixed each complete the
shot: one frame record is written, with the number after the frame counter, and no shot is left in flight. -/
def Obligations.CompletionWritesFrame : Prop :=
  ∀ (x : Shot) (e : Exposure) (f : Flight) (s : State), frameInHand x e f s → s.engine.phase = .writing →
    (∀ cycles, f.sy ≠ .none → f.lag.isSome = true → f.noSync = false → cycles ≤ f.wt * 2048 →
      leadsTo (.busyWriteEdge cycles) s fun t =>
        recordsFrame x e f false (some (min 65535 (cycles * 1000 / 32768))) s t ∧ inFlight t = false ∧
          t.engine.misses = 0 ∧ t.engine.retries = 0) ∧
    (f.sy ≠ .none → f.lag.isSome = true → f.noSync = false → f.writeLeft < 32 →
      leadsTo .writeWatchExpiry s fun t =>
        recordsFrame x e { f with noSync := true } false f.wr s t ∧ inFlight t = false ∧
          t.engine.misses = min 6 (s.engine.misses + 1)) ∧
    (∀ left < 32, f.fixedLeft = some left →
      leadsTo .writeFixedExpiry s fun t =>
        recordsFrame x e f false f.wr s t ∧ inFlight t = false ∧
          t.engine.misses = if f.noSync then min 6 (s.engine.misses + 1) else 0)

/-- R29: STOP changes nothing in IDLE; in every other run state it leaves no shot, no pointer and no live copy, the rail
off and the camera lines at rest, and it raises no notice. R84, R29: STOP cuts a shot in flight: TRIG is released
and the frame recorded with CUT and no write time; the miss and retry counters stand. -/
def Obligations.StopEndsRun : Prop :=
  (∀ (s : State), LinkFree s →
      (s.seq.run = .idle → exec (.stop []) s = .next (s.answering ["=STOP".toList])) ∧
      (s.seq.run ≠ .idle → EngineSound s →
        leadsTo (.stop []) s fun t =>
          t.seq.run = .idle ∧ t.seq.current = none ∧ t.seq.armed = none ∧ t.seq.live = none ∧ t.seq.stage = .none ∧
            t.seq.wait = none ∧ t.seq.endWaiting = false ∧ t.seq.suspWaiting = false ∧ t.seq.anchorWaiting = false ∧
            t.engine.phase = .dormant ∧ t.engine.shot = none ∧ t.engine.retrying = false ∧ t.engine.ask = .none ∧
            t.pins.camPwr = false ∧ t.pins.trig = false ∧ t.pins.wake = false ∧ t.pins.gain = 0 ∧
            t.clock.shotAsks = false ∧ primeReading t = false ∧ t.notices = s.notices ∧ t.plan = s.plan ∧
            t.cal = s.cal ∧ t.settings = s.settings ∧ t.image = s.image ∧ t.power = s.power ∧
            (inFlight s = false → t.log = s.log) ∧ replies s t "=STOP".toList)) ∧
  (∀ (x : Shot) (e : Exposure) (f : Flight) (s : State), LinkFree s → frameInHand x e f s → s.seq.run ≠ .idle →
      leadsTo (.stop []) s fun t =>
        recordsFrame x e f true none s t ∧ t.pins.trig = false ∧ t.clock.shotAsks = false ∧ t.seq.run = .idle ∧
          t.engine.misses = s.engine.misses ∧ t.engine.retries = s.engine.retries ∧ t.engine.phase = .dormant)

/-- A completion that is a miss, in an ACTIVE run that it neither ends nor suspends. -/
abbrev missEnds (l : Live) (x : Shot) (f : Flight) (d : Tick) (s : State) : Prop :=
  s.seq.run = .active ∧ s.seq.stage = .inFlight d ∧ s.seq.live = some l ∧ s.seq.current.isSome = true ∧
    (l.seg.n = 0 ∨ min 65535 (s.seq.shotIndex + 1) ≠ l.seg.n) ∧ s.seq.endWaiting = false ∧
    s.seq.suspWaiting = false ∧ shotFlying x f s ∧ s.engine.phase = .writing ∧ f.sy ≠ .none ∧
    f.lag.isSome = true ∧ f.noSync = false ∧ f.writeLeft < 32

/-- R80, R81, R83, R37: the third consecutive miss begins a camera retry, with the rail off for 5 s; the sixth, after a
retry, is a camera fault that pauses the run; the misses between change the counter alone. -/
def Obligations.MissesCallRetryAndFault : Prop :=
  ∀ (l : Live) (x : Shot) (f : Flight) (d : Tick) (s : State), missEnds l x f d s →
    (2 ≤ s.engine.misses → s.engine.retries = 0 →
      leadsTo .writeWatchExpiry s fun t =>
        t.engine.phase = .retryOff ∧ t.engine.retrying = true ∧ t.engine.holdLeft = 163840 ∧
          t.pins.camPwr = false ∧ t.pins.gain = 0 ∧ Notice.cameraRetry ∈ t.notices ∧ t.seq.stage = .none ∧
          t.seq.run = .active ∧ t.engine.misses = min 6 (s.engine.misses + 1) ∧ t.engine.retries = 0) ∧
    (5 ≤ s.engine.misses → s.engine.retries = 1 →
      leadsTo .writeWatchExpiry s fun t =>
        t.engine.phase = .dormant ∧ t.pins.camPwr = false ∧ Notice.cameraFault ∈ t.notices ∧
          t.seq.run = .paused .camera ∧ t.seq.stage = .none ∧ t.seq.wait = none ∧ t.engine.misses = 6 ∧
          t.engine.retries = 1) ∧
    ((s.engine.misses < 2 ∨ (s.engine.retries = 1 ∧ s.engine.misses < 5)) →
      leadsTo .writeWatchExpiry s fun t =>
        t.engine.misses = s.engine.misses + 1 ∧ t.engine.retries = s.engine.retries ∧ t.seq.run = .active ∧
          t.engine.retrying = s.engine.retrying ∧ t.notices = s.notices)

/-- R67, R132, R133: the measure instant of a pending shot in DORMANT asks for the rest measurement: one in progress
is waited for, one that the trip hold asked for too (assumption log 20), otherwise one of kind REST begins and HEAT
goes low. Before the instant, or in another phase, nothing changes (assumption log 2). R67, R68: at the rail-on
instant, the rest measurement having ended, CAMPWR rises and the settle of CS × 2,048 slow-clock cycles is counted;
with CS = 0 the phase is READY at once, and a prime instant already passed begins the prime; with the due time already
passed the settle is cut and TRIG asserted at the rise (R71). While the measurement still runs, nothing changes. R81,
R67: at the end of the 5 s hold the rest measurement is asked before CAMPWR rises. -/
def Obligations.RailComesOnAfterMeasurement : Prop :=
  (∀ (d : Tick) (x : Shot) (s : State), shotPending d x s →
      (x.measureAt ≤ now s → s.engine.phase = .dormant → (s.engine.ask = .none ∨ s.engine.ask = .holdWaiting) →
        s.pins.camPwr = false → s.power.measuring = none → exec .measureInstant s = .next { s with
          engine := { s.engine with ask := .shotWaiting }
          power := { s.power with measuring := some { kind := .rest, periodic := false, left := 66 } }
          pins := { s.pins with heat := false } }) ∧
      (x.measureAt ≤ now s → s.engine.phase = .dormant → (s.engine.ask = .none ∨ s.engine.ask = .holdWaiting) →
        s.power.measuring.isSome = true →
        exec .measureInstant s = .next { s with engine := { s.engine with ask := .shotWaiting } }) ∧
      ((now s < x.measureAt ∨ s.engine.phase ≠ .dormant ∨ (s.engine.ask ≠ .none ∧ s.engine.ask ≠ .holdWaiting)) →
        exec .measureInstant s = .next s)) ∧
  (∀ (d : Tick) (x : Shot) (s : State), shotPending d x s → s.engine.phase = .dormant →
      (x.railOnAt ≤ now s → s.engine.ask = .shotReady → now s < x.due → 0 < s.settings.cs →
        exec .railOnInstant s = .next { s with
          engine := { s.engine with phase := .powering, ask := .none, settleLeft := s.settings.cs * 2048 }
          pins := { s.pins with camPwr := true } }) ∧
      (x.railOnAt ≤ now s → s.engine.ask = .shotReady → now s < x.due → s.settings.cs = 0 → s.engine.retrying = false →
        (now s < x.primeAt → exec .railOnInstant s = .next { s with
          engine := { s.engine with phase := .ready, ask := .none, settleLeft := 0 }
          pins := { s.pins with camPwr := true } }) ∧
        (x.primeAt ≤ now s → s.seq.live.isSome = true → leadsTo .railOnInstant s fun t =>
          t.engine.phase = .prime ∧ t.pins.camPwr = true ∧ t.seq.stage = .priming d ∧ t.clock.shotAsks = true)) ∧
      (x.railOnAt ≤ now s → s.engine.ask = .shotReady → x.due ≤ now s → s.seq.live.isSome = true →
        leadsTo .railOnInstant s fun t =>
          t.engine.phase = .exposing ∧ t.pins.camPwr = true ∧ t.pins.trig = true ∧ t.pins.wake = false ∧
            t.seq.stage = .inFlight d) ∧
      (s.engine.ask = .shotWaiting → exec .railOnInstant s = .next s)) ∧
  (∀ (s : State), s.engine.phase = .retryOff → s.engine.ask = .none → s.pins.camPwr = false →
      (s.engine.holdLeft < 32 → s.power.measuring = none →
        exec .retryHoldEnd s = .next { s with
          engine := { s.engine with ask := .retryWaiting }
          power := { s.power with measuring := some { kind := .rest, periodic := false, left := 66 } }
          pins := { s.pins with heat := false } }) ∧
      (s.engine.holdLeft < 32 → s.power.measuring.isSome = true →
        exec .retryHoldEnd s = .next { s with engine := { s.engine with ask := .retryWaiting } }) ∧
      (32 ≤ s.engine.holdLeft → exec .retryHoldEnd s = .next s))

/-- The row completes the shot that has gathered `f`, as a miss or not (R74 to R76, R80). -/
abbrev completesShot (c : Instr) (miss : Bool) (f : Flight) (s : State) : Prop :=
  match c with
  | .writeFixedExpiry => miss = f.noSync ∧ ∃ left ∈ f.fixedLeft, left < 32
  | .busyWriteEdge cycles =>
    miss = false ∧ s.engine.phase = .writing ∧ f.sy ≠ .none ∧ f.lag.isSome = true ∧ f.noSync = false ∧
      cycles ≤ f.wt * 2048
  | .writeWatchExpiry =>
    miss = true ∧ s.engine.phase = .writing ∧ f.sy ≠ .none ∧ f.lag.isSome = true ∧ f.noSync = false ∧ f.writeLeft < 32
  | .openWatchExpiry =>
    miss = true ∧ s.engine.phase = .writing ∧ f.sy ≠ .none ∧ f.lag = none ∧ f.noSync = false ∧ f.openLeft < 32 ∧ f.wf = 0
  | .bulbEnd busy =>
    s.engine.phase = .exposing ∧ bulbEnded f ∧
      ((miss = false ∧ f.sy = .none ∧ f.wf = 0) ∨ (miss = true ∧ f.sy ≠ .none ∧ f.noSync = true ∧ f.wf = 0) ∨
        (miss = false ∧ f.sy ≠ .none ∧ f.noSync = false ∧ f.lag.isSome = true ∧ ¬ (busy = true ↔ f.sy = .busyHigh)))
  | _ => False

/-- The row completes the shot in flight, due at `d`, of the segment of `l`. -/
abbrev completion (c : Instr) (miss : Bool) (l : Live) (d : Tick) (f : Flight) (s : State) : Prop :=
  s.seq.stage = .inFlight d ∧ s.seq.live = some l ∧ s.engine.shot.bind Shot.flight = some f ∧ completesShot c miss f s

/-- The completion begins a camera retry (R80). -/
abbrev callsRetry (miss : Bool) (s : State) : Prop :=
  miss = true ∧ s.seq.run = .active ∧ 2 ≤ s.engine.misses ∧ s.engine.retries = 0

/-- The completion gives a camera fault (R80, R83). -/
abbrev callsFault (miss : Bool) (s : State) : Prop := miss = true ∧ 5 ≤ s.engine.misses ∧ s.engine.retries = 1

/-- R37 step 2: the completion ends the segment of `l`, by its count or by an end that waited. -/
abbrev completionEndsSegment (l : Live) (s : State) : Prop :=
  s.seq.endWaiting = true ∨ (l.seg.n ≠ 0 ∧ min 65535 (s.seq.shotIndex + 1) = l.seg.n)

/-- The run state after the completion, while the run has a segment (R37 steps 3 and 4). -/
abbrev runAfterCompletion (miss : Bool) (s : State) : RunState :=
  if callsFault miss s then .paused .camera
  else if s.seq.suspWaiting = true ∧ s.seq.run = .active then .suspended
  else s.seq.run

/-- R38: P of a schedule set at a completion. -/
abbrev completionPreparation (s : State) : Nat :=
  if s.power.level = .thrift then (s.settings.pl + s.settings.cs) * 64 else preparation s

/-- What a completion that does not end the segment records (R37 step 1, R80), nothing being left to wait for it. -/
abbrev completionCounted (d : Tick) (miss : Bool) (s t : State) : Prop :=
  t.seq.shotIndex = min 65535 (s.seq.shotIndex + 1) ∧ t.seq.lastDue = some d ∧
    t.engine.misses = (if miss then min 6 (s.engine.misses + 1) else 0) ∧
    t.engine.retries = (if miss then s.engine.retries else 0) ∧ t.seq.live = s.seq.live ∧
    t.seq.current = s.seq.current ∧ t.seq.armed = s.seq.armed ∧ t.seq.suspWaiting = false ∧
    t.seq.anchorWaiting = false ∧ t.seq.edges = s.seq.edges ∧ t.seq.ignored = s.seq.ignored

/-- A completion after which an ACTIVE run goes on with its segment (R37 step 6). -/
abbrev completionGoesOn (c : Instr) (miss : Bool) (l : Live) (d : Tick) (f : Flight) (s : State) : Prop :=
  completion c miss l d f s ∧ s.seq.run = .active ∧ ¬ completionEndsSegment l s ∧ s.seq.suspWaiting = false ∧
    ¬ callsRetry miss s ∧ ¬ callsFault miss s ∧ s.engine.retrying = false

/-- What follows a completion (R37), by whichever row the shot completes (R74 to R76). R40, R41: in an ACTIVE run that
goes on, a TIMED segment takes the first point of the grid D + k × step, k ≥ 1, that is later than now, and adds the
points passed over to the skip counter; where its window is closed at that point the wait is CLOSED, with the shot set
at the opening instant. A re-anchor that waited from TIME is made from now (R42). A TRIP segment stays in its wait
with its edge counter as it stood (R46, R48). R37 steps 2 and 3, R35, R36: a completion that brings the shot index to
N, or meets a waiting end, ends the segment with the handoff; the schedule of the segment handed to is held where a
camera retry begins (its wait is assumption log 14), a suspension waited, or a camera fault pauses the run. R37 step
4, R43: a suspension that waited makes the run SUSPENDED; there and in PAUSED the completion sets no due time and the
rail goes off. R79 steps 2 to 4: in THRIFT the rail goes off; in NORMAL it goes off for a TIMED segment exactly when
the next shot's rail-on instant lies more than LM sixteenths after now, or there is none, and stays on for a TRIP
segment in TRIP_WAIT. The shot index and the last due time are those of R37 step 1, and the counters of misses those
of R80. -/
def Obligations.CompletionFollowsGrid : Prop :=
  (∀ (c : Instr) (miss : Bool) (l : Live) (d : Tick) (f : Flight) (s : State), completionGoesOn c miss l d f s →
      (s.seq.anchorWaiting = false → l.seg.src = .timed → 0 < l.seg.iv → 0 < s.settings.st →
        ∃ k, 1 ≤ k ∧ now s < d + k * (l.seg.iv * 64 * stretch s) ∧
          (∀ j < k, 1 ≤ j → d + j * (l.seg.iv * 64 * stretch s) ≤ now s) ∧
          leadsTo c s fun t =>
            (if windowOpen l.seg.win l.seg.days (d + k * (l.seg.iv * 64 * stretch s)) = true then
              t.seq.wait = some .between ∧ nextDue t = some (d + k * (l.seg.iv * 64 * stretch s))
            else t.seq.wait = some .closed ∧
              t.seq.opening = nextOpening l.seg.win l.seg.days (d + k * (l.seg.iv * 64 * stretch s)) ∧
              nextDue t = nextOpening l.seg.win l.seg.days (d + k * (l.seg.iv * 64 * stretch s))) ∧
            t.seq.skip = min 255 (s.seq.skip + (k - 1)) ∧ t.seq.run = .active ∧ completionCounted d miss s t) ∧
      (s.seq.anchorWaiting = false → l.seg.src = .trip →
        leadsTo c s fun t =>
          t.seq.wait = s.seq.wait ∧ t.seq.opening = s.seq.opening ∧ t.seq.stage = .none ∧ t.seq.skip = s.seq.skip ∧
            t.seq.run = .active ∧ completionCounted d miss s t) ∧
      (s.seq.anchorWaiting = true →
        leadsTo c s fun t =>
          scheduledAt l.seg (now s + completionPreparation s) s t ∧ t.seq.skip = s.seq.skip ∧ t.seq.run = .active ∧
            completionCounted d miss s t) ∧
      (s.pins.camPwr = true →
        leadsTo c s fun t =>
          (s.power.level = .thrift → t.pins.camPwr = false ∧ t.pins.gain = 0 ∧ t.engine.phase = .dormant) ∧
            (s.power.level = .normal → t.pins.camPwr = (match l.seg.src, nextDue t with
                | .timed, some due => decide (due ≤ now s + (s.settings.lm + s.settings.cs + s.settings.pl) * 64)
                | .timed, none => false
                | .trip, _ => decide (t.seq.wait = some .tripWait)) ∧
              (t.pins.camPwr = true ↔ t.engine.phase = .ready ∨ t.engine.phase = .prime)))) ∧
  (∀ (c : Instr) (miss : Bool) (l : Live) (d : Tick) (f : Flight) (s : State), completion c miss l d f s →
      completionEndsSegment l s →
      endsSegment c l s s (now s + completionPreparation s) (runAfterCompletion miss s) (callsRetry miss s)) ∧
  ∀ (c : Instr) (miss : Bool) (l : Live) (d : Tick) (f : Flight) (s : State), completion c miss l d f s →
    ¬ completionEndsSegment l s → hasSegment s.seq.run = true → s.seq.current.isSome = true →
    s.engine.retrying = false → runAfterCompletion miss s ≠ .active →
    leadsTo c s fun t =>
      t.seq.run = runAfterCompletion miss s ∧ t.seq.stage = .none ∧
        (s.seq.run = .active ∨ s.seq.wait = none → t.seq.wait = none) ∧ t.seq.skip = s.seq.skip ∧
        t.pins.camPwr = false ∧ t.pins.gain = 0 ∧ t.engine.phase = .dormant ∧ completionCounted d miss s t

/-! ### The scene meter and the exposure calculator (chapters 5 and 6) -/

/-- The meter takes a request of the host: it is IDLE, no prime runs, and the level is not RESERVE (R99, R102). -/
abbrev hostMeterFree (s : State) : Prop :=
  s.meter.state = .idle ∧ s.engine.phase ≠ .prime ∧ s.power.level ≠ .reserve

/-- The clock controller after a requester that was not in the set has joined it (R145). -/
abbrev clockAsked (c : Clock) : Clock :=
  match c.state with
  | .off | .failed => { c with state := .starting, meterAsks := true, goodPeriods := 0, startLeft := 655 }
  | .starting | .running => { c with meterAsks := true }

/-- The clock controller after a requester has left the set, `left` saying whether the other one stays (R148). -/
abbrev clockLeft (left : Bool) (c : Clock) : Clock :=
  if left = true ∨ c.state = .off ∨ c.state = .failed then c
  else { c with state := .off, goodPeriods := 0, startLeft := 0 }

/-- The line that METER LAST answers (R103). -/
abbrev oneOffLine (r : OneOff) : Text :=
  "=METER LAST ".toList ++ match r with
    | .none => "NONE".toList
    | .pending g => "PENDING STAGE=".toList ++ natText g
    | .done n g b hi lo => "DONE N=".toList ++ natText n ++ " STAGE=".toList ++ natText g ++ " B=".toList ++ natText b ++
        " FLAGS=".toList ++ (if hi then "OVER".toList else if lo then "UNDER".toList else "NONE".toList)
    | .abandoned => "ABANDONED".toList
    | .unavailable => "UNAVAILABLE".toList

/-- R98, R99, R102, R103, R104: the five forms of METER and CALIBRATE: METER begins a one-off reading and CALIBRATE a
calibration when the meter takes requests, and both are refused with BUSY otherwise; METER LAST and METER DARK
report; METER CLEAR clears the sticky flags; other words are refused with SYNTAX. -/
def Obligations.MeterAnswersHost : Prop :=
  ∀ (s : State), LinkFree s →
    (hostMeterFree s → s.clock.meterAsks = false →
      exec (.meter []) s = .next ({ s with
        meter := { s.meter with
          state := .converting .host s.meter.rangeStage 0
            (if s.clock.state = ClockState.running then .integrating 200000 else .waiting)
          oneOff := .pending s.meter.rangeStage }
        clock := clockAsked s.clock }.answering ["=METER BEGUN STAGE=".toList ++ natText s.meter.rangeStage]) ∧
      exec (.calibrate []) s = .next ({ s with
        meter := { s.meter with
          state := .calibrating (lastTemp s) 0 0 (if s.clock.state = ClockState.running then some 200000 else none) }
        clock := clockAsked s.clock }.answering ["=CALIBRATE BEGUN".toList])) ∧
    (¬ hostMeterFree s →
      exec (.meter []) s = .next (s.answering ["!BUSY METER".toList]) ∧
      exec (.calibrate []) s = .next (s.answering ["!BUSY CALIBRATE".toList])) ∧
    exec .meterLast s = .next (s.answering [oneOffLine s.meter.oneOff]) ∧
    exec .meterDark s = .next (s.answering ["=METER DARK D=".toList ++ natText s.meter.dark ++ " TCAL=".toList ++
      (match s.meter.tcal with | some t => intText t | none => "UNSET".toList) ++ " STATE=".toList ++
      (match s.meter.state with
        | .idle => "IDLE".toList
        | .converting .. => "CONVERTING".toList
        | .calibrating .. => "CALIBRATING".toList) ++ " LAST=".toList ++
      (match s.meter.outcome with
        | .none => "NONE".toList
        | .done => "DONE".toList
        | .failed => "FAILED".toList
        | .abandoned => "ABANDONED".toList)]) ∧
    exec .meterClear s = .next ({ s with meter := { s.meter with
      overSeen := false, underSeen := false } }.answering ["=METER CLEAR".toList]) ∧
    (∀ t : Token, t ≠ "LAST".toList → t ≠ "CLEAR".toList → t ≠ "DARK".toList →
      exec (.meter [t]) s = .next (s.answering ["!SYNTAX METER".toList])) ∧
    (∀ (t u : Token) (ts : List Token), exec (.meter (t :: u :: ts)) s = .next (s.answering ["!SYNTAX METER".toList]))

/-- A reading is integrating, its 50 ms ending within the check period (assumption log 4). -/
abbrev integrationEnds (who : Requester) (g k left : Nat) (s : State) : Prop :=
  left ≤ 4012 ∧ s.meter.state = .converting who g k (.integrating left)

/-- The state with the meter in another meter state. -/
abbrev withMeter (m : MeterState) (s : State) : State := { s with meter := { s.meter with state := m } }

/-- R90, R91: the end of an integration: a plainly out-of-range count repeats it at the neighbouring stage, twice at
most; any other count is final and its computation begins, on D and MC as they then stand (R93, R95; that this is the
moment at which the computation reads them is assumption log 21); a count that would pass 65,535 is taken as 65,535. -/
def Obligations.IntegrationEndRepeatsOrComputes : Prop :=
  ∀ (who : Requester) (g k left n : Nat) (s : State), integrationEnds who g k left s →
    (n = 65535 → 0 < g → k < 2 →
      exec (.integrationEnd n) s = .next (withMeter (.converting who (g - 1) (k + 1) (.integrating 200000)) s)) ∧
    (n < 64 → g < 3 → k < 2 →
      exec (.integrationEnd n) s = .next (withMeter (.converting who (g + 1) (k + 1) (.integrating 200000)) s)) ∧
    (n ≤ 65535 → (2 ≤ k ∨ (¬ (n = 65535 ∧ 0 < g) ∧ ¬ (n < 64 ∧ g < 3))) →
      exec (.integrationEnd n) s = .next (withMeter (.converting who g k
        (.computing 4000 n s.meter.dark s.settings.mc)) s)) ∧
    (65535 < n → exec (.integrationEnd n) s = exec (.integrationEnd 65535) s)

/-- R93: the count less its dark share. -/
abbrev lessDark (n dark g : Nat) : Nat := if n = 65535 then 65535 else n - dark / 4 ^ (3 - g)

/-- R94: `l` is the piecewise logarithm of `n` in eighths. -/
abbrev isLogEighths (n l : Nat) : Prop :=
  (n = 0 → l = 0) ∧ ∀ k < 16, 2 ^ k ≤ n → n < 2 ^ (k + 1) → l = 8 * k + (n - 2 ^ k) * 8 / 2 ^ k

/-- R95: `b` is the brightness of a reading whose final integration at stage `g` counted `n`. -/
abbrev isBrightness (n dark g : Nat) (mc : Int) (b : Nat) : Prop :=
  ∃ l ≤ 127, isLogEighths (lessDark n dark g) l ∧ (b : Int) = max 0 (min 255 ((l : Int) + 16 * (3 - (g : Int)) + mc))

/-- A reading's computation is ending on the final count `n` at stage `g`, begun with D at `dark` and MC at `mc` (that
they are read when it begins is assumption log 21). -/
abbrev computationEnds (who : Requester) (g k left n dark : Nat) (mc : Int) (s : State) : Prop :=
  n ≤ 65535 ∧ g ≤ 3 ∧ left ≤ 4012 ∧ s.meter.state = .converting who g k (.computing left n dark mc)

/-- The range flags of R96. -/
abbrev readsOver (n g : Nat) : Prop := n = 65535 ∧ g = 0

/-- See `readsOver`. -/
abbrev readsUnder (n dark g : Nat) : Prop := lessDark n dark g < 16 ∧ g = 3

/-- What the finish of a reading does whoever asked for it (R90, R91, R97): the meter IDLE, its clock request dropped,
the range stage for the next reading, the sticky flags, and METER_RANGE for a flag that was clear. -/
abbrev readingFinished (n g dark : Nat) (s t : State) : Prop :=
  t.meter.state = .idle ∧
    t.meter.rangeStage = (if 49152 ≤ n ∧ 0 < g then g - 1 else if n < 2048 ∧ g < 3 then g + 1 else g) ∧
    (t.meter.overSeen = true ↔ s.meter.overSeen = true ∨ readsOver n g) ∧
    (t.meter.underSeen = true ↔ s.meter.underSeen = true ∨ readsUnder n dark g) ∧
    (Notice.meterRange ∈ t.notices ↔ Notice.meterRange ∈ s.notices ∨
      (readsOver n g ∧ s.meter.overSeen = false) ∨ (readsUnder n dark g ∧ s.meter.underSeen = false)) ∧
    t.clock = clockLeft s.clock.shotAsks { s.clock with meterAsks := false } ∧ t.meter.dark = s.meter.dark ∧
    t.meter.tcal = s.meter.tcal ∧ t.meter.outcome = s.meter.outcome ∧ t.seq = s.seq ∧ t.cal = s.cal ∧ t.link = s.link ∧
    t.log = s.log ∧ t.settings = s.settings ∧ t.power = s.power ∧ t.plan = s.plan ∧ t.image = s.image

/-- R90, R91, R93, R94, R95, R96, R97, R102, R103, R148: the end of the computation of a host's reading: the one-off
result DONE with the count, the stage, the brightness and the flag; neither the calculator nor the shot engine hears
of it, and the meter's clock request is dropped. A SET MC or a RECALL taken during the computation leaves the reading
as it is (assumption log 21). -/
def Obligations.HostReadingIsDone : Prop :=
  ∀ (g k left n dark : Nat) (mc : Int) (s : State), computationEnds .host g k left n dark mc s →
    leadsTo .computationEnd s fun t =>
      readingFinished n g dark s t ∧ t.expo = s.expo ∧ t.engine = s.engine ∧ t.pins.gain = s.pins.gain ∧
        match t.meter.oneOff with
        | .done n' g' b hi lo => n' = n ∧ g' = g ∧ isBrightness n dark g mc b ∧
            (hi = true ↔ readsOver n g) ∧ (lo = true ↔ readsUnder n dark g)
        | .none | .pending _ | .abandoned | .unavailable => False

/-- R112, R113: the mean of the newest entries of the history, rounded half up. -/
abbrev newestMean (k : Nat) (h : List Nat) : Nat :=
  ((h.drop (h.length - k)).sum + min k h.length / 2) / min k h.length

/-- R117, R118: the exposure of a metered frame with target `t`: the target on the first frame; within the deadband the
held exposure; otherwise a step of at most SLEW toward the target; always within EL. -/
abbrev movesToward (held : Option Nat) (t : Int) (db slew lo hi : Nat) : Int :=
  match held with
  | none => t
  | some h =>
    let d := t - (h : Int)
    let e := if d.natAbs ≤ db then (h : Int) else if 0 < d then h + min d slew else h - min (-d) slew
    max lo (min hi e)

/-- The bias of the frame with index `i` before BO (R114). -/
abbrev biasOfFrame (b0 b1 : Int) (n i : Nat) : Int :=
  if n ≤ 1 then b0 else if n ≤ i + 1 then b1 else b0 + Int.tdiv ((b1 - b0) * (i : Int)) ((n : Int) - 1)

/-- R70, R90, R91, R93 to R97, R107, R111 to R118, R120 to R123: the end of the computation of a prime's reading: its
brightness joins the history, the shot has the METERED exposure of the mean of the newest K, the bias and the held
exposure, split by the partition; G stands on the gain lines and the range flags go with the frame. D and MC are those
with which the computation began (assumption log 21). -/
def Obligations.PrimeReadingGivesExposure : Prop :=
  ∀ (g j left n dark key k db slew lo hi : Nat) (mc b0 b1 : Int) (l : Live) (x : Shot) (s : State),
    computationEnds .prime g j left n dark mc s → s.seq.live = some l → l.seg.mode = .met key b0 b1 k db slew lo hi →
    modeValid l.seg.n l.seg.mode = true →
    s.engine.shot = some x → CalculatorSound s →
    ∃ b ≤ 255, isBrightness n dark g mc b ∧
      leadsTo .computationEnd s fun t =>
        readingFinished n g dark s t ∧ t.meter.oneOff = s.meter.oneOff ∧
          t.expo.history = (s.expo.history ++ [b]).drop (s.expo.history.length + 1 - 8) ∧ t.expo.eHeld = s.expo.eHeld ∧
          t.expo.gHeld = s.expo.gHeld ∧
          ∃ e ∈ t.expo.result,
            t.engine.shot = some { x with exposure := some e, heldMeter := false,
                                          overFlag := decide (readsOver n g),
                                          underFlag := decide (readsUnder n dark g) } ∧
            (e.e : Int) = movesToward s.expo.eHeld
              (max lo (min hi ((key : Int) - newestMean k t.expo.history +
                biasOfFrame b0 b1 l.seg.n s.seq.shotIndex + l.bo))) db slew lo hi ∧
            e = partition e.e s.expo.gHeld l.seg (.metered b
              (biasOfFrame b0 b1 l.seg.n s.seq.shotIndex + l.bo)) ∧ t.pins.gain = BitVec.ofNat 3 e.g

/-- The shutter time of shutter eighths, by the table of R123. -/
abbrev shutterMicros (es : Nat) : Nat := [1000, 1091, 1189, 1297, 1414, 1542, 1682, 1834].getD (es % 8) 0 * 2 ^ (es / 8)

/-- R120, R121, R122, R123: the partition of an exposure. A previous gain that leaves too much for the shutter is raised
to the least gain that serves, at most GM; otherwise the gain is lowered from the smaller of it and GM, one step
after another, while the shutter at the lower gain lies at least 4 eighths below its ceiling. The shutter is what
the gain leaves, clamped to its span: CLAMP_LO comes at the largest gain alone and CLAMP_HI at gain 0 alone, and a
gain above 0 leaves the shutter above ES max − 12. The shutter time is that of the table. -/
def Obligations.PartitionSplitsExposure : Prop :=
  ∀ (e gPrev : Nat) (seg : Segment) (p : Path), limitsValid seg = true →
    let r := partition e gPrev seg p
    r.e = e ∧ r.path = p ∧ r.g ≤ seg.gm ∧ seg.esMin ≤ r.es ∧ r.es ≤ seg.esMax ∧ r.t = shutterMicros r.es ∧
      (r.clampLo = true ↔ seg.esMax + 8 * r.g < e) ∧ (r.clampHi = true ↔ e < seg.esMin + 8 * r.g) ∧
      (r.clampLo = true → r.es = seg.esMax ∧ r.g = seg.gm) ∧ (r.clampHi = true → r.es = seg.esMin ∧ r.g = 0) ∧
      (r.clampLo = false → r.clampHi = false → r.es + 8 * r.g = e) ∧ (0 < r.g → seg.esMax < r.es + 12) ∧
      (seg.esMax + 8 * gPrev < e → r.g = min seg.gm ((e - seg.esMax + 7) / 8)) ∧
      (e ≤ seg.esMax + 8 * gPrev → r.g ≤ min gPrev seg.gm ∧ (0 < r.g → seg.esMax + 8 * (r.g - 1) < e + 4) ∧
        ∀ j, r.g < j → j ≤ min gPrev seg.gm → e + 4 ≤ seg.esMax + 8 * (j - 1))

/-- A calibration's integration is ending. -/
abbrev darkIntegrationEnds (temp : Int) (made sum left : Nat) (s : State) : Prop :=
  left ≤ 4012 ∧ s.meter.state = .calibrating temp made sum (some left)

/-- R100: seven integrations of a calibration only add their counts; the eighth sets D to the floor of the mean, at most
4,095, and T_cal to the recorded temperature, with the outcome DONE, the request dropped and the meter IDLE. -/
def Obligations.CalibrationSetsDarkCount : Prop :=
  ∀ (temp : Int) (made sum left n : Nat) (s : State), darkIntegrationEnds temp made sum left s → n ≤ 65535 →
    (made < 7 → exec (.darkIntegrationEnd n) s =
      .next (withMeter (.calibrating temp (made + 1) (sum + n) (some 200000)) s)) ∧
    (made = 7 → exec (.darkIntegrationEnd n) s = .next { s with
      meter := { s.meter with
        state := .idle, dark := min 4095 ((sum + n) / 8), tcal := some temp, outcome := .done }
      clock := clockLeft s.clock.shotAsks { s.clock with meterAsks := false } })

/-! ### The power supervisor, the heater and the fast clock (chapter 7) -/

/-- A measurement ends, its 2 ms having passed (R133), with values inside the ranges of the sensors. -/
abbrev measurementEnds (m : Measuring) (volts : Nat) (temp : Int) (s : State) : Prop :=
  s.power.measuring = some m ∧ m.left < 32 ∧ volts ≤ 6000 ∧ -40 ≤ temp ∧ temp ≤ 85

/-- V_eff of a measurement (R134). -/
abbrev effectiveOf (k : MeasKind) (volts : Nat) (temp : Int) (s : State) : Nat :=
  min 6000 ((match k with | .rest => volts | .loaded => volts + s.settings.sa) +
    s.settings.cc * (max 0 (-temp)).toNat)

/-- The level after a measurement that found `v` effective (R135). -/
abbrev levelDecided (v : Nat) (s : State) : Level :=
  match s.power.level with
  | .normal => if v < s.settings.vt then .thrift else .normal
  | .thrift => if s.settings.vt + s.settings.vh ≤ v then .normal else if v < s.settings.vr then .reserve else .thrift
  | .reserve => if s.settings.vr + s.settings.vh ≤ v then .thrift else .reserve

/-- R133, R134, R135, R143: the end of a measurement stores V, the kind, T and V_eff, and moves the level by one step at
most; LEVEL is raised exactly when the level moves; HEAT is what the heater frame calls for, low while another
measurement has begun, and the frame has lost its permission when the level has left NORMAL. Sensor values outside
their ranges are taken at the ends of the ranges. -/
def Obligations.MeasurementDecidesLevel : Prop :=
  (∀ (volts : Nat) (temp : Int) (s : State),
    exec (.measurementEnd volts temp) s = exec (.measurementEnd (min 6000 volts) (max (-40) (min 85 temp))) s) ∧
  ∀ (m : Measuring) (volts : Nat) (temp : Int) (s : State), measurementEnds m volts temp s →
    leadsTo (.measurementEnd volts temp) s fun t =>
      t.power.last = some { volts := volts, kind := m.kind, temp := temp, veff := effectiveOf m.kind volts temp s } ∧
        t.power.level = levelDecided (effectiveOf m.kind volts temp s) s ∧
        (Notice.level ∈ t.notices ↔ Notice.level ∈ s.notices ∨ t.power.level ≠ s.power.level) ∧
        (t.pins.heat = true ↔ t.power.measuring = none ∧ t.power.level = .normal ∧
          ∃ h ∈ t.power.heater, h.permission = true ∧ 0 < h.onLeft) ∧
        (s.power.level = .normal → t.power.level ≠ .normal → ∀ h ∈ t.power.heater, h.permission = false) ∧
        t.plan = s.plan ∧ t.cal = s.cal ∧ t.log = s.log ∧ t.link = s.link ∧ t.settings = s.settings ∧ t.image = s.image

/-- The level stretches the grid by this factor (R138). -/
abbrev stretchIn (lv : Level) (s : State) : Nat := if lv = .normal then 1 else s.settings.st

/-- R43, R137: a change of level reaches the run: entry to RESERVE suspends an ACTIVE run, at once or after the shot
in flight; leaving RESERVE makes a SUSPENDED run ACTIVE, its schedule started from now, or with a shot in flight left
to its completion (its wait in that case is assumption log 14); a change between NORMAL and THRIFT re-anchors the
pending shot of a grid to its last due time and the new step, or to now where there is none. R79: in THRIFT a rail
that no shot needs goes off; the return to NORMAL of a TRIP segment in TRIP_WAIT begins the trip hold, with a rest
measurement before the rail. R67, R132: a shot whose rail-on waits for the measurement is served by it, CAMPWR rising
at its end, also where it steps the level to THRIFT (that the level is decided and reported before the rail-on is
released is assumption log 15, and which measurement a trip shot joins is assumption log 20). -/
def Obligations.LevelChangeReachesRun : Prop :=
  (∀ (m : Measuring) (volts : Nat) (temp : Int) (l : Live) (new : Level) (s : State),
    measurementEnds m volts temp s → s.startUp = .working → s.seq.live = some l →
    new = levelDecided (effectiveOf m.kind volts temp s) s → s.engine.ask = .none →
    (s.power.level = .thrift → new = .reserve → s.seq.run = .active →
      leadsTo (.measurementEnd volts temp) s fun t =>
        (inFlight s = true → t.seq.run = .active ∧ t.seq.suspWaiting = true ∧ t.seq.stage = s.seq.stage) ∧
          (inFlight s = false → t.seq.run = .suspended ∧ t.seq.wait = none ∧ t.engine.retrying = false ∧
            nextDue t = none) ∧ t.seq.live = s.seq.live ∧ t.seq.armed = s.seq.armed) ∧
    (s.power.level = .reserve → new = .thrift → s.seq.run = .suspended → s.seq.stage = .none →
      s.engine.retrying = false → s.engine.phase = .dormant →
      leadsTo (.measurementEnd volts temp) s fun t =>
        t.seq.run = .active ∧ t.seq.suspWaiting = false ∧ t.seq.live = s.seq.live ∧
          scheduledAt l.seg (now s + preparation s) s t) ∧
    (s.power.level = .reserve → new = .thrift → s.seq.run = .suspended → inFlight s = true →
      leadsTo (.measurementEnd volts temp) s fun t =>
        t.seq.run = .active ∧ t.seq.suspWaiting = false ∧ t.seq.stage = s.seq.stage ∧ t.seq.live = s.seq.live ∧
          waitsUnscheduled l.seg s t) ∧
    ((s.power.level = .normal ∧ new = .thrift) ∨ (s.power.level = .thrift ∧ new = .normal) → 1 < s.settings.st →
      s.seq.run = .active → s.seq.wait = some .between → l.seg.src = .timed → s.engine.retrying = false →
      (s.engine.phase = .dormant ∨ s.engine.phase = .powering ∨ s.engine.phase = .ready) →
      ∀ y, pendingShot s = some y →
      leadsTo (.measurementEnd volts temp) s fun t =>
        scheduledAt l.seg (max (match s.seq.lastDue with
          | some x => x + l.seg.iv * 64 * stretchIn new s
          | none => now s) (now s + preparation s)) s t ∧ t.seq.run = .active) ∧
    (s.power.level = .normal → new = .thrift → s.seq.stage = .none → s.engine.retrying = false →
      (s.engine.phase = .powering ∨ s.engine.phase = .ready) →
      leadsTo (.measurementEnd volts temp) s fun t =>
        t.pins.camPwr = false ∧ t.pins.gain = 0 ∧ t.engine.phase = .dormant) ∧
    (s.power.level = .thrift → new = .normal → s.seq.stage = .none → s.engine.retrying = false →
      s.engine.phase = .dormant → s.pins.camPwr = false → s.seq.run = .active → s.seq.wait = some .tripWait →
      l.seg.src = .trip →
      leadsTo (.measurementEnd volts temp) s fun t =>
        t.engine.ask = .holdWaiting ∧ t.pins.camPwr = false ∧ t.seq.stage = .none ∧ t.seq.wait = some .tripWait ∧
          t.power.measuring = some { kind := .rest, periodic := false, left := 66 })) ∧
  (∀ (m : Measuring) (volts : Nat) (temp : Int) (l : Live) (x : Shot) (s : State),
    measurementEnds m volts temp s → s.startUp = .working → s.seq.live = some l → l.seg.src = .trip → m.kind = .rest →
    s.power.level = .normal → levelDecided (effectiveOf m.kind volts temp s) s = .thrift →
    s.engine.phase = .dormant → s.engine.retrying = false → s.engine.ask = .shotWaiting → pendingShot s = some x →
    x.railOnAt ≤ now s → now s < x.due → 0 < s.settings.cs →
    leadsTo (.measurementEnd volts temp) s fun t =>
      t.pins.camPwr = true ∧ t.engine.phase = .powering ∧ t.engine.settleLeft = s.settings.cs * 2048 ∧
        t.seq.stage = s.seq.stage ∧ t.power.level = .thrift)

/-- A measurement outside the start-up series ends and leaves the level as it was. -/
abbrev levelHolds (m : Measuring) (volts : Nat) (temp : Int) (s : State) : Prop :=
  measurementEnds m volts temp s ∧ s.startUp = .working ∧
    levelDecided (effectiveOf m.kind volts temp s) s = s.power.level

/-- R67, R81, R101, R132, R133: what follows a measurement that leaves the level: a REST one releases the rail-on that
waits for it, a shot's at its rail-on instant, the trip hold's and a retry's at once; after a LOADED one a fresh one
begins; one that served the timer begins a calibration when the temperature has drifted by 8 °C and the meter is
free for a second. R140: the start-up series: a step from NORMAL to THRIFT takes another measurement; any other
outcome ends the series, starts the timer and the first heater frame, and leaves the autorun step to come. R101, R105,
R187: at its end the drift test is made with the last T, and a calibration begins, but not in RESERVE. -/
def Obligations.MeasurementEndIsServed : Prop :=
  (∀ (m : Measuring) (volts : Nat) (temp : Int) (s : State), levelHolds m volts temp s →
      (m.kind = .rest → s.engine.ask = .shotWaiting → ∀ x, pendingShot s = some x →
        (now s < x.railOnAt → leadsTo (.measurementEnd volts temp) s fun t =>
          t.engine = { s.engine with ask := .shotReady } ∧ t.pins.camPwr = s.pins.camPwr) ∧
        (x.railOnAt ≤ now s → now s < x.due → 0 < s.settings.cs → leadsTo (.measurementEnd volts temp) s fun t =>
          t.engine = { s.engine with phase := .powering, ask := .none, settleLeft := s.settings.cs * 2048 } ∧
            t.pins.camPwr = true)) ∧
      (m.kind = .rest → s.engine.ask = .holdWaiting → s.seq.stage = .none → 0 < s.settings.cs →
        leadsTo (.measurementEnd volts temp) s fun t =>
          t.engine = { s.engine with phase := .powering, ask := .none, settleLeft := s.settings.cs * 2048 } ∧
            t.pins.camPwr = true) ∧
      (m.kind = .rest → s.engine.ask = .retryWaiting → s.seq.stage = .none → 0 < s.settings.cs →
        leadsTo (.measurementEnd volts temp) s fun t =>
          t.engine = { s.engine with phase := .powering, ask := .none, settleLeft := s.settings.cs * 2048, retries := 1 } ∧
            t.pins.camPwr = true) ∧
      (m.kind = .loaded → (s.engine.ask = .shotWaiting ∨ s.engine.ask = .holdWaiting ∨ s.engine.ask = .retryWaiting) →
        s.pins.camPwr = false → leadsTo (.measurementEnd volts temp) s fun t =>
          t.engine = s.engine ∧ t.pins.heat = false ∧
            t.power.measuring = some { kind := .rest, periodic := false, left := 66 }) ∧
      ((s.engine.ask = .none ∨ s.engine.ask = .shotReady) → leadsTo (.measurementEnd volts temp) s fun t =>
        t.power.measuring = none ∧ t.engine = s.engine ∧ t.seq = s.seq ∧ t.notices = s.notices ∧
          t.meter.state = (if m.periodic = true ∧ s.meter.state = .idle ∧ s.power.level ≠ .reserve ∧
                (∀ x ∈ s.meter.tcal, 8 ≤ (temp - x).natAbs) ∧ s.engine.phase ≠ .prime ∧
                (∀ x ∈ pendingShot s, now s + 1024 ≤ x.primeAt) then
              .calibrating temp 0 0 (if s.clock.state = ClockState.running then some 200000 else none)
            else s.meter.state))) ∧
  (∀ (m : Measuring) (volts : Nat) (temp : Int) (found : Found) (s : State), measurementEnds m volts temp s →
      s.startUp = .series found →
      s.engine = Engine.cold → s.seq = Sequencer.cold → s.pins.camPwr = false →
      leadsTo (.measurementEnd volts temp) s fun t =>
        (s.power.level = .normal → t.power.level = .thrift →
          t.startUp = .series found ∧ t.power.measuring = some { kind := .rest, periodic := false, left := 66 } ∧
            t.power.timer = s.power.timer) ∧
        (¬ (s.power.level = .normal ∧ t.power.level = .thrift) →
          t.startUp = .autorun found ∧ t.power.measuring = none ∧ t.power.timer = some 2097152 ∧
            t.meter.state = (if s.meter.state = .idle ∧ t.power.level ≠ .reserve ∧
                (∀ x ∈ s.meter.tcal, 8 ≤ (temp - x).natAbs) then
              .calibrating temp 0 0 (if s.clock.state = ClockState.running then some 200000 else none)
            else s.meter.state) ∧
            t.power.heater = some
              { left := 32768, onLeft := s.settings.hd * 512,
                permission := decide (t.power.level = .normal ∧ 0 < s.settings.hd ∧ temp ≤ s.settings.hb) }))

/-- R131, R132, R133, R142: the measurement timer asks for a measurement every 64 s, served by one in progress or begun
at once with HEAT low; a heater frame is followed by the next, its on-time HD × 512 cycles, its permission fixed by
the level, HD and T, and HEAT high for a frame with permission; the end of the on-time takes HEAT low. -/
def Obligations.TimerAndHeaterFramesRun : Prop :=
  ∀ (left : Nat) (s : State), left < 32 →
    (s.power.timer = some left → s.power.measuring = none →
      exec .measurementTimerExpiry s = .next { s with
        power := { s.power with
          timer := some 2097152
          measuring := some { kind := if s.pins.camPwr then .loaded else .rest, periodic := true, left := 66 } }
        pins := { s.pins with heat := false } }) ∧
    (s.power.timer = some left → ∀ m, s.power.measuring = some m →
      exec .measurementTimerExpiry s = .next { s with
        power := { s.power with timer := some 2097152, measuring := some { m with periodic := true } } }) ∧
    (∀ h, s.power.heater = some h → h.left = left → ∀ x, s.power.last = some x →
      exec .heaterFrameBoundary s = .next { s with
        power := { s.power with
          heater := some {
            left := 32768
            onLeft := s.settings.hd * 512
            permission := decide (s.power.level = .normal ∧ 0 < s.settings.hd ∧ x.temp ≤ s.settings.hb) } }
        pins := { s.pins with heat := decide (s.power.level = .normal ∧ 0 < s.settings.hd ∧ x.temp ≤ s.settings.hb ∧
          s.power.measuring = none) } }) ∧
    (∀ h, s.power.heater = some h → h.onLeft = left → 32 ≤ h.left →
      exec .heaterOnTimeEnd s = .next { s with
        power := { s.power with heater := some { h with onLeft := 0 } }
        pins := { s.pins with heat := false } })

/-- The shot engine with the fast-clock count of a bulb in progress changed. -/
abbrev fastBulbCount (change : Option Nat → Option Nat) (e : Engine) : Engine :=
  { e with shot := e.shot.map fun x => { x with flight := x.flight.map fun f =>
    { f with fastLeft := change f.fastLeft } } }

/-- What the failure of the fast clock leaves whoever requests it (R146, R147): FAILED with CLOCK_FAIL raised. -/
abbrev clockFailed (s t : State) : Prop :=
  t.clock.state = .failed ∧ t.clock.shotAsks = s.clock.shotAsks ∧ Notice.clockFail ∈ t.notices ∧
    (∀ k ∈ t.notices, k = Notice.clockFail ∨ k ∈ s.notices) ∧
    (s.meter.state = .idle → t.meter = s.meter ∧ t.clock.meterAsks = s.clock.meterAsks ∧
      t.engine = fastBulbCount (fun _ => none) s.engine) ∧
    (s.meter.state ≠ .idle → t.meter.state = .idle ∧ t.clock.meterAsks = false) ∧
    (∀ g k step, s.meter.state = .converting .host g k step → t.meter.oneOff = .unavailable ∧
      t.engine = fastBulbCount (fun _ => none) s.engine) ∧
    (∀ temp made sum left, s.meter.state = .calibrating temp made sum left →
      t.meter.outcome = .failed ∧ t.meter.dark = s.meter.dark ∧ t.meter.tcal = s.meter.tcal) ∧
    (∀ g k step, s.meter.state = .converting .prime g k step → ∀ l ∈ s.seq.live, isMet l.seg = true →
      s.engine.shot.isSome = true → ∃ y ∈ t.engine.shot, y.heldMeter = true ∧ ∃ e ∈ y.exposure, e.path = .held ∧
        t.pins.gain = BitVec.ofNat 3 e.g) ∧
    t.meter.rangeStage = s.meter.rangeStage ∧ t.seq = s.seq ∧ t.cal = s.cal ∧ t.log = s.log ∧ t.power = s.power

/-- R88, R146, R147: two check periods in a row with counts of 3,800 to 4,012 make a starting clock RUNNING, and the
meter that waits integrates; a bad period starts the count afresh; 655 cycles without stability, and a bad period of
the running clock, are a failure, after which the slow-clock count of a bulb in progress ends it. A good period of the
running clock counts down the meter's work and the bulb that it times (assumption log 4). -/
def Obligations.ClockStartsRunsAndFails : Prop :=
  ∀ (n : Nat) (s : State),
    (s.clock.state = .starting → 3800 ≤ n → n ≤ 4012 → s.clock.goodPeriods = 0 →
      exec (.clockPeriodEnd n) s = .next { s with clock := { s.clock with goodPeriods := 1 } }) ∧
    (s.clock.state = .starting → 3800 ≤ n → n ≤ 4012 → s.clock.goodPeriods = 1 →
      leadsTo (.clockPeriodEnd n) s fun t =>
        t.clock.state = .running ∧ t.clock.meterAsks = s.clock.meterAsks ∧ t.clock.shotAsks = s.clock.shotAsks ∧
          t = { s with clock := t.clock, meter := { s.meter with state := t.meter.state } } ∧
          t.meter.state = (match s.meter.state with
            | .converting who g k .waiting => .converting who g k (.integrating 200000)
            | .calibrating temp made sum none => .calibrating temp made sum (some 200000)
            | m => m)) ∧
    (s.clock.state = .starting → (n < 3800 ∨ 4012 < n) →
      exec (.clockPeriodEnd n) s = .next { s with clock := { s.clock with goodPeriods := 0 } }) ∧
    (s.clock.state = .running → 3800 ≤ n → n ≤ 4012 →
      exec (.clockPeriodEnd n) s = .next (withMeter (match s.meter.state with
        | .converting who g k (.integrating left) => .converting who g k (.integrating (left - n))
        | .converting who g k (.computing left c dark mc) => .converting who g k (.computing (left - n) c dark mc)
        | .calibrating temp made sum (some left) => .calibrating temp made sum (some (left - n))
        | m => m) { s with engine := fastBulbCount (·.map (· - n)) s.engine })) ∧
    (s.clock.state = .running → (n < 3800 ∨ 4012 < n) → leadsTo (.clockPeriodEnd n) s (clockFailed s)) ∧
    (s.clock.state = .starting → s.clock.startLeft < 32 → leadsTo .clockStartTimeout s (clockFailed s))

/-! ### The frame log, the notice set, the settings and the image (chapters 8 to 11) -/

/-- ` key=value` of an optional field of a record (R154). -/
abbrev optionalField (key : String) (v : Option Text) : Text :=
  match v with
  | some x => key.toList ++ x
  | none => []

/-- The record line of a readout (R154, R159). -/
abbrev frameLine (r : FrameRecord) : Text :=
  "=FRAME N=".toList ++ natText r.number ++
    optionalField " TIME=" (r.time.map fun p => natText p.1 ++ ',' :: natText p.2) ++
    " SLOT=".toList ++ natText r.slot ++ " I=".toList ++ natText r.index ++ " E=".toList ++ natText r.e ++
    " ES=".toList ++ natText r.es ++ " G=".toList ++ natText r.g ++ " TUS=".toList ++ natText r.t ++
    optionalField " B=" (r.b.map natText) ++ optionalField " BIAS=" (r.bias.map intText) ++
    " FLAGS=".toList ++ (if frameFlagNames r.flags = [] then "NONE".toList else joinWith [','] (frameFlagNames r.flags)) ++
    " SKIP=".toList ++ natText r.skip ++ optionalField " TRIP=" (r.trip.map natText) ++
    optionalField " LAG=" (r.lag.map natText) ++ optionalField " WR=" (r.wr.map natText) ++
    " V=".toList ++ natText r.volts ++ " TEMP=".toList ++ intText r.temp

/-- The records that a readout from number `n` sends: those from `n` on, at most `c` of them (R158). -/
abbrev framesFrom (log : List FrameRecord) (n c : Nat) : List FrameRecord := (log.filter (n ≤ ·.number)).take c

/-- The lines of a readout (R158, R159). -/
abbrev readoutLines (log : List FrameRecord) (n c : Nat) : List Text :=
  (framesFrom log n c).map frameLine ++
    ["=FRAMES END SENT=".toList ++ natText (framesFrom log n c).length ++
      (match log.head? with
        | some r => if n < r.number then " GAP=".toList ++ natText r.number else []
        | none => []) ++
      " NEWEST=".toList ++ (match log.getLast? with | some r => natText r.number | none => "NONE".toList)]

/-- R157, R158, R159: FRAMES with a start number from 1 to 4,294,967,295 sends the records from that number on, at most
the count, which is clamped to 1–8 and 8 when missing, and the end line with SENT, GAP and NEWEST; the log stands.
Other start numbers are refused with RANGE and a malformed line with SYNTAX. -/
def Obligations.FramesReadsLog : Prop :=
  ∀ (s : State), LinkFree s →
    (∀ n : Nat, 1 ≤ n → n ≤ 4294967295 →
      exec (.frames [natText n]) s = .next (s.answering (readoutLines s.log n 8)) ∧
      ∀ c : Int, c.natAbs < 10 ^ 10 →
        exec (.frames [natText n, intText c]) s =
          .next (s.answering (readoutLines s.log n (max 1 (min 8 c)).toNat))) ∧
    (∀ v : Int, v.natAbs < 10 ^ 10 → (v < 1 ∨ 4294967295 < v) →
      exec (.frames [intText v]) s = .next (s.answering ["!RANGE FRAMES".toList])) ∧
    exec (.frames []) s = .next (s.answering ["!SYNTAX FRAMES".toList]) ∧
    (∀ t : Token, readNumber t = none → exec (.frames [t]) s = .next (s.answering ["!SYNTAX FRAMES".toList])) ∧
    (∀ t u : Token, readNumber t = none ∨ readNumber u = none →
      exec (.frames [t, u]) s = .next (s.answering ["!SYNTAX FRAMES".toList])) ∧
    ∀ (t u v : Token) (ts : List Token),
      exec (.frames (t :: u :: v :: ts)) s = .next (s.answering ["!SYNTAX FRAMES".toList])

/-- The words of the notice kinds, in the order of R176. -/
abbrev noticeWords : List (Notice × Text) :=
  [(.segmentEnd, "SEGMENT_END".toList), (.needNext, "NEED_NEXT".toList), (.starved, "STARVED".toList),
   (.runEnd, "RUN_END".toList), (.planLoop, "PLAN_LOOP".toList), (.level, "LEVEL".toList),
   (.cameraRetry, "CAMERA_RETRY".toList), (.cameraFault, "CAMERA_FAULT".toList),
   (.meterRange, "METER_RANGE".toList), (.clockFail, "CLOCK_FAIL".toList), (.timeLost, "TIME_LOST".toList),
   (.storeBad, "STORE_BAD".toList)]

/-- R178, R181: POLL answers the kinds present, in the order of the table, or NONE; it empties the set and ATTN is
released. -/
def Obligations.PollEmptiesNotices : Prop :=
  ∀ (s : State), LinkFree s →
    exec (.poll []) s = .next ({ s with notices := [], pins := { s.pins with attn := false } }.answering
      [if s.notices = [] then "=POLL NONE".toList
        else "=POLL ".toList ++ joinWith [' '] ((noticeWords.filter (fun (p : Notice × Text) => s.notices.contains p.1)).map Prod.snd)])

/-- The numeric settings whose value is only clamped to the range of the table of 11.2. -/
abbrev numericRange : SetKey → Option (Int × Int)
  | .cs => some (0, 480)
  | .lm => some (0, 9600)
  | .pl => some (4, 64)
  | .wp => some (0, 32)
  | .ot => some (1, 64)
  | .wt => some (1, 960)
  | .wf => some (0, 960)
  | .vh => some (0, 500)
  | .sa => some (0, 1000)
  | .cc => some (0, 15)
  | .hd => some (0, 64)
  | .hb => some (-40, 30)
  | .mc => some (-64, 63)
  | .tr => some (-127, 127)
  | .sy | .vt | .vr | .st | .te | .atOn | .ar => none

/-- One of those settings with a new value. -/
abbrev withNumber (k : SetKey) (x : Int) (c : Settings) : Settings :=
  match k with
  | .cs => { c with cs := x.toNat }
  | .lm => { c with lm := x.toNat }
  | .pl => { c with pl := x.toNat }
  | .wp => { c with wp := x.toNat }
  | .ot => { c with ot := x.toNat }
  | .wt => { c with wt := x.toNat }
  | .wf => { c with wf := x.toNat }
  | .vh => { c with vh := x.toNat }
  | .sa => { c with sa := x.toNat }
  | .cc => { c with cc := x.toNat }
  | .hd => { c with hd := x.toNat }
  | .hb => { c with hb := x }
  | .mc => { c with mc := x }
  | .tr => { c with tr := x }
  | .sy | .vt | .vr | .st | .te | .atOn | .ar => c

/-- The state with other settings. -/
abbrev withSettings (c : Settings) (s : State) : State := { s with settings := c }

/-- R170: SET of a numeric setting takes the value clamped to its range and answers it; nothing else changes. -/
def Obligations.SetClampsNumbers : Prop :=
  ∀ (k : SetKey) (lo hi v : Int) (s : State), LinkFree s → numericRange k = some (lo, hi) → v.natAbs < 10 ^ 10 →
    exec (.set [k.text ++ '=' :: intText v]) s = .next
      ((withSettings (withNumber k (max lo (min hi v)) s.settings) s).answering
        ["=SET ".toList ++ k.text ++ '=' :: intText (max lo (min hi v))])

/-- R138: the stretch that a number is taken as. -/
abbrev stretchOf (v : Int) : Nat := if 8 ≤ v then 8 else if 4 ≤ v then 4 else if 2 ≤ v then 2 else 1

/-- R136, R138, R170, R180: SET of the settings with rules of their own: VT moves a VR above VT − 50 down with it and
says so, VR is taken at most VT − 50, fields apply from left to right; ST is taken as 1, 2, 4 or 8 and in THRIFT
re-anchors the pending shot of a grid; AT drives or releases ATTN at once; SY, TE and AR take their words; a line at
fault is refused with SYNTAX and the key (of its leftmost faulty token: the model's choice, assumption log 19), and
changes nothing. -/
def Obligations.SetTakesSpecialSettings : Prop :=
  ∀ (v w : Int) (s : State), LinkFree s → v.natAbs < 10 ^ 10 → w.natAbs < 10 ^ 10 →
    (∀ vt : Nat, (vt : Int) = max 3000 (min 4500 v) →
      exec (.set ["VT=".toList ++ intText v]) s = .next
        ((withSettings { s.settings with vt := vt, vr := min s.settings.vr (vt - 50) } s).answering
          ["=SET VT=".toList ++ natText vt ++
            (if vt - 50 < s.settings.vr then " VR=".toList ++ natText (vt - 50) else [])]) ∧
      ∀ vr : Nat, (vr : Int) = max 2800 (min 4400 w) →
        exec (.set ["VT=".toList ++ intText v, "VR=".toList ++ intText w]) s = .next
          ((withSettings { s.settings with vt := vt, vr := min vr (vt - 50) } s).answering
            ["=SET VT=".toList ++ natText vt ++ " VR=".toList ++ natText (min vr (vt - 50))])) ∧
    (∀ vr : Nat, (vr : Int) = max 2800 (min 4400 v) →
      exec (.set ["VR=".toList ++ intText v]) s = .next
        ((withSettings { s.settings with vr := min vr (s.settings.vt - 50) } s).answering
          ["=SET VR=".toList ++ natText (min vr (s.settings.vt - 50))])) ∧
    (s.power.level ≠ .thrift ∨ stretchOf v = s.settings.st →
      exec (.set ["ST=".toList ++ intText v]) s = .next
        ((withSettings { s.settings with st := stretchOf v } s).answering ["=SET ST=".toList ++ natText (stretchOf v)])) ∧
    (s.power.level = .thrift → stretchOf v ≠ s.settings.st → s.seq.run = .active → s.engine.retrying = false →
      s.seq.wait = some .between → ∀ l, s.seq.live = some l → l.seg.src = .timed →
      ∀ y, pendingShot s = some y → ∀ x, s.seq.lastDue = some x →
      leadsTo (.set ["ST=".toList ++ intText v]) s fun t =>
        t.settings = { s.settings with st := stretchOf v } ∧
          scheduledAt l.seg (max (x + l.seg.iv * 64 * stretchOf v) (now s + preparation s)) s t ∧
          replies s t ("=SET ST=".toList ++ natText (stretchOf v)) ∧ t.seq.run = .active ∧ t.seq.live = s.seq.live) ∧
    exec (.set ["AT=ON".toList]) s = .next ((withSettings { s.settings with atOn := true }
      { s with pins := { s.pins with attn := !s.notices.isEmpty } }).answering ["=SET AT=ON".toList]) ∧
    exec (.set ["AT=OFF".toList]) s = .next ((withSettings { s.settings with atOn := false }
      { s with pins := { s.pins with attn := false } }).answering ["=SET AT=OFF".toList]) ∧
    exec (.set ["SY=NONE".toList, "TE=FALL".toList]) s =
      .next ((withSettings { s.settings with sy := .none, te := .fall } s).answering ["=SET SY=NONE TE=FALL".toList]) ∧
    exec (.set ["SY=BUSYH".toList, "TE=RISE".toList]) s =
      .next ((withSettings { s.settings with sy := .busyHigh, te := .rise } s).answering
        ["=SET SY=BUSYH TE=RISE".toList]) ∧
    exec (.set ["SY=BUSYL".toList, "AR=OFF".toList]) s =
      .next ((withSettings { s.settings with sy := .busyLow, ar := none } s).answering ["=SET SY=BUSYL AR=OFF".toList]) ∧
    (∀ n : Nat, (n : Int) = max 0 (min 47 v) →
      exec (.set ["AR=".toList ++ intText v]) s =
        .next ((withSettings { s.settings with ar := some n } s).answering ["=SET AR=".toList ++ natText n])) ∧
    exec (.set []) s = .next (s.answering ["!SYNTAX SET".toList]) ∧
    (∀ k : Text, (∀ c ∈ k, c ≠ '=') → k ≠ [] → (∀ j ∈ SetKey.all, j.text ≠ k) → ∀ u ts,
      exec (.set ((k ++ '=' :: u) :: ts)) s = .next (s.answering ["!SYNTAX SET ".toList ++ k])) ∧
    (∀ k ∈ SetKey.all, numericRange k ≠ none →
      (∀ u, readNumber u = none → ∀ ts,
        exec (.set ((k.text ++ '=' :: u) :: ts)) s = .next (s.answering ["!SYNTAX SET ".toList ++ k.text])) ∧
      ∀ u ts, exec (.set ((k.text ++ '=' :: intText v) :: (k.text ++ '=' :: u) :: ts)) s =
        .next (s.answering ["!SYNTAX SET ".toList ++ k.text]))

/-- A setting's value as GET reports it (R171). -/
abbrev settingValue (c : Settings) : SetKey → Text
  | .cs => natText c.cs
  | .lm => natText c.lm
  | .pl => natText c.pl
  | .wp => natText c.wp
  | .sy => match c.sy with | .none => "NONE".toList | .busyHigh => "BUSYH".toList | .busyLow => "BUSYL".toList
  | .ot => natText c.ot
  | .wt => natText c.wt
  | .wf => natText c.wf
  | .vt => natText c.vt
  | .vr => natText c.vr
  | .vh => natText c.vh
  | .sa => natText c.sa
  | .cc => natText c.cc
  | .st => natText c.st
  | .hd => natText c.hd
  | .hb => intText c.hb
  | .mc => intText c.mc
  | .te => match c.te with | .fall => "FALL".toList | .rise => "RISE".toList
  | .atOn => if c.atOn then "ON".toList else "OFF".toList
  | .ar => match c.ar with | none => "OFF".toList | some n => natText n
  | .tr => intText c.tr

/-- The twenty-one keys in the order of R170. -/
abbrev setKeys : List SetKey :=
  [.cs, .lm, .pl, .wp, .sy, .ot, .wt, .wf, .vt, .vr, .vh, .sa, .cc, .st, .hd, .hb, .mc, .te, .atOn, .ar, .tr]

/-- R171: GET reports the settings asked for, in the order given, and all twenty-one when none is named; a key that is
not a setting, or one given twice, is refused with SYNTAX and its name: the leftmost one's, and a token with an = sign
whole (the model's choices, assumption log 19). It changes nothing. -/
def Obligations.GetReportsSettings : Prop :=
  ∀ (ks : List SetKey) (s : State), LinkFree s → ks.Nodup →
    (ks ≠ [] → exec (.get (ks.map SetKey.text)) s = .next (s.answering
      ["=GET ".toList ++ joinWith [' '] (ks.map fun k => k.text ++ '=' :: settingValue s.settings k)])) ∧
    exec (.get []) s = .next (s.answering
      ["=GET ".toList ++ joinWith [' '] (setKeys.map fun k => k.text ++ '=' :: settingValue s.settings k)]) ∧
    (∀ (t : Token) (ts : List Token), ((∀ k ∈ setKeys, k.text ≠ t) ∨ t ∈ ks.map SetKey.text) →
      exec (.get (ks.map SetKey.text ++ t :: ts)) s = .next (s.answering ["!SYNTAX GET ".toList ++ t]))

/-- R184, R185: STORE fixes the slots, the settings, D and T_cal as they stand and leaves the link WORKING; a good
verify makes the image good with those contents and answers =STORE; a failed one leaves it bad and answers !STORE
STORE. No verify ends while no STORE works (assumption log 2). R186: RECALL in IDLE loads a good image: slots,
settings, D and T_cal, the staging record emptied, ATTN following AT, and a calibration in progress ABANDONED; a bad
image loads nothing and raises STORE_BAD; in any other run state RECALL is refused. -/
def Obligations.ImageIsStoredAndRecalled : Prop :=
  (∀ (s : State),
      (LinkFree s → exec (.store []) s = .next (setLink (.working
        { slots := s.plan.slots, settings := s.settings, dark := s.meter.dark, tcal := s.meter.tcal }) s)) ∧
      (∀ c, s.link.state = .working c →
        exec (.storeVerifyEnd true) s = .next ({ s with image := { contents := c, good := true } }.answering
          ["=STORE".toList]) ∧
        leadsTo (.storeVerifyEnd false) s fun t =>
          t.image.good = false ∧ t = { s with image := t.image }.answering ["!STORE STORE".toList]) ∧
      (writingContents s.link.state = none → ∀ good : Bool, exec (.storeVerifyEnd good) s = .next s)) ∧
  (∀ (s : State), LinkFree s →
      (s.seq.run ≠ .idle → exec (.recallImage []) s = .next (s.answering ["!STATE RECALL".toList])) ∧
      (s.seq.run = .idle → s.image.good = false →
        leadsTo (.recallImage []) s fun t =>
          replies s t "!STORE RECALL".toList ∧ Notice.storeBad ∈ t.notices ∧
            (∀ k ∈ t.notices, k = Notice.storeBad ∨ k ∈ s.notices) ∧ t.plan = s.plan ∧ t.settings = s.settings ∧
            t.meter = s.meter ∧ t.seq = s.seq ∧ t.image = s.image ∧ t.cal = s.cal ∧ t.clock = s.clock) ∧
      (s.seq.run = .idle → s.image.good = true → (∀ temp made sum left, s.meter.state ≠ .calibrating temp made sum left) →
        exec (.recallImage []) s = .next ({ s with
          plan := { slots := s.image.contents.slots, staging := none }
          settings := s.image.contents.settings
          meter := { s.meter with dark := s.image.contents.dark, tcal := s.image.contents.tcal }
          pins := { s.pins with attn := !s.notices.isEmpty && s.image.contents.settings.atOn } }.answering
            ["=RECALL".toList])) ∧
      (s.seq.run = .idle → s.image.good = true → ∀ temp made sum left, s.meter.state = .calibrating temp made sum left →
        exec (.recallImage []) s = .next ({ s with
          plan := { slots := s.image.contents.slots, staging := none }
          settings := s.image.contents.settings
          meter := { s.meter with
            state := .idle, outcome := .abandoned, dark := s.image.contents.dark, tcal := s.image.contents.tcal }
          clock := clockLeft s.clock.shotAsks { s.clock with meterAsks := false }
          pins := { s.pins with attn := !s.notices.isEmpty && s.image.contents.settings.atOn } }.answering
            ["=RECALL".toList])))

/-! ### Reset and invariants -/

/-- R20, R49, R53, R86, R105, R128, R150, R151, R162, R175, R182, R183: the first power-up of a part never powered
before leads to the reset state, in which the blocks hold their power-on values; the values that no rule gives are
the model's (assumption logs 1 and 9). -/
def Obligations.ResetHoldsPowerOnValues : Prop :=
  exec .powerOn State.unpowered = .next State.reset ∧
    State.reset.plan = { slots := List.replicate 48 none, staging := none } ∧
    State.reset.seq.run = .idle ∧ State.reset.seq.current = none ∧ State.reset.seq.armed = none ∧
    State.reset.seq.stage = .none ∧ State.reset.cal.seconds = 0 ∧ State.reset.cal.fraction = 0 ∧
    State.reset.cal.valid = false ∧ State.reset.engine.phase = .dormant ∧ State.reset.engine.frameCounter = 0 ∧
    State.reset.engine.misses = 0 ∧ State.reset.engine.retries = 0 ∧ State.reset.meter.rangeStage = 2 ∧
    State.reset.meter.dark = 0 ∧ State.reset.meter.tcal = none ∧ State.reset.expo.eHeld = none ∧
    State.reset.expo.gHeld = 0 ∧ State.reset.expo.history = [] ∧ State.reset.power.level = .normal ∧
    State.reset.clock.state = .off ∧ State.reset.log = [] ∧ State.reset.notices = [.timeLost, .storeBad] ∧
    State.reset.settings = Settings.default ∧ State.reset.image.good = false ∧ State.reset.link.state = .ready ∧
    State.reset.pins.camPwr = false ∧ State.reset.pins.trig = false ∧ State.reset.pins.wake = false ∧
    State.reset.pins.gain = 0 ∧ State.reset.pins.heat = false ∧ State.reset.pins.attn = true ∧
    RecordsValid State.reset ∧ PointersSound State.reset ∧ EngineSound State.reset ∧ AttnFollows State.reset ∧
    HeatAllowed State.reset ∧ LogSound State.reset ∧ CalculatorSound State.reset ∧ ClockRequested State.reset

/-- An invariant holds before a step and after it. -/
abbrev keptByStep (inv : State → Prop) : Prop := ∀ s t : State, inv s → step s = .next t → inv t

/-- R1, R8, R11, R18, R136, R170: every record that the part holds has passed the checks of LOAD, in the slots, the live
copy, the image and a STORE being written, and every setting, with the trim that a start-up sequence found, lies in
its range, whatever is commanded. -/
def Obligations.RecordsStayValid : Prop :=
  keptByStep RecordsValid

/-- R13, R21, R22, R25, R29, R35: both pointers and the live copy are none in IDLE and STARVED, Current names the slot
of the live copy in every other run state, no slot in use is ever EMPTY, and a wait is held exactly in ACTIVE. -/
def Obligations.PointersStaySound : Prop :=
  keptByStep PointersSound

/-- R23, R64, R65, R66, R67, R69, R71, R73, R81: the camera lines stand as the phase asks, and the sequencer's stage,
the shot engine's phase and shot, the meter's reading and the clock request agree. -/
def Obligations.CameraLinesFollowShot : Prop :=
  keptByStep EngineSound

/-- R143, R176, R177, R181: ATTN is driven exactly while a notice is present and attention is ON, each kind held once in
its order; HEAT is off whenever the level is not NORMAL and throughout every measurement. -/
def Obligations.AttnAndHeatStayRight : Prop :=
  keptByStep AttnFollows ∧ keptByStep HeatAllowed

/-- R85, R88, R106, R112, R144, R148, R152: at most 512 consecutively numbered records; at most 8 brightness values,
each in 0–255, and no held gain without a held exposure; the clock runs only while it is requested, and the meter
requests it exactly while it works. -/
def Obligations.LogHistoryAndClockStaySound : Prop :=
  keptByStep LogSound ∧ keptByStep CalculatorSound ∧ keptByStep ClockRequested
end

