-- ==== Sys2Proof/Laws/State.lean ====
section
/-! SUPPORT. Field lemmas of the plain updates of the state: what each leaves as it was and what it writes, all by
`rfl`, so that no later proof unfolds a record update. -/

namespace Sys2Proof.Machine

/-! ### What the plain updates leave -/

@[simp] theorem refreshAttn_frame (s : State) :
    (refreshAttn s).link = s.link ∧ (refreshAttn s).plan = s.plan ∧ (refreshAttn s).seq = s.seq ∧
    (refreshAttn s).cal = s.cal ∧ (refreshAttn s).engine = s.engine ∧ (refreshAttn s).pins.heat = s.pins.heat ∧
    (refreshAttn s).pins.camPwr = s.pins.camPwr ∧ (refreshAttn s).pins.trig = s.pins.trig ∧
    (refreshAttn s).pins.wake = s.pins.wake ∧ (refreshAttn s).pins.gain = s.pins.gain ∧
    (refreshAttn s).pins.busy = s.pins.busy ∧ (refreshAttn s).pins.trip = s.pins.trip ∧
    (refreshAttn s).meter = s.meter ∧ (refreshAttn s).expo = s.expo ∧ (refreshAttn s).power = s.power ∧
    (refreshAttn s).clock = s.clock ∧ (refreshAttn s).log = s.log ∧ (refreshAttn s).notices = s.notices ∧
    (refreshAttn s).settings = s.settings ∧ (refreshAttn s).image = s.image ∧ (refreshAttn s).startUp = s.startUp ∧
    (refreshAttn s).supply = s.supply ∧ (refreshAttn s).nrstLow = s.nrstLow ∧ (refreshAttn s).pending = s.pending := by and_intros <;> rfl

@[simp] theorem raise_frame (k : Notice) (s : State) :
    (raise k s).link = s.link ∧ (raise k s).plan = s.plan ∧ (raise k s).seq = s.seq ∧ (raise k s).cal = s.cal ∧
    (raise k s).engine = s.engine ∧ (raise k s).pins.heat = s.pins.heat ∧ (raise k s).pins.camPwr = s.pins.camPwr ∧
    (raise k s).pins.trig = s.pins.trig ∧ (raise k s).pins.wake = s.pins.wake ∧ (raise k s).pins.gain = s.pins.gain ∧
    (raise k s).pins.busy = s.pins.busy ∧ (raise k s).pins.trip = s.pins.trip ∧ (raise k s).meter = s.meter ∧
    (raise k s).expo = s.expo ∧ (raise k s).power = s.power ∧ (raise k s).clock = s.clock ∧ (raise k s).log = s.log ∧
    (raise k s).settings = s.settings ∧ (raise k s).image = s.image ∧ (raise k s).startUp = s.startUp ∧
    (raise k s).supply = s.supply ∧ (raise k s).nrstLow = s.nrstLow ∧ (raise k s).pending = s.pending := by and_intros <;> rfl

@[simp] theorem Engine.mapFast_frame (change : Option Nat → Option Nat) (e : Engine) :
    (e.mapFast change).phase = e.phase ∧ (e.mapFast change).ask = e.ask ∧ (e.mapFast change).retrying = e.retrying ∧
    (e.mapFast change).settleLeft = e.settleLeft ∧ (e.mapFast change).wakeLeft = e.wakeLeft ∧
    (e.mapFast change).holdLeft = e.holdLeft ∧ (e.mapFast change).misses = e.misses ∧
    (e.mapFast change).retries = e.retries ∧ (e.mapFast change).frameCounter = e.frameCounter := by
  and_intros <;> rfl

@[simp] theorem countFast_frame (n : Nat) (s : State) :
    (countFast n s).link = s.link ∧ (countFast n s).plan = s.plan ∧ (countFast n s).seq = s.seq ∧
    (countFast n s).cal = s.cal ∧ (countFast n s).engine.phase = s.engine.phase ∧
    (countFast n s).engine.ask = s.engine.ask ∧ (countFast n s).engine.retrying = s.engine.retrying ∧
    (countFast n s).engine.misses = s.engine.misses ∧ (countFast n s).engine.retries = s.engine.retries ∧
    (countFast n s).engine.frameCounter = s.engine.frameCounter ∧ (countFast n s).pins = s.pins ∧
    (countFast n s).meter.dark = s.meter.dark ∧ (countFast n s).meter.tcal = s.meter.tcal ∧
    (countFast n s).meter.oneOff = s.meter.oneOff ∧ (countFast n s).meter.outcome = s.meter.outcome ∧
    (countFast n s).meter.rangeStage = s.meter.rangeStage ∧ (countFast n s).expo = s.expo ∧
    (countFast n s).power = s.power ∧ (countFast n s).clock = s.clock ∧ (countFast n s).log = s.log ∧
    (countFast n s).notices = s.notices ∧ (countFast n s).settings = s.settings ∧ (countFast n s).image = s.image ∧
    (countFast n s).startUp = s.startUp ∧ (countFast n s).supply = s.supply ∧ (countFast n s).nrstLow = s.nrstLow ∧
    (countFast n s).pending = s.pending := by and_intros <;> rfl

@[simp] theorem loseDomain_frame (s : State) :
    (loseDomain s).link = s.link ∧ (loseDomain s).plan = s.plan ∧ (loseDomain s).seq = s.seq ∧
    (loseDomain s).engine = s.engine ∧ (loseDomain s).pins = s.pins ∧ (loseDomain s).meter = s.meter ∧
    (loseDomain s).expo = s.expo ∧ (loseDomain s).power = s.power ∧ (loseDomain s).clock = s.clock ∧
    (loseDomain s).log = s.log ∧ (loseDomain s).notices = s.notices ∧ (loseDomain s).image = s.image ∧
    (loseDomain s).startUp = s.startUp ∧ (loseDomain s).supply = s.supply ∧ (loseDomain s).nrstLow = s.nrstLow ∧
    (loseDomain s).pending = s.pending := by and_intros <;> rfl

@[simp] theorem clearNotices_frame (s : State) :
    (clearNotices s).link = s.link ∧ (clearNotices s).plan = s.plan ∧ (clearNotices s).seq = s.seq ∧
    (clearNotices s).cal = s.cal ∧ (clearNotices s).engine = s.engine ∧ (clearNotices s).pins.heat = s.pins.heat ∧
    (clearNotices s).pins.camPwr = s.pins.camPwr ∧ (clearNotices s).pins.trig = s.pins.trig ∧
    (clearNotices s).pins.wake = s.pins.wake ∧ (clearNotices s).pins.gain = s.pins.gain ∧
    (clearNotices s).pins.busy = s.pins.busy ∧ (clearNotices s).pins.trip = s.pins.trip ∧
    (clearNotices s).meter = s.meter ∧ (clearNotices s).expo = s.expo ∧ (clearNotices s).power = s.power ∧
    (clearNotices s).clock = s.clock ∧ (clearNotices s).log = s.log ∧ (clearNotices s).settings = s.settings ∧
    (clearNotices s).image = s.image ∧ (clearNotices s).startUp = s.startUp ∧ (clearNotices s).supply = s.supply ∧
    (clearNotices s).nrstLow = s.nrstLow ∧ (clearNotices s).pending = s.pending := by and_intros <;> rfl

@[simp] theorem driveGain_frame (g : Nat) (s : State) :
    (driveGain g s).link = s.link ∧ (driveGain g s).plan = s.plan ∧ (driveGain g s).seq = s.seq ∧
    (driveGain g s).cal = s.cal ∧ (driveGain g s).engine = s.engine ∧ (driveGain g s).pins.attn = s.pins.attn ∧
    (driveGain g s).pins.heat = s.pins.heat ∧ (driveGain g s).pins.camPwr = s.pins.camPwr ∧
    (driveGain g s).pins.trig = s.pins.trig ∧ (driveGain g s).pins.wake = s.pins.wake ∧
    (driveGain g s).pins.busy = s.pins.busy ∧ (driveGain g s).pins.trip = s.pins.trip ∧
    (driveGain g s).meter = s.meter ∧ (driveGain g s).expo = s.expo ∧ (driveGain g s).power = s.power ∧
    (driveGain g s).clock = s.clock ∧ (driveGain g s).log = s.log ∧ (driveGain g s).notices = s.notices ∧
    (driveGain g s).settings = s.settings ∧ (driveGain g s).image = s.image ∧ (driveGain g s).startUp = s.startUp ∧
    (driveGain g s).supply = s.supply ∧ (driveGain g s).nrstLow = s.nrstLow ∧ (driveGain g s).pending = s.pending := by and_intros <;> rfl

@[simp] theorem dropClock_frame (u : ClockUser) (s : State) :
    (dropClock u s).link = s.link ∧ (dropClock u s).plan = s.plan ∧ (dropClock u s).seq = s.seq ∧
    (dropClock u s).cal = s.cal ∧ (dropClock u s).engine = s.engine ∧ (dropClock u s).pins = s.pins ∧
    (dropClock u s).meter = s.meter ∧ (dropClock u s).expo = s.expo ∧ (dropClock u s).power = s.power ∧
    (dropClock u s).log = s.log ∧ (dropClock u s).notices = s.notices ∧ (dropClock u s).settings = s.settings ∧
    (dropClock u s).image = s.image ∧ (dropClock u s).startUp = s.startUp ∧ (dropClock u s).supply = s.supply ∧
    (dropClock u s).nrstLow = s.nrstLow ∧ (dropClock u s).pending = s.pending := by and_intros <;> rfl

@[simp] theorem tellMeterRunning_frame (s : State) :
    (tellMeterRunning s).link = s.link ∧ (tellMeterRunning s).plan = s.plan ∧ (tellMeterRunning s).seq = s.seq ∧
    (tellMeterRunning s).cal = s.cal ∧ (tellMeterRunning s).engine = s.engine ∧ (tellMeterRunning s).pins = s.pins ∧
    (tellMeterRunning s).meter.dark = s.meter.dark ∧ (tellMeterRunning s).meter.tcal = s.meter.tcal ∧
    (tellMeterRunning s).meter.oneOff = s.meter.oneOff ∧ (tellMeterRunning s).meter.outcome = s.meter.outcome ∧
    (tellMeterRunning s).meter.rangeStage = s.meter.rangeStage ∧ (tellMeterRunning s).expo = s.expo ∧
    (tellMeterRunning s).power = s.power ∧ (tellMeterRunning s).clock = s.clock ∧ (tellMeterRunning s).log = s.log ∧
    (tellMeterRunning s).notices = s.notices ∧ (tellMeterRunning s).settings = s.settings ∧
    (tellMeterRunning s).image = s.image ∧ (tellMeterRunning s).startUp = s.startUp ∧
    (tellMeterRunning s).supply = s.supply ∧ (tellMeterRunning s).nrstLow = s.nrstLow ∧
    (tellMeterRunning s).pending = s.pending := by and_intros <;> rfl

@[simp] theorem meterToIdle_frame (s : State) :
    (meterToIdle s).link = s.link ∧ (meterToIdle s).plan = s.plan ∧ (meterToIdle s).seq = s.seq ∧
    (meterToIdle s).cal = s.cal ∧ (meterToIdle s).engine = s.engine ∧ (meterToIdle s).pins = s.pins ∧
    (meterToIdle s).meter.dark = s.meter.dark ∧ (meterToIdle s).meter.tcal = s.meter.tcal ∧
    (meterToIdle s).meter.oneOff = s.meter.oneOff ∧ (meterToIdle s).meter.outcome = s.meter.outcome ∧
    (meterToIdle s).meter.rangeStage = s.meter.rangeStage ∧ (meterToIdle s).expo = s.expo ∧
    (meterToIdle s).power = s.power ∧ (meterToIdle s).log = s.log ∧ (meterToIdle s).notices = s.notices ∧
    (meterToIdle s).settings = s.settings ∧ (meterToIdle s).image = s.image ∧ (meterToIdle s).startUp = s.startUp ∧
    (meterToIdle s).supply = s.supply ∧ (meterToIdle s).nrstLow = s.nrstLow ∧ (meterToIdle s).pending = s.pending := by and_intros <;> rfl

@[simp] theorem startMeasurement_frame (periodic : Bool) (s : State) :
    (startMeasurement periodic s).link = s.link ∧ (startMeasurement periodic s).plan = s.plan ∧
    (startMeasurement periodic s).seq = s.seq ∧ (startMeasurement periodic s).cal = s.cal ∧
    (startMeasurement periodic s).engine = s.engine ∧ (startMeasurement periodic s).pins.attn = s.pins.attn ∧
    (startMeasurement periodic s).pins.camPwr = s.pins.camPwr ∧
    (startMeasurement periodic s).pins.trig = s.pins.trig ∧ (startMeasurement periodic s).pins.wake = s.pins.wake ∧
    (startMeasurement periodic s).pins.gain = s.pins.gain ∧ (startMeasurement periodic s).pins.busy = s.pins.busy ∧
    (startMeasurement periodic s).pins.trip = s.pins.trip ∧ (startMeasurement periodic s).meter = s.meter ∧
    (startMeasurement periodic s).expo = s.expo ∧ (startMeasurement periodic s).power.level = s.power.level ∧
    (startMeasurement periodic s).power.last = s.power.last ∧
    (startMeasurement periodic s).power.timer = s.power.timer ∧
    (startMeasurement periodic s).power.heater = s.power.heater ∧ (startMeasurement periodic s).clock = s.clock ∧
    (startMeasurement periodic s).log = s.log ∧ (startMeasurement periodic s).notices = s.notices ∧
    (startMeasurement periodic s).settings = s.settings ∧ (startMeasurement periodic s).image = s.image ∧
    (startMeasurement periodic s).startUp = s.startUp ∧ (startMeasurement periodic s).supply = s.supply ∧
    (startMeasurement periodic s).nrstLow = s.nrstLow ∧ (startMeasurement periodic s).pending = s.pending := by and_intros <;> rfl

@[simp] theorem handShot_frame (d : Tick) (s : State) :
    (handShot d s).link = s.link ∧ (handShot d s).plan = s.plan ∧ (handShot d s).seq.run = s.seq.run ∧
    (handShot d s).seq.current = s.seq.current ∧ (handShot d s).seq.armed = s.seq.armed ∧
    (handShot d s).seq.live = s.seq.live ∧ (handShot d s).seq.shotIndex = s.seq.shotIndex ∧
    (handShot d s).seq.lastDue = s.seq.lastDue ∧ (handShot d s).cal = s.cal ∧
    (handShot d s).engine.phase = s.engine.phase ∧ (handShot d s).engine.frameCounter = s.engine.frameCounter ∧
    (handShot d s).engine.misses = s.engine.misses ∧ (handShot d s).engine.retries = s.engine.retries ∧
    (handShot d s).engine.retrying = s.engine.retrying ∧ (handShot d s).engine.ask = s.engine.ask ∧
    (handShot d s).pins = s.pins ∧ (handShot d s).meter = s.meter ∧ (handShot d s).expo = s.expo ∧
    (handShot d s).power = s.power ∧ (handShot d s).clock = s.clock ∧ (handShot d s).log = s.log ∧
    (handShot d s).notices = s.notices ∧ (handShot d s).settings = s.settings ∧ (handShot d s).image = s.image ∧
    (handShot d s).startUp = s.startUp ∧ (handShot d s).supply = s.supply ∧ (handShot d s).nrstLow = s.nrstLow ∧
    (handShot d s).pending = s.pending := by and_intros <;> rfl

@[simp] theorem releaseWake_frame (s : State) :
    (releaseWake s).link = s.link ∧ (releaseWake s).plan = s.plan ∧ (releaseWake s).seq = s.seq ∧
    (releaseWake s).cal = s.cal ∧ (releaseWake s).engine.phase = s.engine.phase ∧
    (releaseWake s).engine.shot = s.engine.shot ∧ (releaseWake s).engine.frameCounter = s.engine.frameCounter ∧
    (releaseWake s).engine.misses = s.engine.misses ∧ (releaseWake s).engine.retries = s.engine.retries ∧
    (releaseWake s).engine.retrying = s.engine.retrying ∧ (releaseWake s).engine.ask = s.engine.ask ∧
    (releaseWake s).pins.attn = s.pins.attn ∧ (releaseWake s).pins.heat = s.pins.heat ∧
    (releaseWake s).pins.camPwr = s.pins.camPwr ∧ (releaseWake s).pins.trig = s.pins.trig ∧
    (releaseWake s).pins.gain = s.pins.gain ∧ (releaseWake s).pins.busy = s.pins.busy ∧
    (releaseWake s).pins.trip = s.pins.trip ∧ (releaseWake s).meter = s.meter ∧ (releaseWake s).expo = s.expo ∧
    (releaseWake s).power = s.power ∧ (releaseWake s).clock = s.clock ∧ (releaseWake s).log = s.log ∧
    (releaseWake s).notices = s.notices ∧ (releaseWake s).settings = s.settings ∧ (releaseWake s).image = s.image ∧
    (releaseWake s).startUp = s.startUp ∧ (releaseWake s).supply = s.supply ∧ (releaseWake s).nrstLow = s.nrstLow ∧
    (releaseWake s).pending = s.pending := by and_intros <;> rfl

@[simp] theorem railOff_frame (s : State) :
    (railOff s).link = s.link ∧ (railOff s).plan = s.plan ∧ (railOff s).seq = s.seq ∧ (railOff s).cal = s.cal ∧
    (railOff s).engine.shot = s.engine.shot ∧ (railOff s).engine.frameCounter = s.engine.frameCounter ∧
    (railOff s).engine.misses = s.engine.misses ∧ (railOff s).engine.retries = s.engine.retries ∧
    (railOff s).engine.retrying = s.engine.retrying ∧ (railOff s).pins.attn = s.pins.attn ∧
    (railOff s).pins.heat = s.pins.heat ∧ (railOff s).pins.trig = s.pins.trig ∧ (railOff s).pins.wake = s.pins.wake ∧
    (railOff s).pins.busy = s.pins.busy ∧ (railOff s).pins.trip = s.pins.trip ∧ (railOff s).meter = s.meter ∧
    (railOff s).expo = s.expo ∧ (railOff s).power = s.power ∧ (railOff s).clock = s.clock ∧ (railOff s).log = s.log ∧
    (railOff s).notices = s.notices ∧ (railOff s).settings = s.settings ∧ (railOff s).image = s.image ∧
    (railOff s).startUp = s.startUp ∧ (railOff s).supply = s.supply ∧ (railOff s).nrstLow = s.nrstLow ∧
    (railOff s).pending = s.pending := by and_intros <;> rfl

@[simp] theorem setWait_frame (w : Option Wait) (o : Option Tick) (s : State) :
    (setWait w o s).link = s.link ∧ (setWait w o s).plan = s.plan ∧ (setWait w o s).seq.run = s.seq.run ∧
    (setWait w o s).seq.current = s.seq.current ∧ (setWait w o s).seq.armed = s.seq.armed ∧
    (setWait w o s).seq.live = s.seq.live ∧ (setWait w o s).seq.stage = s.seq.stage ∧
    (setWait w o s).seq.shotIndex = s.seq.shotIndex ∧ (setWait w o s).seq.lastDue = s.seq.lastDue ∧
    (setWait w o s).cal = s.cal ∧ (setWait w o s).engine = s.engine ∧ (setWait w o s).pins = s.pins ∧
    (setWait w o s).meter = s.meter ∧ (setWait w o s).expo = s.expo ∧ (setWait w o s).power = s.power ∧
    (setWait w o s).clock = s.clock ∧ (setWait w o s).log = s.log ∧ (setWait w o s).notices = s.notices ∧
    (setWait w o s).settings = s.settings ∧ (setWait w o s).image = s.image ∧ (setWait w o s).startUp = s.startUp ∧
    (setWait w o s).supply = s.supply ∧ (setWait w o s).nrstLow = s.nrstLow ∧ (setWait w o s).pending = s.pending := by and_intros <;> rfl

@[simp] theorem haltRun_frame (r : RunState) (s : State) :
    (haltRun r s).link = s.link ∧ (haltRun r s).plan = s.plan ∧ (haltRun r s).seq.current = s.seq.current ∧
    (haltRun r s).seq.armed = s.seq.armed ∧ (haltRun r s).seq.live = s.seq.live ∧
    (haltRun r s).seq.stage = s.seq.stage ∧ (haltRun r s).seq.shotIndex = s.seq.shotIndex ∧
    (haltRun r s).seq.lastDue = s.seq.lastDue ∧ (haltRun r s).cal = s.cal ∧ (haltRun r s).engine = s.engine ∧
    (haltRun r s).pins = s.pins ∧ (haltRun r s).meter = s.meter ∧ (haltRun r s).expo = s.expo ∧
    (haltRun r s).power = s.power ∧ (haltRun r s).clock = s.clock ∧ (haltRun r s).log = s.log ∧
    (haltRun r s).notices = s.notices ∧ (haltRun r s).settings = s.settings ∧ (haltRun r s).image = s.image ∧
    (haltRun r s).startUp = s.startUp ∧ (haltRun r s).supply = s.supply ∧ (haltRun r s).nrstLow = s.nrstLow ∧
    (haltRun r s).pending = s.pending := by and_intros <;> rfl

@[simp] theorem beginRetry_frame (s : State) :
    (beginRetry s).link = s.link ∧ (beginRetry s).plan = s.plan ∧ (beginRetry s).seq = s.seq ∧
    (beginRetry s).cal = s.cal ∧ (beginRetry s).engine.shot = s.engine.shot ∧
    (beginRetry s).engine.frameCounter = s.engine.frameCounter ∧ (beginRetry s).engine.misses = s.engine.misses ∧
    (beginRetry s).engine.retries = s.engine.retries ∧ (beginRetry s).pins.heat = s.pins.heat ∧
    (beginRetry s).pins.trig = s.pins.trig ∧ (beginRetry s).pins.wake = s.pins.wake ∧
    (beginRetry s).pins.busy = s.pins.busy ∧ (beginRetry s).pins.trip = s.pins.trip ∧
    (beginRetry s).meter = s.meter ∧ (beginRetry s).expo = s.expo ∧ (beginRetry s).power = s.power ∧
    (beginRetry s).clock = s.clock ∧ (beginRetry s).log = s.log ∧ (beginRetry s).settings = s.settings ∧
    (beginRetry s).image = s.image ∧ (beginRetry s).startUp = s.startUp ∧ (beginRetry s).supply = s.supply ∧
    (beginRetry s).nrstLow = s.nrstLow ∧ (beginRetry s).pending = s.pending := by and_intros <;> rfl

@[simp] theorem setFlight_frame (shot : Shot) (f : Flight) (s : State) :
    (setFlight shot f s).link = s.link ∧ (setFlight shot f s).plan = s.plan ∧ (setFlight shot f s).seq = s.seq ∧
    (setFlight shot f s).cal = s.cal ∧ (setFlight shot f s).engine.phase = s.engine.phase ∧
    (setFlight shot f s).engine.frameCounter = s.engine.frameCounter ∧
    (setFlight shot f s).engine.misses = s.engine.misses ∧ (setFlight shot f s).engine.retries = s.engine.retries ∧
    (setFlight shot f s).engine.retrying = s.engine.retrying ∧ (setFlight shot f s).engine.ask = s.engine.ask ∧
    (setFlight shot f s).pins = s.pins ∧ (setFlight shot f s).meter = s.meter ∧ (setFlight shot f s).expo = s.expo ∧
    (setFlight shot f s).power = s.power ∧ (setFlight shot f s).clock = s.clock ∧ (setFlight shot f s).log = s.log ∧
    (setFlight shot f s).notices = s.notices ∧ (setFlight shot f s).settings = s.settings ∧
    (setFlight shot f s).image = s.image ∧ (setFlight shot f s).startUp = s.startUp ∧
    (setFlight shot f s).supply = s.supply ∧ (setFlight shot f s).nrstLow = s.nrstLow ∧
    (setFlight shot f s).pending = s.pending := by and_intros <;> rfl

@[simp] theorem driveHeat_frame (s : State) :
    (driveHeat s).link = s.link ∧ (driveHeat s).plan = s.plan ∧ (driveHeat s).seq = s.seq ∧
    (driveHeat s).cal = s.cal ∧ (driveHeat s).engine = s.engine ∧ (driveHeat s).pins.attn = s.pins.attn ∧
    (driveHeat s).pins.camPwr = s.pins.camPwr ∧ (driveHeat s).pins.trig = s.pins.trig ∧
    (driveHeat s).pins.wake = s.pins.wake ∧ (driveHeat s).pins.gain = s.pins.gain ∧
    (driveHeat s).pins.busy = s.pins.busy ∧ (driveHeat s).pins.trip = s.pins.trip ∧ (driveHeat s).meter = s.meter ∧
    (driveHeat s).expo = s.expo ∧ (driveHeat s).power = s.power ∧ (driveHeat s).clock = s.clock ∧
    (driveHeat s).log = s.log ∧ (driveHeat s).notices = s.notices ∧ (driveHeat s).settings = s.settings ∧
    (driveHeat s).image = s.image ∧ (driveHeat s).startUp = s.startUp ∧ (driveHeat s).supply = s.supply ∧
    (driveHeat s).nrstLow = s.nrstLow ∧ (driveHeat s).pending = s.pending := by and_intros <;> rfl

@[simp] theorem beginHeaterFrame_frame (s : State) :
    (beginHeaterFrame s).link = s.link ∧ (beginHeaterFrame s).plan = s.plan ∧ (beginHeaterFrame s).seq = s.seq ∧
    (beginHeaterFrame s).cal = s.cal ∧ (beginHeaterFrame s).engine = s.engine ∧
    (beginHeaterFrame s).pins.attn = s.pins.attn ∧ (beginHeaterFrame s).pins.camPwr = s.pins.camPwr ∧
    (beginHeaterFrame s).pins.trig = s.pins.trig ∧ (beginHeaterFrame s).pins.wake = s.pins.wake ∧
    (beginHeaterFrame s).pins.gain = s.pins.gain ∧ (beginHeaterFrame s).pins.busy = s.pins.busy ∧
    (beginHeaterFrame s).pins.trip = s.pins.trip ∧ (beginHeaterFrame s).meter = s.meter ∧
    (beginHeaterFrame s).expo = s.expo ∧ (beginHeaterFrame s).power.level = s.power.level ∧
    (beginHeaterFrame s).power.last = s.power.last ∧ (beginHeaterFrame s).power.measuring = s.power.measuring ∧
    (beginHeaterFrame s).power.timer = s.power.timer ∧ (beginHeaterFrame s).clock = s.clock ∧
    (beginHeaterFrame s).log = s.log ∧ (beginHeaterFrame s).notices = s.notices ∧
    (beginHeaterFrame s).settings = s.settings ∧ (beginHeaterFrame s).image = s.image ∧
    (beginHeaterFrame s).startUp = s.startUp ∧ (beginHeaterFrame s).supply = s.supply ∧
    (beginHeaterFrame s).nrstLow = s.nrstLow ∧ (beginHeaterFrame s).pending = s.pending := by and_intros <;> rfl

@[simp] theorem heaterLosesPermission_frame (s : State) :
    (heaterLosesPermission s).link = s.link ∧ (heaterLosesPermission s).plan = s.plan ∧
    (heaterLosesPermission s).seq = s.seq ∧ (heaterLosesPermission s).cal = s.cal ∧
    (heaterLosesPermission s).engine = s.engine ∧ (heaterLosesPermission s).pins.attn = s.pins.attn ∧
    (heaterLosesPermission s).pins.camPwr = s.pins.camPwr ∧ (heaterLosesPermission s).pins.trig = s.pins.trig ∧
    (heaterLosesPermission s).pins.wake = s.pins.wake ∧ (heaterLosesPermission s).pins.gain = s.pins.gain ∧
    (heaterLosesPermission s).pins.busy = s.pins.busy ∧ (heaterLosesPermission s).pins.trip = s.pins.trip ∧
    (heaterLosesPermission s).meter = s.meter ∧ (heaterLosesPermission s).expo = s.expo ∧
    (heaterLosesPermission s).power.level = s.power.level ∧ (heaterLosesPermission s).power.last = s.power.last ∧
    (heaterLosesPermission s).power.measuring = s.power.measuring ∧
    (heaterLosesPermission s).power.timer = s.power.timer ∧ (heaterLosesPermission s).clock = s.clock ∧
    (heaterLosesPermission s).log = s.log ∧ (heaterLosesPermission s).notices = s.notices ∧
    (heaterLosesPermission s).settings = s.settings ∧ (heaterLosesPermission s).image = s.image ∧
    (heaterLosesPermission s).startUp = s.startUp ∧ (heaterLosesPermission s).supply = s.supply ∧
    (heaterLosesPermission s).nrstLow = s.nrstLow ∧ (heaterLosesPermission s).pending = s.pending := by and_intros <;> rfl

@[simp] theorem unstage_frame (s : State) :
    (unstage s).link = s.link ∧ (unstage s).plan.slots = s.plan.slots ∧ (unstage s).seq = s.seq ∧
    (unstage s).cal = s.cal ∧ (unstage s).engine = s.engine ∧ (unstage s).pins = s.pins ∧
    (unstage s).meter = s.meter ∧ (unstage s).expo = s.expo ∧ (unstage s).power = s.power ∧
    (unstage s).clock = s.clock ∧ (unstage s).log = s.log ∧ (unstage s).notices = s.notices ∧
    (unstage s).settings = s.settings ∧ (unstage s).image = s.image ∧ (unstage s).startUp = s.startUp ∧
    (unstage s).supply = s.supply ∧ (unstage s).nrstLow = s.nrstLow ∧ (unstage s).pending = s.pending := by and_intros <;> rfl

@[simp] theorem setSlot_frame (n : Nat) (r : Option Segment) (s : State) :
    (setSlot n r s).link = s.link ∧ (setSlot n r s).seq = s.seq ∧ (setSlot n r s).cal = s.cal ∧
    (setSlot n r s).engine = s.engine ∧ (setSlot n r s).pins = s.pins ∧ (setSlot n r s).meter = s.meter ∧
    (setSlot n r s).expo = s.expo ∧ (setSlot n r s).power = s.power ∧ (setSlot n r s).clock = s.clock ∧
    (setSlot n r s).log = s.log ∧ (setSlot n r s).notices = s.notices ∧ (setSlot n r s).settings = s.settings ∧
    (setSlot n r s).image = s.image ∧ (setSlot n r s).startUp = s.startUp ∧ (setSlot n r s).supply = s.supply ∧
    (setSlot n r s).nrstLow = s.nrstLow ∧ (setSlot n r s).pending = s.pending := by and_intros <;> rfl

@[simp] theorem clearMisses_frame (s : State) :
    (clearMisses s).link = s.link ∧ (clearMisses s).plan = s.plan ∧ (clearMisses s).seq = s.seq ∧
    (clearMisses s).cal = s.cal ∧ (clearMisses s).engine.phase = s.engine.phase ∧
    (clearMisses s).engine.shot = s.engine.shot ∧ (clearMisses s).engine.frameCounter = s.engine.frameCounter ∧
    (clearMisses s).engine.retrying = s.engine.retrying ∧ (clearMisses s).engine.ask = s.engine.ask ∧
    (clearMisses s).pins = s.pins ∧ (clearMisses s).meter = s.meter ∧ (clearMisses s).expo = s.expo ∧
    (clearMisses s).power = s.power ∧ (clearMisses s).clock = s.clock ∧ (clearMisses s).log = s.log ∧
    (clearMisses s).notices = s.notices ∧ (clearMisses s).settings = s.settings ∧ (clearMisses s).image = s.image ∧
    (clearMisses s).startUp = s.startUp ∧ (clearMisses s).supply = s.supply ∧ (clearMisses s).nrstLow = s.nrstLow ∧
    (clearMisses s).pending = s.pending := by and_intros <;> rfl

@[simp] theorem clearSticky_frame (s : State) :
    (clearSticky s).link = s.link ∧ (clearSticky s).plan = s.plan ∧ (clearSticky s).seq = s.seq ∧
    (clearSticky s).cal = s.cal ∧ (clearSticky s).engine = s.engine ∧ (clearSticky s).pins = s.pins ∧
    (clearSticky s).meter.state = s.meter.state ∧ (clearSticky s).meter.dark = s.meter.dark ∧
    (clearSticky s).meter.tcal = s.meter.tcal ∧ (clearSticky s).meter.oneOff = s.meter.oneOff ∧
    (clearSticky s).meter.outcome = s.meter.outcome ∧ (clearSticky s).meter.rangeStage = s.meter.rangeStage ∧
    (clearSticky s).expo = s.expo ∧ (clearSticky s).power = s.power ∧ (clearSticky s).clock = s.clock ∧
    (clearSticky s).log = s.log ∧ (clearSticky s).notices = s.notices ∧ (clearSticky s).settings = s.settings ∧
    (clearSticky s).image = s.image ∧ (clearSticky s).startUp = s.startUp ∧ (clearSticky s).supply = s.supply ∧
    (clearSticky s).nrstLow = s.nrstLow ∧ (clearSticky s).pending = s.pending := by and_intros <;> rfl

@[simp] theorem loadImage_frame (c : ImageContents) (s : State) :
    (loadImage c s).link = s.link ∧ (loadImage c s).seq = s.seq ∧ (loadImage c s).cal = s.cal ∧
    (loadImage c s).engine = s.engine ∧ (loadImage c s).pins.heat = s.pins.heat ∧
    (loadImage c s).pins.camPwr = s.pins.camPwr ∧ (loadImage c s).pins.trig = s.pins.trig ∧
    (loadImage c s).pins.wake = s.pins.wake ∧ (loadImage c s).pins.gain = s.pins.gain ∧
    (loadImage c s).pins.busy = s.pins.busy ∧ (loadImage c s).pins.trip = s.pins.trip ∧
    (loadImage c s).meter.state = s.meter.state ∧ (loadImage c s).meter.oneOff = s.meter.oneOff ∧
    (loadImage c s).meter.outcome = s.meter.outcome ∧ (loadImage c s).meter.rangeStage = s.meter.rangeStage ∧
    (loadImage c s).expo = s.expo ∧ (loadImage c s).power = s.power ∧ (loadImage c s).clock = s.clock ∧
    (loadImage c s).log = s.log ∧ (loadImage c s).notices = s.notices ∧ (loadImage c s).image = s.image ∧
    (loadImage c s).startUp = s.startUp ∧ (loadImage c s).supply = s.supply ∧ (loadImage c s).nrstLow = s.nrstLow ∧
    (loadImage c s).pending = s.pending := by and_intros <;> rfl

@[simp] theorem StartUp.found_series (f : Found) : (StartUp.series f).found = some f := rfl
@[simp] theorem StartUp.found_autorun (f : Found) : (StartUp.autorun f).found = some f := rfl
@[simp] theorem StartUp.found_stopped : StartUp.stopped.found = none := rfl
@[simp] theorem StartUp.found_working : StartUp.working.found = none := rfl

@[simp] theorem powerOnValues_frame (s : State) :
    (powerOnValues s).plan.slots = s.plan.slots ∧ (powerOnValues s).cal = s.cal ∧
    (powerOnValues s).pins.busy = s.pins.busy ∧ (powerOnValues s).pins.trip = s.pins.trip ∧
    (powerOnValues s).meter.dark = s.meter.dark ∧ (powerOnValues s).meter.tcal = s.meter.tcal ∧
    (powerOnValues s).image = s.image ∧ (powerOnValues s).startUp = s.startUp ∧ (powerOnValues s).supply = s.supply ∧
    (powerOnValues s).nrstLow = s.nrstLow ∧ (powerOnValues s).pending = s.pending := by and_intros <;> rfl

@[simp] theorem setLink_frame (k : LinkState) (s : State) :
    (setLink k s).link.waiting = s.link.waiting ∧ (setLink k s).plan = s.plan ∧ (setLink k s).seq = s.seq ∧
    (setLink k s).cal = s.cal ∧ (setLink k s).engine = s.engine ∧ (setLink k s).pins = s.pins ∧
    (setLink k s).meter = s.meter ∧ (setLink k s).expo = s.expo ∧ (setLink k s).power = s.power ∧
    (setLink k s).clock = s.clock ∧ (setLink k s).log = s.log ∧ (setLink k s).notices = s.notices ∧
    (setLink k s).settings = s.settings ∧ (setLink k s).image = s.image ∧ (setLink k s).startUp = s.startUp ∧
    (setLink k s).supply = s.supply ∧ (setLink k s).nrstLow = s.nrstLow ∧ (setLink k s).pending = s.pending := by and_intros <;> rfl

@[simp] theorem countSlow_frame (s : State) :
    (countSlow s).link = s.link ∧ (countSlow s).plan = s.plan ∧ (countSlow s).seq = s.seq ∧
    (countSlow s).cal = s.cal ∧ (countSlow s).engine.phase = s.engine.phase ∧
    (countSlow s).engine.frameCounter = s.engine.frameCounter ∧ (countSlow s).engine.misses = s.engine.misses ∧
    (countSlow s).engine.retries = s.engine.retries ∧ (countSlow s).engine.retrying = s.engine.retrying ∧
    (countSlow s).engine.ask = s.engine.ask ∧ (countSlow s).pins = s.pins ∧ (countSlow s).meter = s.meter ∧
    (countSlow s).expo = s.expo ∧ (countSlow s).power.level = s.power.level ∧
    (countSlow s).power.last = s.power.last ∧ (countSlow s).clock.shotAsks = s.clock.shotAsks ∧
    (countSlow s).clock.meterAsks = s.clock.meterAsks ∧ (countSlow s).clock.state = s.clock.state ∧
    (countSlow s).log = s.log ∧ (countSlow s).notices = s.notices ∧ (countSlow s).settings = s.settings ∧
    (countSlow s).image = s.image ∧ (countSlow s).startUp = s.startUp ∧ (countSlow s).nrstLow = s.nrstLow ∧
    (countSlow s).pending = s.pending := by and_intros <;> rfl

@[simp] theorem clockStable_frame (s : State) :
    (clockStable s).link = s.link ∧ (clockStable s).plan = s.plan ∧ (clockStable s).seq = s.seq ∧
    (clockStable s).cal = s.cal ∧ (clockStable s).engine = s.engine ∧ (clockStable s).pins = s.pins ∧
    (clockStable s).meter.dark = s.meter.dark ∧ (clockStable s).meter.tcal = s.meter.tcal ∧
    (clockStable s).meter.oneOff = s.meter.oneOff ∧ (clockStable s).meter.outcome = s.meter.outcome ∧
    (clockStable s).meter.rangeStage = s.meter.rangeStage ∧ (clockStable s).expo = s.expo ∧
    (clockStable s).power = s.power ∧ (clockStable s).clock.shotAsks = s.clock.shotAsks ∧
    (clockStable s).clock.meterAsks = s.clock.meterAsks ∧ (clockStable s).log = s.log ∧
    (clockStable s).notices = s.notices ∧ (clockStable s).settings = s.settings ∧ (clockStable s).image = s.image ∧
    (clockStable s).startUp = s.startUp ∧ (clockStable s).supply = s.supply ∧ (clockStable s).nrstLow = s.nrstLow ∧
    (clockStable s).pending = s.pending := by and_intros <;> rfl

@[simp] theorem releaseTrig_frame (busy : Bool) (s : State) :
    (releaseTrig busy s).link = s.link ∧ (releaseTrig busy s).plan = s.plan ∧ (releaseTrig busy s).seq = s.seq ∧
    (releaseTrig busy s).cal = s.cal ∧ (releaseTrig busy s).engine.shot = s.engine.shot ∧
    (releaseTrig busy s).engine.frameCounter = s.engine.frameCounter ∧
    (releaseTrig busy s).engine.misses = s.engine.misses ∧ (releaseTrig busy s).engine.retries = s.engine.retries ∧
    (releaseTrig busy s).engine.retrying = s.engine.retrying ∧ (releaseTrig busy s).engine.ask = s.engine.ask ∧
    (releaseTrig busy s).pins.attn = s.pins.attn ∧ (releaseTrig busy s).pins.heat = s.pins.heat ∧
    (releaseTrig busy s).pins.camPwr = s.pins.camPwr ∧ (releaseTrig busy s).pins.wake = s.pins.wake ∧
    (releaseTrig busy s).pins.gain = s.pins.gain ∧ (releaseTrig busy s).pins.trip = s.pins.trip ∧
    (releaseTrig busy s).meter = s.meter ∧ (releaseTrig busy s).expo = s.expo ∧
    (releaseTrig busy s).power = s.power ∧ (releaseTrig busy s).log = s.log ∧
    (releaseTrig busy s).notices = s.notices ∧ (releaseTrig busy s).settings = s.settings ∧
    (releaseTrig busy s).image = s.image ∧ (releaseTrig busy s).startUp = s.startUp ∧
    (releaseTrig busy s).supply = s.supply ∧ (releaseTrig busy s).nrstLow = s.nrstLow ∧
    (releaseTrig busy s).pending = s.pending := by and_intros <;> rfl

@[simp] theorem ignoreTrip_frame (s : State) :
    (ignoreTrip s).link = s.link ∧ (ignoreTrip s).plan = s.plan ∧ (ignoreTrip s).seq.run = s.seq.run ∧
    (ignoreTrip s).seq.current = s.seq.current ∧ (ignoreTrip s).seq.armed = s.seq.armed ∧
    (ignoreTrip s).seq.live = s.seq.live ∧ (ignoreTrip s).seq.stage = s.seq.stage ∧
    (ignoreTrip s).seq.shotIndex = s.seq.shotIndex ∧ (ignoreTrip s).seq.lastDue = s.seq.lastDue ∧
    (ignoreTrip s).cal = s.cal ∧ (ignoreTrip s).engine = s.engine ∧ (ignoreTrip s).pins = s.pins ∧
    (ignoreTrip s).meter = s.meter ∧ (ignoreTrip s).expo = s.expo ∧ (ignoreTrip s).power = s.power ∧
    (ignoreTrip s).clock = s.clock ∧ (ignoreTrip s).log = s.log ∧ (ignoreTrip s).notices = s.notices ∧
    (ignoreTrip s).settings = s.settings ∧ (ignoreTrip s).image = s.image ∧ (ignoreTrip s).startUp = s.startUp ∧
    (ignoreTrip s).supply = s.supply ∧ (ignoreTrip s).nrstLow = s.nrstLow ∧ (ignoreTrip s).pending = s.pending := by and_intros <;> rfl

@[simp] theorem tripLevel_frame (rising : Bool) (s : State) :
    (tripLevel rising s).link = s.link ∧ (tripLevel rising s).plan = s.plan ∧ (tripLevel rising s).seq = s.seq ∧
    (tripLevel rising s).cal = s.cal ∧ (tripLevel rising s).engine = s.engine ∧
    (tripLevel rising s).pins.attn = s.pins.attn ∧ (tripLevel rising s).pins.heat = s.pins.heat ∧
    (tripLevel rising s).pins.camPwr = s.pins.camPwr ∧ (tripLevel rising s).pins.trig = s.pins.trig ∧
    (tripLevel rising s).pins.wake = s.pins.wake ∧ (tripLevel rising s).pins.gain = s.pins.gain ∧
    (tripLevel rising s).pins.busy = s.pins.busy ∧ (tripLevel rising s).meter = s.meter ∧
    (tripLevel rising s).expo = s.expo ∧ (tripLevel rising s).power = s.power ∧
    (tripLevel rising s).clock = s.clock ∧ (tripLevel rising s).log = s.log ∧
    (tripLevel rising s).notices = s.notices ∧ (tripLevel rising s).settings = s.settings ∧
    (tripLevel rising s).image = s.image ∧ (tripLevel rising s).startUp = s.startUp ∧
    (tripLevel rising s).supply = s.supply ∧ (tripLevel rising s).nrstLow = s.nrstLow ∧
    (tripLevel rising s).pending = s.pending := by and_intros <;> rfl

/-! ### What the plain updates write -/

@[simp] theorem setLink_link (k : LinkState) (s : State) : (setLink k s).link = { s.link with state := k } := rfl

@[simp] theorem setWait_seq (w : Option Wait) (o : Option Tick) (s : State) :
    (setWait w o s).seq = { s.seq with wait := w, opening := o } := rfl

@[simp] theorem driveGain_gain (g : Nat) (s : State) : (driveGain g s).pins.gain = BitVec.ofNat 3 g := rfl

@[simp] theorem handShot_seq (d : Tick) (s : State) : (handShot d s).seq = { s.seq with stage := .pending d } := rfl

@[simp] theorem handShot_engine (d : Tick) (s : State) :
    (handShot d s).engine = { s.engine with shot := some (newShot s d) } := rfl

@[simp] theorem releaseWake_wake (s : State) : (releaseWake s).pins.wake = false := rfl

@[simp] theorem railOff_engine (s : State) :
    (railOff s).engine = { s.engine with phase := .dormant, ask := .none, settleLeft := 0 } := rfl

@[simp] theorem railOff_pins (s : State) : (railOff s).pins = { s.pins with camPwr := false, gain := 0 } := rfl

@[simp] theorem setFlight_engine (shot : Shot) (f : Flight) (s : State) :
    (setFlight shot f s).engine = { s.engine with shot := some { shot with flight := some f } } := rfl

@[simp] theorem unstage_plan (s : State) : (unstage s).plan = { s.plan with staging := none } := rfl

@[simp] theorem setSlot_plan (n : Nat) (r : Option Segment) (s : State) :
    (setSlot n r s).plan = { s.plan with slots := s.plan.slots.set n r } := rfl

@[simp] theorem clearSticky_meter (s : State) :
    (clearSticky s).meter = { s.meter with overSeen := false, underSeen := false } := rfl

@[simp] theorem clearMisses_engine (s : State) :
    (clearMisses s).engine = { s.engine with misses := 0, retries := 0 } := rfl

@[simp] theorem ignoreTrip_seq (s : State) :
    (ignoreTrip s).seq = { s.seq with ignored := addUpTo Config.maxHanded s.seq.ignored 1 } := rfl

@[simp] theorem tripLevel_pins (v : Bool) (s : State) : (tripLevel v s).pins = { s.pins with trip := v } := rfl

@[simp] theorem startMeasurement_heat (p : Bool) (s : State) : (startMeasurement p s).pins.heat = false := rfl

@[simp] theorem startMeasurement_measuring (p : Bool) (s : State) :
    (startMeasurement p s).power.measuring =
      some { kind := if s.pins.camPwr then .loaded else .rest, periodic := p, left := Config.measurementCycles } := rfl

@[simp] theorem refreshAttn_attn (s : State) :
    (refreshAttn s).pins.attn = (!s.notices.isEmpty && s.settings.atOn) := rfl

@[simp] theorem clearNotices_notices (s : State) : (clearNotices s).notices = [] := rfl

@[simp] theorem clearNotices_attn (s : State) : (clearNotices s).pins.attn = false := rfl

@[simp] theorem dropClock_clock (u : ClockUser) (s : State) : (dropClock u s).clock = s.clock.drop u := rfl

@[simp] theorem tellMeterRunning_state (s : State) :
    (tellMeterRunning s).meter.state = s.meter.state.clockReady := rfl

@[simp] theorem meterToIdle_meter (s : State) : (meterToIdle s).meter = { s.meter with state := .idle } := rfl

@[simp] theorem meterToIdle_clock (s : State) : (meterToIdle s).clock = s.clock.drop .meter := rfl

@[simp] theorem driveHeat_heat (s : State) :
    (driveHeat s).pins.heat = (heatCalled s && s.power.measuring.isNone) := rfl

@[simp] theorem beginHeaterFrame_heater (s : State) : (beginHeaterFrame s).power.heater = some (newHeater s) := rfl

@[simp] theorem heaterLosesPermission_heat (s : State) : (heaterLosesPermission s).pins.heat = false := rfl

@[simp] theorem haltRun_seq (r : RunState) (s : State) :
    (haltRun r s).seq = { s.seq with run := r, wait := none, opening := none } := rfl

@[simp] theorem releaseTrig_trig (busy : Bool) (s : State) : (releaseTrig busy s).pins.trig = false := rfl

@[simp] theorem releaseTrig_phase (busy : Bool) (s : State) : (releaseTrig busy s).engine.phase = .writing := rfl

@[simp] theorem Engine.mapFast_shot (change : Option Nat → Option Nat) (e : Engine) :
    (e.mapFast change).shot = e.shot.map (fun shot =>
      { shot with flight := shot.flight.map (fun f => { f with fastLeft := change f.fastLeft }) }) := rfl

@[simp] theorem countFast_engine (n : Nat) (s : State) :
    (countFast n s).engine = s.engine.mapFast (Option.map (· - n)) := rfl

@[simp] theorem countFast_state (n : Nat) (s : State) :
    (countFast n s).meter.state = s.meter.state.advance n := rfl

@[simp] theorem loseDomain_cal (s : State) :
    (loseDomain s).cal = { Calendar.restarted with lost := false, powered := false } := rfl

@[simp] theorem countSlow_engine (s : State) : (countSlow s).engine = s.engine.tick := rfl

@[simp] theorem countSlow_power (s : State) : (countSlow s).power = s.power.tick := rfl

@[simp] theorem Supervisor.tick_level (p : Supervisor) : p.tick.level = p.level := rfl

@[simp] theorem Supervisor.tick_last (p : Supervisor) : p.tick.last = p.last := rfl

@[simp] theorem Engine.tick_phase (e : Engine) : e.tick.phase = e.phase := rfl

@[simp] theorem Engine.tick_ask (e : Engine) : e.tick.ask = e.ask := rfl

@[simp] theorem Engine.tick_retrying (e : Engine) : e.tick.retrying = e.retrying := rfl

@[simp] theorem Engine.tick_frameCounter (e : Engine) : e.tick.frameCounter = e.frameCounter := rfl

@[simp] theorem loadImage_plan (c : ImageContents) (s : State) :
    (loadImage c s).plan = { slots := c.slots, staging := none } := rfl

@[simp] theorem loadImage_settings (c : ImageContents) (s : State) : (loadImage c s).settings = c.settings := rfl

end Sys2Proof.Machine
end

