-- ==== Sys2Proof/Laws/Frames.lean ====
section
/-! SUPPORT. The frames of the shared operations: one lemma for each operation with every field it never changes,
whatever branch it takes. -/

namespace Sys2Proof.Machine

@[simp] theorem requestExposure_frame (k : ReadingKind) (overFlag underFlag : Bool) (s : State) :
    (requestExposure k overFlag underFlag s).link = s.link ∧ (requestExposure k overFlag underFlag s).plan = s.plan ∧
    (requestExposure k overFlag underFlag s).seq = s.seq ∧ (requestExposure k overFlag underFlag s).cal = s.cal ∧
    (requestExposure k overFlag underFlag s).engine.phase = s.engine.phase ∧
    (requestExposure k overFlag underFlag s).engine.frameCounter = s.engine.frameCounter ∧
    (requestExposure k overFlag underFlag s).engine.misses = s.engine.misses ∧
    (requestExposure k overFlag underFlag s).engine.retries = s.engine.retries ∧
    (requestExposure k overFlag underFlag s).engine.retrying = s.engine.retrying ∧
    (requestExposure k overFlag underFlag s).engine.ask = s.engine.ask ∧
    (requestExposure k overFlag underFlag s).pins.attn = s.pins.attn ∧
    (requestExposure k overFlag underFlag s).pins.heat = s.pins.heat ∧
    (requestExposure k overFlag underFlag s).pins.camPwr = s.pins.camPwr ∧
    (requestExposure k overFlag underFlag s).pins.trig = s.pins.trig ∧
    (requestExposure k overFlag underFlag s).pins.wake = s.pins.wake ∧
    (requestExposure k overFlag underFlag s).pins.busy = s.pins.busy ∧
    (requestExposure k overFlag underFlag s).pins.trip = s.pins.trip ∧
    (requestExposure k overFlag underFlag s).meter = s.meter ∧
    (requestExposure k overFlag underFlag s).expo.eHeld = s.expo.eHeld ∧
    (requestExposure k overFlag underFlag s).expo.gHeld = s.expo.gHeld ∧
    (requestExposure k overFlag underFlag s).power = s.power ∧
    (requestExposure k overFlag underFlag s).clock = s.clock ∧ (requestExposure k overFlag underFlag s).log = s.log ∧
    (requestExposure k overFlag underFlag s).notices = s.notices ∧
    (requestExposure k overFlag underFlag s).settings = s.settings ∧
    (requestExposure k overFlag underFlag s).image = s.image ∧
    (requestExposure k overFlag underFlag s).startUp = s.startUp ∧
    (requestExposure k overFlag underFlag s).supply = s.supply ∧
    (requestExposure k overFlag underFlag s).nrstLow = s.nrstLow ∧
    (requestExposure k overFlag underFlag s).pending = s.pending := by
  simp only [requestExposure]; (repeat' split) <;> simp

@[simp] theorem requestClock_frame (u : ClockUser) (s : State) :
    (requestClock u s).link = s.link ∧ (requestClock u s).plan = s.plan ∧ (requestClock u s).seq = s.seq ∧
    (requestClock u s).cal = s.cal ∧ (requestClock u s).engine = s.engine ∧ (requestClock u s).pins = s.pins ∧
    (requestClock u s).meter.dark = s.meter.dark ∧ (requestClock u s).meter.tcal = s.meter.tcal ∧
    (requestClock u s).meter.oneOff = s.meter.oneOff ∧ (requestClock u s).meter.outcome = s.meter.outcome ∧
    (requestClock u s).meter.rangeStage = s.meter.rangeStage ∧ (requestClock u s).expo = s.expo ∧
    (requestClock u s).power = s.power ∧ (requestClock u s).log = s.log ∧ (requestClock u s).notices = s.notices ∧
    (requestClock u s).settings = s.settings ∧ (requestClock u s).image = s.image ∧
    (requestClock u s).startUp = s.startUp ∧ (requestClock u s).supply = s.supply ∧
    (requestClock u s).nrstLow = s.nrstLow ∧ (requestClock u s).pending = s.pending := by
  simp only [requestClock]; (repeat' split) <;> simp

@[simp] theorem beginReading_frame (who : Requester) (s : State) :
    (beginReading who s).link = s.link ∧ (beginReading who s).plan = s.plan ∧ (beginReading who s).seq = s.seq ∧
    (beginReading who s).cal = s.cal ∧ (beginReading who s).engine = s.engine ∧ (beginReading who s).pins = s.pins ∧
    (beginReading who s).meter.dark = s.meter.dark ∧ (beginReading who s).meter.tcal = s.meter.tcal ∧
    (beginReading who s).meter.oneOff = s.meter.oneOff ∧ (beginReading who s).meter.outcome = s.meter.outcome ∧
    (beginReading who s).meter.rangeStage = s.meter.rangeStage ∧ (beginReading who s).expo = s.expo ∧
    (beginReading who s).power = s.power ∧ (beginReading who s).log = s.log ∧
    (beginReading who s).notices = s.notices ∧ (beginReading who s).settings = s.settings ∧
    (beginReading who s).image = s.image ∧ (beginReading who s).startUp = s.startUp ∧
    (beginReading who s).supply = s.supply ∧ (beginReading who s).nrstLow = s.nrstLow ∧
    (beginReading who s).pending = s.pending := by simp [beginReading]

@[simp] theorem abandonReading_frame (s : State) :
    (abandonReading s).link = s.link ∧ (abandonReading s).plan = s.plan ∧ (abandonReading s).seq = s.seq ∧
    (abandonReading s).cal = s.cal ∧ (abandonReading s).engine = s.engine ∧ (abandonReading s).pins = s.pins ∧
    (abandonReading s).meter.dark = s.meter.dark ∧ (abandonReading s).meter.tcal = s.meter.tcal ∧
    (abandonReading s).meter.outcome = s.meter.outcome ∧ (abandonReading s).meter.rangeStage = s.meter.rangeStage ∧
    (abandonReading s).expo = s.expo ∧ (abandonReading s).power = s.power ∧ (abandonReading s).log = s.log ∧
    (abandonReading s).notices = s.notices ∧ (abandonReading s).settings = s.settings ∧
    (abandonReading s).image = s.image ∧ (abandonReading s).startUp = s.startUp ∧
    (abandonReading s).supply = s.supply ∧ (abandonReading s).nrstLow = s.nrstLow ∧
    (abandonReading s).pending = s.pending := by
  simp only [abandonReading]; (repeat' split) <;> simp

@[simp] theorem primeAsksReading_frame (s : State) :
    (primeAsksReading s).link = s.link ∧ (primeAsksReading s).plan = s.plan ∧ (primeAsksReading s).seq = s.seq ∧
    (primeAsksReading s).cal = s.cal ∧ (primeAsksReading s).engine.phase = s.engine.phase ∧
    (primeAsksReading s).engine.frameCounter = s.engine.frameCounter ∧
    (primeAsksReading s).engine.misses = s.engine.misses ∧ (primeAsksReading s).engine.retries = s.engine.retries ∧
    (primeAsksReading s).engine.retrying = s.engine.retrying ∧ (primeAsksReading s).engine.ask = s.engine.ask ∧
    (primeAsksReading s).pins.attn = s.pins.attn ∧ (primeAsksReading s).pins.heat = s.pins.heat ∧
    (primeAsksReading s).pins.camPwr = s.pins.camPwr ∧ (primeAsksReading s).pins.trig = s.pins.trig ∧
    (primeAsksReading s).pins.wake = s.pins.wake ∧ (primeAsksReading s).pins.busy = s.pins.busy ∧
    (primeAsksReading s).pins.trip = s.pins.trip ∧ (primeAsksReading s).meter.dark = s.meter.dark ∧
    (primeAsksReading s).meter.tcal = s.meter.tcal ∧ (primeAsksReading s).meter.outcome = s.meter.outcome ∧
    (primeAsksReading s).meter.rangeStage = s.meter.rangeStage ∧ (primeAsksReading s).expo.eHeld = s.expo.eHeld ∧
    (primeAsksReading s).expo.gHeld = s.expo.gHeld ∧ (primeAsksReading s).power = s.power ∧
    (primeAsksReading s).log = s.log ∧ (primeAsksReading s).notices = s.notices ∧
    (primeAsksReading s).settings = s.settings ∧ (primeAsksReading s).image = s.image ∧
    (primeAsksReading s).startUp = s.startUp ∧ (primeAsksReading s).supply = s.supply ∧
    (primeAsksReading s).nrstLow = s.nrstLow ∧ (primeAsksReading s).pending = s.pending := by
  simp only [primeAsksReading]; (repeat' split) <;> simp

@[simp] theorem meterClockFailed_frame (s : State) :
    (meterClockFailed s).link = s.link ∧ (meterClockFailed s).plan = s.plan ∧ (meterClockFailed s).seq = s.seq ∧
    (meterClockFailed s).cal = s.cal ∧ (meterClockFailed s).engine.phase = s.engine.phase ∧
    (meterClockFailed s).engine.frameCounter = s.engine.frameCounter ∧
    (meterClockFailed s).engine.misses = s.engine.misses ∧ (meterClockFailed s).engine.retries = s.engine.retries ∧
    (meterClockFailed s).engine.retrying = s.engine.retrying ∧ (meterClockFailed s).engine.ask = s.engine.ask ∧
    (meterClockFailed s).pins.attn = s.pins.attn ∧ (meterClockFailed s).pins.heat = s.pins.heat ∧
    (meterClockFailed s).pins.camPwr = s.pins.camPwr ∧ (meterClockFailed s).pins.trig = s.pins.trig ∧
    (meterClockFailed s).pins.wake = s.pins.wake ∧ (meterClockFailed s).pins.busy = s.pins.busy ∧
    (meterClockFailed s).pins.trip = s.pins.trip ∧ (meterClockFailed s).meter.dark = s.meter.dark ∧
    (meterClockFailed s).meter.tcal = s.meter.tcal ∧ (meterClockFailed s).meter.rangeStage = s.meter.rangeStage ∧
    (meterClockFailed s).expo.eHeld = s.expo.eHeld ∧ (meterClockFailed s).expo.gHeld = s.expo.gHeld ∧
    (meterClockFailed s).power = s.power ∧ (meterClockFailed s).log = s.log ∧
    (meterClockFailed s).notices = s.notices ∧ (meterClockFailed s).settings = s.settings ∧
    (meterClockFailed s).image = s.image ∧ (meterClockFailed s).startUp = s.startUp ∧
    (meterClockFailed s).supply = s.supply ∧ (meterClockFailed s).nrstLow = s.nrstLow ∧
    (meterClockFailed s).pending = s.pending := by
  simp only [meterClockFailed]; (repeat' split) <;> simp

@[simp] theorem failClock_frame (s : State) :
    (failClock s).link = s.link ∧ (failClock s).plan = s.plan ∧ (failClock s).seq = s.seq ∧
    (failClock s).cal = s.cal ∧ (failClock s).engine.phase = s.engine.phase ∧
    (failClock s).engine.frameCounter = s.engine.frameCounter ∧ (failClock s).engine.misses = s.engine.misses ∧
    (failClock s).engine.retries = s.engine.retries ∧ (failClock s).engine.retrying = s.engine.retrying ∧
    (failClock s).engine.ask = s.engine.ask ∧ (failClock s).pins.heat = s.pins.heat ∧
    (failClock s).pins.camPwr = s.pins.camPwr ∧ (failClock s).pins.trig = s.pins.trig ∧
    (failClock s).pins.wake = s.pins.wake ∧ (failClock s).pins.busy = s.pins.busy ∧
    (failClock s).pins.trip = s.pins.trip ∧ (failClock s).meter.dark = s.meter.dark ∧
    (failClock s).meter.tcal = s.meter.tcal ∧ (failClock s).meter.rangeStage = s.meter.rangeStage ∧
    (failClock s).expo.eHeld = s.expo.eHeld ∧ (failClock s).expo.gHeld = s.expo.gHeld ∧
    (failClock s).power = s.power ∧ (failClock s).log = s.log ∧ (failClock s).settings = s.settings ∧
    (failClock s).image = s.image ∧ (failClock s).startUp = s.startUp ∧ (failClock s).supply = s.supply ∧
    (failClock s).nrstLow = s.nrstLow ∧ (failClock s).pending = s.pending := by simp [failClock]

@[simp] theorem finishReading_frame (who : Requester) (stage count dark : Nat) (mc : Int) (s : State) :
    (finishReading who stage count dark mc s).link = s.link ∧
    (finishReading who stage count dark mc s).plan = s.plan ∧
    (finishReading who stage count dark mc s).seq = s.seq ∧ (finishReading who stage count dark mc s).cal = s.cal ∧
    (finishReading who stage count dark mc s).engine.phase = s.engine.phase ∧
    (finishReading who stage count dark mc s).engine.frameCounter = s.engine.frameCounter ∧
    (finishReading who stage count dark mc s).engine.misses = s.engine.misses ∧
    (finishReading who stage count dark mc s).engine.retries = s.engine.retries ∧
    (finishReading who stage count dark mc s).engine.retrying = s.engine.retrying ∧
    (finishReading who stage count dark mc s).engine.ask = s.engine.ask ∧
    (finishReading who stage count dark mc s).pins.heat = s.pins.heat ∧
    (finishReading who stage count dark mc s).pins.camPwr = s.pins.camPwr ∧
    (finishReading who stage count dark mc s).pins.trig = s.pins.trig ∧
    (finishReading who stage count dark mc s).pins.wake = s.pins.wake ∧
    (finishReading who stage count dark mc s).pins.busy = s.pins.busy ∧
    (finishReading who stage count dark mc s).pins.trip = s.pins.trip ∧
    (finishReading who stage count dark mc s).expo.eHeld = s.expo.eHeld ∧
    (finishReading who stage count dark mc s).expo.gHeld = s.expo.gHeld ∧
    (finishReading who stage count dark mc s).power = s.power ∧
    (finishReading who stage count dark mc s).log = s.log ∧
    (finishReading who stage count dark mc s).settings = s.settings ∧
    (finishReading who stage count dark mc s).image = s.image ∧
    (finishReading who stage count dark mc s).startUp = s.startUp ∧
    (finishReading who stage count dark mc s).supply = s.supply ∧
    (finishReading who stage count dark mc s).nrstLow = s.nrstLow ∧
    (finishReading who stage count dark mc s).pending = s.pending := by
  simp only [finishReading]; (repeat' split) <;> simp

@[simp] theorem beginCalibration_frame (temp : Int) (s : State) :
    (beginCalibration temp s).link = s.link ∧ (beginCalibration temp s).plan = s.plan ∧
    (beginCalibration temp s).seq = s.seq ∧ (beginCalibration temp s).cal = s.cal ∧
    (beginCalibration temp s).engine = s.engine ∧ (beginCalibration temp s).pins = s.pins ∧
    (beginCalibration temp s).meter.dark = s.meter.dark ∧ (beginCalibration temp s).meter.tcal = s.meter.tcal ∧
    (beginCalibration temp s).meter.oneOff = s.meter.oneOff ∧
    (beginCalibration temp s).meter.outcome = s.meter.outcome ∧
    (beginCalibration temp s).meter.rangeStage = s.meter.rangeStage ∧ (beginCalibration temp s).expo = s.expo ∧
    (beginCalibration temp s).power = s.power ∧ (beginCalibration temp s).log = s.log ∧
    (beginCalibration temp s).notices = s.notices ∧ (beginCalibration temp s).settings = s.settings ∧
    (beginCalibration temp s).image = s.image ∧ (beginCalibration temp s).startUp = s.startUp ∧
    (beginCalibration temp s).supply = s.supply ∧ (beginCalibration temp s).nrstLow = s.nrstLow ∧
    (beginCalibration temp s).pending = s.pending := by simp [beginCalibration]

@[simp] theorem abandonCalibration_frame (s : State) :
    (abandonCalibration s).link = s.link ∧ (abandonCalibration s).plan = s.plan ∧
    (abandonCalibration s).seq = s.seq ∧ (abandonCalibration s).cal = s.cal ∧
    (abandonCalibration s).engine = s.engine ∧ (abandonCalibration s).pins = s.pins ∧
    (abandonCalibration s).meter.dark = s.meter.dark ∧ (abandonCalibration s).meter.tcal = s.meter.tcal ∧
    (abandonCalibration s).meter.oneOff = s.meter.oneOff ∧
    (abandonCalibration s).meter.rangeStage = s.meter.rangeStage ∧ (abandonCalibration s).expo = s.expo ∧
    (abandonCalibration s).power = s.power ∧ (abandonCalibration s).log = s.log ∧
    (abandonCalibration s).notices = s.notices ∧ (abandonCalibration s).settings = s.settings ∧
    (abandonCalibration s).image = s.image ∧ (abandonCalibration s).startUp = s.startUp ∧
    (abandonCalibration s).supply = s.supply ∧ (abandonCalibration s).nrstLow = s.nrstLow ∧
    (abandonCalibration s).pending = s.pending := by
  simp only [abandonCalibration]; (repeat' split) <;> simp

@[simp] theorem askPeriodic_frame (s : State) :
    (askPeriodic s).link = s.link ∧ (askPeriodic s).plan = s.plan ∧ (askPeriodic s).seq = s.seq ∧
    (askPeriodic s).cal = s.cal ∧ (askPeriodic s).engine = s.engine ∧ (askPeriodic s).pins.attn = s.pins.attn ∧
    (askPeriodic s).pins.camPwr = s.pins.camPwr ∧ (askPeriodic s).pins.trig = s.pins.trig ∧
    (askPeriodic s).pins.wake = s.pins.wake ∧ (askPeriodic s).pins.gain = s.pins.gain ∧
    (askPeriodic s).pins.busy = s.pins.busy ∧ (askPeriodic s).pins.trip = s.pins.trip ∧
    (askPeriodic s).meter = s.meter ∧ (askPeriodic s).expo = s.expo ∧ (askPeriodic s).power.level = s.power.level ∧
    (askPeriodic s).power.last = s.power.last ∧ (askPeriodic s).power.timer = s.power.timer ∧
    (askPeriodic s).power.heater = s.power.heater ∧ (askPeriodic s).clock = s.clock ∧ (askPeriodic s).log = s.log ∧
    (askPeriodic s).notices = s.notices ∧ (askPeriodic s).settings = s.settings ∧ (askPeriodic s).image = s.image ∧
    (askPeriodic s).startUp = s.startUp ∧ (askPeriodic s).supply = s.supply ∧ (askPeriodic s).nrstLow = s.nrstLow ∧
    (askPeriodic s).pending = s.pending := by
  simp only [askPeriodic]; (repeat' split) <;> simp

@[simp] theorem askRail_frame (a : RailAsk) (s : State) :
    (askRail a s).link = s.link ∧ (askRail a s).plan = s.plan ∧ (askRail a s).seq = s.seq ∧
    (askRail a s).cal = s.cal ∧ (askRail a s).engine.phase = s.engine.phase ∧
    (askRail a s).engine.shot = s.engine.shot ∧ (askRail a s).engine.frameCounter = s.engine.frameCounter ∧
    (askRail a s).engine.misses = s.engine.misses ∧ (askRail a s).engine.retries = s.engine.retries ∧
    (askRail a s).engine.retrying = s.engine.retrying ∧ (askRail a s).pins.attn = s.pins.attn ∧
    (askRail a s).pins.camPwr = s.pins.camPwr ∧ (askRail a s).pins.trig = s.pins.trig ∧
    (askRail a s).pins.wake = s.pins.wake ∧ (askRail a s).pins.gain = s.pins.gain ∧
    (askRail a s).pins.busy = s.pins.busy ∧ (askRail a s).pins.trip = s.pins.trip ∧ (askRail a s).meter = s.meter ∧
    (askRail a s).expo = s.expo ∧ (askRail a s).power.level = s.power.level ∧
    (askRail a s).power.last = s.power.last ∧ (askRail a s).power.timer = s.power.timer ∧
    (askRail a s).power.heater = s.power.heater ∧ (askRail a s).clock = s.clock ∧ (askRail a s).log = s.log ∧
    (askRail a s).notices = s.notices ∧ (askRail a s).settings = s.settings ∧ (askRail a s).image = s.image ∧
    (askRail a s).startUp = s.startUp ∧ (askRail a s).supply = s.supply ∧ (askRail a s).nrstLow = s.nrstLow ∧
    (askRail a s).pending = s.pending := by
  simp only [askRail]; (repeat' split) <;> simp

@[simp] theorem primeExposure_frame (s : State) :
    (primeExposure s).link = s.link ∧ (primeExposure s).plan = s.plan ∧ (primeExposure s).seq = s.seq ∧
    (primeExposure s).cal = s.cal ∧ (primeExposure s).engine.phase = s.engine.phase ∧
    (primeExposure s).engine.frameCounter = s.engine.frameCounter ∧
    (primeExposure s).engine.misses = s.engine.misses ∧ (primeExposure s).engine.retries = s.engine.retries ∧
    (primeExposure s).engine.retrying = s.engine.retrying ∧ (primeExposure s).engine.ask = s.engine.ask ∧
    (primeExposure s).pins.attn = s.pins.attn ∧ (primeExposure s).pins.heat = s.pins.heat ∧
    (primeExposure s).pins.camPwr = s.pins.camPwr ∧ (primeExposure s).pins.trig = s.pins.trig ∧
    (primeExposure s).pins.wake = s.pins.wake ∧ (primeExposure s).pins.busy = s.pins.busy ∧
    (primeExposure s).pins.trip = s.pins.trip ∧ (primeExposure s).meter.dark = s.meter.dark ∧
    (primeExposure s).meter.tcal = s.meter.tcal ∧ (primeExposure s).meter.outcome = s.meter.outcome ∧
    (primeExposure s).meter.rangeStage = s.meter.rangeStage ∧ (primeExposure s).expo.eHeld = s.expo.eHeld ∧
    (primeExposure s).expo.gHeld = s.expo.gHeld ∧ (primeExposure s).power = s.power ∧ (primeExposure s).log = s.log ∧
    (primeExposure s).notices = s.notices ∧ (primeExposure s).settings = s.settings ∧
    (primeExposure s).image = s.image ∧ (primeExposure s).startUp = s.startUp ∧ (primeExposure s).supply = s.supply ∧
    (primeExposure s).nrstLow = s.nrstLow ∧ (primeExposure s).pending = s.pending := by
  simp only [primeExposure]; (repeat' split) <;> simp

@[simp] theorem beginPrime_frame (s : State) :
    (beginPrime s).link = s.link ∧ (beginPrime s).plan = s.plan ∧ (beginPrime s).seq.run = s.seq.run ∧
    (beginPrime s).seq.current = s.seq.current ∧ (beginPrime s).seq.armed = s.seq.armed ∧
    (beginPrime s).seq.live = s.seq.live ∧ (beginPrime s).seq.shotIndex = s.seq.shotIndex ∧
    (beginPrime s).seq.lastDue = s.seq.lastDue ∧ (beginPrime s).cal = s.cal ∧
    (beginPrime s).engine.frameCounter = s.engine.frameCounter ∧ (beginPrime s).engine.misses = s.engine.misses ∧
    (beginPrime s).engine.retries = s.engine.retries ∧ (beginPrime s).engine.retrying = s.engine.retrying ∧
    (beginPrime s).engine.ask = s.engine.ask ∧ (beginPrime s).pins.attn = s.pins.attn ∧
    (beginPrime s).pins.heat = s.pins.heat ∧ (beginPrime s).pins.camPwr = s.pins.camPwr ∧
    (beginPrime s).pins.trig = s.pins.trig ∧ (beginPrime s).pins.busy = s.pins.busy ∧
    (beginPrime s).pins.trip = s.pins.trip ∧ (beginPrime s).meter.dark = s.meter.dark ∧
    (beginPrime s).meter.tcal = s.meter.tcal ∧ (beginPrime s).meter.outcome = s.meter.outcome ∧
    (beginPrime s).meter.rangeStage = s.meter.rangeStage ∧ (beginPrime s).expo.eHeld = s.expo.eHeld ∧
    (beginPrime s).expo.gHeld = s.expo.gHeld ∧ (beginPrime s).power = s.power ∧ (beginPrime s).log = s.log ∧
    (beginPrime s).notices = s.notices ∧ (beginPrime s).settings = s.settings ∧ (beginPrime s).image = s.image ∧
    (beginPrime s).startUp = s.startUp ∧ (beginPrime s).supply = s.supply ∧ (beginPrime s).nrstLow = s.nrstLow ∧
    (beginPrime s).pending = s.pending := by
  simp only [beginPrime]; (repeat' split) <;> simp

@[simp] theorem measureArrives_frame (shot : Shot) (s : State) :
    (measureArrives shot s).link = s.link ∧ (measureArrives shot s).plan = s.plan ∧
    (measureArrives shot s).seq = s.seq ∧ (measureArrives shot s).cal = s.cal ∧
    (measureArrives shot s).engine.phase = s.engine.phase ∧ (measureArrives shot s).engine.shot = s.engine.shot ∧
    (measureArrives shot s).engine.frameCounter = s.engine.frameCounter ∧
    (measureArrives shot s).engine.misses = s.engine.misses ∧
    (measureArrives shot s).engine.retries = s.engine.retries ∧
    (measureArrives shot s).engine.retrying = s.engine.retrying ∧ (measureArrives shot s).pins.attn = s.pins.attn ∧
    (measureArrives shot s).pins.camPwr = s.pins.camPwr ∧ (measureArrives shot s).pins.trig = s.pins.trig ∧
    (measureArrives shot s).pins.wake = s.pins.wake ∧ (measureArrives shot s).pins.gain = s.pins.gain ∧
    (measureArrives shot s).pins.busy = s.pins.busy ∧ (measureArrives shot s).pins.trip = s.pins.trip ∧
    (measureArrives shot s).meter = s.meter ∧ (measureArrives shot s).expo = s.expo ∧
    (measureArrives shot s).power.level = s.power.level ∧ (measureArrives shot s).power.last = s.power.last ∧
    (measureArrives shot s).power.timer = s.power.timer ∧ (measureArrives shot s).power.heater = s.power.heater ∧
    (measureArrives shot s).clock = s.clock ∧ (measureArrives shot s).log = s.log ∧
    (measureArrives shot s).notices = s.notices ∧ (measureArrives shot s).settings = s.settings ∧
    (measureArrives shot s).image = s.image ∧ (measureArrives shot s).startUp = s.startUp ∧
    (measureArrives shot s).supply = s.supply ∧ (measureArrives shot s).nrstLow = s.nrstLow ∧
    (measureArrives shot s).pending = s.pending := by
  simp only [measureArrives]; split <;> simp

@[simp] theorem arrivals_frame (s : State) :
    (arrivals s).link = s.link ∧ (arrivals s).plan = s.plan ∧ (arrivals s).seq.run = s.seq.run ∧
    (arrivals s).seq.current = s.seq.current ∧ (arrivals s).seq.armed = s.seq.armed ∧
    (arrivals s).seq.live = s.seq.live ∧ (arrivals s).seq.shotIndex = s.seq.shotIndex ∧
    (arrivals s).seq.lastDue = s.seq.lastDue ∧ (arrivals s).cal = s.cal ∧
    (arrivals s).engine.frameCounter = s.engine.frameCounter ∧ (arrivals s).engine.misses = s.engine.misses ∧
    (arrivals s).engine.retries = s.engine.retries ∧ (arrivals s).engine.retrying = s.engine.retrying ∧
    (arrivals s).pins.attn = s.pins.attn ∧ (arrivals s).pins.camPwr = s.pins.camPwr ∧
    (arrivals s).pins.trig = s.pins.trig ∧ (arrivals s).pins.busy = s.pins.busy ∧
    (arrivals s).pins.trip = s.pins.trip ∧ (arrivals s).meter.dark = s.meter.dark ∧
    (arrivals s).meter.tcal = s.meter.tcal ∧ (arrivals s).meter.outcome = s.meter.outcome ∧
    (arrivals s).meter.rangeStage = s.meter.rangeStage ∧ (arrivals s).expo.eHeld = s.expo.eHeld ∧
    (arrivals s).expo.gHeld = s.expo.gHeld ∧ (arrivals s).power.level = s.power.level ∧
    (arrivals s).power.last = s.power.last ∧ (arrivals s).power.timer = s.power.timer ∧
    (arrivals s).power.heater = s.power.heater ∧ (arrivals s).log = s.log ∧ (arrivals s).notices = s.notices ∧
    (arrivals s).settings = s.settings ∧ (arrivals s).image = s.image ∧ (arrivals s).startUp = s.startUp ∧
    (arrivals s).supply = s.supply ∧ (arrivals s).nrstLow = s.nrstLow ∧ (arrivals s).pending = s.pending := by
  simp only [arrivals]; (repeat' split) <;> simp

@[simp] theorem endPrime_frame (s : State) :
    (endPrime s).link = s.link ∧ (endPrime s).plan = s.plan ∧ (endPrime s).seq = s.seq ∧ (endPrime s).cal = s.cal ∧
    (endPrime s).engine.phase = s.engine.phase ∧ (endPrime s).engine.frameCounter = s.engine.frameCounter ∧
    (endPrime s).engine.misses = s.engine.misses ∧ (endPrime s).engine.retries = s.engine.retries ∧
    (endPrime s).engine.retrying = s.engine.retrying ∧ (endPrime s).engine.ask = s.engine.ask ∧
    (endPrime s).pins.attn = s.pins.attn ∧ (endPrime s).pins.heat = s.pins.heat ∧
    (endPrime s).pins.camPwr = s.pins.camPwr ∧ (endPrime s).pins.trig = s.pins.trig ∧
    (endPrime s).pins.wake = s.pins.wake ∧ (endPrime s).pins.busy = s.pins.busy ∧
    (endPrime s).pins.trip = s.pins.trip ∧ (endPrime s).meter.dark = s.meter.dark ∧
    (endPrime s).meter.tcal = s.meter.tcal ∧ (endPrime s).meter.outcome = s.meter.outcome ∧
    (endPrime s).meter.rangeStage = s.meter.rangeStage ∧ (endPrime s).expo.eHeld = s.expo.eHeld ∧
    (endPrime s).expo.gHeld = s.expo.gHeld ∧ (endPrime s).power = s.power ∧ (endPrime s).log = s.log ∧
    (endPrime s).notices = s.notices ∧ (endPrime s).settings = s.settings ∧ (endPrime s).image = s.image ∧
    (endPrime s).startUp = s.startUp ∧ (endPrime s).supply = s.supply ∧ (endPrime s).nrstLow = s.nrstLow ∧
    (endPrime s).pending = s.pending := by
  simp only [endPrime]; (repeat' split) <;> simp

@[simp] theorem assertTrig_frame (s : State) :
    (assertTrig s).link = s.link ∧ (assertTrig s).plan = s.plan ∧ (assertTrig s).seq.run = s.seq.run ∧
    (assertTrig s).seq.current = s.seq.current ∧ (assertTrig s).seq.armed = s.seq.armed ∧
    (assertTrig s).seq.live = s.seq.live ∧ (assertTrig s).seq.shotIndex = s.seq.shotIndex ∧
    (assertTrig s).seq.lastDue = s.seq.lastDue ∧ (assertTrig s).cal = s.cal ∧
    (assertTrig s).engine.frameCounter = s.engine.frameCounter ∧ (assertTrig s).engine.misses = s.engine.misses ∧
    (assertTrig s).engine.retries = s.engine.retries ∧ (assertTrig s).engine.retrying = s.engine.retrying ∧
    (assertTrig s).engine.ask = s.engine.ask ∧ (assertTrig s).pins.attn = s.pins.attn ∧
    (assertTrig s).pins.heat = s.pins.heat ∧ (assertTrig s).pins.camPwr = s.pins.camPwr ∧
    (assertTrig s).pins.gain = s.pins.gain ∧ (assertTrig s).pins.busy = s.pins.busy ∧
    (assertTrig s).pins.trip = s.pins.trip ∧ (assertTrig s).meter = s.meter ∧ (assertTrig s).power = s.power ∧
    (assertTrig s).clock = s.clock ∧ (assertTrig s).log = s.log ∧ (assertTrig s).notices = s.notices ∧
    (assertTrig s).settings = s.settings ∧ (assertTrig s).image = s.image ∧ (assertTrig s).startUp = s.startUp ∧
    (assertTrig s).supply = s.supply ∧ (assertTrig s).nrstLow = s.nrstLow ∧ (assertTrig s).pending = s.pending := by
  simp only [assertTrig]; (repeat' split) <;> simp

@[simp] theorem dueInPrime_frame (s : State) :
    (dueInPrime s).link = s.link ∧ (dueInPrime s).plan = s.plan ∧ (dueInPrime s).seq.run = s.seq.run ∧
    (dueInPrime s).seq.current = s.seq.current ∧ (dueInPrime s).seq.armed = s.seq.armed ∧
    (dueInPrime s).seq.live = s.seq.live ∧ (dueInPrime s).seq.shotIndex = s.seq.shotIndex ∧
    (dueInPrime s).seq.lastDue = s.seq.lastDue ∧ (dueInPrime s).cal = s.cal ∧
    (dueInPrime s).engine.frameCounter = s.engine.frameCounter ∧ (dueInPrime s).engine.misses = s.engine.misses ∧
    (dueInPrime s).engine.retries = s.engine.retries ∧ (dueInPrime s).engine.retrying = s.engine.retrying ∧
    (dueInPrime s).engine.ask = s.engine.ask ∧ (dueInPrime s).pins.attn = s.pins.attn ∧
    (dueInPrime s).pins.heat = s.pins.heat ∧ (dueInPrime s).pins.camPwr = s.pins.camPwr ∧
    (dueInPrime s).pins.busy = s.pins.busy ∧ (dueInPrime s).pins.trip = s.pins.trip ∧
    (dueInPrime s).meter.dark = s.meter.dark ∧ (dueInPrime s).meter.tcal = s.meter.tcal ∧
    (dueInPrime s).meter.outcome = s.meter.outcome ∧ (dueInPrime s).meter.rangeStage = s.meter.rangeStage ∧
    (dueInPrime s).power = s.power ∧ (dueInPrime s).log = s.log ∧ (dueInPrime s).notices = s.notices ∧
    (dueInPrime s).settings = s.settings ∧ (dueInPrime s).image = s.image ∧ (dueInPrime s).startUp = s.startUp ∧
    (dueInPrime s).supply = s.supply ∧ (dueInPrime s).nrstLow = s.nrstLow ∧ (dueInPrime s).pending = s.pending := by simp [dueInPrime]

@[simp] theorem dueBeforePrime_frame (s : State) :
    (dueBeforePrime s).link = s.link ∧ (dueBeforePrime s).plan = s.plan ∧ (dueBeforePrime s).seq.run = s.seq.run ∧
    (dueBeforePrime s).seq.current = s.seq.current ∧ (dueBeforePrime s).seq.armed = s.seq.armed ∧
    (dueBeforePrime s).seq.live = s.seq.live ∧ (dueBeforePrime s).seq.shotIndex = s.seq.shotIndex ∧
    (dueBeforePrime s).seq.lastDue = s.seq.lastDue ∧ (dueBeforePrime s).cal = s.cal ∧
    (dueBeforePrime s).engine.frameCounter = s.engine.frameCounter ∧
    (dueBeforePrime s).engine.misses = s.engine.misses ∧ (dueBeforePrime s).engine.retries = s.engine.retries ∧
    (dueBeforePrime s).engine.retrying = s.engine.retrying ∧ (dueBeforePrime s).engine.ask = s.engine.ask ∧
    (dueBeforePrime s).pins.attn = s.pins.attn ∧ (dueBeforePrime s).pins.heat = s.pins.heat ∧
    (dueBeforePrime s).pins.camPwr = s.pins.camPwr ∧ (dueBeforePrime s).pins.busy = s.pins.busy ∧
    (dueBeforePrime s).pins.trip = s.pins.trip ∧ (dueBeforePrime s).meter.dark = s.meter.dark ∧
    (dueBeforePrime s).meter.tcal = s.meter.tcal ∧ (dueBeforePrime s).meter.outcome = s.meter.outcome ∧
    (dueBeforePrime s).meter.rangeStage = s.meter.rangeStage ∧ (dueBeforePrime s).power = s.power ∧
    (dueBeforePrime s).log = s.log ∧ (dueBeforePrime s).notices = s.notices ∧
    (dueBeforePrime s).settings = s.settings ∧ (dueBeforePrime s).image = s.image ∧
    (dueBeforePrime s).startUp = s.startUp ∧ (dueBeforePrime s).supply = s.supply ∧
    (dueBeforePrime s).nrstLow = s.nrstLow ∧ (dueBeforePrime s).pending = s.pending := by simp [dueBeforePrime]

@[simp] theorem writeFrame_frame (cut : Bool) (s : State) :
    (writeFrame cut s).link = s.link ∧ (writeFrame cut s).plan = s.plan ∧ (writeFrame cut s).seq = s.seq ∧
    (writeFrame cut s).cal = s.cal ∧ (writeFrame cut s).engine.phase = s.engine.phase ∧
    (writeFrame cut s).engine.shot = s.engine.shot ∧ (writeFrame cut s).engine.misses = s.engine.misses ∧
    (writeFrame cut s).engine.retries = s.engine.retries ∧ (writeFrame cut s).engine.retrying = s.engine.retrying ∧
    (writeFrame cut s).engine.ask = s.engine.ask ∧ (writeFrame cut s).pins = s.pins ∧
    (writeFrame cut s).meter = s.meter ∧ (writeFrame cut s).expo = s.expo ∧ (writeFrame cut s).power = s.power ∧
    (writeFrame cut s).clock = s.clock ∧ (writeFrame cut s).notices = s.notices ∧
    (writeFrame cut s).settings = s.settings ∧ (writeFrame cut s).image = s.image ∧
    (writeFrame cut s).startUp = s.startUp ∧ (writeFrame cut s).supply = s.supply ∧
    (writeFrame cut s).nrstLow = s.nrstLow ∧ (writeFrame cut s).pending = s.pending := by
  simp only [writeFrame]; (repeat' split) <;> simp

@[simp] theorem dropHoldAsk_frame (s : State) :
    (dropHoldAsk s).link = s.link ∧ (dropHoldAsk s).plan = s.plan ∧ (dropHoldAsk s).seq = s.seq ∧
    (dropHoldAsk s).cal = s.cal ∧ (dropHoldAsk s).engine.phase = s.engine.phase ∧
    (dropHoldAsk s).engine.shot = s.engine.shot ∧ (dropHoldAsk s).engine.frameCounter = s.engine.frameCounter ∧
    (dropHoldAsk s).engine.misses = s.engine.misses ∧ (dropHoldAsk s).engine.retries = s.engine.retries ∧
    (dropHoldAsk s).engine.retrying = s.engine.retrying ∧ (dropHoldAsk s).pins = s.pins ∧
    (dropHoldAsk s).meter = s.meter ∧ (dropHoldAsk s).expo = s.expo ∧ (dropHoldAsk s).power = s.power ∧
    (dropHoldAsk s).clock = s.clock ∧ (dropHoldAsk s).log = s.log ∧ (dropHoldAsk s).notices = s.notices ∧
    (dropHoldAsk s).settings = s.settings ∧ (dropHoldAsk s).image = s.image ∧ (dropHoldAsk s).startUp = s.startUp ∧
    (dropHoldAsk s).supply = s.supply ∧ (dropHoldAsk s).nrstLow = s.nrstLow ∧ (dropHoldAsk s).pending = s.pending := by
  simp only [dropHoldAsk]; (repeat' split) <;> simp

@[simp] theorem railDecision_frame (s : State) :
    (railDecision s).link = s.link ∧ (railDecision s).plan = s.plan ∧ (railDecision s).seq.run = s.seq.run ∧
    (railDecision s).seq.current = s.seq.current ∧ (railDecision s).seq.armed = s.seq.armed ∧
    (railDecision s).seq.live = s.seq.live ∧ (railDecision s).seq.shotIndex = s.seq.shotIndex ∧
    (railDecision s).seq.lastDue = s.seq.lastDue ∧ (railDecision s).cal = s.cal ∧
    (railDecision s).engine.frameCounter = s.engine.frameCounter ∧ (railDecision s).engine.misses = s.engine.misses ∧
    (railDecision s).engine.retries = s.engine.retries ∧ (railDecision s).engine.retrying = s.engine.retrying ∧
    (railDecision s).pins.attn = s.pins.attn ∧ (railDecision s).pins.trig = s.pins.trig ∧
    (railDecision s).pins.busy = s.pins.busy ∧ (railDecision s).pins.trip = s.pins.trip ∧
    (railDecision s).meter.dark = s.meter.dark ∧ (railDecision s).meter.tcal = s.meter.tcal ∧
    (railDecision s).meter.outcome = s.meter.outcome ∧ (railDecision s).meter.rangeStage = s.meter.rangeStage ∧
    (railDecision s).expo.eHeld = s.expo.eHeld ∧ (railDecision s).expo.gHeld = s.expo.gHeld ∧
    (railDecision s).power.level = s.power.level ∧ (railDecision s).power.last = s.power.last ∧
    (railDecision s).power.timer = s.power.timer ∧ (railDecision s).power.heater = s.power.heater ∧
    (railDecision s).log = s.log ∧ (railDecision s).notices = s.notices ∧ (railDecision s).settings = s.settings ∧
    (railDecision s).image = s.image ∧ (railDecision s).startUp = s.startUp ∧ (railDecision s).supply = s.supply ∧
    (railDecision s).nrstLow = s.nrstLow ∧ (railDecision s).pending = s.pending := by
  simp only [railDecision]; (repeat' split) <;> simp

@[simp] theorem afterReplan_frame (s : State) :
    (afterReplan s).link = s.link ∧ (afterReplan s).plan = s.plan ∧ (afterReplan s).seq.run = s.seq.run ∧
    (afterReplan s).seq.current = s.seq.current ∧ (afterReplan s).seq.armed = s.seq.armed ∧
    (afterReplan s).seq.live = s.seq.live ∧ (afterReplan s).seq.shotIndex = s.seq.shotIndex ∧
    (afterReplan s).seq.lastDue = s.seq.lastDue ∧ (afterReplan s).cal = s.cal ∧
    (afterReplan s).engine.frameCounter = s.engine.frameCounter ∧ (afterReplan s).engine.misses = s.engine.misses ∧
    (afterReplan s).engine.retries = s.engine.retries ∧ (afterReplan s).engine.retrying = s.engine.retrying ∧
    (afterReplan s).pins.attn = s.pins.attn ∧ (afterReplan s).pins.trig = s.pins.trig ∧
    (afterReplan s).pins.busy = s.pins.busy ∧ (afterReplan s).pins.trip = s.pins.trip ∧
    (afterReplan s).meter.dark = s.meter.dark ∧ (afterReplan s).meter.tcal = s.meter.tcal ∧
    (afterReplan s).meter.outcome = s.meter.outcome ∧ (afterReplan s).meter.rangeStage = s.meter.rangeStage ∧
    (afterReplan s).expo.eHeld = s.expo.eHeld ∧ (afterReplan s).expo.gHeld = s.expo.gHeld ∧
    (afterReplan s).power.level = s.power.level ∧ (afterReplan s).power.last = s.power.last ∧
    (afterReplan s).power.timer = s.power.timer ∧ (afterReplan s).power.heater = s.power.heater ∧
    (afterReplan s).log = s.log ∧ (afterReplan s).notices = s.notices ∧ (afterReplan s).settings = s.settings ∧
    (afterReplan s).image = s.image ∧ (afterReplan s).startUp = s.startUp ∧ (afterReplan s).supply = s.supply ∧
    (afterReplan s).nrstLow = s.nrstLow ∧ (afterReplan s).pending = s.pending := by simp [afterReplan]

@[simp] theorem withdrawShot_frame (s : State) :
    (withdrawShot s).link = s.link ∧ (withdrawShot s).plan = s.plan ∧ (withdrawShot s).seq.run = s.seq.run ∧
    (withdrawShot s).seq.current = s.seq.current ∧ (withdrawShot s).seq.armed = s.seq.armed ∧
    (withdrawShot s).seq.live = s.seq.live ∧ (withdrawShot s).seq.shotIndex = s.seq.shotIndex ∧
    (withdrawShot s).seq.lastDue = s.seq.lastDue ∧ (withdrawShot s).cal = s.cal ∧
    (withdrawShot s).engine.phase = s.engine.phase ∧ (withdrawShot s).engine.frameCounter = s.engine.frameCounter ∧
    (withdrawShot s).engine.misses = s.engine.misses ∧ (withdrawShot s).engine.retries = s.engine.retries ∧
    (withdrawShot s).engine.retrying = s.engine.retrying ∧ (withdrawShot s).pins = s.pins ∧
    (withdrawShot s).meter = s.meter ∧ (withdrawShot s).expo = s.expo ∧ (withdrawShot s).power = s.power ∧
    (withdrawShot s).clock = s.clock ∧ (withdrawShot s).log = s.log ∧ (withdrawShot s).notices = s.notices ∧
    (withdrawShot s).settings = s.settings ∧ (withdrawShot s).image = s.image ∧
    (withdrawShot s).startUp = s.startUp ∧ (withdrawShot s).supply = s.supply ∧
    (withdrawShot s).nrstLow = s.nrstLow ∧ (withdrawShot s).pending = s.pending := by
  simp only [withdrawShot]; (repeat' split) <;> simp

@[simp] theorem abandonPrime_frame (s : State) :
    (abandonPrime s).link = s.link ∧ (abandonPrime s).plan = s.plan ∧ (abandonPrime s).seq.run = s.seq.run ∧
    (abandonPrime s).seq.current = s.seq.current ∧ (abandonPrime s).seq.armed = s.seq.armed ∧
    (abandonPrime s).seq.live = s.seq.live ∧ (abandonPrime s).seq.shotIndex = s.seq.shotIndex ∧
    (abandonPrime s).seq.lastDue = s.seq.lastDue ∧ (abandonPrime s).cal = s.cal ∧
    (abandonPrime s).engine.frameCounter = s.engine.frameCounter ∧ (abandonPrime s).engine.misses = s.engine.misses ∧
    (abandonPrime s).engine.retries = s.engine.retries ∧ (abandonPrime s).engine.retrying = s.engine.retrying ∧
    (abandonPrime s).engine.ask = s.engine.ask ∧ (abandonPrime s).pins.attn = s.pins.attn ∧
    (abandonPrime s).pins.heat = s.pins.heat ∧ (abandonPrime s).pins.camPwr = s.pins.camPwr ∧
    (abandonPrime s).pins.trig = s.pins.trig ∧ (abandonPrime s).pins.gain = s.pins.gain ∧
    (abandonPrime s).pins.busy = s.pins.busy ∧ (abandonPrime s).pins.trip = s.pins.trip ∧
    (abandonPrime s).meter.dark = s.meter.dark ∧ (abandonPrime s).meter.tcal = s.meter.tcal ∧
    (abandonPrime s).meter.outcome = s.meter.outcome ∧ (abandonPrime s).meter.rangeStage = s.meter.rangeStage ∧
    (abandonPrime s).power = s.power ∧ (abandonPrime s).log = s.log ∧ (abandonPrime s).notices = s.notices ∧
    (abandonPrime s).settings = s.settings ∧ (abandonPrime s).image = s.image ∧
    (abandonPrime s).startUp = s.startUp ∧ (abandonPrime s).supply = s.supply ∧
    (abandonPrime s).nrstLow = s.nrstLow ∧ (abandonPrime s).pending = s.pending := by
  simp only [abandonPrime]; (repeat' split) <;> simp

@[simp] theorem dropShot_frame (s : State) :
    (dropShot s).link = s.link ∧ (dropShot s).plan = s.plan ∧ (dropShot s).seq.run = s.seq.run ∧
    (dropShot s).seq.current = s.seq.current ∧ (dropShot s).seq.armed = s.seq.armed ∧
    (dropShot s).seq.live = s.seq.live ∧ (dropShot s).seq.shotIndex = s.seq.shotIndex ∧
    (dropShot s).seq.lastDue = s.seq.lastDue ∧ (dropShot s).cal = s.cal ∧
    (dropShot s).engine.frameCounter = s.engine.frameCounter ∧ (dropShot s).engine.misses = s.engine.misses ∧
    (dropShot s).engine.retries = s.engine.retries ∧ (dropShot s).engine.retrying = s.engine.retrying ∧
    (dropShot s).pins.attn = s.pins.attn ∧ (dropShot s).pins.heat = s.pins.heat ∧
    (dropShot s).pins.camPwr = s.pins.camPwr ∧ (dropShot s).pins.trig = s.pins.trig ∧
    (dropShot s).pins.gain = s.pins.gain ∧ (dropShot s).pins.busy = s.pins.busy ∧
    (dropShot s).pins.trip = s.pins.trip ∧ (dropShot s).meter.dark = s.meter.dark ∧
    (dropShot s).meter.tcal = s.meter.tcal ∧ (dropShot s).meter.outcome = s.meter.outcome ∧
    (dropShot s).meter.rangeStage = s.meter.rangeStage ∧ (dropShot s).power = s.power ∧ (dropShot s).log = s.log ∧
    (dropShot s).notices = s.notices ∧ (dropShot s).settings = s.settings ∧ (dropShot s).image = s.image ∧
    (dropShot s).startUp = s.startUp ∧ (dropShot s).supply = s.supply ∧ (dropShot s).nrstLow = s.nrstLow ∧
    (dropShot s).pending = s.pending := by simp [dropShot]

@[simp] theorem standDown_frame (s : State) :
    (standDown s).link = s.link ∧ (standDown s).plan = s.plan ∧ (standDown s).seq.run = s.seq.run ∧
    (standDown s).seq.current = s.seq.current ∧ (standDown s).seq.armed = s.seq.armed ∧
    (standDown s).seq.live = s.seq.live ∧ (standDown s).seq.stage = s.seq.stage ∧
    (standDown s).seq.shotIndex = s.seq.shotIndex ∧ (standDown s).seq.lastDue = s.seq.lastDue ∧
    (standDown s).cal = s.cal ∧ (standDown s).engine.shot = s.engine.shot ∧
    (standDown s).engine.frameCounter = s.engine.frameCounter ∧ (standDown s).engine.misses = s.engine.misses ∧
    (standDown s).engine.retries = s.engine.retries ∧ (standDown s).pins.attn = s.pins.attn ∧
    (standDown s).pins.heat = s.pins.heat ∧ (standDown s).pins.trig = s.pins.trig ∧
    (standDown s).pins.wake = s.pins.wake ∧ (standDown s).pins.busy = s.pins.busy ∧
    (standDown s).pins.trip = s.pins.trip ∧ (standDown s).meter = s.meter ∧ (standDown s).expo = s.expo ∧
    (standDown s).power = s.power ∧ (standDown s).clock = s.clock ∧ (standDown s).log = s.log ∧
    (standDown s).notices = s.notices ∧ (standDown s).settings = s.settings ∧ (standDown s).image = s.image ∧
    (standDown s).startUp = s.startUp ∧ (standDown s).supply = s.supply ∧ (standDown s).nrstLow = s.nrstLow ∧
    (standDown s).pending = s.pending := by
  simp only [standDown]; (repeat' split) <;> simp

@[simp] theorem cutShot_frame (s : State) :
    (cutShot s).link = s.link ∧ (cutShot s).plan = s.plan ∧ (cutShot s).seq.run = s.seq.run ∧
    (cutShot s).seq.current = s.seq.current ∧ (cutShot s).seq.armed = s.seq.armed ∧
    (cutShot s).seq.live = s.seq.live ∧ (cutShot s).seq.shotIndex = s.seq.shotIndex ∧
    (cutShot s).seq.lastDue = s.seq.lastDue ∧ (cutShot s).cal = s.cal ∧ (cutShot s).engine.phase = s.engine.phase ∧
    (cutShot s).engine.misses = s.engine.misses ∧ (cutShot s).engine.retries = s.engine.retries ∧
    (cutShot s).engine.retrying = s.engine.retrying ∧ (cutShot s).engine.ask = s.engine.ask ∧
    (cutShot s).pins.attn = s.pins.attn ∧ (cutShot s).pins.heat = s.pins.heat ∧
    (cutShot s).pins.camPwr = s.pins.camPwr ∧ (cutShot s).pins.wake = s.pins.wake ∧
    (cutShot s).pins.gain = s.pins.gain ∧ (cutShot s).pins.busy = s.pins.busy ∧ (cutShot s).pins.trip = s.pins.trip ∧
    (cutShot s).meter = s.meter ∧ (cutShot s).expo = s.expo ∧ (cutShot s).power = s.power ∧
    (cutShot s).notices = s.notices ∧ (cutShot s).settings = s.settings ∧ (cutShot s).image = s.image ∧
    (cutShot s).startUp = s.startUp ∧ (cutShot s).supply = s.supply ∧ (cutShot s).nrstLow = s.nrstLow ∧
    (cutShot s).pending = s.pending := by
  simp only [cutShot]; (repeat' split) <;> simp

@[simp] theorem placeDue_frame (seg : Segment) (d : Tick) (s : State) :
    (placeDue seg d s).link = s.link ∧ (placeDue seg d s).plan = s.plan ∧ (placeDue seg d s).seq.run = s.seq.run ∧
    (placeDue seg d s).seq.current = s.seq.current ∧ (placeDue seg d s).seq.armed = s.seq.armed ∧
    (placeDue seg d s).seq.live = s.seq.live ∧ (placeDue seg d s).seq.shotIndex = s.seq.shotIndex ∧
    (placeDue seg d s).seq.lastDue = s.seq.lastDue ∧ (placeDue seg d s).cal = s.cal ∧
    (placeDue seg d s).engine.phase = s.engine.phase ∧
    (placeDue seg d s).engine.frameCounter = s.engine.frameCounter ∧
    (placeDue seg d s).engine.misses = s.engine.misses ∧ (placeDue seg d s).engine.retries = s.engine.retries ∧
    (placeDue seg d s).engine.retrying = s.engine.retrying ∧ (placeDue seg d s).engine.ask = s.engine.ask ∧
    (placeDue seg d s).pins = s.pins ∧ (placeDue seg d s).meter = s.meter ∧ (placeDue seg d s).expo = s.expo ∧
    (placeDue seg d s).power = s.power ∧ (placeDue seg d s).clock = s.clock ∧ (placeDue seg d s).log = s.log ∧
    (placeDue seg d s).notices = s.notices ∧ (placeDue seg d s).settings = s.settings ∧
    (placeDue seg d s).image = s.image ∧ (placeDue seg d s).startUp = s.startUp ∧
    (placeDue seg d s).supply = s.supply ∧ (placeDue seg d s).nrstLow = s.nrstLow ∧
    (placeDue seg d s).pending = s.pending := by
  simp only [placeDue]; (repeat' split) <;> simp

@[simp] theorem placeTrip_frame (seg : Segment) (s : State) :
    (placeTrip seg s).link = s.link ∧ (placeTrip seg s).plan = s.plan ∧ (placeTrip seg s).seq.run = s.seq.run ∧
    (placeTrip seg s).seq.current = s.seq.current ∧ (placeTrip seg s).seq.armed = s.seq.armed ∧
    (placeTrip seg s).seq.live = s.seq.live ∧ (placeTrip seg s).seq.stage = s.seq.stage ∧
    (placeTrip seg s).seq.shotIndex = s.seq.shotIndex ∧ (placeTrip seg s).seq.lastDue = s.seq.lastDue ∧
    (placeTrip seg s).cal = s.cal ∧ (placeTrip seg s).engine = s.engine ∧ (placeTrip seg s).pins = s.pins ∧
    (placeTrip seg s).meter = s.meter ∧ (placeTrip seg s).expo = s.expo ∧ (placeTrip seg s).power = s.power ∧
    (placeTrip seg s).clock = s.clock ∧ (placeTrip seg s).log = s.log ∧ (placeTrip seg s).notices = s.notices ∧
    (placeTrip seg s).settings = s.settings ∧ (placeTrip seg s).image = s.image ∧
    (placeTrip seg s).startUp = s.startUp ∧ (placeTrip seg s).supply = s.supply ∧
    (placeTrip seg s).nrstLow = s.nrstLow ∧ (placeTrip seg s).pending = s.pending := by
  simp only [placeTrip]; (repeat' split) <;> simp

@[simp] theorem waitUnscheduled_frame (seg : Segment) (s : State) :
    (waitUnscheduled seg s).link = s.link ∧ (waitUnscheduled seg s).plan = s.plan ∧
    (waitUnscheduled seg s).seq.run = s.seq.run ∧ (waitUnscheduled seg s).seq.current = s.seq.current ∧
    (waitUnscheduled seg s).seq.armed = s.seq.armed ∧ (waitUnscheduled seg s).seq.live = s.seq.live ∧
    (waitUnscheduled seg s).seq.stage = s.seq.stage ∧ (waitUnscheduled seg s).seq.shotIndex = s.seq.shotIndex ∧
    (waitUnscheduled seg s).seq.lastDue = s.seq.lastDue ∧ (waitUnscheduled seg s).cal = s.cal ∧
    (waitUnscheduled seg s).engine = s.engine ∧ (waitUnscheduled seg s).pins = s.pins ∧
    (waitUnscheduled seg s).meter = s.meter ∧ (waitUnscheduled seg s).expo = s.expo ∧
    (waitUnscheduled seg s).power = s.power ∧ (waitUnscheduled seg s).clock = s.clock ∧
    (waitUnscheduled seg s).log = s.log ∧ (waitUnscheduled seg s).notices = s.notices ∧
    (waitUnscheduled seg s).settings = s.settings ∧ (waitUnscheduled seg s).image = s.image ∧
    (waitUnscheduled seg s).startUp = s.startUp ∧ (waitUnscheduled seg s).supply = s.supply ∧
    (waitUnscheduled seg s).nrstLow = s.nrstLow ∧ (waitUnscheduled seg s).pending = s.pending := by
  simp only [waitUnscheduled]; (repeat' split) <;> simp

@[simp] theorem holdSchedule_frame (s : State) :
    (holdSchedule s).link = s.link ∧ (holdSchedule s).plan = s.plan ∧ (holdSchedule s).seq.run = s.seq.run ∧
    (holdSchedule s).seq.current = s.seq.current ∧ (holdSchedule s).seq.armed = s.seq.armed ∧
    (holdSchedule s).seq.live = s.seq.live ∧ (holdSchedule s).seq.stage = s.seq.stage ∧
    (holdSchedule s).seq.shotIndex = s.seq.shotIndex ∧ (holdSchedule s).seq.lastDue = s.seq.lastDue ∧
    (holdSchedule s).cal = s.cal ∧ (holdSchedule s).engine = s.engine ∧ (holdSchedule s).pins = s.pins ∧
    (holdSchedule s).meter = s.meter ∧ (holdSchedule s).expo = s.expo ∧ (holdSchedule s).power = s.power ∧
    (holdSchedule s).clock = s.clock ∧ (holdSchedule s).log = s.log ∧ (holdSchedule s).notices = s.notices ∧
    (holdSchedule s).settings = s.settings ∧ (holdSchedule s).image = s.image ∧
    (holdSchedule s).startUp = s.startUp ∧ (holdSchedule s).supply = s.supply ∧
    (holdSchedule s).nrstLow = s.nrstLow ∧ (holdSchedule s).pending = s.pending := by
  simp only [holdSchedule]; (repeat' split) <;> simp

@[simp] theorem startSchedule_frame (atCompletion : Bool) (target : Tick) (s : State) :
    (startSchedule atCompletion target s).link = s.link ∧ (startSchedule atCompletion target s).plan = s.plan ∧
    (startSchedule atCompletion target s).seq.run = s.seq.run ∧
    (startSchedule atCompletion target s).seq.current = s.seq.current ∧
    (startSchedule atCompletion target s).seq.armed = s.seq.armed ∧
    (startSchedule atCompletion target s).seq.live = s.seq.live ∧
    (startSchedule atCompletion target s).seq.shotIndex = s.seq.shotIndex ∧
    (startSchedule atCompletion target s).seq.lastDue = s.seq.lastDue ∧
    (startSchedule atCompletion target s).cal = s.cal ∧
    (startSchedule atCompletion target s).engine.phase = s.engine.phase ∧
    (startSchedule atCompletion target s).engine.frameCounter = s.engine.frameCounter ∧
    (startSchedule atCompletion target s).engine.misses = s.engine.misses ∧
    (startSchedule atCompletion target s).engine.retries = s.engine.retries ∧
    (startSchedule atCompletion target s).engine.retrying = s.engine.retrying ∧
    (startSchedule atCompletion target s).engine.ask = s.engine.ask ∧
    (startSchedule atCompletion target s).pins = s.pins ∧ (startSchedule atCompletion target s).meter = s.meter ∧
    (startSchedule atCompletion target s).expo = s.expo ∧ (startSchedule atCompletion target s).power = s.power ∧
    (startSchedule atCompletion target s).clock = s.clock ∧ (startSchedule atCompletion target s).log = s.log ∧
    (startSchedule atCompletion target s).notices = s.notices ∧
    (startSchedule atCompletion target s).settings = s.settings ∧
    (startSchedule atCompletion target s).image = s.image ∧
    (startSchedule atCompletion target s).startUp = s.startUp ∧
    (startSchedule atCompletion target s).supply = s.supply ∧
    (startSchedule atCompletion target s).nrstLow = s.nrstLow ∧
    (startSchedule atCompletion target s).pending = s.pending := by
  simp only [startSchedule]; (repeat' split) <;> simp

@[simp] theorem activate_frame (s : State) :
    (activate s).link = s.link ∧ (activate s).plan = s.plan ∧ (activate s).seq.current = s.seq.current ∧
    (activate s).seq.armed = s.seq.armed ∧ (activate s).seq.live = s.seq.live ∧
    (activate s).seq.shotIndex = s.seq.shotIndex ∧ (activate s).seq.lastDue = s.seq.lastDue ∧
    (activate s).cal = s.cal ∧ (activate s).engine.phase = s.engine.phase ∧
    (activate s).engine.frameCounter = s.engine.frameCounter ∧ (activate s).engine.misses = s.engine.misses ∧
    (activate s).engine.retries = s.engine.retries ∧ (activate s).engine.retrying = s.engine.retrying ∧
    (activate s).engine.ask = s.engine.ask ∧ (activate s).pins = s.pins ∧ (activate s).meter = s.meter ∧
    (activate s).expo = s.expo ∧ (activate s).power = s.power ∧ (activate s).clock = s.clock ∧
    (activate s).log = s.log ∧ (activate s).notices = s.notices ∧ (activate s).settings = s.settings ∧
    (activate s).image = s.image ∧ (activate s).startUp = s.startUp ∧ (activate s).supply = s.supply ∧
    (activate s).nrstLow = s.nrstLow ∧ (activate s).pending = s.pending := by
  simp only [activate]; (repeat' split) <;> simp

@[simp] theorem fillCurrent_frame (n : Nat) (seg : Segment) (s : State) :
    (fillCurrent n seg s).link = s.link ∧ (fillCurrent n seg s).plan = s.plan ∧
    (fillCurrent n seg s).seq.run = s.seq.run ∧ (fillCurrent n seg s).cal = s.cal ∧
    (fillCurrent n seg s).engine = s.engine ∧ (fillCurrent n seg s).pins.heat = s.pins.heat ∧
    (fillCurrent n seg s).pins.camPwr = s.pins.camPwr ∧ (fillCurrent n seg s).pins.trig = s.pins.trig ∧
    (fillCurrent n seg s).pins.wake = s.pins.wake ∧ (fillCurrent n seg s).pins.gain = s.pins.gain ∧
    (fillCurrent n seg s).pins.busy = s.pins.busy ∧ (fillCurrent n seg s).pins.trip = s.pins.trip ∧
    (fillCurrent n seg s).meter = s.meter ∧ (fillCurrent n seg s).expo = s.expo ∧
    (fillCurrent n seg s).power = s.power ∧ (fillCurrent n seg s).clock = s.clock ∧
    (fillCurrent n seg s).log = s.log ∧ (fillCurrent n seg s).settings = s.settings ∧
    (fillCurrent n seg s).image = s.image ∧ (fillCurrent n seg s).startUp = s.startUp ∧
    (fillCurrent n seg s).supply = s.supply ∧ (fillCurrent n seg s).nrstLow = s.nrstLow ∧
    (fillCurrent n seg s).pending = s.pending := by
  simp only [fillCurrent]; (repeat' split) <;> simp

@[simp] theorem clearRun_frame (r : RunState) (s : State) :
    (clearRun r s).link = s.link ∧ (clearRun r s).plan = s.plan ∧ (clearRun r s).seq.shotIndex = s.seq.shotIndex ∧
    (clearRun r s).seq.lastDue = s.seq.lastDue ∧ (clearRun r s).cal = s.cal ∧
    (clearRun r s).engine.shot = s.engine.shot ∧ (clearRun r s).engine.frameCounter = s.engine.frameCounter ∧
    (clearRun r s).engine.misses = s.engine.misses ∧ (clearRun r s).engine.retries = s.engine.retries ∧
    (clearRun r s).pins.attn = s.pins.attn ∧ (clearRun r s).pins.heat = s.pins.heat ∧
    (clearRun r s).pins.trig = s.pins.trig ∧ (clearRun r s).pins.wake = s.pins.wake ∧
    (clearRun r s).pins.busy = s.pins.busy ∧ (clearRun r s).pins.trip = s.pins.trip ∧
    (clearRun r s).meter = s.meter ∧ (clearRun r s).expo = s.expo ∧ (clearRun r s).power = s.power ∧
    (clearRun r s).clock = s.clock ∧ (clearRun r s).log = s.log ∧ (clearRun r s).notices = s.notices ∧
    (clearRun r s).settings = s.settings ∧ (clearRun r s).image = s.image ∧ (clearRun r s).startUp = s.startUp ∧
    (clearRun r s).supply = s.supply ∧ (clearRun r s).nrstLow = s.nrstLow ∧ (clearRun r s).pending = s.pending := by simp [clearRun]

@[simp] theorem endRun_frame (s : State) :
    (endRun s).link = s.link ∧ (endRun s).plan = s.plan ∧ (endRun s).seq.shotIndex = s.seq.shotIndex ∧
    (endRun s).seq.lastDue = s.seq.lastDue ∧ (endRun s).cal = s.cal ∧ (endRun s).engine.shot = s.engine.shot ∧
    (endRun s).engine.frameCounter = s.engine.frameCounter ∧ (endRun s).engine.misses = s.engine.misses ∧
    (endRun s).engine.retries = s.engine.retries ∧ (endRun s).pins.heat = s.pins.heat ∧
    (endRun s).pins.trig = s.pins.trig ∧ (endRun s).pins.wake = s.pins.wake ∧ (endRun s).pins.busy = s.pins.busy ∧
    (endRun s).pins.trip = s.pins.trip ∧ (endRun s).meter = s.meter ∧ (endRun s).expo = s.expo ∧
    (endRun s).power = s.power ∧ (endRun s).clock = s.clock ∧ (endRun s).log = s.log ∧
    (endRun s).settings = s.settings ∧ (endRun s).image = s.image ∧ (endRun s).startUp = s.startUp ∧
    (endRun s).supply = s.supply ∧ (endRun s).nrstLow = s.nrstLow ∧ (endRun s).pending = s.pending := by
  simp only [endRun]; (repeat' split) <;> simp

@[simp] theorem beginSegment_frame (hold atCompletion : Bool) (s : State) :
    (beginSegment hold atCompletion s).link = s.link ∧ (beginSegment hold atCompletion s).plan = s.plan ∧
    (beginSegment hold atCompletion s).seq.run = s.seq.run ∧
    (beginSegment hold atCompletion s).seq.current = s.seq.current ∧
    (beginSegment hold atCompletion s).seq.armed = s.seq.armed ∧
    (beginSegment hold atCompletion s).seq.live = s.seq.live ∧
    (beginSegment hold atCompletion s).seq.shotIndex = s.seq.shotIndex ∧
    (beginSegment hold atCompletion s).seq.lastDue = s.seq.lastDue ∧ (beginSegment hold atCompletion s).cal = s.cal ∧
    (beginSegment hold atCompletion s).engine.phase = s.engine.phase ∧
    (beginSegment hold atCompletion s).engine.frameCounter = s.engine.frameCounter ∧
    (beginSegment hold atCompletion s).engine.misses = s.engine.misses ∧
    (beginSegment hold atCompletion s).engine.retries = s.engine.retries ∧
    (beginSegment hold atCompletion s).engine.retrying = s.engine.retrying ∧
    (beginSegment hold atCompletion s).engine.ask = s.engine.ask ∧ (beginSegment hold atCompletion s).pins = s.pins ∧
    (beginSegment hold atCompletion s).meter = s.meter ∧ (beginSegment hold atCompletion s).expo = s.expo ∧
    (beginSegment hold atCompletion s).power = s.power ∧ (beginSegment hold atCompletion s).clock = s.clock ∧
    (beginSegment hold atCompletion s).log = s.log ∧ (beginSegment hold atCompletion s).notices = s.notices ∧
    (beginSegment hold atCompletion s).settings = s.settings ∧ (beginSegment hold atCompletion s).image = s.image ∧
    (beginSegment hold atCompletion s).startUp = s.startUp ∧ (beginSegment hold atCompletion s).supply = s.supply ∧
    (beginSegment hold atCompletion s).nrstLow = s.nrstLow ∧ (beginSegment hold atCompletion s).pending = s.pending := by
  simp only [beginSegment]; (repeat' split) <;> simp

@[simp] theorem endSegment_frame (hold atC : Bool) (n : Nat) (s : State) :
    (endSegment hold atC n s).link = s.link ∧ (endSegment hold atC n s).plan = s.plan ∧
    (endSegment hold atC n s).cal = s.cal ∧ (endSegment hold atC n s).engine.frameCounter = s.engine.frameCounter ∧
    (endSegment hold atC n s).engine.misses = s.engine.misses ∧
    (endSegment hold atC n s).engine.retries = s.engine.retries ∧ (endSegment hold atC n s).pins.heat = s.pins.heat ∧
    (endSegment hold atC n s).pins.trig = s.pins.trig ∧ (endSegment hold atC n s).pins.wake = s.pins.wake ∧
    (endSegment hold atC n s).pins.busy = s.pins.busy ∧ (endSegment hold atC n s).pins.trip = s.pins.trip ∧
    (endSegment hold atC n s).meter = s.meter ∧ (endSegment hold atC n s).expo = s.expo ∧
    (endSegment hold atC n s).power = s.power ∧ (endSegment hold atC n s).clock = s.clock ∧
    (endSegment hold atC n s).log = s.log ∧ (endSegment hold atC n s).settings = s.settings ∧
    (endSegment hold atC n s).image = s.image ∧ (endSegment hold atC n s).startUp = s.startUp ∧
    (endSegment hold atC n s).supply = s.supply ∧ (endSegment hold atC n s).nrstLow = s.nrstLow ∧
    (endSegment hold atC n s).pending = s.pending := by
  induction n generalizing s with
  | zero => simp only [endSegment]; split <;> simp
  | succ n ih => simp only [endSegment]; split; · simp
                 · split <;> simp [ih]

@[simp] theorem makeCurrent_frame (n : Nat) (seg : Segment) (s : State) :
    (makeCurrent n seg s).link = s.link ∧ (makeCurrent n seg s).plan = s.plan ∧ (makeCurrent n seg s).cal = s.cal ∧
    (makeCurrent n seg s).engine.frameCounter = s.engine.frameCounter ∧
    (makeCurrent n seg s).engine.misses = s.engine.misses ∧ (makeCurrent n seg s).engine.retries = s.engine.retries ∧
    (makeCurrent n seg s).pins.heat = s.pins.heat ∧ (makeCurrent n seg s).pins.trig = s.pins.trig ∧
    (makeCurrent n seg s).pins.wake = s.pins.wake ∧ (makeCurrent n seg s).pins.busy = s.pins.busy ∧
    (makeCurrent n seg s).pins.trip = s.pins.trip ∧ (makeCurrent n seg s).meter = s.meter ∧
    (makeCurrent n seg s).expo = s.expo ∧ (makeCurrent n seg s).power = s.power ∧
    (makeCurrent n seg s).clock = s.clock ∧ (makeCurrent n seg s).log = s.log ∧
    (makeCurrent n seg s).settings = s.settings ∧ (makeCurrent n seg s).image = s.image ∧
    (makeCurrent n seg s).startUp = s.startUp ∧ (makeCurrent n seg s).supply = s.supply ∧
    (makeCurrent n seg s).nrstLow = s.nrstLow ∧ (makeCurrent n seg s).pending = s.pending := by
  simp only [makeCurrent]; (repeat' split) <;> simp

@[simp] theorem takeEnd_frame (s : State) :
    (takeEnd s).link = s.link ∧ (takeEnd s).plan = s.plan ∧ (takeEnd s).cal = s.cal ∧
    (takeEnd s).engine.frameCounter = s.engine.frameCounter ∧ (takeEnd s).engine.misses = s.engine.misses ∧
    (takeEnd s).engine.retries = s.engine.retries ∧ (takeEnd s).pins.trig = s.pins.trig ∧
    (takeEnd s).pins.busy = s.pins.busy ∧ (takeEnd s).pins.trip = s.pins.trip ∧
    (takeEnd s).meter.dark = s.meter.dark ∧ (takeEnd s).meter.tcal = s.meter.tcal ∧
    (takeEnd s).meter.outcome = s.meter.outcome ∧ (takeEnd s).meter.rangeStage = s.meter.rangeStage ∧
    (takeEnd s).power.level = s.power.level ∧ (takeEnd s).power.last = s.power.last ∧
    (takeEnd s).power.timer = s.power.timer ∧ (takeEnd s).power.heater = s.power.heater ∧ (takeEnd s).log = s.log ∧
    (takeEnd s).settings = s.settings ∧ (takeEnd s).image = s.image ∧ (takeEnd s).startUp = s.startUp ∧
    (takeEnd s).supply = s.supply ∧ (takeEnd s).nrstLow = s.nrstLow ∧ (takeEnd s).pending = s.pending := by
  simp only [takeEnd]; (repeat' split) <;> simp

@[simp] theorem startRun_frame (n : Nat) (seg : Segment) (s : State) :
    (startRun n seg s).link = s.link ∧ (startRun n seg s).plan = s.plan ∧ (startRun n seg s).cal = s.cal ∧
    (startRun n seg s).engine.frameCounter = s.engine.frameCounter ∧ (startRun n seg s).pins.trig = s.pins.trig ∧
    (startRun n seg s).pins.busy = s.pins.busy ∧ (startRun n seg s).pins.trip = s.pins.trip ∧
    (startRun n seg s).meter.dark = s.meter.dark ∧ (startRun n seg s).meter.tcal = s.meter.tcal ∧
    (startRun n seg s).meter.outcome = s.meter.outcome ∧ (startRun n seg s).meter.rangeStage = s.meter.rangeStage ∧
    (startRun n seg s).power.level = s.power.level ∧ (startRun n seg s).power.last = s.power.last ∧
    (startRun n seg s).power.timer = s.power.timer ∧ (startRun n seg s).power.heater = s.power.heater ∧
    (startRun n seg s).log = s.log ∧ (startRun n seg s).settings = s.settings ∧ (startRun n seg s).image = s.image ∧
    (startRun n seg s).startUp = s.startUp ∧ (startRun n seg s).supply = s.supply ∧
    (startRun n seg s).nrstLow = s.nrstLow ∧ (startRun n seg s).pending = s.pending := by simp [startRun]

@[simp] theorem gridNext_frame (seg : Segment) (d : Tick) (s : State) :
    (gridNext seg d s).link = s.link ∧ (gridNext seg d s).plan = s.plan ∧ (gridNext seg d s).seq.run = s.seq.run ∧
    (gridNext seg d s).seq.current = s.seq.current ∧ (gridNext seg d s).seq.armed = s.seq.armed ∧
    (gridNext seg d s).seq.live = s.seq.live ∧ (gridNext seg d s).seq.shotIndex = s.seq.shotIndex ∧
    (gridNext seg d s).seq.lastDue = s.seq.lastDue ∧ (gridNext seg d s).cal = s.cal ∧
    (gridNext seg d s).engine.phase = s.engine.phase ∧
    (gridNext seg d s).engine.frameCounter = s.engine.frameCounter ∧
    (gridNext seg d s).engine.misses = s.engine.misses ∧ (gridNext seg d s).engine.retries = s.engine.retries ∧
    (gridNext seg d s).engine.retrying = s.engine.retrying ∧ (gridNext seg d s).engine.ask = s.engine.ask ∧
    (gridNext seg d s).pins = s.pins ∧ (gridNext seg d s).meter = s.meter ∧ (gridNext seg d s).expo = s.expo ∧
    (gridNext seg d s).power = s.power ∧ (gridNext seg d s).clock = s.clock ∧ (gridNext seg d s).log = s.log ∧
    (gridNext seg d s).notices = s.notices ∧ (gridNext seg d s).settings = s.settings ∧
    (gridNext seg d s).image = s.image ∧ (gridNext seg d s).startUp = s.startUp ∧
    (gridNext seg d s).supply = s.supply ∧ (gridNext seg d s).nrstLow = s.nrstLow ∧
    (gridNext seg d s).pending = s.pending := by simp [gridNext]

@[simp] theorem nextAfterShot_frame (anchor : Bool) (d : Tick) (s : State) :
    (nextAfterShot anchor d s).link = s.link ∧ (nextAfterShot anchor d s).plan = s.plan ∧
    (nextAfterShot anchor d s).seq.run = s.seq.run ∧ (nextAfterShot anchor d s).seq.current = s.seq.current ∧
    (nextAfterShot anchor d s).seq.armed = s.seq.armed ∧ (nextAfterShot anchor d s).seq.live = s.seq.live ∧
    (nextAfterShot anchor d s).seq.shotIndex = s.seq.shotIndex ∧
    (nextAfterShot anchor d s).seq.lastDue = s.seq.lastDue ∧ (nextAfterShot anchor d s).cal = s.cal ∧
    (nextAfterShot anchor d s).engine.phase = s.engine.phase ∧
    (nextAfterShot anchor d s).engine.frameCounter = s.engine.frameCounter ∧
    (nextAfterShot anchor d s).engine.misses = s.engine.misses ∧
    (nextAfterShot anchor d s).engine.retries = s.engine.retries ∧
    (nextAfterShot anchor d s).engine.retrying = s.engine.retrying ∧
    (nextAfterShot anchor d s).engine.ask = s.engine.ask ∧ (nextAfterShot anchor d s).pins = s.pins ∧
    (nextAfterShot anchor d s).meter = s.meter ∧ (nextAfterShot anchor d s).expo = s.expo ∧
    (nextAfterShot anchor d s).power = s.power ∧ (nextAfterShot anchor d s).clock = s.clock ∧
    (nextAfterShot anchor d s).log = s.log ∧ (nextAfterShot anchor d s).notices = s.notices ∧
    (nextAfterShot anchor d s).settings = s.settings ∧ (nextAfterShot anchor d s).image = s.image ∧
    (nextAfterShot anchor d s).startUp = s.startUp ∧ (nextAfterShot anchor d s).supply = s.supply ∧
    (nextAfterShot anchor d s).nrstLow = s.nrstLow ∧ (nextAfterShot anchor d s).pending = s.pending := by
  simp only [nextAfterShot]; (repeat' split) <;> simp

@[simp] theorem reportCompletion_frame (retry fault : Bool) (s : State) :
    (reportCompletion retry fault s).link = s.link ∧ (reportCompletion retry fault s).plan = s.plan ∧
    (reportCompletion retry fault s).cal = s.cal ∧
    (reportCompletion retry fault s).engine.frameCounter = s.engine.frameCounter ∧
    (reportCompletion retry fault s).engine.misses = s.engine.misses ∧
    (reportCompletion retry fault s).engine.retries = s.engine.retries ∧
    (reportCompletion retry fault s).pins.heat = s.pins.heat ∧
    (reportCompletion retry fault s).pins.trig = s.pins.trig ∧
    (reportCompletion retry fault s).pins.wake = s.pins.wake ∧
    (reportCompletion retry fault s).pins.busy = s.pins.busy ∧
    (reportCompletion retry fault s).pins.trip = s.pins.trip ∧ (reportCompletion retry fault s).meter = s.meter ∧
    (reportCompletion retry fault s).expo = s.expo ∧ (reportCompletion retry fault s).power = s.power ∧
    (reportCompletion retry fault s).clock = s.clock ∧ (reportCompletion retry fault s).log = s.log ∧
    (reportCompletion retry fault s).settings = s.settings ∧ (reportCompletion retry fault s).image = s.image ∧
    (reportCompletion retry fault s).startUp = s.startUp ∧ (reportCompletion retry fault s).supply = s.supply ∧
    (reportCompletion retry fault s).nrstLow = s.nrstLow ∧ (reportCompletion retry fault s).pending = s.pending := by
  simp only [reportCompletion]; (repeat' split) <;> simp

@[simp] theorem retryEnded_frame (s : State) :
    (retryEnded s).link = s.link ∧ (retryEnded s).plan = s.plan ∧ (retryEnded s).seq.run = s.seq.run ∧
    (retryEnded s).seq.current = s.seq.current ∧ (retryEnded s).seq.armed = s.seq.armed ∧
    (retryEnded s).seq.live = s.seq.live ∧ (retryEnded s).seq.shotIndex = s.seq.shotIndex ∧
    (retryEnded s).seq.lastDue = s.seq.lastDue ∧ (retryEnded s).cal = s.cal ∧
    (retryEnded s).engine.phase = s.engine.phase ∧ (retryEnded s).engine.frameCounter = s.engine.frameCounter ∧
    (retryEnded s).engine.misses = s.engine.misses ∧ (retryEnded s).engine.retries = s.engine.retries ∧
    (retryEnded s).engine.ask = s.engine.ask ∧ (retryEnded s).pins = s.pins ∧ (retryEnded s).meter = s.meter ∧
    (retryEnded s).expo = s.expo ∧ (retryEnded s).power = s.power ∧ (retryEnded s).clock = s.clock ∧
    (retryEnded s).log = s.log ∧ (retryEnded s).notices = s.notices ∧ (retryEnded s).settings = s.settings ∧
    (retryEnded s).image = s.image ∧ (retryEnded s).startUp = s.startUp ∧ (retryEnded s).supply = s.supply ∧
    (retryEnded s).nrstLow = s.nrstLow ∧ (retryEnded s).pending = s.pending := by
  simp only [retryEnded]; (repeat' split) <;> simp

@[simp] theorem stretchChange_frame (s : State) :
    (stretchChange s).link = s.link ∧ (stretchChange s).plan = s.plan ∧ (stretchChange s).seq.run = s.seq.run ∧
    (stretchChange s).seq.current = s.seq.current ∧ (stretchChange s).seq.armed = s.seq.armed ∧
    (stretchChange s).seq.live = s.seq.live ∧ (stretchChange s).seq.shotIndex = s.seq.shotIndex ∧
    (stretchChange s).seq.lastDue = s.seq.lastDue ∧ (stretchChange s).cal = s.cal ∧
    (stretchChange s).engine.phase = s.engine.phase ∧ (stretchChange s).engine.frameCounter = s.engine.frameCounter ∧
    (stretchChange s).engine.misses = s.engine.misses ∧ (stretchChange s).engine.retries = s.engine.retries ∧
    (stretchChange s).engine.retrying = s.engine.retrying ∧ (stretchChange s).pins = s.pins ∧
    (stretchChange s).meter = s.meter ∧ (stretchChange s).expo = s.expo ∧ (stretchChange s).power = s.power ∧
    (stretchChange s).clock = s.clock ∧ (stretchChange s).log = s.log ∧ (stretchChange s).notices = s.notices ∧
    (stretchChange s).settings = s.settings ∧ (stretchChange s).image = s.image ∧
    (stretchChange s).startUp = s.startUp ∧ (stretchChange s).supply = s.supply ∧
    (stretchChange s).nrstLow = s.nrstLow ∧ (stretchChange s).pending = s.pending := by
  simp only [stretchChange]; (repeat' split) <;> simp

@[simp] theorem enterReserve_frame (s : State) :
    (enterReserve s).link = s.link ∧ (enterReserve s).plan = s.plan ∧ (enterReserve s).seq.current = s.seq.current ∧
    (enterReserve s).seq.armed = s.seq.armed ∧ (enterReserve s).seq.live = s.seq.live ∧
    (enterReserve s).seq.shotIndex = s.seq.shotIndex ∧ (enterReserve s).seq.lastDue = s.seq.lastDue ∧
    (enterReserve s).cal = s.cal ∧ (enterReserve s).engine.frameCounter = s.engine.frameCounter ∧
    (enterReserve s).engine.misses = s.engine.misses ∧ (enterReserve s).engine.retries = s.engine.retries ∧
    (enterReserve s).pins.attn = s.pins.attn ∧ (enterReserve s).pins.heat = s.pins.heat ∧
    (enterReserve s).pins.trig = s.pins.trig ∧ (enterReserve s).pins.busy = s.pins.busy ∧
    (enterReserve s).pins.trip = s.pins.trip ∧ (enterReserve s).meter.dark = s.meter.dark ∧
    (enterReserve s).meter.tcal = s.meter.tcal ∧ (enterReserve s).meter.outcome = s.meter.outcome ∧
    (enterReserve s).meter.rangeStage = s.meter.rangeStage ∧ (enterReserve s).power = s.power ∧
    (enterReserve s).log = s.log ∧ (enterReserve s).notices = s.notices ∧ (enterReserve s).settings = s.settings ∧
    (enterReserve s).image = s.image ∧ (enterReserve s).startUp = s.startUp ∧ (enterReserve s).supply = s.supply ∧
    (enterReserve s).nrstLow = s.nrstLow ∧ (enterReserve s).pending = s.pending := by
  simp only [enterReserve]; (repeat' split) <;> simp

@[simp] theorem leaveReserve_frame (s : State) :
    (leaveReserve s).link = s.link ∧ (leaveReserve s).plan = s.plan ∧ (leaveReserve s).seq.current = s.seq.current ∧
    (leaveReserve s).seq.armed = s.seq.armed ∧ (leaveReserve s).seq.live = s.seq.live ∧
    (leaveReserve s).seq.shotIndex = s.seq.shotIndex ∧ (leaveReserve s).seq.lastDue = s.seq.lastDue ∧
    (leaveReserve s).cal = s.cal ∧ (leaveReserve s).engine.phase = s.engine.phase ∧
    (leaveReserve s).engine.frameCounter = s.engine.frameCounter ∧ (leaveReserve s).engine.misses = s.engine.misses ∧
    (leaveReserve s).engine.retries = s.engine.retries ∧ (leaveReserve s).engine.retrying = s.engine.retrying ∧
    (leaveReserve s).engine.ask = s.engine.ask ∧ (leaveReserve s).pins = s.pins ∧ (leaveReserve s).meter = s.meter ∧
    (leaveReserve s).expo = s.expo ∧ (leaveReserve s).power = s.power ∧ (leaveReserve s).clock = s.clock ∧
    (leaveReserve s).log = s.log ∧ (leaveReserve s).notices = s.notices ∧ (leaveReserve s).settings = s.settings ∧
    (leaveReserve s).image = s.image ∧ (leaveReserve s).startUp = s.startUp ∧ (leaveReserve s).supply = s.supply ∧
    (leaveReserve s).nrstLow = s.nrstLow ∧ (leaveReserve s).pending = s.pending := by
  simp only [leaveReserve]; (repeat' split) <;> simp

@[simp] theorem seqLevelChange_frame (old new : Level) (s : State) :
    (seqLevelChange old new s).link = s.link ∧ (seqLevelChange old new s).plan = s.plan ∧
    (seqLevelChange old new s).seq.current = s.seq.current ∧ (seqLevelChange old new s).seq.armed = s.seq.armed ∧
    (seqLevelChange old new s).seq.live = s.seq.live ∧ (seqLevelChange old new s).seq.shotIndex = s.seq.shotIndex ∧
    (seqLevelChange old new s).seq.lastDue = s.seq.lastDue ∧ (seqLevelChange old new s).cal = s.cal ∧
    (seqLevelChange old new s).engine.frameCounter = s.engine.frameCounter ∧
    (seqLevelChange old new s).engine.misses = s.engine.misses ∧
    (seqLevelChange old new s).engine.retries = s.engine.retries ∧
    (seqLevelChange old new s).pins.attn = s.pins.attn ∧ (seqLevelChange old new s).pins.heat = s.pins.heat ∧
    (seqLevelChange old new s).pins.trig = s.pins.trig ∧ (seqLevelChange old new s).pins.busy = s.pins.busy ∧
    (seqLevelChange old new s).pins.trip = s.pins.trip ∧ (seqLevelChange old new s).meter.dark = s.meter.dark ∧
    (seqLevelChange old new s).meter.tcal = s.meter.tcal ∧
    (seqLevelChange old new s).meter.outcome = s.meter.outcome ∧
    (seqLevelChange old new s).meter.rangeStage = s.meter.rangeStage ∧ (seqLevelChange old new s).power = s.power ∧
    (seqLevelChange old new s).log = s.log ∧ (seqLevelChange old new s).notices = s.notices ∧
    (seqLevelChange old new s).settings = s.settings ∧ (seqLevelChange old new s).image = s.image ∧
    (seqLevelChange old new s).startUp = s.startUp ∧ (seqLevelChange old new s).supply = s.supply ∧
    (seqLevelChange old new s).nrstLow = s.nrstLow ∧ (seqLevelChange old new s).pending = s.pending := by
  simp only [seqLevelChange]; (repeat' split) <;> simp

@[simp] theorem stopRun_frame (s : State) :
    (stopRun s).link = s.link ∧ (stopRun s).plan = s.plan ∧ (stopRun s).seq.shotIndex = s.seq.shotIndex ∧
    (stopRun s).seq.lastDue = s.seq.lastDue ∧ (stopRun s).cal = s.cal ∧ (stopRun s).engine.misses = s.engine.misses ∧
    (stopRun s).engine.retries = s.engine.retries ∧ (stopRun s).pins.attn = s.pins.attn ∧
    (stopRun s).pins.heat = s.pins.heat ∧ (stopRun s).pins.busy = s.pins.busy ∧ (stopRun s).pins.trip = s.pins.trip ∧
    (stopRun s).meter.dark = s.meter.dark ∧ (stopRun s).meter.tcal = s.meter.tcal ∧
    (stopRun s).meter.outcome = s.meter.outcome ∧ (stopRun s).meter.rangeStage = s.meter.rangeStage ∧
    (stopRun s).power = s.power ∧ (stopRun s).notices = s.notices ∧ (stopRun s).settings = s.settings ∧
    (stopRun s).image = s.image ∧ (stopRun s).startUp = s.startUp ∧ (stopRun s).supply = s.supply ∧
    (stopRun s).nrstLow = s.nrstLow ∧ (stopRun s).pending = s.pending := by
  simp only [stopRun]; (repeat' split) <;> simp

@[simp] theorem pauseRun_frame (s : State) :
    (pauseRun s).link = s.link ∧ (pauseRun s).plan = s.plan ∧ (pauseRun s).seq.current = s.seq.current ∧
    (pauseRun s).seq.armed = s.seq.armed ∧ (pauseRun s).seq.live = s.seq.live ∧
    (pauseRun s).seq.shotIndex = s.seq.shotIndex ∧ (pauseRun s).seq.lastDue = s.seq.lastDue ∧
    (pauseRun s).cal = s.cal ∧ (pauseRun s).engine.frameCounter = s.engine.frameCounter ∧
    (pauseRun s).engine.misses = s.engine.misses ∧ (pauseRun s).engine.retries = s.engine.retries ∧
    (pauseRun s).pins.attn = s.pins.attn ∧ (pauseRun s).pins.trig = s.pins.trig ∧
    (pauseRun s).pins.busy = s.pins.busy ∧ (pauseRun s).pins.trip = s.pins.trip ∧
    (pauseRun s).meter.dark = s.meter.dark ∧ (pauseRun s).meter.tcal = s.meter.tcal ∧
    (pauseRun s).meter.outcome = s.meter.outcome ∧ (pauseRun s).meter.rangeStage = s.meter.rangeStage ∧
    (pauseRun s).power.level = s.power.level ∧ (pauseRun s).power.last = s.power.last ∧
    (pauseRun s).power.timer = s.power.timer ∧ (pauseRun s).power.heater = s.power.heater ∧
    (pauseRun s).log = s.log ∧ (pauseRun s).notices = s.notices ∧ (pauseRun s).settings = s.settings ∧
    (pauseRun s).image = s.image ∧ (pauseRun s).startUp = s.startUp ∧ (pauseRun s).supply = s.supply ∧
    (pauseRun s).nrstLow = s.nrstLow ∧ (pauseRun s).pending = s.pending := by
  simp only [pauseRun]; (repeat' split) <;> simp

@[simp] theorem countMiss_frame (miss : Bool) (s : State) :
    (countMiss miss s).link = s.link ∧ (countMiss miss s).plan = s.plan ∧ (countMiss miss s).seq = s.seq ∧
    (countMiss miss s).cal = s.cal ∧ (countMiss miss s).engine.phase = s.engine.phase ∧
    (countMiss miss s).engine.shot = s.engine.shot ∧ (countMiss miss s).engine.frameCounter = s.engine.frameCounter ∧
    (countMiss miss s).engine.retrying = s.engine.retrying ∧ (countMiss miss s).engine.ask = s.engine.ask ∧
    (countMiss miss s).pins = s.pins ∧ (countMiss miss s).meter = s.meter ∧ (countMiss miss s).expo = s.expo ∧
    (countMiss miss s).power = s.power ∧ (countMiss miss s).clock = s.clock ∧ (countMiss miss s).log = s.log ∧
    (countMiss miss s).notices = s.notices ∧ (countMiss miss s).settings = s.settings ∧
    (countMiss miss s).image = s.image ∧ (countMiss miss s).startUp = s.startUp ∧
    (countMiss miss s).supply = s.supply ∧ (countMiss miss s).nrstLow = s.nrstLow ∧
    (countMiss miss s).pending = s.pending := by
  simp only [countMiss]; (repeat' split) <;> simp

@[simp] theorem completeShot_frame (miss : Bool) (s : State) :
    (completeShot miss s).link = s.link ∧ (completeShot miss s).plan = s.plan ∧ (completeShot miss s).cal = s.cal ∧
    (completeShot miss s).pins.trig = s.pins.trig ∧ (completeShot miss s).pins.busy = s.pins.busy ∧
    (completeShot miss s).pins.trip = s.pins.trip ∧ (completeShot miss s).meter.dark = s.meter.dark ∧
    (completeShot miss s).meter.tcal = s.meter.tcal ∧ (completeShot miss s).meter.outcome = s.meter.outcome ∧
    (completeShot miss s).meter.rangeStage = s.meter.rangeStage ∧ (completeShot miss s).expo.eHeld = s.expo.eHeld ∧
    (completeShot miss s).expo.gHeld = s.expo.gHeld ∧ (completeShot miss s).power.level = s.power.level ∧
    (completeShot miss s).power.last = s.power.last ∧ (completeShot miss s).power.timer = s.power.timer ∧
    (completeShot miss s).power.heater = s.power.heater ∧ (completeShot miss s).settings = s.settings ∧
    (completeShot miss s).image = s.image ∧ (completeShot miss s).startUp = s.startUp ∧
    (completeShot miss s).supply = s.supply ∧ (completeShot miss s).nrstLow = s.nrstLow ∧
    (completeShot miss s).pending = s.pending := by
  simp only [completeShot]; (repeat' split) <;> simp

@[simp] theorem beginWriteFixed_frame (miss : Bool) (shot : Shot) (f : Flight) (s : State) :
    (beginWriteFixed miss shot f s).link = s.link ∧ (beginWriteFixed miss shot f s).plan = s.plan ∧
    (beginWriteFixed miss shot f s).cal = s.cal ∧ (beginWriteFixed miss shot f s).pins.trig = s.pins.trig ∧
    (beginWriteFixed miss shot f s).pins.busy = s.pins.busy ∧
    (beginWriteFixed miss shot f s).pins.trip = s.pins.trip ∧
    (beginWriteFixed miss shot f s).meter.dark = s.meter.dark ∧
    (beginWriteFixed miss shot f s).meter.tcal = s.meter.tcal ∧
    (beginWriteFixed miss shot f s).meter.outcome = s.meter.outcome ∧
    (beginWriteFixed miss shot f s).meter.rangeStage = s.meter.rangeStage ∧
    (beginWriteFixed miss shot f s).expo.eHeld = s.expo.eHeld ∧
    (beginWriteFixed miss shot f s).expo.gHeld = s.expo.gHeld ∧
    (beginWriteFixed miss shot f s).power.level = s.power.level ∧
    (beginWriteFixed miss shot f s).power.last = s.power.last ∧
    (beginWriteFixed miss shot f s).power.timer = s.power.timer ∧
    (beginWriteFixed miss shot f s).power.heater = s.power.heater ∧
    (beginWriteFixed miss shot f s).settings = s.settings ∧ (beginWriteFixed miss shot f s).image = s.image ∧
    (beginWriteFixed miss shot f s).startUp = s.startUp ∧ (beginWriteFixed miss shot f s).supply = s.supply ∧
    (beginWriteFixed miss shot f s).nrstLow = s.nrstLow ∧ (beginWriteFixed miss shot f s).pending = s.pending := by
  simp only [beginWriteFixed]; (repeat' split) <;> simp

@[simp] theorem settled_frame (s : State) :
    (settled s).link = s.link ∧ (settled s).plan = s.plan ∧ (settled s).seq.run = s.seq.run ∧
    (settled s).seq.current = s.seq.current ∧ (settled s).seq.armed = s.seq.armed ∧
    (settled s).seq.live = s.seq.live ∧ (settled s).seq.shotIndex = s.seq.shotIndex ∧
    (settled s).seq.lastDue = s.seq.lastDue ∧ (settled s).cal = s.cal ∧
    (settled s).engine.frameCounter = s.engine.frameCounter ∧ (settled s).engine.misses = s.engine.misses ∧
    (settled s).engine.retries = s.engine.retries ∧ (settled s).pins.attn = s.pins.attn ∧
    (settled s).pins.trig = s.pins.trig ∧ (settled s).pins.busy = s.pins.busy ∧ (settled s).pins.trip = s.pins.trip ∧
    (settled s).meter.dark = s.meter.dark ∧ (settled s).meter.tcal = s.meter.tcal ∧
    (settled s).meter.outcome = s.meter.outcome ∧ (settled s).meter.rangeStage = s.meter.rangeStage ∧
    (settled s).expo.eHeld = s.expo.eHeld ∧ (settled s).expo.gHeld = s.expo.gHeld ∧
    (settled s).power.level = s.power.level ∧ (settled s).power.last = s.power.last ∧
    (settled s).power.timer = s.power.timer ∧ (settled s).power.heater = s.power.heater ∧ (settled s).log = s.log ∧
    (settled s).notices = s.notices ∧ (settled s).settings = s.settings ∧ (settled s).image = s.image ∧
    (settled s).startUp = s.startUp ∧ (settled s).supply = s.supply ∧ (settled s).nrstLow = s.nrstLow ∧
    (settled s).pending = s.pending := by
  simp only [settled]; (repeat' split) <;> simp

@[simp] theorem railRise_frame (s : State) :
    (railRise s).link = s.link ∧ (railRise s).plan = s.plan ∧ (railRise s).seq.run = s.seq.run ∧
    (railRise s).seq.current = s.seq.current ∧ (railRise s).seq.armed = s.seq.armed ∧
    (railRise s).seq.live = s.seq.live ∧ (railRise s).seq.shotIndex = s.seq.shotIndex ∧
    (railRise s).seq.lastDue = s.seq.lastDue ∧ (railRise s).cal = s.cal ∧
    (railRise s).engine.frameCounter = s.engine.frameCounter ∧ (railRise s).engine.misses = s.engine.misses ∧
    (railRise s).engine.retries = s.engine.retries ∧ (railRise s).pins.attn = s.pins.attn ∧
    (railRise s).pins.busy = s.pins.busy ∧ (railRise s).pins.trip = s.pins.trip ∧
    (railRise s).meter.dark = s.meter.dark ∧ (railRise s).meter.tcal = s.meter.tcal ∧
    (railRise s).meter.outcome = s.meter.outcome ∧ (railRise s).meter.rangeStage = s.meter.rangeStage ∧
    (railRise s).power.level = s.power.level ∧ (railRise s).power.last = s.power.last ∧
    (railRise s).power.timer = s.power.timer ∧ (railRise s).power.heater = s.power.heater ∧
    (railRise s).log = s.log ∧ (railRise s).notices = s.notices ∧ (railRise s).settings = s.settings ∧
    (railRise s).image = s.image ∧ (railRise s).startUp = s.startUp ∧ (railRise s).supply = s.supply ∧
    (railRise s).nrstLow = s.nrstLow ∧ (railRise s).pending = s.pending := by
  simp only [railRise]; (repeat' split) <;> simp

@[simp] theorem releaseRail_frame (s : State) :
    (releaseRail s).link = s.link ∧ (releaseRail s).plan = s.plan ∧ (releaseRail s).seq.run = s.seq.run ∧
    (releaseRail s).seq.current = s.seq.current ∧ (releaseRail s).seq.armed = s.seq.armed ∧
    (releaseRail s).seq.live = s.seq.live ∧ (releaseRail s).seq.shotIndex = s.seq.shotIndex ∧
    (releaseRail s).seq.lastDue = s.seq.lastDue ∧ (releaseRail s).cal = s.cal ∧
    (releaseRail s).engine.frameCounter = s.engine.frameCounter ∧ (releaseRail s).engine.misses = s.engine.misses ∧
    (releaseRail s).pins.attn = s.pins.attn ∧ (releaseRail s).pins.busy = s.pins.busy ∧
    (releaseRail s).pins.trip = s.pins.trip ∧ (releaseRail s).meter.dark = s.meter.dark ∧
    (releaseRail s).meter.tcal = s.meter.tcal ∧ (releaseRail s).meter.outcome = s.meter.outcome ∧
    (releaseRail s).meter.rangeStage = s.meter.rangeStage ∧ (releaseRail s).power.level = s.power.level ∧
    (releaseRail s).power.last = s.power.last ∧ (releaseRail s).power.timer = s.power.timer ∧
    (releaseRail s).power.heater = s.power.heater ∧ (releaseRail s).log = s.log ∧
    (releaseRail s).notices = s.notices ∧ (releaseRail s).settings = s.settings ∧ (releaseRail s).image = s.image ∧
    (releaseRail s).startUp = s.startUp ∧ (releaseRail s).supply = s.supply ∧ (releaseRail s).nrstLow = s.nrstLow ∧
    (releaseRail s).pending = s.pending := by
  simp only [releaseRail]; (repeat' split) <;> simp

@[simp] theorem changeLevel_frame (new : Level) (s : State) :
    (changeLevel new s).link = s.link ∧ (changeLevel new s).plan = s.plan ∧
    (changeLevel new s).seq.current = s.seq.current ∧ (changeLevel new s).seq.armed = s.seq.armed ∧
    (changeLevel new s).seq.live = s.seq.live ∧ (changeLevel new s).seq.shotIndex = s.seq.shotIndex ∧
    (changeLevel new s).seq.lastDue = s.seq.lastDue ∧ (changeLevel new s).cal = s.cal ∧
    (changeLevel new s).engine.frameCounter = s.engine.frameCounter ∧
    (changeLevel new s).engine.misses = s.engine.misses ∧ (changeLevel new s).engine.retries = s.engine.retries ∧
    (changeLevel new s).pins.trig = s.pins.trig ∧ (changeLevel new s).pins.busy = s.pins.busy ∧
    (changeLevel new s).pins.trip = s.pins.trip ∧ (changeLevel new s).meter.dark = s.meter.dark ∧
    (changeLevel new s).meter.tcal = s.meter.tcal ∧ (changeLevel new s).meter.outcome = s.meter.outcome ∧
    (changeLevel new s).meter.rangeStage = s.meter.rangeStage ∧ (changeLevel new s).power.last = s.power.last ∧
    (changeLevel new s).power.timer = s.power.timer ∧ (changeLevel new s).log = s.log ∧
    (changeLevel new s).settings = s.settings ∧ (changeLevel new s).image = s.image ∧
    (changeLevel new s).startUp = s.startUp ∧ (changeLevel new s).supply = s.supply ∧
    (changeLevel new s).nrstLow = s.nrstLow ∧ (changeLevel new s).pending = s.pending := by
  simp only [changeLevel]; (repeat' split) <;> simp

@[simp] theorem driftTest_frame (temp : Int) (s : State) :
    (driftTest temp s).link = s.link ∧ (driftTest temp s).plan = s.plan ∧ (driftTest temp s).seq = s.seq ∧
    (driftTest temp s).cal = s.cal ∧ (driftTest temp s).engine = s.engine ∧ (driftTest temp s).pins = s.pins ∧
    (driftTest temp s).meter.dark = s.meter.dark ∧ (driftTest temp s).meter.tcal = s.meter.tcal ∧
    (driftTest temp s).meter.oneOff = s.meter.oneOff ∧ (driftTest temp s).meter.outcome = s.meter.outcome ∧
    (driftTest temp s).meter.rangeStage = s.meter.rangeStage ∧ (driftTest temp s).expo = s.expo ∧
    (driftTest temp s).power = s.power ∧ (driftTest temp s).log = s.log ∧ (driftTest temp s).notices = s.notices ∧
    (driftTest temp s).settings = s.settings ∧ (driftTest temp s).image = s.image ∧
    (driftTest temp s).startUp = s.startUp ∧ (driftTest temp s).supply = s.supply ∧
    (driftTest temp s).nrstLow = s.nrstLow ∧ (driftTest temp s).pending = s.pending := by
  simp only [driftTest]; (repeat' split) <;> simp

@[simp] theorem seriesStep_frame (f : Found) (old : Level) (s : State) :
    (seriesStep f old s).link = s.link ∧ (seriesStep f old s).plan = s.plan ∧ (seriesStep f old s).seq = s.seq ∧
    (seriesStep f old s).cal = s.cal ∧ (seriesStep f old s).engine = s.engine ∧
    (seriesStep f old s).pins.attn = s.pins.attn ∧ (seriesStep f old s).pins.camPwr = s.pins.camPwr ∧
    (seriesStep f old s).pins.trig = s.pins.trig ∧ (seriesStep f old s).pins.wake = s.pins.wake ∧
    (seriesStep f old s).pins.gain = s.pins.gain ∧ (seriesStep f old s).pins.busy = s.pins.busy ∧
    (seriesStep f old s).pins.trip = s.pins.trip ∧ (seriesStep f old s).meter.dark = s.meter.dark ∧
    (seriesStep f old s).meter.tcal = s.meter.tcal ∧ (seriesStep f old s).meter.oneOff = s.meter.oneOff ∧
    (seriesStep f old s).meter.outcome = s.meter.outcome ∧ (seriesStep f old s).meter.rangeStage = s.meter.rangeStage ∧
    (seriesStep f old s).expo = s.expo ∧ (seriesStep f old s).power.level = s.power.level ∧
    (seriesStep f old s).power.last = s.power.last ∧ (seriesStep f old s).log = s.log ∧
    (seriesStep f old s).notices = s.notices ∧ (seriesStep f old s).settings = s.settings ∧
    (seriesStep f old s).image = s.image ∧ (seriesStep f old s).supply = s.supply ∧
    (seriesStep f old s).nrstLow = s.nrstLow ∧ (seriesStep f old s).pending = s.pending := by
  simp only [seriesStep]; (repeat' split) <;> simp

@[simp] theorem afterMeasurement_frame (m : Measuring) (temp : Int) (s : State) :
    (afterMeasurement m temp s).link = s.link ∧ (afterMeasurement m temp s).plan = s.plan ∧
    (afterMeasurement m temp s).seq.run = s.seq.run ∧ (afterMeasurement m temp s).seq.current = s.seq.current ∧
    (afterMeasurement m temp s).seq.armed = s.seq.armed ∧ (afterMeasurement m temp s).seq.live = s.seq.live ∧
    (afterMeasurement m temp s).seq.shotIndex = s.seq.shotIndex ∧
    (afterMeasurement m temp s).seq.lastDue = s.seq.lastDue ∧ (afterMeasurement m temp s).cal = s.cal ∧
    (afterMeasurement m temp s).engine.frameCounter = s.engine.frameCounter ∧
    (afterMeasurement m temp s).engine.misses = s.engine.misses ∧
    (afterMeasurement m temp s).pins.attn = s.pins.attn ∧ (afterMeasurement m temp s).pins.busy = s.pins.busy ∧
    (afterMeasurement m temp s).pins.trip = s.pins.trip ∧ (afterMeasurement m temp s).meter.dark = s.meter.dark ∧
    (afterMeasurement m temp s).meter.tcal = s.meter.tcal ∧
    (afterMeasurement m temp s).meter.outcome = s.meter.outcome ∧
    (afterMeasurement m temp s).meter.rangeStage = s.meter.rangeStage ∧
    (afterMeasurement m temp s).power.level = s.power.level ∧ (afterMeasurement m temp s).power.last = s.power.last ∧
    (afterMeasurement m temp s).power.timer = s.power.timer ∧
    (afterMeasurement m temp s).power.heater = s.power.heater ∧ (afterMeasurement m temp s).log = s.log ∧
    (afterMeasurement m temp s).notices = s.notices ∧ (afterMeasurement m temp s).settings = s.settings ∧
    (afterMeasurement m temp s).image = s.image ∧ (afterMeasurement m temp s).startUp = s.startUp ∧
    (afterMeasurement m temp s).supply = s.supply ∧ (afterMeasurement m temp s).nrstLow = s.nrstLow ∧
    (afterMeasurement m temp s).pending = s.pending := by
  simp only [afterMeasurement]; (repeat' split) <;> simp

@[simp] theorem endMeasurement_frame (m : Measuring) (volts : Nat) (temp : Int) (s : State) :
    (endMeasurement m volts temp s).link = s.link ∧ (endMeasurement m volts temp s).plan = s.plan ∧
    (endMeasurement m volts temp s).seq.current = s.seq.current ∧
    (endMeasurement m volts temp s).seq.armed = s.seq.armed ∧ (endMeasurement m volts temp s).seq.live = s.seq.live ∧
    (endMeasurement m volts temp s).seq.shotIndex = s.seq.shotIndex ∧
    (endMeasurement m volts temp s).seq.lastDue = s.seq.lastDue ∧ (endMeasurement m volts temp s).cal = s.cal ∧
    (endMeasurement m volts temp s).engine.frameCounter = s.engine.frameCounter ∧
    (endMeasurement m volts temp s).engine.misses = s.engine.misses ∧
    (endMeasurement m volts temp s).pins.busy = s.pins.busy ∧
    (endMeasurement m volts temp s).pins.trip = s.pins.trip ∧
    (endMeasurement m volts temp s).meter.dark = s.meter.dark ∧
    (endMeasurement m volts temp s).meter.tcal = s.meter.tcal ∧
    (endMeasurement m volts temp s).meter.outcome = s.meter.outcome ∧
    (endMeasurement m volts temp s).meter.rangeStage = s.meter.rangeStage ∧
    (endMeasurement m volts temp s).log = s.log ∧ (endMeasurement m volts temp s).settings = s.settings ∧
    (endMeasurement m volts temp s).image = s.image ∧ (endMeasurement m volts temp s).supply = s.supply ∧
    (endMeasurement m volts temp s).nrstLow = s.nrstLow ∧ (endMeasurement m volts temp s).pending = s.pending := by
  simp only [endMeasurement]; (repeat' split) <;> simp

@[simp] theorem loadFinal_frame (args : List Token) (s : State) :
    (loadFinal args s).1.link = s.link ∧ (loadFinal args s).1.seq = s.seq ∧ (loadFinal args s).1.cal = s.cal ∧
    (loadFinal args s).1.engine = s.engine ∧ (loadFinal args s).1.pins = s.pins ∧
    (loadFinal args s).1.meter = s.meter ∧ (loadFinal args s).1.expo = s.expo ∧
    (loadFinal args s).1.power = s.power ∧ (loadFinal args s).1.clock = s.clock ∧ (loadFinal args s).1.log = s.log ∧
    (loadFinal args s).1.notices = s.notices ∧ (loadFinal args s).1.settings = s.settings ∧
    (loadFinal args s).1.image = s.image ∧ (loadFinal args s).1.startUp = s.startUp ∧
    (loadFinal args s).1.supply = s.supply ∧ (loadFinal args s).1.nrstLow = s.nrstLow ∧
    (loadFinal args s).1.pending = s.pending := by
  simp only [loadFinal]; (repeat' split) <;> simp

@[simp] theorem loadPartial_frame (args : List Token) (s : State) :
    (loadPartial args s).1.link = s.link ∧ (loadPartial args s).1.plan.slots = s.plan.slots ∧
    (loadPartial args s).1.seq = s.seq ∧ (loadPartial args s).1.cal = s.cal ∧
    (loadPartial args s).1.engine = s.engine ∧ (loadPartial args s).1.pins = s.pins ∧
    (loadPartial args s).1.meter = s.meter ∧ (loadPartial args s).1.expo = s.expo ∧
    (loadPartial args s).1.power = s.power ∧ (loadPartial args s).1.clock = s.clock ∧
    (loadPartial args s).1.log = s.log ∧ (loadPartial args s).1.notices = s.notices ∧
    (loadPartial args s).1.settings = s.settings ∧ (loadPartial args s).1.image = s.image ∧
    (loadPartial args s).1.startUp = s.startUp ∧ (loadPartial args s).1.supply = s.supply ∧
    (loadPartial args s).1.nrstLow = s.nrstLow ∧ (loadPartial args s).1.pending = s.pending := by
  simp only [loadPartial]; (repeat' split) <;> simp

@[simp] theorem ownLoad_frame (args : List Token) (s : State) :
    (ownLoad args s).1.link = s.link ∧ (ownLoad args s).1.seq = s.seq ∧ (ownLoad args s).1.cal = s.cal ∧
    (ownLoad args s).1.engine = s.engine ∧ (ownLoad args s).1.pins = s.pins ∧ (ownLoad args s).1.meter = s.meter ∧
    (ownLoad args s).1.expo = s.expo ∧ (ownLoad args s).1.power = s.power ∧ (ownLoad args s).1.clock = s.clock ∧
    (ownLoad args s).1.log = s.log ∧ (ownLoad args s).1.notices = s.notices ∧
    (ownLoad args s).1.settings = s.settings ∧ (ownLoad args s).1.image = s.image ∧
    (ownLoad args s).1.startUp = s.startUp ∧ (ownLoad args s).1.supply = s.supply ∧
    (ownLoad args s).1.nrstLow = s.nrstLow ∧ (ownLoad args s).1.pending = s.pending := by
  simp only [ownLoad]; (repeat' split) <;> simp

@[simp] theorem ownShow_frame (args : List Token) (s : State) :
    (ownShow args s).1.link = s.link ∧ (ownShow args s).1.plan = s.plan ∧ (ownShow args s).1.seq = s.seq ∧
    (ownShow args s).1.cal = s.cal ∧ (ownShow args s).1.engine = s.engine ∧ (ownShow args s).1.pins = s.pins ∧
    (ownShow args s).1.meter = s.meter ∧ (ownShow args s).1.expo = s.expo ∧ (ownShow args s).1.power = s.power ∧
    (ownShow args s).1.clock = s.clock ∧ (ownShow args s).1.log = s.log ∧ (ownShow args s).1.notices = s.notices ∧
    (ownShow args s).1.settings = s.settings ∧ (ownShow args s).1.image = s.image ∧
    (ownShow args s).1.startUp = s.startUp ∧ (ownShow args s).1.supply = s.supply ∧
    (ownShow args s).1.nrstLow = s.nrstLow ∧ (ownShow args s).1.pending = s.pending := by
  simp only [ownShow]; (repeat' split) <;> simp

@[simp] theorem ownClear_frame (args : List Token) (s : State) :
    (ownClear args s).1.link = s.link ∧ (ownClear args s).1.seq = s.seq ∧ (ownClear args s).1.cal = s.cal ∧
    (ownClear args s).1.engine = s.engine ∧ (ownClear args s).1.pins = s.pins ∧ (ownClear args s).1.meter = s.meter ∧
    (ownClear args s).1.expo = s.expo ∧ (ownClear args s).1.power = s.power ∧ (ownClear args s).1.clock = s.clock ∧
    (ownClear args s).1.log = s.log ∧ (ownClear args s).1.notices = s.notices ∧
    (ownClear args s).1.settings = s.settings ∧ (ownClear args s).1.image = s.image ∧
    (ownClear args s).1.startUp = s.startUp ∧ (ownClear args s).1.supply = s.supply ∧
    (ownClear args s).1.nrstLow = s.nrstLow ∧ (ownClear args s).1.pending = s.pending := by
  simp only [ownClear]; (repeat' split) <;> simp

@[simp] theorem ownAdjust_frame (args : List Token) (s : State) :
    (ownAdjust args s).1.link = s.link ∧ (ownAdjust args s).1.plan = s.plan ∧
    (ownAdjust args s).1.seq.run = s.seq.run ∧ (ownAdjust args s).1.seq.current = s.seq.current ∧
    (ownAdjust args s).1.seq.armed = s.seq.armed ∧ (ownAdjust args s).1.seq.stage = s.seq.stage ∧
    (ownAdjust args s).1.seq.shotIndex = s.seq.shotIndex ∧ (ownAdjust args s).1.seq.lastDue = s.seq.lastDue ∧
    (ownAdjust args s).1.cal = s.cal ∧ (ownAdjust args s).1.engine = s.engine ∧ (ownAdjust args s).1.pins = s.pins ∧
    (ownAdjust args s).1.meter = s.meter ∧ (ownAdjust args s).1.expo = s.expo ∧
    (ownAdjust args s).1.power = s.power ∧ (ownAdjust args s).1.clock = s.clock ∧ (ownAdjust args s).1.log = s.log ∧
    (ownAdjust args s).1.notices = s.notices ∧ (ownAdjust args s).1.settings = s.settings ∧
    (ownAdjust args s).1.image = s.image ∧ (ownAdjust args s).1.startUp = s.startUp ∧
    (ownAdjust args s).1.supply = s.supply ∧ (ownAdjust args s).1.nrstLow = s.nrstLow ∧
    (ownAdjust args s).1.pending = s.pending := by
  simp only [ownAdjust]; (repeat' split) <;> simp

@[simp] theorem ownStart_frame (args : List Token) (s : State) :
    (ownStart args s).1.link = s.link ∧ (ownStart args s).1.plan = s.plan ∧ (ownStart args s).1.cal = s.cal ∧
    (ownStart args s).1.engine.frameCounter = s.engine.frameCounter ∧ (ownStart args s).1.pins.trig = s.pins.trig ∧
    (ownStart args s).1.pins.busy = s.pins.busy ∧ (ownStart args s).1.pins.trip = s.pins.trip ∧
    (ownStart args s).1.meter.dark = s.meter.dark ∧ (ownStart args s).1.meter.tcal = s.meter.tcal ∧
    (ownStart args s).1.meter.outcome = s.meter.outcome ∧ (ownStart args s).1.meter.rangeStage = s.meter.rangeStage ∧
    (ownStart args s).1.power.level = s.power.level ∧ (ownStart args s).1.power.last = s.power.last ∧
    (ownStart args s).1.power.timer = s.power.timer ∧ (ownStart args s).1.power.heater = s.power.heater ∧
    (ownStart args s).1.log = s.log ∧ (ownStart args s).1.settings = s.settings ∧
    (ownStart args s).1.image = s.image ∧ (ownStart args s).1.startUp = s.startUp ∧
    (ownStart args s).1.supply = s.supply ∧ (ownStart args s).1.nrstLow = s.nrstLow ∧
    (ownStart args s).1.pending = s.pending := by
  simp only [ownStart]; (repeat' split) <;> simp

@[simp] theorem ownStop_frame (args : List Token) (s : State) :
    (ownStop args s).1.link = s.link ∧ (ownStop args s).1.plan = s.plan ∧
    (ownStop args s).1.seq.shotIndex = s.seq.shotIndex ∧ (ownStop args s).1.seq.lastDue = s.seq.lastDue ∧
    (ownStop args s).1.cal = s.cal ∧ (ownStop args s).1.engine.misses = s.engine.misses ∧
    (ownStop args s).1.engine.retries = s.engine.retries ∧ (ownStop args s).1.pins.attn = s.pins.attn ∧
    (ownStop args s).1.pins.heat = s.pins.heat ∧ (ownStop args s).1.pins.busy = s.pins.busy ∧
    (ownStop args s).1.pins.trip = s.pins.trip ∧ (ownStop args s).1.meter.dark = s.meter.dark ∧
    (ownStop args s).1.meter.tcal = s.meter.tcal ∧ (ownStop args s).1.meter.outcome = s.meter.outcome ∧
    (ownStop args s).1.meter.rangeStage = s.meter.rangeStage ∧ (ownStop args s).1.power = s.power ∧
    (ownStop args s).1.notices = s.notices ∧ (ownStop args s).1.settings = s.settings ∧
    (ownStop args s).1.image = s.image ∧ (ownStop args s).1.startUp = s.startUp ∧
    (ownStop args s).1.supply = s.supply ∧ (ownStop args s).1.nrstLow = s.nrstLow ∧
    (ownStop args s).1.pending = s.pending := by
  simp only [ownStop]; (repeat' split) <;> simp

@[simp] theorem ownPause_frame (args : List Token) (s : State) :
    (ownPause args s).1.link = s.link ∧ (ownPause args s).1.plan = s.plan ∧
    (ownPause args s).1.seq.current = s.seq.current ∧ (ownPause args s).1.seq.armed = s.seq.armed ∧
    (ownPause args s).1.seq.live = s.seq.live ∧ (ownPause args s).1.seq.shotIndex = s.seq.shotIndex ∧
    (ownPause args s).1.seq.lastDue = s.seq.lastDue ∧ (ownPause args s).1.cal = s.cal ∧
    (ownPause args s).1.engine.frameCounter = s.engine.frameCounter ∧
    (ownPause args s).1.engine.misses = s.engine.misses ∧ (ownPause args s).1.engine.retries = s.engine.retries ∧
    (ownPause args s).1.pins.attn = s.pins.attn ∧ (ownPause args s).1.pins.trig = s.pins.trig ∧
    (ownPause args s).1.pins.busy = s.pins.busy ∧ (ownPause args s).1.pins.trip = s.pins.trip ∧
    (ownPause args s).1.meter.dark = s.meter.dark ∧ (ownPause args s).1.meter.tcal = s.meter.tcal ∧
    (ownPause args s).1.meter.outcome = s.meter.outcome ∧ (ownPause args s).1.meter.rangeStage = s.meter.rangeStage ∧
    (ownPause args s).1.power.level = s.power.level ∧ (ownPause args s).1.power.last = s.power.last ∧
    (ownPause args s).1.power.timer = s.power.timer ∧ (ownPause args s).1.power.heater = s.power.heater ∧
    (ownPause args s).1.log = s.log ∧ (ownPause args s).1.notices = s.notices ∧
    (ownPause args s).1.settings = s.settings ∧ (ownPause args s).1.image = s.image ∧
    (ownPause args s).1.startUp = s.startUp ∧ (ownPause args s).1.supply = s.supply ∧
    (ownPause args s).1.nrstLow = s.nrstLow ∧ (ownPause args s).1.pending = s.pending := by
  simp only [ownPause]; (repeat' split) <;> simp

@[simp] theorem ownResume_frame (args : List Token) (s : State) :
    (ownResume args s).1.link = s.link ∧ (ownResume args s).1.plan = s.plan ∧
    (ownResume args s).1.seq.current = s.seq.current ∧ (ownResume args s).1.seq.armed = s.seq.armed ∧
    (ownResume args s).1.seq.live = s.seq.live ∧ (ownResume args s).1.seq.shotIndex = s.seq.shotIndex ∧
    (ownResume args s).1.seq.lastDue = s.seq.lastDue ∧ (ownResume args s).1.cal = s.cal ∧
    (ownResume args s).1.engine.frameCounter = s.engine.frameCounter ∧
    (ownResume args s).1.engine.retrying = s.engine.retrying ∧ (ownResume args s).1.pins.attn = s.pins.attn ∧
    (ownResume args s).1.pins.trig = s.pins.trig ∧ (ownResume args s).1.pins.busy = s.pins.busy ∧
    (ownResume args s).1.pins.trip = s.pins.trip ∧ (ownResume args s).1.meter.dark = s.meter.dark ∧
    (ownResume args s).1.meter.tcal = s.meter.tcal ∧ (ownResume args s).1.meter.outcome = s.meter.outcome ∧
    (ownResume args s).1.meter.rangeStage = s.meter.rangeStage ∧ (ownResume args s).1.expo.eHeld = s.expo.eHeld ∧
    (ownResume args s).1.expo.gHeld = s.expo.gHeld ∧ (ownResume args s).1.power.level = s.power.level ∧
    (ownResume args s).1.power.last = s.power.last ∧ (ownResume args s).1.power.timer = s.power.timer ∧
    (ownResume args s).1.power.heater = s.power.heater ∧ (ownResume args s).1.log = s.log ∧
    (ownResume args s).1.notices = s.notices ∧ (ownResume args s).1.settings = s.settings ∧
    (ownResume args s).1.image = s.image ∧ (ownResume args s).1.startUp = s.startUp ∧
    (ownResume args s).1.supply = s.supply ∧ (ownResume args s).1.nrstLow = s.nrstLow ∧
    (ownResume args s).1.pending = s.pending := by
  simp only [ownResume]; (repeat' split) <;> simp

@[simp] theorem ownNext_frame (args : List Token) (s : State) :
    (ownNext args s).1.link = s.link ∧ (ownNext args s).1.plan = s.plan ∧ (ownNext args s).1.cal = s.cal ∧
    (ownNext args s).1.engine.frameCounter = s.engine.frameCounter ∧
    (ownNext args s).1.engine.misses = s.engine.misses ∧ (ownNext args s).1.engine.retries = s.engine.retries ∧
    (ownNext args s).1.pins.trig = s.pins.trig ∧ (ownNext args s).1.pins.busy = s.pins.busy ∧
    (ownNext args s).1.pins.trip = s.pins.trip ∧ (ownNext args s).1.meter.dark = s.meter.dark ∧
    (ownNext args s).1.meter.tcal = s.meter.tcal ∧ (ownNext args s).1.meter.outcome = s.meter.outcome ∧
    (ownNext args s).1.meter.rangeStage = s.meter.rangeStage ∧ (ownNext args s).1.power.level = s.power.level ∧
    (ownNext args s).1.power.last = s.power.last ∧ (ownNext args s).1.power.timer = s.power.timer ∧
    (ownNext args s).1.power.heater = s.power.heater ∧ (ownNext args s).1.log = s.log ∧
    (ownNext args s).1.settings = s.settings ∧ (ownNext args s).1.image = s.image ∧
    (ownNext args s).1.startUp = s.startUp ∧ (ownNext args s).1.supply = s.supply ∧
    (ownNext args s).1.nrstLow = s.nrstLow ∧ (ownNext args s).1.pending = s.pending := by
  simp only [ownNext]; (repeat' split) <;> simp

@[simp] theorem ownQueue_frame (args : List Token) (s : State) :
    (ownQueue args s).1.link = s.link ∧ (ownQueue args s).1.plan = s.plan ∧ (ownQueue args s).1.cal = s.cal ∧
    (ownQueue args s).1.engine.frameCounter = s.engine.frameCounter ∧
    (ownQueue args s).1.engine.misses = s.engine.misses ∧ (ownQueue args s).1.engine.retries = s.engine.retries ∧
    (ownQueue args s).1.pins.trig = s.pins.trig ∧ (ownQueue args s).1.pins.busy = s.pins.busy ∧
    (ownQueue args s).1.pins.trip = s.pins.trip ∧ (ownQueue args s).1.meter.dark = s.meter.dark ∧
    (ownQueue args s).1.meter.tcal = s.meter.tcal ∧ (ownQueue args s).1.meter.outcome = s.meter.outcome ∧
    (ownQueue args s).1.meter.rangeStage = s.meter.rangeStage ∧ (ownQueue args s).1.expo.eHeld = s.expo.eHeld ∧
    (ownQueue args s).1.expo.gHeld = s.expo.gHeld ∧ (ownQueue args s).1.power.level = s.power.level ∧
    (ownQueue args s).1.power.last = s.power.last ∧ (ownQueue args s).1.power.timer = s.power.timer ∧
    (ownQueue args s).1.power.heater = s.power.heater ∧ (ownQueue args s).1.log = s.log ∧
    (ownQueue args s).1.settings = s.settings ∧ (ownQueue args s).1.image = s.image ∧
    (ownQueue args s).1.startUp = s.startUp ∧ (ownQueue args s).1.supply = s.supply ∧
    (ownQueue args s).1.nrstLow = s.nrstLow ∧ (ownQueue args s).1.pending = s.pending := by
  simp only [ownQueue]; (repeat' split) <;> simp

@[simp] theorem retime_frame (s : State) :
    (retime s).link = s.link ∧ (retime s).plan = s.plan ∧ (retime s).cal = s.cal ∧
    (retime s).engine.frameCounter = s.engine.frameCounter ∧ (retime s).engine.misses = s.engine.misses ∧
    (retime s).engine.retries = s.engine.retries ∧ (retime s).pins.trig = s.pins.trig ∧
    (retime s).pins.busy = s.pins.busy ∧ (retime s).pins.trip = s.pins.trip ∧ (retime s).meter.dark = s.meter.dark ∧
    (retime s).meter.tcal = s.meter.tcal ∧ (retime s).meter.outcome = s.meter.outcome ∧
    (retime s).meter.rangeStage = s.meter.rangeStage ∧ (retime s).power.level = s.power.level ∧
    (retime s).power.last = s.power.last ∧ (retime s).power.timer = s.power.timer ∧
    (retime s).power.heater = s.power.heater ∧ (retime s).log = s.log ∧ (retime s).settings = s.settings ∧
    (retime s).image = s.image ∧ (retime s).startUp = s.startUp ∧ (retime s).supply = s.supply ∧
    (retime s).nrstLow = s.nrstLow ∧ (retime s).pending = s.pending := by
  simp only [retime]; (repeat' split) <;> simp

@[simp] theorem setTime_frame (sec frac : Nat) (s : State) :
    (setTime sec frac s).link = s.link ∧ (setTime sec frac s).plan = s.plan ∧
    (setTime sec frac s).engine.frameCounter = s.engine.frameCounter ∧
    (setTime sec frac s).engine.misses = s.engine.misses ∧ (setTime sec frac s).engine.retries = s.engine.retries ∧
    (setTime sec frac s).pins.trig = s.pins.trig ∧ (setTime sec frac s).pins.busy = s.pins.busy ∧
    (setTime sec frac s).pins.trip = s.pins.trip ∧ (setTime sec frac s).meter.dark = s.meter.dark ∧
    (setTime sec frac s).meter.tcal = s.meter.tcal ∧ (setTime sec frac s).meter.outcome = s.meter.outcome ∧
    (setTime sec frac s).meter.rangeStage = s.meter.rangeStage ∧ (setTime sec frac s).power.level = s.power.level ∧
    (setTime sec frac s).power.last = s.power.last ∧ (setTime sec frac s).power.timer = s.power.timer ∧
    (setTime sec frac s).power.heater = s.power.heater ∧ (setTime sec frac s).log = s.log ∧
    (setTime sec frac s).settings = s.settings ∧ (setTime sec frac s).image = s.image ∧
    (setTime sec frac s).startUp = s.startUp ∧ (setTime sec frac s).supply = s.supply ∧
    (setTime sec frac s).nrstLow = s.nrstLow ∧ (setTime sec frac s).pending = s.pending := by simp [setTime]

@[simp] theorem ownTime_frame (args : List Token) (s : State) :
    (ownTime args s).1.link = s.link ∧ (ownTime args s).1.plan = s.plan ∧
    (ownTime args s).1.engine.frameCounter = s.engine.frameCounter ∧
    (ownTime args s).1.engine.misses = s.engine.misses ∧ (ownTime args s).1.engine.retries = s.engine.retries ∧
    (ownTime args s).1.pins.trig = s.pins.trig ∧ (ownTime args s).1.pins.busy = s.pins.busy ∧
    (ownTime args s).1.pins.trip = s.pins.trip ∧ (ownTime args s).1.meter.dark = s.meter.dark ∧
    (ownTime args s).1.meter.tcal = s.meter.tcal ∧ (ownTime args s).1.meter.outcome = s.meter.outcome ∧
    (ownTime args s).1.meter.rangeStage = s.meter.rangeStage ∧ (ownTime args s).1.power.level = s.power.level ∧
    (ownTime args s).1.power.last = s.power.last ∧ (ownTime args s).1.power.timer = s.power.timer ∧
    (ownTime args s).1.power.heater = s.power.heater ∧ (ownTime args s).1.log = s.log ∧
    (ownTime args s).1.settings = s.settings ∧ (ownTime args s).1.image = s.image ∧
    (ownTime args s).1.startUp = s.startUp ∧ (ownTime args s).1.supply = s.supply ∧
    (ownTime args s).1.nrstLow = s.nrstLow ∧ (ownTime args s).1.pending = s.pending := by
  simp only [ownTime]; (repeat' split) <;> simp

@[simp] theorem meterBegin_frame (s : State) :
    (meterBegin s).1.link = s.link ∧ (meterBegin s).1.plan = s.plan ∧ (meterBegin s).1.seq = s.seq ∧
    (meterBegin s).1.cal = s.cal ∧ (meterBegin s).1.engine = s.engine ∧ (meterBegin s).1.pins = s.pins ∧
    (meterBegin s).1.meter.dark = s.meter.dark ∧ (meterBegin s).1.meter.tcal = s.meter.tcal ∧
    (meterBegin s).1.meter.outcome = s.meter.outcome ∧ (meterBegin s).1.meter.rangeStage = s.meter.rangeStage ∧
    (meterBegin s).1.expo = s.expo ∧ (meterBegin s).1.power = s.power ∧ (meterBegin s).1.log = s.log ∧
    (meterBegin s).1.notices = s.notices ∧ (meterBegin s).1.settings = s.settings ∧
    (meterBegin s).1.image = s.image ∧ (meterBegin s).1.startUp = s.startUp ∧ (meterBegin s).1.supply = s.supply ∧
    (meterBegin s).1.nrstLow = s.nrstLow ∧ (meterBegin s).1.pending = s.pending := by
  simp only [meterBegin]; (repeat' split) <;> simp

@[simp] theorem ownMeter_frame (args : List Token) (s : State) :
    (ownMeter args s).1.link = s.link ∧ (ownMeter args s).1.plan = s.plan ∧ (ownMeter args s).1.seq = s.seq ∧
    (ownMeter args s).1.cal = s.cal ∧ (ownMeter args s).1.engine = s.engine ∧ (ownMeter args s).1.pins = s.pins ∧
    (ownMeter args s).1.meter.dark = s.meter.dark ∧ (ownMeter args s).1.meter.tcal = s.meter.tcal ∧
    (ownMeter args s).1.meter.outcome = s.meter.outcome ∧ (ownMeter args s).1.meter.rangeStage = s.meter.rangeStage ∧
    (ownMeter args s).1.expo = s.expo ∧ (ownMeter args s).1.power = s.power ∧ (ownMeter args s).1.log = s.log ∧
    (ownMeter args s).1.notices = s.notices ∧ (ownMeter args s).1.settings = s.settings ∧
    (ownMeter args s).1.image = s.image ∧ (ownMeter args s).1.startUp = s.startUp ∧
    (ownMeter args s).1.supply = s.supply ∧ (ownMeter args s).1.nrstLow = s.nrstLow ∧
    (ownMeter args s).1.pending = s.pending := by
  simp only [ownMeter]; (repeat' split) <;> simp

@[simp] theorem ownCalibrate_frame (args : List Token) (s : State) :
    (ownCalibrate args s).1.link = s.link ∧ (ownCalibrate args s).1.plan = s.plan ∧
    (ownCalibrate args s).1.seq = s.seq ∧ (ownCalibrate args s).1.cal = s.cal ∧
    (ownCalibrate args s).1.engine = s.engine ∧ (ownCalibrate args s).1.pins = s.pins ∧
    (ownCalibrate args s).1.meter.dark = s.meter.dark ∧ (ownCalibrate args s).1.meter.tcal = s.meter.tcal ∧
    (ownCalibrate args s).1.meter.oneOff = s.meter.oneOff ∧ (ownCalibrate args s).1.meter.outcome = s.meter.outcome ∧
    (ownCalibrate args s).1.meter.rangeStage = s.meter.rangeStage ∧ (ownCalibrate args s).1.expo = s.expo ∧
    (ownCalibrate args s).1.power = s.power ∧ (ownCalibrate args s).1.log = s.log ∧
    (ownCalibrate args s).1.notices = s.notices ∧ (ownCalibrate args s).1.settings = s.settings ∧
    (ownCalibrate args s).1.image = s.image ∧ (ownCalibrate args s).1.startUp = s.startUp ∧
    (ownCalibrate args s).1.supply = s.supply ∧ (ownCalibrate args s).1.nrstLow = s.nrstLow ∧
    (ownCalibrate args s).1.pending = s.pending := by
  simp only [ownCalibrate]; (repeat' split) <;> simp

@[simp] theorem ownFrames_frame (args : List Token) (s : State) :
    (ownFrames args s).1.link = s.link ∧ (ownFrames args s).1.plan = s.plan ∧ (ownFrames args s).1.seq = s.seq ∧
    (ownFrames args s).1.cal = s.cal ∧ (ownFrames args s).1.engine = s.engine ∧ (ownFrames args s).1.pins = s.pins ∧
    (ownFrames args s).1.meter = s.meter ∧ (ownFrames args s).1.expo = s.expo ∧
    (ownFrames args s).1.power = s.power ∧ (ownFrames args s).1.clock = s.clock ∧ (ownFrames args s).1.log = s.log ∧
    (ownFrames args s).1.notices = s.notices ∧ (ownFrames args s).1.settings = s.settings ∧
    (ownFrames args s).1.image = s.image ∧ (ownFrames args s).1.startUp = s.startUp ∧
    (ownFrames args s).1.supply = s.supply ∧ (ownFrames args s).1.nrstLow = s.nrstLow ∧
    (ownFrames args s).1.pending = s.pending := by
  simp only [ownFrames]; (repeat' split) <;> simp

@[simp] theorem ownPoll_frame (args : List Token) (s : State) :
    (ownPoll args s).1.link = s.link ∧ (ownPoll args s).1.plan = s.plan ∧ (ownPoll args s).1.seq = s.seq ∧
    (ownPoll args s).1.cal = s.cal ∧ (ownPoll args s).1.engine = s.engine ∧
    (ownPoll args s).1.pins.heat = s.pins.heat ∧ (ownPoll args s).1.pins.camPwr = s.pins.camPwr ∧
    (ownPoll args s).1.pins.trig = s.pins.trig ∧ (ownPoll args s).1.pins.wake = s.pins.wake ∧
    (ownPoll args s).1.pins.gain = s.pins.gain ∧ (ownPoll args s).1.pins.busy = s.pins.busy ∧
    (ownPoll args s).1.pins.trip = s.pins.trip ∧ (ownPoll args s).1.meter = s.meter ∧
    (ownPoll args s).1.expo = s.expo ∧ (ownPoll args s).1.power = s.power ∧ (ownPoll args s).1.clock = s.clock ∧
    (ownPoll args s).1.log = s.log ∧ (ownPoll args s).1.settings = s.settings ∧ (ownPoll args s).1.image = s.image ∧
    (ownPoll args s).1.startUp = s.startUp ∧ (ownPoll args s).1.supply = s.supply ∧
    (ownPoll args s).1.nrstLow = s.nrstLow ∧ (ownPoll args s).1.pending = s.pending := by
  simp only [ownPoll]; (repeat' split) <;> simp

@[simp] theorem settingActs_frame (key : SetKey) (old : Settings) (s : State) :
    (settingActs key old s).link = s.link ∧ (settingActs key old s).plan = s.plan ∧
    (settingActs key old s).seq.run = s.seq.run ∧ (settingActs key old s).seq.current = s.seq.current ∧
    (settingActs key old s).seq.armed = s.seq.armed ∧ (settingActs key old s).seq.live = s.seq.live ∧
    (settingActs key old s).seq.shotIndex = s.seq.shotIndex ∧ (settingActs key old s).seq.lastDue = s.seq.lastDue ∧
    (settingActs key old s).cal = s.cal ∧ (settingActs key old s).engine.frameCounter = s.engine.frameCounter ∧
    (settingActs key old s).engine.misses = s.engine.misses ∧
    (settingActs key old s).engine.retries = s.engine.retries ∧
    (settingActs key old s).engine.retrying = s.engine.retrying ∧ (settingActs key old s).pins.trig = s.pins.trig ∧
    (settingActs key old s).pins.busy = s.pins.busy ∧ (settingActs key old s).pins.trip = s.pins.trip ∧
    (settingActs key old s).meter.dark = s.meter.dark ∧ (settingActs key old s).meter.tcal = s.meter.tcal ∧
    (settingActs key old s).meter.outcome = s.meter.outcome ∧
    (settingActs key old s).meter.rangeStage = s.meter.rangeStage ∧
    (settingActs key old s).expo.eHeld = s.expo.eHeld ∧ (settingActs key old s).expo.gHeld = s.expo.gHeld ∧
    (settingActs key old s).power.level = s.power.level ∧ (settingActs key old s).power.last = s.power.last ∧
    (settingActs key old s).power.timer = s.power.timer ∧ (settingActs key old s).power.heater = s.power.heater ∧
    (settingActs key old s).log = s.log ∧ (settingActs key old s).notices = s.notices ∧
    (settingActs key old s).settings = s.settings ∧ (settingActs key old s).image = s.image ∧
    (settingActs key old s).startUp = s.startUp ∧ (settingActs key old s).supply = s.supply ∧
    (settingActs key old s).nrstLow = s.nrstLow ∧ (settingActs key old s).pending = s.pending := by
  simp only [settingActs]; (repeat' split) <;> simp

@[simp] theorem applySetting_frame (p : SetKey × SetValue) (s : State) :
    (applySetting p s).link = s.link ∧ (applySetting p s).plan = s.plan ∧ (applySetting p s).seq.run = s.seq.run ∧
    (applySetting p s).seq.current = s.seq.current ∧ (applySetting p s).seq.armed = s.seq.armed ∧
    (applySetting p s).seq.live = s.seq.live ∧ (applySetting p s).seq.shotIndex = s.seq.shotIndex ∧
    (applySetting p s).seq.lastDue = s.seq.lastDue ∧ (applySetting p s).cal = s.cal ∧
    (applySetting p s).engine.frameCounter = s.engine.frameCounter ∧
    (applySetting p s).engine.misses = s.engine.misses ∧ (applySetting p s).engine.retries = s.engine.retries ∧
    (applySetting p s).engine.retrying = s.engine.retrying ∧ (applySetting p s).pins.trig = s.pins.trig ∧
    (applySetting p s).pins.busy = s.pins.busy ∧ (applySetting p s).pins.trip = s.pins.trip ∧
    (applySetting p s).meter.dark = s.meter.dark ∧ (applySetting p s).meter.tcal = s.meter.tcal ∧
    (applySetting p s).meter.outcome = s.meter.outcome ∧ (applySetting p s).meter.rangeStage = s.meter.rangeStage ∧
    (applySetting p s).expo.eHeld = s.expo.eHeld ∧ (applySetting p s).expo.gHeld = s.expo.gHeld ∧
    (applySetting p s).power.level = s.power.level ∧ (applySetting p s).power.last = s.power.last ∧
    (applySetting p s).power.timer = s.power.timer ∧ (applySetting p s).power.heater = s.power.heater ∧
    (applySetting p s).log = s.log ∧ (applySetting p s).notices = s.notices ∧ (applySetting p s).image = s.image ∧
    (applySetting p s).startUp = s.startUp ∧ (applySetting p s).supply = s.supply ∧
    (applySetting p s).nrstLow = s.nrstLow ∧ (applySetting p s).pending = s.pending := by simp [applySetting]

@[simp] theorem applySets_frame (ps : List (SetKey × SetValue)) (s : State) :
    (applySets ps s).1.link = s.link ∧ (applySets ps s).1.plan = s.plan ∧ (applySets ps s).1.seq.run = s.seq.run ∧
    (applySets ps s).1.seq.current = s.seq.current ∧ (applySets ps s).1.seq.armed = s.seq.armed ∧
    (applySets ps s).1.seq.live = s.seq.live ∧ (applySets ps s).1.seq.shotIndex = s.seq.shotIndex ∧
    (applySets ps s).1.seq.lastDue = s.seq.lastDue ∧ (applySets ps s).1.cal = s.cal ∧
    (applySets ps s).1.engine.frameCounter = s.engine.frameCounter ∧
    (applySets ps s).1.engine.misses = s.engine.misses ∧ (applySets ps s).1.engine.retries = s.engine.retries ∧
    (applySets ps s).1.engine.retrying = s.engine.retrying ∧ (applySets ps s).1.pins.trig = s.pins.trig ∧
    (applySets ps s).1.pins.busy = s.pins.busy ∧ (applySets ps s).1.pins.trip = s.pins.trip ∧
    (applySets ps s).1.meter.dark = s.meter.dark ∧ (applySets ps s).1.meter.tcal = s.meter.tcal ∧
    (applySets ps s).1.meter.outcome = s.meter.outcome ∧ (applySets ps s).1.meter.rangeStage = s.meter.rangeStage ∧
    (applySets ps s).1.expo.eHeld = s.expo.eHeld ∧ (applySets ps s).1.expo.gHeld = s.expo.gHeld ∧
    (applySets ps s).1.power.level = s.power.level ∧ (applySets ps s).1.power.last = s.power.last ∧
    (applySets ps s).1.power.timer = s.power.timer ∧ (applySets ps s).1.power.heater = s.power.heater ∧
    (applySets ps s).1.log = s.log ∧ (applySets ps s).1.notices = s.notices ∧ (applySets ps s).1.image = s.image ∧
    (applySets ps s).1.startUp = s.startUp ∧ (applySets ps s).1.supply = s.supply ∧
    (applySets ps s).1.nrstLow = s.nrstLow ∧ (applySets ps s).1.pending = s.pending := by
  induction ps generalizing s with
  | nil => simp [applySets]
  | cons p ps ih => simp [applySets, ih]

@[simp] theorem ownSet_frame (args : List Token) (s : State) :
    (ownSet args s).1.link = s.link ∧ (ownSet args s).1.plan = s.plan ∧ (ownSet args s).1.seq.run = s.seq.run ∧
    (ownSet args s).1.seq.current = s.seq.current ∧ (ownSet args s).1.seq.armed = s.seq.armed ∧
    (ownSet args s).1.seq.live = s.seq.live ∧ (ownSet args s).1.seq.shotIndex = s.seq.shotIndex ∧
    (ownSet args s).1.seq.lastDue = s.seq.lastDue ∧ (ownSet args s).1.cal = s.cal ∧
    (ownSet args s).1.engine.frameCounter = s.engine.frameCounter ∧
    (ownSet args s).1.engine.misses = s.engine.misses ∧ (ownSet args s).1.engine.retries = s.engine.retries ∧
    (ownSet args s).1.engine.retrying = s.engine.retrying ∧ (ownSet args s).1.pins.trig = s.pins.trig ∧
    (ownSet args s).1.pins.busy = s.pins.busy ∧ (ownSet args s).1.pins.trip = s.pins.trip ∧
    (ownSet args s).1.meter.dark = s.meter.dark ∧ (ownSet args s).1.meter.tcal = s.meter.tcal ∧
    (ownSet args s).1.meter.outcome = s.meter.outcome ∧ (ownSet args s).1.meter.rangeStage = s.meter.rangeStage ∧
    (ownSet args s).1.expo.eHeld = s.expo.eHeld ∧ (ownSet args s).1.expo.gHeld = s.expo.gHeld ∧
    (ownSet args s).1.power.level = s.power.level ∧ (ownSet args s).1.power.last = s.power.last ∧
    (ownSet args s).1.power.timer = s.power.timer ∧ (ownSet args s).1.power.heater = s.power.heater ∧
    (ownSet args s).1.log = s.log ∧ (ownSet args s).1.notices = s.notices ∧ (ownSet args s).1.image = s.image ∧
    (ownSet args s).1.startUp = s.startUp ∧ (ownSet args s).1.supply = s.supply ∧
    (ownSet args s).1.nrstLow = s.nrstLow ∧ (ownSet args s).1.pending = s.pending := by
  simp only [ownSet]; (repeat' split) <;> simp

@[simp] theorem ownGet_frame (args : List Token) (s : State) :
    (ownGet args s).1.link = s.link ∧ (ownGet args s).1.plan = s.plan ∧ (ownGet args s).1.seq = s.seq ∧
    (ownGet args s).1.cal = s.cal ∧ (ownGet args s).1.engine = s.engine ∧ (ownGet args s).1.pins = s.pins ∧
    (ownGet args s).1.meter = s.meter ∧ (ownGet args s).1.expo = s.expo ∧ (ownGet args s).1.power = s.power ∧
    (ownGet args s).1.clock = s.clock ∧ (ownGet args s).1.log = s.log ∧ (ownGet args s).1.notices = s.notices ∧
    (ownGet args s).1.settings = s.settings ∧ (ownGet args s).1.image = s.image ∧
    (ownGet args s).1.startUp = s.startUp ∧ (ownGet args s).1.supply = s.supply ∧
    (ownGet args s).1.nrstLow = s.nrstLow ∧ (ownGet args s).1.pending = s.pending := by
  simp only [ownGet]; (repeat' split) <;> simp

@[simp] theorem ownRecall_frame (args : List Token) (s : State) :
    (ownRecall args s).1.link = s.link ∧ (ownRecall args s).1.seq = s.seq ∧ (ownRecall args s).1.cal = s.cal ∧
    (ownRecall args s).1.engine = s.engine ∧ (ownRecall args s).1.pins.heat = s.pins.heat ∧
    (ownRecall args s).1.pins.camPwr = s.pins.camPwr ∧ (ownRecall args s).1.pins.trig = s.pins.trig ∧
    (ownRecall args s).1.pins.wake = s.pins.wake ∧ (ownRecall args s).1.pins.gain = s.pins.gain ∧
    (ownRecall args s).1.pins.busy = s.pins.busy ∧ (ownRecall args s).1.pins.trip = s.pins.trip ∧
    (ownRecall args s).1.meter.oneOff = s.meter.oneOff ∧ (ownRecall args s).1.meter.rangeStage = s.meter.rangeStage ∧
    (ownRecall args s).1.expo = s.expo ∧ (ownRecall args s).1.power = s.power ∧ (ownRecall args s).1.log = s.log ∧
    (ownRecall args s).1.image = s.image ∧ (ownRecall args s).1.startUp = s.startUp ∧
    (ownRecall args s).1.supply = s.supply ∧ (ownRecall args s).1.nrstLow = s.nrstLow ∧
    (ownRecall args s).1.pending = s.pending := by
  simp only [ownRecall]; (repeat' split) <;> simp

@[simp] theorem ownIdent_frame (args : List Token) (s : State) :
    (ownIdent args s).1.link = s.link ∧ (ownIdent args s).1.plan = s.plan ∧ (ownIdent args s).1.seq = s.seq ∧
    (ownIdent args s).1.cal = s.cal ∧ (ownIdent args s).1.engine = s.engine ∧ (ownIdent args s).1.pins = s.pins ∧
    (ownIdent args s).1.meter = s.meter ∧ (ownIdent args s).1.expo = s.expo ∧ (ownIdent args s).1.power = s.power ∧
    (ownIdent args s).1.clock = s.clock ∧ (ownIdent args s).1.log = s.log ∧ (ownIdent args s).1.notices = s.notices ∧
    (ownIdent args s).1.settings = s.settings ∧ (ownIdent args s).1.image = s.image ∧
    (ownIdent args s).1.startUp = s.startUp ∧ (ownIdent args s).1.supply = s.supply ∧
    (ownIdent args s).1.nrstLow = s.nrstLow ∧ (ownIdent args s).1.pending = s.pending := by
  simp only [ownIdent]; (repeat' split) <;> simp

@[simp] theorem ownStatus_frame (args : List Token) (s : State) :
    (ownStatus args s).1.link = s.link ∧ (ownStatus args s).1.plan = s.plan ∧ (ownStatus args s).1.seq = s.seq ∧
    (ownStatus args s).1.cal = s.cal ∧ (ownStatus args s).1.engine = s.engine ∧ (ownStatus args s).1.pins = s.pins ∧
    (ownStatus args s).1.meter = s.meter ∧ (ownStatus args s).1.expo = s.expo ∧
    (ownStatus args s).1.power = s.power ∧ (ownStatus args s).1.clock = s.clock ∧ (ownStatus args s).1.log = s.log ∧
    (ownStatus args s).1.notices = s.notices ∧ (ownStatus args s).1.settings = s.settings ∧
    (ownStatus args s).1.image = s.image ∧ (ownStatus args s).1.startUp = s.startUp ∧
    (ownStatus args s).1.supply = s.supply ∧ (ownStatus args s).1.nrstLow = s.nrstLow ∧
    (ownStatus args s).1.pending = s.pending := by
  simp only [ownStatus]; (repeat' split) <;> simp

@[simp] theorem reportLost_frame (s : State) :
    (reportLost s).link = s.link ∧ (reportLost s).plan = s.plan ∧ (reportLost s).seq = s.seq ∧
    (reportLost s).engine = s.engine ∧ (reportLost s).pins.heat = s.pins.heat ∧
    (reportLost s).pins.camPwr = s.pins.camPwr ∧ (reportLost s).pins.trig = s.pins.trig ∧
    (reportLost s).pins.wake = s.pins.wake ∧ (reportLost s).pins.gain = s.pins.gain ∧
    (reportLost s).pins.busy = s.pins.busy ∧ (reportLost s).pins.trip = s.pins.trip ∧
    (reportLost s).meter = s.meter ∧ (reportLost s).expo = s.expo ∧ (reportLost s).power = s.power ∧
    (reportLost s).clock = s.clock ∧ (reportLost s).log = s.log ∧ (reportLost s).settings = s.settings ∧
    (reportLost s).image = s.image ∧ (reportLost s).startUp = s.startUp ∧ (reportLost s).supply = s.supply ∧
    (reportLost s).nrstLow = s.nrstLow ∧ (reportLost s).pending = s.pending := by
  simp only [reportLost]; (repeat' split) <;> simp

@[simp] theorem checkImage_frame (s : State) :
    (checkImage s).link = s.link ∧ (checkImage s).seq = s.seq ∧ (checkImage s).cal = s.cal ∧
    (checkImage s).engine = s.engine ∧ (checkImage s).pins.heat = s.pins.heat ∧
    (checkImage s).pins.camPwr = s.pins.camPwr ∧ (checkImage s).pins.trig = s.pins.trig ∧
    (checkImage s).pins.wake = s.pins.wake ∧ (checkImage s).pins.gain = s.pins.gain ∧
    (checkImage s).pins.busy = s.pins.busy ∧ (checkImage s).pins.trip = s.pins.trip ∧
    (checkImage s).meter.state = s.meter.state ∧ (checkImage s).meter.oneOff = s.meter.oneOff ∧
    (checkImage s).meter.outcome = s.meter.outcome ∧ (checkImage s).meter.rangeStage = s.meter.rangeStage ∧
    (checkImage s).expo = s.expo ∧ (checkImage s).power = s.power ∧ (checkImage s).clock = s.clock ∧
    (checkImage s).log = s.log ∧ (checkImage s).image = s.image ∧ (checkImage s).startUp = s.startUp ∧
    (checkImage s).supply = s.supply ∧ (checkImage s).nrstLow = s.nrstLow ∧ (checkImage s).pending = s.pending := by
  simp only [checkImage]; (repeat' split) <;> simp

@[simp] theorem coldStart_frame (s : State) :
    (coldStart s).pins.busy = s.pins.busy ∧ (coldStart s).pins.trip = s.pins.trip ∧ (coldStart s).image = s.image ∧
    (coldStart s).supply = s.supply ∧ (coldStart s).nrstLow = s.nrstLow ∧ (coldStart s).pending = s.pending := by simp [coldStart]

@[simp] theorem undoStartUp_frame (s : State) :
    (undoStartUp s).link = s.link ∧ (undoStartUp s).plan = s.plan ∧ (undoStartUp s).seq = s.seq ∧
    (undoStartUp s).engine = s.engine ∧ (undoStartUp s).pins = s.pins ∧ (undoStartUp s).meter = s.meter ∧
    (undoStartUp s).expo = s.expo ∧ (undoStartUp s).power = s.power ∧ (undoStartUp s).clock = s.clock ∧
    (undoStartUp s).log = s.log ∧ (undoStartUp s).notices = s.notices ∧ (undoStartUp s).image = s.image ∧
    (undoStartUp s).startUp = s.startUp ∧ (undoStartUp s).supply = s.supply ∧
    (undoStartUp s).nrstLow = s.nrstLow ∧ (undoStartUp s).pending = s.pending := by
  simp only [undoStartUp]; (repeat' split) <;> simp

/-- R187: a start-up sequence in progress is undone; outside one nothing changes. -/
theorem undoStartUp_cases (s : State) :
    (s.startUp.found = none ∧ undoStartUp s = s) ∨ ∃ f, s.startUp.found = some f ∧ undoStartUp s =
      { s with cal := { s.cal with lost := f.lost }, settings := { s.settings with tr := f.trim } } := by
  cases h : s.startUp.found with
  | none => exact .inl ⟨rfl, by simp [undoStartUp, h]⟩
  | some f => exact .inr ⟨f, rfl, by simp [undoStartUp, h]⟩

@[simp] theorem cutStore_frame (s : State) :
    (cutStore s).link = s.link ∧ (cutStore s).plan = s.plan ∧ (cutStore s).seq = s.seq ∧
    (cutStore s).cal = s.cal ∧ (cutStore s).engine = s.engine ∧ (cutStore s).pins = s.pins ∧
    (cutStore s).meter = s.meter ∧ (cutStore s).expo = s.expo ∧ (cutStore s).power = s.power ∧
    (cutStore s).clock = s.clock ∧ (cutStore s).log = s.log ∧ (cutStore s).notices = s.notices ∧
    (cutStore s).settings = s.settings ∧ (cutStore s).image.contents = s.image.contents ∧
    (cutStore s).startUp = s.startUp ∧ (cutStore s).supply = s.supply ∧ (cutStore s).nrstLow = s.nrstLow ∧
    (cutStore s).pending = s.pending := by
  simp only [cutStore]; (repeat' split) <;> simp

@[simp] theorem stopPart_frame (s : State) :
    (stopPart s).plan.slots = s.plan.slots ∧ (stopPart s).cal = (undoStartUp s).cal ∧
    (stopPart s).settings = { (undoStartUp s).settings with atOn := false } ∧
    (stopPart s).image.contents = s.image.contents ∧ (stopPart s).pins.busy = s.pins.busy ∧
    (stopPart s).pins.trip = s.pins.trip ∧ (stopPart s).meter.dark = s.meter.dark ∧
    (stopPart s).meter.tcal = s.meter.tcal ∧ (stopPart s).startUp = .stopped ∧ (stopPart s).supply = s.supply ∧
    (stopPart s).nrstLow = s.nrstLow ∧ (stopPart s).pending = s.pending := by
  simp [stopPart, powerOnValues, Pins.rest]

@[simp] theorem autorun_frame (s : State) :
    (autorun s).link = s.link ∧ (autorun s).plan = s.plan ∧ (autorun s).cal = s.cal ∧
    (autorun s).engine.frameCounter = s.engine.frameCounter ∧ (autorun s).pins.trig = s.pins.trig ∧
    (autorun s).pins.busy = s.pins.busy ∧ (autorun s).pins.trip = s.pins.trip ∧
    (autorun s).meter.dark = s.meter.dark ∧ (autorun s).meter.tcal = s.meter.tcal ∧
    (autorun s).meter.outcome = s.meter.outcome ∧ (autorun s).meter.rangeStage = s.meter.rangeStage ∧
    (autorun s).power.level = s.power.level ∧ (autorun s).power.last = s.power.last ∧
    (autorun s).power.timer = s.power.timer ∧ (autorun s).power.heater = s.power.heater ∧ (autorun s).log = s.log ∧
    (autorun s).settings = s.settings ∧ (autorun s).image = s.image ∧ (autorun s).startUp = s.startUp ∧
    (autorun s).supply = s.supply ∧ (autorun s).nrstLow = s.nrstLow ∧ (autorun s).pending = s.pending := by
  simp only [autorun]; (repeat' split) <;> simp

@[simp] theorem restartDomain_frame (s : State) :
    (restartDomain s).link = s.link ∧ (restartDomain s).plan = s.plan ∧ (restartDomain s).seq = s.seq ∧
    (restartDomain s).engine = s.engine ∧ (restartDomain s).pins = s.pins ∧ (restartDomain s).meter = s.meter ∧
    (restartDomain s).expo = s.expo ∧ (restartDomain s).power = s.power ∧ (restartDomain s).clock = s.clock ∧
    (restartDomain s).log = s.log ∧ (restartDomain s).notices = s.notices ∧ (restartDomain s).image = s.image ∧
    (restartDomain s).startUp = s.startUp ∧ (restartDomain s).supply = s.supply ∧
    (restartDomain s).nrstLow = s.nrstLow ∧ (restartDomain s).pending = s.pending := by
  simp only [restartDomain]; (repeat' split) <;> simp

/-- R53: a domain that kept its state is left as it was. -/
@[simp] theorem restartDomain_powered {s : State} (h : s.cal.powered = true) : restartDomain s = s := by
  simp [restartDomain, h]

/-- R53: a domain without its state restarts. -/
@[simp] theorem restartDomain_unpowered {s : State} (h : s.cal.powered = false) :
    restartDomain s = { s with cal := Calendar.restarted, settings := { s.settings with tr := 0 } } := by
  simp [restartDomain, h]

@[simp] theorem warmReset_frame (s : State) :
    (warmReset s).plan.slots = s.plan.slots ∧ (warmReset s).cal = s.cal ∧ (warmReset s).pins.heat = s.pins.heat ∧
    (warmReset s).pins.busy = s.pins.busy ∧ (warmReset s).pins.trip = s.pins.trip ∧ (warmReset s).power = s.power ∧
    (warmReset s).settings = s.settings ∧ (warmReset s).image = s.image ∧ (warmReset s).startUp = s.startUp ∧
    (warmReset s).supply = s.supply ∧ (warmReset s).nrstLow = s.nrstLow ∧ (warmReset s).pending = s.pending := by simp [warmReset]

@[simp] theorem ownStore_frame (args : List Token) (s : State) :
    (ownStore args s).1.link = s.link ∧ (ownStore args s).1.plan = s.plan ∧ (ownStore args s).1.seq = s.seq ∧
    (ownStore args s).1.cal = s.cal ∧ (ownStore args s).1.engine = s.engine ∧ (ownStore args s).1.pins = s.pins ∧
    (ownStore args s).1.meter = s.meter ∧ (ownStore args s).1.expo = s.expo ∧ (ownStore args s).1.power = s.power ∧
    (ownStore args s).1.clock = s.clock ∧ (ownStore args s).1.log = s.log ∧ (ownStore args s).1.notices = s.notices ∧
    (ownStore args s).1.settings = s.settings ∧ (ownStore args s).1.image = s.image ∧
    (ownStore args s).1.startUp = s.startUp ∧ (ownStore args s).1.supply = s.supply ∧
    (ownStore args s).1.nrstLow = s.nrstLow ∧ (ownStore args s).1.pending = s.pending := by
  simp only [ownStore]; (repeat' split) <;> simp

@[simp] theorem ownReset_frame (args : List Token) (s : State) :
    (ownReset args s).1.link = s.link ∧ (ownReset args s).1.plan = s.plan ∧ (ownReset args s).1.seq = s.seq ∧
    (ownReset args s).1.cal = s.cal ∧ (ownReset args s).1.engine = s.engine ∧ (ownReset args s).1.pins = s.pins ∧
    (ownReset args s).1.meter = s.meter ∧ (ownReset args s).1.expo = s.expo ∧ (ownReset args s).1.power = s.power ∧
    (ownReset args s).1.clock = s.clock ∧ (ownReset args s).1.log = s.log ∧ (ownReset args s).1.notices = s.notices ∧
    (ownReset args s).1.settings = s.settings ∧ (ownReset args s).1.image = s.image ∧
    (ownReset args s).1.startUp = s.startUp ∧ (ownReset args s).1.supply = s.supply ∧
    (ownReset args s).1.nrstLow = s.nrstLow ∧ (ownReset args s).1.pending = s.pending := by
  simp only [ownReset]; (repeat' split) <;> simp

@[simp] theorem verifyDone_frame (good : Bool) (s : State) :
    (verifyDone good s).link.waiting = s.link.waiting ∧ (verifyDone good s).plan = s.plan ∧
    (verifyDone good s).seq = s.seq ∧ (verifyDone good s).cal = s.cal ∧ (verifyDone good s).engine = s.engine ∧
    (verifyDone good s).pins = s.pins ∧ (verifyDone good s).meter = s.meter ∧ (verifyDone good s).expo = s.expo ∧
    (verifyDone good s).power = s.power ∧ (verifyDone good s).clock = s.clock ∧ (verifyDone good s).log = s.log ∧
    (verifyDone good s).notices = s.notices ∧ (verifyDone good s).settings = s.settings ∧
    (verifyDone good s).startUp = s.startUp ∧ (verifyDone good s).supply = s.supply ∧
    (verifyDone good s).nrstLow = s.nrstLow ∧ (verifyDone good s).pending = s.pending := by
  simp only [verifyDone]; (repeat' split) <;> simp

@[simp] theorem closeTrip_frame (seg : Segment) (s : State) :
    (closeTrip seg s).link = s.link ∧ (closeTrip seg s).plan = s.plan ∧ (closeTrip seg s).seq.run = s.seq.run ∧
    (closeTrip seg s).seq.current = s.seq.current ∧ (closeTrip seg s).seq.armed = s.seq.armed ∧
    (closeTrip seg s).seq.live = s.seq.live ∧ (closeTrip seg s).seq.shotIndex = s.seq.shotIndex ∧
    (closeTrip seg s).seq.lastDue = s.seq.lastDue ∧ (closeTrip seg s).cal = s.cal ∧
    (closeTrip seg s).engine.frameCounter = s.engine.frameCounter ∧
    (closeTrip seg s).engine.misses = s.engine.misses ∧ (closeTrip seg s).engine.retries = s.engine.retries ∧
    (closeTrip seg s).engine.retrying = s.engine.retrying ∧ (closeTrip seg s).pins.attn = s.pins.attn ∧
    (closeTrip seg s).pins.trig = s.pins.trig ∧ (closeTrip seg s).pins.busy = s.pins.busy ∧
    (closeTrip seg s).pins.trip = s.pins.trip ∧ (closeTrip seg s).meter.dark = s.meter.dark ∧
    (closeTrip seg s).meter.tcal = s.meter.tcal ∧ (closeTrip seg s).meter.outcome = s.meter.outcome ∧
    (closeTrip seg s).meter.rangeStage = s.meter.rangeStage ∧ (closeTrip seg s).power.level = s.power.level ∧
    (closeTrip seg s).power.last = s.power.last ∧ (closeTrip seg s).power.timer = s.power.timer ∧
    (closeTrip seg s).power.heater = s.power.heater ∧ (closeTrip seg s).log = s.log ∧
    (closeTrip seg s).notices = s.notices ∧ (closeTrip seg s).settings = s.settings ∧
    (closeTrip seg s).image = s.image ∧ (closeTrip seg s).startUp = s.startUp ∧ (closeTrip seg s).supply = s.supply ∧
    (closeTrip seg s).nrstLow = s.nrstLow ∧ (closeTrip seg s).pending = s.pending := by
  simp only [closeTrip]; (repeat' split) <;> simp

@[simp] theorem closeReport_frame (s : State) :
    (closeReport s).link = s.link ∧ (closeReport s).plan = s.plan ∧ (closeReport s).seq.run = s.seq.run ∧
    (closeReport s).seq.current = s.seq.current ∧ (closeReport s).seq.armed = s.seq.armed ∧
    (closeReport s).seq.live = s.seq.live ∧ (closeReport s).seq.shotIndex = s.seq.shotIndex ∧
    (closeReport s).seq.lastDue = s.seq.lastDue ∧ (closeReport s).cal = s.cal ∧
    (closeReport s).engine.frameCounter = s.engine.frameCounter ∧ (closeReport s).engine.misses = s.engine.misses ∧
    (closeReport s).engine.retries = s.engine.retries ∧ (closeReport s).engine.retrying = s.engine.retrying ∧
    (closeReport s).pins.attn = s.pins.attn ∧ (closeReport s).pins.trig = s.pins.trig ∧
    (closeReport s).pins.busy = s.pins.busy ∧ (closeReport s).pins.trip = s.pins.trip ∧
    (closeReport s).meter.dark = s.meter.dark ∧ (closeReport s).meter.tcal = s.meter.tcal ∧
    (closeReport s).meter.outcome = s.meter.outcome ∧ (closeReport s).meter.rangeStage = s.meter.rangeStage ∧
    (closeReport s).power.level = s.power.level ∧ (closeReport s).power.last = s.power.last ∧
    (closeReport s).power.timer = s.power.timer ∧ (closeReport s).power.heater = s.power.heater ∧
    (closeReport s).log = s.log ∧ (closeReport s).notices = s.notices ∧ (closeReport s).settings = s.settings ∧
    (closeReport s).image = s.image ∧ (closeReport s).startUp = s.startUp ∧ (closeReport s).supply = s.supply ∧
    (closeReport s).nrstLow = s.nrstLow ∧ (closeReport s).pending = s.pending := by
  simp only [closeReport]; (repeat' split) <;> simp

@[simp] theorem secondPassed_frame (s : State) :
    (secondPassed s).link = s.link ∧ (secondPassed s).plan = s.plan ∧ (secondPassed s).cal = s.cal ∧
    (secondPassed s).engine.frameCounter = s.engine.frameCounter ∧ (secondPassed s).engine.misses = s.engine.misses ∧
    (secondPassed s).engine.retries = s.engine.retries ∧ (secondPassed s).pins.trig = s.pins.trig ∧
    (secondPassed s).pins.busy = s.pins.busy ∧ (secondPassed s).pins.trip = s.pins.trip ∧
    (secondPassed s).meter.dark = s.meter.dark ∧ (secondPassed s).meter.tcal = s.meter.tcal ∧
    (secondPassed s).meter.outcome = s.meter.outcome ∧ (secondPassed s).meter.rangeStage = s.meter.rangeStage ∧
    (secondPassed s).power.level = s.power.level ∧ (secondPassed s).power.last = s.power.last ∧
    (secondPassed s).power.timer = s.power.timer ∧ (secondPassed s).power.heater = s.power.heater ∧
    (secondPassed s).log = s.log ∧ (secondPassed s).settings = s.settings ∧ (secondPassed s).image = s.image ∧
    (secondPassed s).startUp = s.startUp ∧ (secondPassed s).supply = s.supply ∧
    (secondPassed s).nrstLow = s.nrstLow ∧ (secondPassed s).pending = s.pending := by
  simp only [secondPassed]; (repeat' split) <;> simp

@[simp] theorem openWindow_frame (seg : Segment) (s : State) :
    (openWindow seg s).link = s.link ∧ (openWindow seg s).plan = s.plan ∧ (openWindow seg s).seq.run = s.seq.run ∧
    (openWindow seg s).seq.current = s.seq.current ∧ (openWindow seg s).seq.armed = s.seq.armed ∧
    (openWindow seg s).seq.live = s.seq.live ∧ (openWindow seg s).seq.shotIndex = s.seq.shotIndex ∧
    (openWindow seg s).seq.lastDue = s.seq.lastDue ∧ (openWindow seg s).cal = s.cal ∧
    (openWindow seg s).engine.frameCounter = s.engine.frameCounter ∧
    (openWindow seg s).engine.misses = s.engine.misses ∧ (openWindow seg s).engine.retries = s.engine.retries ∧
    (openWindow seg s).engine.retrying = s.engine.retrying ∧ (openWindow seg s).pins.attn = s.pins.attn ∧
    (openWindow seg s).pins.trig = s.pins.trig ∧ (openWindow seg s).pins.busy = s.pins.busy ∧
    (openWindow seg s).pins.trip = s.pins.trip ∧ (openWindow seg s).meter.dark = s.meter.dark ∧
    (openWindow seg s).meter.tcal = s.meter.tcal ∧ (openWindow seg s).meter.outcome = s.meter.outcome ∧
    (openWindow seg s).meter.rangeStage = s.meter.rangeStage ∧ (openWindow seg s).expo.eHeld = s.expo.eHeld ∧
    (openWindow seg s).expo.gHeld = s.expo.gHeld ∧ (openWindow seg s).power.level = s.power.level ∧
    (openWindow seg s).power.last = s.power.last ∧ (openWindow seg s).power.timer = s.power.timer ∧
    (openWindow seg s).power.heater = s.power.heater ∧ (openWindow seg s).log = s.log ∧
    (openWindow seg s).notices = s.notices ∧ (openWindow seg s).settings = s.settings ∧
    (openWindow seg s).image = s.image ∧ (openWindow seg s).startUp = s.startUp ∧
    (openWindow seg s).supply = s.supply ∧ (openWindow seg s).nrstLow = s.nrstLow ∧
    (openWindow seg s).pending = s.pending := by
  simp only [openWindow]; (repeat' split) <;> simp

@[simp] theorem afterRelease_frame (busy : Bool) (shot : Shot) (f : Flight) (s : State) :
    (afterRelease busy shot f s).link = s.link ∧ (afterRelease busy shot f s).plan = s.plan ∧
    (afterRelease busy shot f s).cal = s.cal ∧ (afterRelease busy shot f s).pins.trig = s.pins.trig ∧
    (afterRelease busy shot f s).pins.busy = s.pins.busy ∧ (afterRelease busy shot f s).pins.trip = s.pins.trip ∧
    (afterRelease busy shot f s).meter.dark = s.meter.dark ∧ (afterRelease busy shot f s).meter.tcal = s.meter.tcal ∧
    (afterRelease busy shot f s).meter.outcome = s.meter.outcome ∧
    (afterRelease busy shot f s).meter.rangeStage = s.meter.rangeStage ∧
    (afterRelease busy shot f s).expo.eHeld = s.expo.eHeld ∧ (afterRelease busy shot f s).expo.gHeld = s.expo.gHeld ∧
    (afterRelease busy shot f s).power.level = s.power.level ∧
    (afterRelease busy shot f s).power.last = s.power.last ∧
    (afterRelease busy shot f s).power.timer = s.power.timer ∧
    (afterRelease busy shot f s).power.heater = s.power.heater ∧ (afterRelease busy shot f s).settings = s.settings ∧
    (afterRelease busy shot f s).image = s.image ∧ (afterRelease busy shot f s).startUp = s.startUp ∧
    (afterRelease busy shot f s).supply = s.supply ∧ (afterRelease busy shot f s).nrstLow = s.nrstLow ∧
    (afterRelease busy shot f s).pending = s.pending := by
  simp only [afterRelease]; (repeat' split) <;> simp

@[simp] theorem tripEvent_frame (seg : Segment) (s : State) :
    (tripEvent seg s).link = s.link ∧ (tripEvent seg s).plan = s.plan ∧ (tripEvent seg s).seq.run = s.seq.run ∧
    (tripEvent seg s).seq.current = s.seq.current ∧ (tripEvent seg s).seq.armed = s.seq.armed ∧
    (tripEvent seg s).seq.live = s.seq.live ∧ (tripEvent seg s).seq.shotIndex = s.seq.shotIndex ∧
    (tripEvent seg s).seq.lastDue = s.seq.lastDue ∧ (tripEvent seg s).cal = s.cal ∧
    (tripEvent seg s).engine.frameCounter = s.engine.frameCounter ∧
    (tripEvent seg s).engine.misses = s.engine.misses ∧ (tripEvent seg s).engine.retries = s.engine.retries ∧
    (tripEvent seg s).engine.retrying = s.engine.retrying ∧ (tripEvent seg s).pins.attn = s.pins.attn ∧
    (tripEvent seg s).pins.camPwr = s.pins.camPwr ∧ (tripEvent seg s).pins.trig = s.pins.trig ∧
    (tripEvent seg s).pins.busy = s.pins.busy ∧ (tripEvent seg s).pins.trip = s.pins.trip ∧
    (tripEvent seg s).meter.dark = s.meter.dark ∧ (tripEvent seg s).meter.tcal = s.meter.tcal ∧
    (tripEvent seg s).meter.outcome = s.meter.outcome ∧ (tripEvent seg s).meter.rangeStage = s.meter.rangeStage ∧
    (tripEvent seg s).expo.eHeld = s.expo.eHeld ∧ (tripEvent seg s).expo.gHeld = s.expo.gHeld ∧
    (tripEvent seg s).power.level = s.power.level ∧ (tripEvent seg s).power.last = s.power.last ∧
    (tripEvent seg s).power.timer = s.power.timer ∧ (tripEvent seg s).power.heater = s.power.heater ∧
    (tripEvent seg s).log = s.log ∧ (tripEvent seg s).notices = s.notices ∧ (tripEvent seg s).settings = s.settings ∧
    (tripEvent seg s).image = s.image ∧ (tripEvent seg s).startUp = s.startUp ∧ (tripEvent seg s).supply = s.supply ∧
    (tripEvent seg s).nrstLow = s.nrstLow ∧ (tripEvent seg s).pending = s.pending := by
  simp only [tripEvent]; (repeat' split) <;> simp

@[simp] theorem countEdge_frame (seg : Segment) (s : State) :
    (countEdge seg s).link = s.link ∧ (countEdge seg s).plan = s.plan ∧ (countEdge seg s).seq.run = s.seq.run ∧
    (countEdge seg s).seq.current = s.seq.current ∧ (countEdge seg s).seq.armed = s.seq.armed ∧
    (countEdge seg s).seq.live = s.seq.live ∧ (countEdge seg s).seq.shotIndex = s.seq.shotIndex ∧
    (countEdge seg s).seq.lastDue = s.seq.lastDue ∧ (countEdge seg s).cal = s.cal ∧
    (countEdge seg s).engine.frameCounter = s.engine.frameCounter ∧
    (countEdge seg s).engine.misses = s.engine.misses ∧ (countEdge seg s).engine.retries = s.engine.retries ∧
    (countEdge seg s).engine.retrying = s.engine.retrying ∧ (countEdge seg s).pins.attn = s.pins.attn ∧
    (countEdge seg s).pins.camPwr = s.pins.camPwr ∧ (countEdge seg s).pins.trig = s.pins.trig ∧
    (countEdge seg s).pins.busy = s.pins.busy ∧ (countEdge seg s).pins.trip = s.pins.trip ∧
    (countEdge seg s).meter.dark = s.meter.dark ∧ (countEdge seg s).meter.tcal = s.meter.tcal ∧
    (countEdge seg s).meter.outcome = s.meter.outcome ∧ (countEdge seg s).meter.rangeStage = s.meter.rangeStage ∧
    (countEdge seg s).expo.eHeld = s.expo.eHeld ∧ (countEdge seg s).expo.gHeld = s.expo.gHeld ∧
    (countEdge seg s).power.level = s.power.level ∧ (countEdge seg s).power.last = s.power.last ∧
    (countEdge seg s).power.timer = s.power.timer ∧ (countEdge seg s).power.heater = s.power.heater ∧
    (countEdge seg s).log = s.log ∧ (countEdge seg s).notices = s.notices ∧ (countEdge seg s).settings = s.settings ∧
    (countEdge seg s).image = s.image ∧ (countEdge seg s).startUp = s.startUp ∧ (countEdge seg s).supply = s.supply ∧
    (countEdge seg s).nrstLow = s.nrstLow ∧ (countEdge seg s).pending = s.pending := by
  simp only [countEdge]; (repeat' split) <;> simp

/-! ### The command link -/

@[simp] theorem owner_frame (v : Verb) (args : List Token) (s : State) :
    (owner v args s).1.link = s.link ∧ (owner v args s).1.image = s.image ∧ (owner v args s).1.startUp = s.startUp ∧
    (owner v args s).1.supply = s.supply ∧ (owner v args s).1.nrstLow = s.nrstLow ∧
    (owner v args s).1.pins.busy = s.pins.busy ∧ (owner v args s).1.pins.trip = s.pins.trip ∧
    (owner v args s).1.pending = s.pending := by
  cases v <;> simp [owner, replied]

@[simp] theorem answerLine_frame (l : Line) (s : State) :
    (answerLine l s).1.link = s.link ∧ (answerLine l s).1.image = s.image ∧ (answerLine l s).1.startUp = s.startUp ∧
    (answerLine l s).1.supply = s.supply ∧ (answerLine l s).1.nrstLow = s.nrstLow ∧
    (answerLine l s).1.pins.busy = s.pins.busy ∧ (answerLine l s).1.pins.trip = s.pins.trip ∧
    (answerLine l s).1.pending = s.pending := by
  simp only [answerLine]; (repeat' split) <;> simp

@[simp] theorem beginReply_frame (p : State × Answer) :
    (beginReply p).image = p.1.image ∧ (beginReply p).startUp = p.1.startUp ∧ (beginReply p).supply = p.1.supply ∧
    (beginReply p).nrstLow = p.1.nrstLow ∧ (beginReply p).pending = p.1.pending ∧ (beginReply p).plan = p.1.plan ∧
    (beginReply p).seq = p.1.seq ∧ (beginReply p).cal = p.1.cal ∧ (beginReply p).engine = p.1.engine ∧
    (beginReply p).pins = p.1.pins ∧ (beginReply p).meter = p.1.meter ∧ (beginReply p).expo = p.1.expo ∧
    (beginReply p).power = p.1.power ∧ (beginReply p).clock = p.1.clock ∧ (beginReply p).log = p.1.log ∧
    (beginReply p).notices = p.1.notices ∧ (beginReply p).settings = p.1.settings := by
  simp only [beginReply]; split <;> simp

@[simp] theorem takeLine_frame (s : State) :
    (takeLine s).image = s.image ∧ (takeLine s).startUp = s.startUp ∧ (takeLine s).supply = s.supply ∧
    (takeLine s).nrstLow = s.nrstLow ∧ (takeLine s).pins.busy = s.pins.busy ∧
    (takeLine s).pins.trip = s.pins.trip ∧ (takeLine s).pending = s.pending := by
  simp only [takeLine]; (repeat' split) <;> simp

@[simp] theorem completeLine_frame (l : Line) (s : State) :
    (completeLine l s).image = s.image ∧ (completeLine l s).startUp = s.startUp ∧
    (completeLine l s).supply = s.supply ∧ (completeLine l s).nrstLow = s.nrstLow ∧
    (completeLine l s).pins.busy = s.pins.busy ∧ (completeLine l s).pins.trip = s.pins.trip ∧
    (completeLine l s).pending = s.pending := by
  simp only [completeLine]; split <;> simp

@[simp] theorem offerLine_frame (l : Line) (s : State) :
    (offerLine l s).image = s.image ∧ (offerLine l s).startUp = s.startUp ∧ (offerLine l s).supply = s.supply ∧
    (offerLine l s).nrstLow = s.nrstLow ∧ (offerLine l s).pins.busy = s.pins.busy ∧
    (offerLine l s).pins.trip = s.pins.trip ∧ (offerLine l s).pending = s.pending := by
  simp only [offerLine]; split <;> simp

@[simp] theorem endLine_frame (byCr : Bool) (s : State) :
    (endLine byCr s).image = s.image ∧ (endLine byCr s).startUp = s.startUp ∧ (endLine byCr s).supply = s.supply ∧
    (endLine byCr s).nrstLow = s.nrstLow ∧ (endLine byCr s).pins.busy = s.pins.busy ∧
    (endLine byCr s).pins.trip = s.pins.trip ∧ (endLine byCr s).pending = s.pending := by
  simp only [endLine]; split <;> simp

@[simp] theorem receive_frame (k : CharKind) (s : State) :
    (receive k s).image = s.image ∧ (receive k s).startUp = s.startUp ∧ (receive k s).supply = s.supply ∧
    (receive k s).nrstLow = s.nrstLow ∧ (receive k s).pins.busy = s.pins.busy ∧
    (receive k s).pins.trip = s.pins.trip ∧ (receive k s).pending = s.pending := by
  simp only [receive]; (repeat' split) <;> simp

@[simp] theorem replyDone_frame (s : State) :
    (replyDone s).image = s.image ∧ (replyDone s).supply = s.supply ∧ (replyDone s).nrstLow = s.nrstLow ∧
    (replyDone s).pins.busy = s.pins.busy ∧ (replyDone s).pins.trip = s.pins.trip ∧
    (replyDone s).pending = s.pending := by
  simp only [replyDone]; (repeat' split) <;> simp

end Sys2Proof.Machine
end

