-- ==== Sys2Proof/Laws/Link.lean ====
section
/-! SUPPORT. What the shared operations of the command link do, each said once: the verbs, a line met by a free
link, by a full pending slot, and by a link that is sending. -/

namespace Sys2Proof.Machine

/-- R167: a verb is read from the text it is written with. -/
@[simp] theorem readVerb_text (v : Verb) : readVerb v.text = some v := by cases v <;> rfl

/-- R166: a link that is free takes a line at once and begins its reply. -/
theorem offerLine_free {s : State} (l : Line) (h : LinkFree s) :
    offerLine l s = beginReply (answerLine l s) := by
  obtain ⟨hw, hk, hp⟩ := h
  rcases s with ⟨⟨_, _, _, _, _, _⟩, _, _, _, _, _, _, _, _, _, _, _, _, _, _, _, _, _⟩
  simp only at hw hk hp
  subst hw hk hp
  rfl

/-- R166, R167: a command line of a known verb is answered by the verb's owner. -/
theorem offerCommand_free {s : State} (v : Verb) (args : List Token) (h : LinkFree s) :
    offerCommand v args s = beginReply (owner v args s) := by
  rw [offerCommand, offerLine_free _ h, answerLine, readVerb_text]

/-- R166: the reply lines of an owner go out. -/
theorem beginReply_replied (p : State × List Text) : beginReply (replied p) = p.1.answering p.2 := rfl

/-- R165: a line that finds the pending slot full is discarded. -/
theorem offerLine_full {s : State} (l w : Line) (h : s.link.waiting = some w) : offerLine l s = s := by
  simp only [offerLine, completeLine, h]; split <;> rfl

/-- R165: a line that arrives while a reply is being sent waits in the pending slot. -/
theorem offerLine_sending {s : State} (l : Line) (t : List Text) (o : ResetOrder)
    (hs : s.startUp ≠ .stopped) (hw : s.link.waiting = none) (hk : s.link.state = .sending t o) :
    offerLine l s = { s with link := { s.link with waiting := some l } } := by
  simp [offerLine, completeLine, takeLine, hs, hw, hk]

/-- R165: a line that arrives while a STORE is being written waits in the pending slot. -/
theorem offerLine_working {s : State} (l : Line) (c : ImageContents)
    (hs : s.startUp ≠ .stopped) (hw : s.link.waiting = none) (hk : s.link.state = .working c) :
    offerLine l s = { s with link := { s.link with waiting := some l } } := by
  simp [offerLine, completeLine, takeLine, hs, hw, hk]

/-- R175: a line that arrives during the start-up sequence waits in the pending slot. -/
theorem offerLine_starting {s : State} (l : Line) (hs : s.startUp ≠ .stopped) (hn : s.startUp ≠ .working)
    (hw : s.link.waiting = none) : offerLine l s = { s with link := { s.link with waiting := some l } } := by
  simp only [offerLine, completeLine, takeLine, hs, hw, if_false]
  split
  · rename_i l' heq hk
    simp [working, hn]
  · rfl

/-- R163: a stopped part ignores RXD. -/
theorem offerLine_stopped {s : State} (l : Line) (hs : s.startUp = .stopped) : offerLine l s = s := by
  simp [offerLine, hs]

/-- R164: an empty line is no line, and a line within the limits is its tokens. -/
theorem bufferLine_plain (k : Link) (hl : k.longMark = false) (hb : k.badMark = false) :
    bufferLine k = if tokensOf k.buffer = [] then none else some (.command (tokensOf k.buffer)) := by
  simp [bufferLine, hl, hb]

/-- R168: the owner of the twenty-two verbs is never asked for an unknown one. -/
theorem answerLine_unknown {t : Token} (args : List Token) (s : State) (h : readVerb t = none) :
    answerLine (.command (t :: args)) s = (s, .lines [bareRefusal]) := by
  simp [answerLine, h]

/-! ### TXD (R163) -/

@[simp] theorem characterBits_length (c : Char) : (characterBits c).length = 10 := by simp [characterBits]

/-- R163, R175: with the link as a reset leaves it, TXD rests high. -/
theorem txdLevels_cold {s : State} (h : s.link = Link.cold) : txdLevels s = [] := by
  simp [txdLevels, txdCharacters, h, Link.cold]

/-- R163: a character of one line of a reply, or of the CR and LF that end it. -/
theorem mem_replyCharacters {c : Char} {reply : List Text} :
    c ∈ replyCharacters reply ↔ ∃ line ∈ reply, c ∈ line ∨ c = Char.ofNat 13 ∨ c = Char.ofNat 10 := by
  simp [replyCharacters]

end Sys2Proof.Machine
end

