-- ==== Sys2Proof/Laws/PerInstr.lean ====
section
/-! SUPPORT. The family Line, one lemma for each constructor: the line that a well-formed command brings to the link is
one the part can receive, its tokens well formed and its characters at most 96 (R164, R167). -/

namespace Sys2Proof.Laws.Line

/-- A complete line that the part can receive: a long line, a bad line, or tokens that fit on a line. -/
def fits : Machine.Line → Bool
  | .command toks => lineOk toks
  | .long => true
  | .bad => true

/-- The line of a well-formed command fits. -/
def Statement (i : Instr) : Prop := i.wf = true → ∀ l, Machine.lineOf i = some l → fits l = true

theorem receiveCharacter (value : BitVec 8) (framing : Bool) : Statement (.receiveCharacter value framing) := by
  intro _ l h; cases h

theorem replySent : Statement .replySent := by
  intro _ l h; cases h

theorem longLine : Statement .longLine := by
  intro _ l h; cases h; decide

theorem badLine : Statement .badLine := by
  intro _ l h; cases h; decide

theorem unknownVerb (verb : Token) (args : List Token) : Statement (.unknownVerb verb args) := by
  intro hw l h; cases h; simp_all [Instr.wf, fits]

theorem load (args : List Token) : Statement (.load args) := by
  intro hw l h; cases h; simp_all [Instr.wf, fits]

theorem loadPart (args : List Token) : Statement (.loadPart args) := by
  intro hw l h; cases h; simp_all [Instr.wf, fits]

theorem showSlot (args : List Token) : Statement (.showSlot args) := by
  intro hw l h; cases h; simp_all [Instr.wf, fits]

theorem showPlan : Statement .showPlan := by
  intro _ l h; cases h; decide

theorem clear (args : List Token) : Statement (.clear args) := by
  intro hw l h; cases h; simp_all [Instr.wf, fits]

theorem adjust (args : List Token) : Statement (.adjust args) := by
  intro hw l h; cases h; simp_all [Instr.wf, fits]

theorem start (args : List Token) : Statement (.start args) := by
  intro hw l h; cases h; simp_all [Instr.wf, fits]

theorem stop (args : List Token) : Statement (.stop args) := by
  intro hw l h; cases h; simp_all [Instr.wf, fits]

theorem pause (args : List Token) : Statement (.pause args) := by
  intro hw l h; cases h; simp_all [Instr.wf, fits]

theorem resume (args : List Token) : Statement (.resume args) := by
  intro hw l h; cases h; simp_all [Instr.wf, fits]

theorem nextSegment (args : List Token) : Statement (.nextSegment args) := by
  intro hw l h; cases h; simp_all [Instr.wf, fits]

theorem queue (args : List Token) : Statement (.queue args) := by
  intro hw l h; cases h; simp_all [Instr.wf, fits]

theorem time : Statement .time := by
  intro _ l h; cases h; decide

theorem timeSet (args : List Token) : Statement (.timeSet args) := by
  intro hw l h; cases h; simp_all [Instr.wf, fits]

theorem meter (args : List Token) : Statement (.meter args) := by
  intro hw l h; cases h; simp_all [Instr.wf, fits]

theorem meterLast : Statement .meterLast := by
  intro _ l h; cases h; decide

theorem meterClear : Statement .meterClear := by
  intro _ l h; cases h; decide

theorem meterDark : Statement .meterDark := by
  intro _ l h; cases h; decide

theorem calibrate (args : List Token) : Statement (.calibrate args) := by
  intro hw l h; cases h; simp_all [Instr.wf, fits]

theorem frames (args : List Token) : Statement (.frames args) := by
  intro hw l h; cases h; simp_all [Instr.wf, fits]

theorem poll (args : List Token) : Statement (.poll args) := by
  intro hw l h; cases h; simp_all [Instr.wf, fits]

theorem store (args : List Token) : Statement (.store args) := by
  intro hw l h; cases h; simp_all [Instr.wf, fits]

theorem storeVerifyEnd (good : Bool) : Statement (.storeVerifyEnd good) := by
  intro _ l h; cases h

theorem recallImage (args : List Token) : Statement (.recallImage args) := by
  intro hw l h; cases h; simp_all [Instr.wf, fits]

theorem ident (args : List Token) : Statement (.ident args) := by
  intro hw l h; cases h; simp_all [Instr.wf, fits]

theorem status (args : List Token) : Statement (.status args) := by
  intro hw l h; cases h; simp_all [Instr.wf, fits]

theorem set (args : List Token) : Statement (.set args) := by
  intro hw l h; cases h; simp_all [Instr.wf, fits]

theorem get (args : List Token) : Statement (.get args) := by
  intro hw l h; cases h; simp_all [Instr.wf, fits]

theorem resetWarm (args : List Token) : Statement (.resetWarm args) := by
  intro hw l h; cases h; simp_all [Instr.wf, fits]

theorem resetCold (args : List Token) : Statement (.resetCold args) := by
  intro hw l h; cases h; simp_all [Instr.wf, fits]

theorem powerOn : Statement .powerOn := by
  intro _ l h; cases h

theorem nrstAssert : Statement .nrstAssert := by
  intro _ l h; cases h

theorem nrstRelease : Statement .nrstRelease := by
  intro _ l h; cases h

theorem brownout : Statement .brownout := by
  intro _ l h; cases h

theorem brownoutRecovery : Statement .brownoutRecovery := by
  intro _ l h; cases h

theorem backupDomainLoss : Statement .backupDomainLoss := by
  intro _ l h; cases h

theorem autorunStart : Statement .autorunStart := by
  intro _ l h; cases h

theorem tickIncrement : Statement .tickIncrement := by
  intro _ l h; cases h

theorem windowOpening : Statement .windowOpening := by
  intro _ l h; cases h

theorem measureInstant : Statement .measureInstant := by
  intro _ l h; cases h

theorem railOnInstant : Statement .railOnInstant := by
  intro _ l h; cases h

theorem settleExpiry : Statement .settleExpiry := by
  intro _ l h; cases h

theorem primeInstant : Statement .primeInstant := by
  intro _ l h; cases h

theorem wakePulseEnd : Statement .wakePulseEnd := by
  intro _ l h; cases h

theorem dueTime : Statement .dueTime := by
  intro _ l h; cases h

theorem bulbEnd (busy : Bool) : Statement (.bulbEnd busy) := by
  intro _ l h; cases h

theorem busyOpenEdge (cycles : Nat) : Statement (.busyOpenEdge cycles) := by
  intro _ l h; cases h

theorem busyWriteEdge (cycles : Nat) : Statement (.busyWriteEdge cycles) := by
  intro _ l h; cases h

theorem openWatchExpiry : Statement .openWatchExpiry := by
  intro _ l h; cases h

theorem writeWatchExpiry : Statement .writeWatchExpiry := by
  intro _ l h; cases h

theorem writeFixedExpiry : Statement .writeFixedExpiry := by
  intro _ l h; cases h

theorem retryHoldEnd : Statement .retryHoldEnd := by
  intro _ l h; cases h

theorem tripEdge (rising : Bool) : Statement (.tripEdge rising) := by
  intro _ l h; cases h

theorem integrationEnd (count : Nat) : Statement (.integrationEnd count) := by
  intro _ l h; cases h

theorem computationEnd : Statement .computationEnd := by
  intro _ l h; cases h

theorem darkIntegrationEnd (count : Nat) : Statement (.darkIntegrationEnd count) := by
  intro _ l h; cases h

theorem measurementTimerExpiry : Statement .measurementTimerExpiry := by
  intro _ l h; cases h

theorem measurementEnd (volts : Nat) (temp : Int) : Statement (.measurementEnd volts temp) := by
  intro _ l h; cases h

theorem heaterFrameBoundary : Statement .heaterFrameBoundary := by
  intro _ l h; cases h

theorem heaterOnTimeEnd : Statement .heaterOnTimeEnd := by
  intro _ l h; cases h

theorem clockPeriodEnd (count : Nat) : Statement (.clockPeriodEnd count) := by
  intro _ l h; cases h

theorem clockStartTimeout : Statement .clockStartTimeout := by
  intro _ l h; cases h

theorem vbatReturn : Statement .vbatReturn := by
  intro _ l h; cases h

end Sys2Proof.Laws.Line
end

