-- ==== Sys2Proof/Laws/Shared.lean ====
section
/-! SUPPORT. What the other shared operations do, each said once: the notice set, the frame log, the history, clamps,
the partition, slots, and numbers written and read back. -/

namespace Sys2Proof.Machine

/-! ### Clamps and counters -/

theorem clampInt_bounds {lo hi : Int} (x : Int) (h : lo ≤ hi) : lo ≤ clampInt lo hi x ∧ clampInt lo hi x ≤ hi := by
  unfold clampInt; omega

theorem clampInt_id {lo hi x : Int} (h1 : lo ≤ x) (h2 : x ≤ hi) : clampInt lo hi x = x := by
  unfold clampInt; omega

theorem clampNat_bounds {lo hi : Nat} (x : Int) (h : lo ≤ hi) : lo ≤ clampNat lo hi x ∧ clampNat lo hi x ≤ hi := by
  unfold clampNat clampInt; omega

theorem clampNat_id {lo hi : Nat} {x : Int} (h1 : (lo : Int) ≤ x) (h2 : x ≤ hi) : clampNat lo hi x = x.toNat := by
  unfold clampNat clampInt; omega

theorem addUpTo_le (top a n : Nat) : addUpTo top a n ≤ top := by unfold addUpTo; omega

/-! ### The notice set (R176, R177) -/

theorem Notice.mem_all (k : Notice) : k ∈ Notice.all := by cases k <;> decide

@[simp] theorem mem_raise (j k : Notice) (s : State) : j ∈ (raise k s).notices ↔ j = k ∨ j ∈ s.notices := by
  simp [raise, refreshAttn, Notice.mem_all]

/-- A raise leaves the set in the fixed order, and ATTN as R181 says. -/
theorem raise_attnFollows (k : Notice) (s : State) : AttnFollows (raise k s) := by
  refine ⟨?_, rfl⟩
  have h : (raise k s).notices =
      Notice.all.filter (fun j => decide (j = k) || s.notices.contains j) := rfl
  conv_lhs => rw [h]
  refine List.filter_congr fun x _ => ?_
  simp

/-! ### The frame log and the history (R112, R152, R153) -/

theorem appendRecord_length (log : List FrameRecord) (r : FrameRecord) (h : log.length ≤ Config.logSize) :
    (appendRecord log r).length ≤ Config.logSize := by
  simp [appendRecord, Config.logSize] at *; omega

theorem appendRecord_room (log : List FrameRecord) (r : FrameRecord) (h : log.length < Config.logSize) :
    appendRecord log r = log ++ [r] := by
  have : log.length + 1 - Config.logSize = 0 := by omega
  simp [appendRecord, this]

theorem appendRecord_newest (log : List FrameRecord) (r : FrameRecord) :
    newestNumber (appendRecord log r) = some r.number := by
  have h : log.length + 1 - Config.logSize ≤ log.length := by simp [Config.logSize]
  rw [newestNumber, appendRecord, List.drop_append_of_le_length h]
  simp

theorem pushHistory_length (h : List Nat) (b : Nat) (hl : h.length ≤ Config.historySize) :
    (pushHistory h b).length ≤ Config.historySize := by
  simp [pushHistory, Config.historySize] at *; omega

theorem mem_pushHistory {h : List Nat} {b x : Nat} (hx : x ∈ pushHistory h b) : x ∈ h ∨ x = b := by
  simpa using List.mem_of_mem_drop hx

theorem brightness_le (net stage : Nat) (mc : Int) : brightness net stage mc ≤ 255 :=
  (clampNat_bounds _ (by decide)).2

/-! ### The partition (R120 to R122) -/

theorem lowerGain_le (e esMax g : Nat) : lowerGain e esMax g ≤ g := by
  induction g with
  | zero => simp [lowerGain]
  | succ g ih => unfold lowerGain; split <;> omega

theorem gainFor_le (e gPrev esMax gMax : Nat) : gainFor e gPrev esMax gMax ≤ gMax := by
  unfold gainFor
  split
  · exact Nat.min_le_left _ _
  · exact Nat.le_trans (lowerGain_le _ _ _) (Nat.min_le_right _ _)

theorem shutterFor_bounds (e g esMin esMax : Nat) (h : esMin ≤ esMax) :
    esMin ≤ (shutterFor e g esMin esMax).1 ∧ (shutterFor e g esMin esMax).1 ≤ esMax := by
  simp only [shutterFor]; (repeat' split) <;> simp only [] <;> omega

@[simp] theorem partition_path (e gPrev : Nat) (seg : Segment) (path : Path) :
    (partition e gPrev seg path).path = path := rfl

@[simp] theorem partition_e (e gPrev : Nat) (seg : Segment) (path : Path) : (partition e gPrev seg path).e = e := rfl

/-! ### Slots (R1) -/

theorem slotAt_setSlot_same {n : Nat} (r : Option Segment) (s : State) (h : n < s.plan.slots.length) :
    slotAt (setSlot n r s) n = r := by
  simp [slotAt, setSlot, h]

theorem slotAt_setSlot_other {n m : Nat} (r : Option Segment) (s : State) (h : m ≠ n) :
    slotAt (setSlot n r s) m = slotAt s m := by
  simp [slotAt, setSlot, List.getD_eq_getElem?_getD, Ne.symm h]

/-! ### The wait of an ACTIVE run (R22) and the rail-on ask (R67, R132) -/

@[simp] theorem waitUnscheduled_wait (seg : Segment) (s : State) : (waitUnscheduled seg s).seq.wait.isSome = true := by
  simp only [waitUnscheduled, placeTrip]; (repeat' split) <;> rfl

/-- R22, R27: a schedule that is started, or held, leaves the segment in one of the four waits. -/
theorem startSchedule_wait {s : State} {seg : Segment} (atCompletion : Bool) (target : Tick)
    (h : liveSeg s = some seg) : (startSchedule atCompletion target s).seq.wait.isSome = true := by
  simp only [startSchedule, placeDue, placeTrip, h]; (repeat' split) <;> simp

/-- R44: a schedule held by a retry sets no due time. -/
theorem startSchedule_retrying {s : State} (atCompletion : Bool) (target : Tick) (h : s.engine.retrying = true) :
    startSchedule atCompletion target s = holdSchedule s := by
  simp only [startSchedule, holdSchedule, h, Bool.true_or, if_true]

/-- R67: a shot's measure instant makes the ask exactly where no shot's or retry's ask stands. -/
theorem shotMayAsk_iff (s : State) : shotMayAsk s = true ↔ s.engine.ask = .none ∨ s.engine.ask = .holdWaiting := by
  unfold shotMayAsk; split <;> simp_all

/-- R67, R132: what the arrival of a measure instant can do: nothing, or one ask for the shot. -/
theorem measureArrives_cases (shot : Shot) (s : State) :
    measureArrives shot s = s ∨
      ((s.engine.ask = .none ∨ s.engine.ask = .holdWaiting) ∧ shot.measureAt ≤ now s ∧
        measureArrives shot s = askRail .shotWaiting s) := by
  unfold measureArrives
  split
  · rename_i h
    simp only [Bool.and_eq_true, shotMayAsk_iff, arrived, decide_eq_true_eq] at h
    exact .inr ⟨h.2, h.1, rfl⟩
  · exact .inl rfl

/-! ### Numbers and fields as text (R159, R167) -/

/-- The characters of the ten digits. -/
theorem digit_char {d : Nat} (h : d < 10) :
    isDigit (Char.ofNat ('0'.toNat + d)) = true ∧ (Char.ofNat ('0'.toNat + d)).toNat - '0'.toNat = d := by
  have : ∀ d < 10, isDigit (Char.ofNat ('0'.toNat + d)) = true ∧
      (Char.ofNat ('0'.toNat + d)).toNat - '0'.toNat = d := by decide
  exact this d h

/-- The digits before `acc` read as the number: their value, their kind and how many they are. -/
theorem digitsOf_spec (fuel n : Nat) (acc : Text) (h : n < 10 ^ fuel) (hf : 0 < fuel) :
    ∃ ds : Text, digitsOf fuel n acc = ds ++ acc ∧ digitsValue ds = n ∧ ds.all isDigit = true ∧ ds ≠ [] ∧
      ∀ k, 0 < k → n < 10 ^ k → ds.length ≤ k := by
  induction fuel generalizing n acc with
  | zero => omega
  | succ fuel ih =>
    unfold digitsOf
    by_cases hn : n < 10
    · refine ⟨[Char.ofNat ('0'.toNat + n)], ?_, ?_, ?_, by simp, ?_⟩
      · simp [hn]
      · simpa [digitsValue] using (digit_char hn).2
      · simpa using (digit_char hn).1
      · intro k hk _; simpa using Nat.succ_le_of_lt hk
    · have hd : n % 10 < 10 := Nat.mod_lt _ (by omega)
      have hfu : 0 < fuel := by
        rcases fuel with _ | f
        · simp at h; omega
        · omega
      have hlt : n / 10 < 10 ^ fuel := by rw [pow_succ] at h; omega
      obtain ⟨ds, h1, h2, h3, h4, h5⟩ := ih (n / 10) (Char.ofNat ('0'.toNat + n % 10) :: acc) hlt hfu
      refine ⟨ds ++ [Char.ofNat ('0'.toNat + n % 10)], ?_, ?_, ?_, by simp, ?_⟩
      · rw [if_neg hn, h1]; simp
      · have e : ∀ (a : Text) (c : Char), digitsValue (a ++ [c]) = digitsValue a * 10 + (c.toNat - '0'.toNat) := by
          intro a c; simp [digitsValue, List.foldl_append]
        rw [e, h2, (digit_char hd).2]; omega
      · rw [List.all_append, h3]; simpa using (digit_char hd).1
      · intro k hk hlt
        rcases k with _ | k
        · omega
        · have hk' : 0 < k := by
            rcases k with _ | k
            · simp at hlt; omega
            · omega
          have := h5 k hk' (by rw [pow_succ] at hlt; omega)
          simpa using this

theorem natText_spec {n k : Nat} (h : n < 10 ^ k) (hk : 0 < k) (hk20 : k ≤ 20) :
    digitsValue (natText n) = n ∧ (natText n).all isDigit = true ∧ natText n ≠ [] ∧ (natText n).length ≤ k := by
  have h20 : n < 10 ^ 20 := lt_of_lt_of_le h (Nat.pow_le_pow_right (by omega) hk20)
  obtain ⟨ds, h1, h2, h3, h4, h5⟩ := digitsOf_spec 20 n [] h20 (by omega)
  simp only [List.append_nil] at h1
  rw [natText, h1]
  exact ⟨h2, h3, h4, h5 k hk h⟩

theorem natText_digitsOk {n : Nat} (h : n < 10 ^ 10) : digitsOk (natText n) = true := by
  obtain ⟨-, h3, h4, h5⟩ := natText_spec h (by omega) (by omega)
  have h5' : (natText n).length ≤ Config.numberDigits := h5
  simp only [digitsOk, h3, decide_eq_true h5', Bool.and_true, Bool.not_eq_true', List.isEmpty_eq_false_iff]
  exact h4

/-- R167: a number of at most ten digits is read back from its decimal form. -/
theorem readNumber_natText {n : Nat} (h : n < 10 ^ 10) : readNumber (natText n) = some (n : Int) := by
  have hok := natText_digitsOk h
  obtain ⟨h2, h3, h4, -⟩ := natText_spec h (by omega) (by omega)
  unfold readNumber
  split
  · rename_i ds heq
    rw [heq] at h3
    simp [isDigit] at h3
  · simp [hok, h2]

/-- R167: a negative number is read back from its decimal form. -/
theorem readNumber_intText {v : Int} (h : v.natAbs < 10 ^ 10) : readNumber (intText v) = some v := by
  unfold intText
  split
  · simp only [readNumber, natText_digitsOk h, if_true, (natText_spec h (by omega) (by omega)).1]
    congr 1; omega
  · rw [readNumber_natText h]; congr 1; omega

/-- No character of a decimal number is a separator of fields. -/
theorem natText_digit {n : Nat} (h : n < 10 ^ 10) {c : Char} (hc : c ∈ natText n) : isDigit c = true := by
  have := (natText_spec h (by omega) (by omega)).2.1
  exact List.all_eq_true.mp this c hc

/-- A field is cut at its equals sign. -/
theorem cutAt_fieldText {key value : Text} (h : '=' ∉ key) : cutAt '=' (fieldText key value) = some (key, value) := by
  unfold fieldText
  induction key with
  | nil => simp [cutAt]
  | cons c cs ih =>
    simp only [List.mem_cons, not_or] at h
    simp [cutAt, Ne.symm h.1, ih h.2]

theorem splitOn_none {c : Char} {t : Text} (h : c ∉ t) : splitOn c t = [t] := by
  induction t with
  | nil => rfl
  | cons x xs ih =>
    simp only [List.mem_cons, not_or] at h
    simp [splitOn, Ne.symm h.1, ih h.2]

/-- A pair is split at its comma. -/
theorem splitOn_pairText {a b : Text} (ha : ',' ∉ a) (hb : ',' ∉ b) : splitOn ',' (pairText a b) = [a, b] := by
  unfold pairText
  induction a with
  | nil => simp [splitOn, splitOn_none hb]
  | cons x xs ih =>
    simp only [List.mem_cons, not_or] at ha
    simp [splitOn, Ne.symm ha.1, ih ha.2]

@[simp] theorem readSegKey_text (k : SegKey) : readSegKey k.text = some k := by cases k <;> rfl

@[simp] theorem readSetKey_text (k : SetKey) : readSetKey k.text = some k := by cases k <;> rfl

theorem segKey_noEquals (k : SegKey) : '=' ∉ k.text := by cases k <;> decide

theorem setKey_noEquals (k : SetKey) : '=' ∉ k.text := by cases k <;> decide

end Sys2Proof.Machine
end

