-- ==== Sys2Proof/Tests/Slice0.lean ====
section
/-! SUPPORT. Tests: the checks of WellFormed on ill-formed terms, the worked examples and tables of spec/ (each test
names its source), and for every statement with hypotheses a concrete state that meets them. -/

namespace Sys2Proof.Tests

open Sys2Proof Sys2Proof.Machine

/-! ### No word spells a command -/

theorem test_no_word_decodes : decodeTableWord 16 0x1234 = none := by decide

theorem test_withFetchWord_keeps_state : State.reset.withFetchWord 16 0x1234 = State.reset := rfl

/-! ### WellFormed refuses an ill-formed term of each check -/

theorem test_wf_known_verb_is_not_unknown : (Instr.unknownVerb "LOAD".toList []).wf = false := by decide
theorem test_wf_small_letter : (Instr.start ["a".toList]).wf = false := by decide
theorem test_wf_space_in_token : (Instr.start ["1 2".toList]).wf = false := by decide
theorem test_wf_empty_token : (Instr.start [[]]).wf = false := by decide
theorem test_wf_line_too_long : (Instr.load [List.replicate 92 'A']).wf = false := by decide
theorem test_wf_line_just_fits : (Instr.load [List.replicate 91 'A']).wf = true := by decide
theorem test_wf_final_line_with_plus : (Instr.load ["3".toList, ['+']]).wf = false := by decide
theorem test_wf_part_line_too_long : (Instr.loadPart [List.replicate 90 'A']).wf = false := by decide
theorem test_wf_show_without_slot : (Instr.showSlot []).wf = false := by decide
theorem test_wf_time_without_arguments : (Instr.timeSet []).wf = false := by decide
theorem test_wf_meter_last_has_its_own_row : (Instr.meter ["LAST".toList]).wf = false := by decide
theorem test_wf_open_edge_past_any_watch : (Instr.busyOpenEdge 131073).wf = false := by decide
theorem test_wf_write_edge_past_any_watch : (Instr.busyWriteEdge 1966081).wf = false := by decide
theorem test_wf_count_past_the_counter : (Instr.integrationEnd 65536).wf = false := by decide
theorem test_wf_dark_count_past_the_counter : (Instr.darkIntegrationEnd 65536).wf = false := by decide

/-! ### Helpers -/

/-- The state after a command, the state before it where it stops. -/
def after (c : Instr) (s : State) : State :=
  match exec c s with
  | .next t => t
  | _ => s

/-- The reply that the link is sending. -/
def reply (s : State) : List Text :=
  match s.link.state with
  | .sending r _ => r
  | _ => []

/-- The tokens of a line. -/
def toks (line : String) : List Token := tokensOf line.toList

/-- A part that takes lines at once, after the start-up sequence. -/
def free : State := { State.reset with startUp := .working }

/-- A plain TIMED record. -/
def gFix : Segment :=
  { iv := 8, n := 0, endAt := none, win := none, days := 127, src := .timed, div := 1, mode := .fix 3,
    esMin := 0, esMax := 20, gm := 0, fol := .finish }

/-- A TRIP record with a window. -/
def gTrip : Segment := { gFix with src := .trip, win := some (60, 120) }

/-- A MET record. -/
def gMet : Segment := { gFix with mode := .met 150 0 0 3 2 3 20 190, gm := 1 }

/-- The record is loaded in slot `n`. -/
def loaded (n : Nat) (g : Segment) (s : State) : State :=
  { s with plan := { s.plan with slots := s.plan.slots.set n (some g) } }

/-- A run of slot 0 with this record. -/
def running (r : RunState) (g : Segment) : State :=
  { loaded 0 g free with
    seq := { Sequencer.cold with run := r, current := some 0, live := some { slot := 0, seg := g, bo := 0 },
                                 wait := if r = .active then some .between else none } }

/-- A held shot due at tick 5000, and the same in flight. -/
def shot : Shot :=
  { due := 5000, measureAt := 1000, railOnAt := 1003, primeAt := 4488, exposure := none, heldMeter := false,
    overFlag := false, underFlag := false, flight := none }

/-- The result of 6.10.1. -/
def result : Exposure :=
  { e := 63, g := 0, es := 63, t := 234752, clampHi := false, clampLo := false, path := .metered 137 (-8) }

/-- What a shot has gathered, by its sync mode. -/
def gathered (sy : SyncMode) (lag : Option Nat) : Flight :=
  { stamp := some (1750101175, 0), slot := 12, index := 5, stretched := false, skip := 0, trip := none, sy := sy,
    ot := 16, wt := 160, wf := 16, fastLeft := none, coarse := false, bulbLeft := 0, openLeft := 0, noSync := false,
    lag := lag, wr := none, writeLeft := 0, fixedLeft := none }

/-- The shot in flight. -/
def flying (f : Flight) : Shot := { shot with exposure := some result, flight := some f }

/-- A shot pending in a phase, at `t` ticks. -/
def pendingAt (p : Phase) (t : Nat) (g : Segment) : State :=
  { running .active g with
    seq := { (running .active g).seq with stage := .pending 5000 }
    engine := { Engine.cold with phase := p, shot := some shot }
    cal := { free.cal with seconds := t / 1024, fraction := t % 1024 }
    pins := { free.pins with camPwr := railOn p } }

/-- A shot priming with this exposure. -/
def primingWith (x : Option Exposure) (g : Segment) : State :=
  { pendingAt .prime 5000 g with
    seq := { (running .active g).seq with stage := .priming 5000 }
    engine := { Engine.cold with phase := .prime, shot := some { shot with exposure := x } }
    expo := { Calculator.cold with result := x } }

/-- A shot in flight in a phase. -/
def inFlightWith (p : Phase) (f : Flight) : State :=
  { running .active gFix with
    seq := { (running .active gFix).seq with stage := .inFlight 5000 }
    engine := { Engine.cold with phase := p, shot := some (flying f) }
    clock := { Clock.cold with state := if p = .exposing then .running else .off, shotAsks := decide (p = .exposing) }
    pins := { free.pins with camPwr := true, trig := decide (p = .exposing) } }

/-- The meter in a state. -/
def metering (m : MeterState) : State :=
  { free with meter := { free.meter with state := m }, clock := { Clock.cold with state := .running, meterAsks := true } }

/-! ### Worked examples and tables of spec/ -/

/-- 11.4, R187: the first power-up. -/
theorem test_power_on_leads_to_reset : exec .powerOn State.unpowered = .next State.reset := rfl

/-- The table of R9. -/
theorem test_smallest_intervals :
    [63, 79, 96, 104, 112, 120, 128, 136, 144, 151].map smallestInterval =
      [8, 20, 70, 136, 267, 529, 1053, 2102, 4199, 7697] := by decide

/-- The table of R9 and R73. -/
theorem test_shutter_times : [0, 63, 79, 80, 120, 151].map shutterTime =
    [1000, 234752, 939008, 1024000, 32768000, 480772096] := by decide

/-- The table of R73. -/
theorem test_slow_cycles : [1000, 939008, 1024000, 32768000, 480772096].map slowCycles =
    [33, 30769, 33554, 1073742, 15753940] := by decide

/-- The table of R94. -/
theorem test_logarithms : [0, 1, 16, 28, 1500, 23000, 65535].map log8 = [0, 0, 32, 38, 83, 115, 127] := by decide

/-- R103, 6.10.1: N = 23,000 at stage 1 with MC = −10. -/
theorem test_brightness : brightness 23000 1 (-10) = 137 := by decide

/-- R93: D = 40 takes 0, 2, 10 and 40 off at stages 0 to 3. -/
theorem test_dark_share : [0, 1, 2, 3].map (fun g => netCount 100 40 g) = [100, 98, 90, 60] := by decide

/-- The table of R134. -/
theorem test_effective_volts :
    effectiveVolts 3480 .rest (-10) 200 4 = 3520 ∧ effectiveVolts 3105 .loaded (-12) 200 4 = 3353 ∧
      effectiveVolts 5900 .loaded 20 200 4 = 6000 ∧ effectiveVolts 3300 .rest (-40) 0 15 = 3900 := by decide

/-- The weekday-mask table of 3.6: W after the close on day 20,257. -/
theorem test_next_opening :
    nextOpening (some (1080, 390)) 62 (1750228200 * 1024) = some 1792453017600 := by decide

/-- The same table: open at 02:00 on weekday 6, closed at 02:00 on weekday 0. -/
theorem test_window_across_midnight :
    windowOpen (some (1080, 390)) 62 ((1750032000 + 2 * 86400 + 7200) * 1024) = true ∧
      windowOpen (some (1080, 390)) 62 ((1750032000 + 3 * 86400 + 7200) * 1024) = false := by decide

/-- R114: the dawn segment's bias at i = 44, 45, 360 and 719. -/
theorem test_bias_ramp : [44, 45, 360, 719].map (biasAt (-16) 0 720) = [-16, -15, -8, 0] := by decide

/-- R121: with ES max 120, gain 1 is reached at 121 and left at 116. -/
theorem test_gain_hysteresis :
    [120, 121].map (fun e => gainFor e 0 120 4) = [0, 1] ∧ [116, 117].map (fun e => gainFor e 1 120 4) = [0, 1] := by
  decide

/-- The record of slot 12 (1.3, 6.10.1). -/
def slot12 : Segment :=
  { iv := 560, n := 9, endAt := none, win := none, days := 127, src := .timed, div := 1,
    mode := .met 200 0 (-16) 3 2 3 20 190, esMin := 24, esMax := 120, gm := 4, fol := .ask }

/-- 6.10.1: the fifth frame of slot 12. -/
theorem test_metered_frame :
    exposureOf { slot := 12, seg := slot12, bo := 0 } 4
      { history := [140, 138], eHeld := some 66, gHeld := 0, result := none } (.available 137) = result := by decide

/-- 1.9, steps 1 to 3: an accepted LOAD, one refused by the ceiling check, and the corrected one. -/
theorem test_load_chain :
    reply (after (.load (toks "3 IV=80 N=0 UNTIL=1750096800 MODE=MET KEY=200 ES=0,63 FOL=4")) free) =
        ["=LOAD 3".toList] ∧
      reply (after (.load
        (toks "4 IV=500 N=0 UNTIL=1750141800 WIN=1080,390 MODE=MET KEY=196 ES=24,120 GM=4 FOL=5")) free) =
        ["!CONFLICT LOAD IV".toList] ∧
      reply (after (.load
        (toks "4 IV=560 N=0 UNTIL=1750141800 WIN=1080,390 MODE=MET KEY=196 ES=24,120 GM=4 FOL=5")) free) =
        ["=LOAD 4".toList] := by decide

/-- 1.9, step 8: the part line is answered with the plus sign. -/
theorem test_load_part : reply (after (.loadPart
    (toks "5 IV=80 N=720 WIN=330,720 MODE=MET KEY=200 BIAS=-16,0")) free) = ["=LOAD 5 +".toList] := by decide

/-- 1.9, steps 5 and 6: ADJUST KEY, and CLEAR of a slot in use. -/
theorem test_adjust_and_clear :
    reply (after (.adjust (toks "KEY=204")) (running .active { gMet with iv := 80 })) =
        ["=ADJUST IV=80 KEY=204 BO=0".toList] ∧
      reply (after (.clear (toks "0")) (running .active gMet)) = ["!IN_USE CLEAR".toList] := by decide

/-- R55: the example of TIME. -/
theorem test_time_report : reply (after (.timeSet (toks "1750096800 0")) free) =
    ["=TIME 1750096800 0 VALID DAY=20255 MIN=1080 WD=4".toList] := by decide

/-- R170: ST=3 HD=90 are taken as 2 and 64; VT and VR in the two orders. -/
theorem test_set_clamps :
    reply (after (.set (toks "ST=3 HD=90")) free) = ["=SET ST=2 HD=64".toList] ∧
      reply (after (.set (toks "VT=3700 VR=3600")) free) = ["=SET VT=3700 VR=3600".toList] ∧
      reply (after (.set (toks "VR=3600 VT=3700")) free) = ["=SET VR=3450 VT=3700".toList] := by decide

/-- R103 and R104: the two examples. -/
theorem test_meter_reports :
    reply (after .meterLast { free with meter := { free.meter with oneOff := .done 23000 1 137 false false } }) =
        ["=METER LAST DONE N=23000 STAGE=1 B=137 FLAGS=NONE".toList] ∧
      reply (after .meterDark { free with meter := { free.meter with dark := 40, tcal := some (-3), outcome := .done } }) =
        ["=METER DARK D=40 TCAL=-3 STATE=IDLE LAST=DONE".toList] := by decide

/-- R178: the example of POLL. -/
theorem test_poll : reply (after (.poll []) { free with notices := [.segmentEnd, .needNext, .level] }) =
    ["=POLL SEGMENT_END NEED_NEXT LEVEL".toList] := by decide

set_option maxRecDepth 20000 in
/-- 9.10: the STATUS line. -/
theorem test_status : reply (after (.status []) { free with
      seq := { Sequencer.cold with run := .active, current := some 12, shotIndex := 5, wait := some .between,
                                   live := some { slot := 12, seg := slot12, bo := 0 }, stage := .pending 1792103639040 }
      power := { free.power with last := some { volts := 3480, kind := .rest, temp := -10, veff := 3520 } }
      engine := { Engine.cold with phase := .ready }, expo := { Calculator.cold with eHeld := some 63 }
      cal := { free.cal with valid := true }
      log := [recordOf free shot result (gathered .none none) false 696,
              recordOf free shot result (gathered .none none) false 1207] }) =
    ["=STATUS RUN=ACTIVE REASON=NONE CURRENT=12 ARMED=NONE INDEX=5 DUE=1750101210,0 WAIT=BETWEEN LEVEL=NORMAL V=3480 TEMP=-10 RAIL=READY EHELD=63 GHELD=0 RANGE=NONE CALENDAR=VALID OLDEST=696 NEWEST=1207 CLOCK=OFF".toList] := by
  decide

set_option maxRecDepth 20000 in
/-- 8.7: the record line of frame 1207. -/
theorem test_record_line :
    recordLine (recordOf
        { free with power := { free.power with last := some { volts := 3480, kind := .rest, temp := -10, veff := 3520 } } }
        shot result { gathered .busyHigh (some 41) with wr := some 1199 } false 1207) =
      "=FRAME N=1207 TIME=1750101175,0 SLOT=12 I=5 E=63 ES=63 G=0 TUS=234752 B=137 BIAS=-8 FLAGS=NONE SKIP=0 LAG=41 WR=1199 V=3480 TEMP=-10".toList := by
  decide

/-- 9.10, second case: the 97th character sets the long mark. -/
theorem test_long_mark :
    (after (.receiveCharacter 65 false) { free with link := { free.link with buffer := List.replicate 96 'A' } }).link.longMark =
      true := by decide

/-- R73, R147: a good check period takes its count off the fast count of a bulb: 4 × 234,752 less 4,000. -/
theorem test_fast_bulb_counts :
    (((after (.clockPeriodEnd 4000)
      { inFlightWith .exposing { gathered .none none with fastLeft := some 939008 } with
        clock := { Clock.cold with state := .running, shotAsks := true } }).engine.shot.bind Shot.flight).bind
      Flight.fastLeft) = some 935008 := by decide

/-- R44: a handoff in a camera retry keeps the grid, with the interval of the segment that has ended. -/
theorem test_retry_grid_survives_handoff :
    (after (.nextSegment []) { loaded 1 gTrip (running .active gFix) with
        seq := { (running .active gFix).seq with armed := some 1, retryGrid := some { due := 5, completed := 6, iv := none } }
        engine := { Engine.cold with phase := .retryOff, retrying := true } }).seq.retryGrid =
      some { due := 5, completed := 6, iv := some 8 } := by decide

/-- R53: a domain that power on VBKP has restarted counts from 0 with the lost marker set. -/
theorem test_domain_restarts_on_vbkp :
    (after .tickIncrement (after .backupDomainLoss { free with supply := .below })).cal =
      { seconds := 0, fraction := 1, valid := false, span := 0, correction := 0, lost := true, powered := true } := by decide

/-- R187: nothing of a start-up sequence that a brownout breaks off survives, so the next one reports the loss again. -/
theorem test_broken_start_reports_loss_again :
    (after .brownout State.reset).cal.lost = true ∧
      (after .powerOn (after .brownout State.reset)).notices = [.timeLost, .storeBad] ∧
      (after .brownout free).cal.lost = false := by decide

/-- R163: the character A (41H) as a start bit, eight data bits least significant first, and a stop bit. -/
theorem test_txd_character : characterBits 'A' = [false, true, false, false, false, false, false, true, false, true] := by
  decide

/-! ### Witnesses: for each statement with hypotheses, a state and operands that meet them, clause by clause -/

theorem witness_StepRunsFrontCommand : State.reset.pending = [] := by decide

theorem witness_EveryRowRunsWithinItsFrame :
    (Instr.unknownVerb "FOO".toList []).wf = true ∧ Instr.powerOn.wf = true ∧ (Instr.poll []).wf = true := by decide

theorem witness_CharactersMakeLines :
    free.startUp ≠ .stopped ∧
    (32 ≤ (32#8).toNat ∧ (126#8).toNat ≤ 126 ∧ (List.replicate 95 'A').length < 96) ∧
    96 ≤ (List.replicate 96 'A').length ∧ (126 < (127#8).toNat ∧ (31#8).toNat < 32) ∧
    ({ free with link := { free.link with afterCr := true } } : State).link.afterCr = true ∧
    ({ free with link := { free.link with badMark := true } } : State).link.longMark = false ∧
    (∀ ch ∈ [' ', ' '], ch = ' ') ∧ tokensOf "ID".toList = ["ID".toList] ∧
    lineOf (.ident []) = some (.command ["ID".toList]) :=
  ⟨by decide, by decide, by decide, by decide, by decide, by decide, by simp, by decide, by decide⟩

theorem witness_LinesWaitTheirTurn :
    lineOf (.status []) = some (.command ["STATUS".toList]) ∧
    (free.startUp ≠ .stopped ∧ ({ free with link := { free.link with waiting := some .bad } } : State).link.waiting.isSome = true) ∧
    (State.reset.startUp ≠ .stopped ∧ State.reset.startUp ≠ .working ∧ State.reset.link.waiting = none) ∧
    ((setLink (.sending [] .none) free).link.state = .sending [] .none ∧ free.link.waiting = none) ∧
    free.startUp = .working ∧ (setLink (.sending ["A".toList] .warm) free).link.state = .sending ["A".toList] .warm ∧
    (txdCharacters (setLink (.sending ["A".toList] .warm) free))[0]? = some 'A' ∧ free.link.state = .ready := by decide

theorem witness_UnfitCommandsRefused :
    LinkFree free ∧ "FOO".toList ∉ verbNames ∧ (LinkFree (running .active gFix) ∧ (running .active gFix).seq.run ≠ .idle) ∧
    (free.seq.run = .idle ∧ slotAt free 47 = none) ∧ slotAt (running .active gFix) 47 = none ∧
    (∀ r, free.seq.run ≠ .paused r) ∧ readNumber "X".toList = none ∧ readNumber "48".toList = some 48 ∧
    readNumber "-1".toList = some (-1) := by
  refine ⟨by decide, by decide, by decide, by decide, by decide, ?_, by decide, by decide, by decide⟩
  intro r h; cases h

theorem witness_IdAndStatusReport : LinkFree free := by decide

theorem witness_notStaged : notStaged 47 free := by intro st h; cases h

theorem witness_LoadTakesShownRecord :
    LinkFree free ∧ (47 : Nat) < 48 ∧ gMet.valid = true ∧ notStaged 47 free ∧ inUse (running .active gMet) 0 = true ∧
      notStaged 0 (running .active gMet) :=
  ⟨by decide, by decide, by decide, witness_notStaged, by decide, by intro st h; cases h⟩

theorem witness_LoadJoinsPartLines :
    LinkFree free ∧ gFix.valid = true ∧ notStaged 47 free ∧
      (segmentFields gFix).take 3 ++ (segmentFields gFix).drop 3 = segmentFields gFix ∧
      ((segmentFields gFix).drop 3).take 2 ++ ((segmentFields gFix).drop 3).drop 2 = (segmentFields gFix).drop 3 ∧
      ∀ fs, LinkFree { free with plan := { free.plan with staging := some { slot := 47, fields := fs } } } ∧
        inUse { free with plan := { free.plan with staging := some { slot := 47, fields := fs } } } 47 = false :=
  ⟨by decide, by decide, witness_notStaged, List.take_append_drop 3 _, List.take_append_drop 2 _,
    fun _ => ⟨⟨rfl, rfl, rfl⟩, rfl⟩⟩

theorem witness_EveryLoadIsChecked :
    (LinkFree free ∧ (toks "3 IV=80").getLast? ≠ some plusMark ∧ (stagedFields free.plan).all fieldFormed = true) ∧
    (let g := { gFix with iv := 528, esMin := 24, esMax := 120, gm := 4 }
     g.src = .timed ∧ timingValid g = true ∧ limitsValid g = true ∧ modeValid g.n g.mode = true ∧
       followValid g.fol = true ∧ g.iv * 62500 < shutterTime g.esMax + 250000) := by decide

/-- A token of this record's field list does not begin with ES and an equals sign. -/
theorem noEs_of_take {l : List Token} (h : ∀ t ∈ l, t.take 3 ≠ "ES=".toList) : ∀ t ∈ l, ¬ givesKey .es t :=
  fun t ht ⟨_, hu⟩ => h t ht (hu ▸ rfl)

theorem witness_EveryLoadIsChecked_syntax :
    (LinkFree free ∧ readNumber "X".toList = none ∧ gFix.valid = true ∧ notStaged 47 free ∧
      (segmentFields gFix).take 5 ++ (segmentFields gFix).drop 5 = segmentFields gFix) ∧
    ((∀ c ∈ ['I', 'V'], c ≠ '=') ∧ (segmentFields gFix).drop 5 ≠ [] ∧ (∀ j : SegKey, j.text ≠ "XX".toList)) ∧
    ((∃ t ∈ segmentFields gFix, givesKey .iv t) ∧ ∀ t ∈ (segmentFields gFix).take 5, ¬ givesKey .es t) ∧
    (malformedFor .es "0,1,2".toList ∧ malformedFor .es "0".toList ∧ malformedFor .iv [] ∧ malformedFor .src "TIMER".toList) ∧
    (((segmentFields gFix).take 5).Sublist (segmentFields gFix) ∧
      neededKeys gFix = [.iv, .n, .mode, .e] ++ .es :: [] ∧
      ∀ j ∈ [SegKey.iv, .n, .mode, .e], ∃ t ∈ (segmentFields gFix).take 5, givesKey j t) := by
  refine ⟨⟨by decide, by decide, by decide, witness_notStaged, List.take_append_drop 5 _⟩,
    ⟨by simp, by decide, fun j => by cases j <;> decide⟩,
    ⟨⟨_, List.mem_cons_self, _, rfl⟩, noEs_of_take (by decide)⟩,
    ⟨Or.inr ⟨['0'], "1,2".toList, rfl, by simp, by decide⟩, Or.inl (by simp), rfl, by decide, by decide⟩,
    List.take_sublist 5 _, rfl, ?_⟩
  intro j hj
  simp only [List.mem_cons, List.not_mem_nil, or_false] at hj
  obtain rfl | rfl | rfl | rfl := hj
  · exact ⟨"IV=8".toList, by decide, _, rfl⟩
  · exact ⟨"N=0".toList, by decide, _, rfl⟩
  · exact ⟨"MODE=FIX".toList, by decide, _, rfl⟩
  · exact ⟨"E=3".toList, by decide, _, rfl⟩

theorem witness_LoadJoinsPartLines_refusals :
    (LinkFree free ∧ readNumber "X".toList = none ∧ gFix.valid = true ∧ notStaged 47 free ∧
      (segmentFields gFix).take 5 ++ (segmentFields gFix).drop 5 = segmentFields gFix ∧ (∀ c ∈ ['+'], c ≠ '=')) ∧
    ((∀ c ∈ ['X', 'X'], c ≠ '=') ∧ ∀ j : SegKey, j.text ≠ "XX".toList) ∧
    ((∃ t ∈ segmentFields gFix, givesKey .iv t) ∧ (∀ t ∈ (segmentFields gFix).take 5, ¬ givesKey .es t) ∧
      malformedFor .es "0".toList) ∧
    (LinkFree (withStaged 47 [⟨.es, .pair 0 20⟩] free) ∧
      ∀ t ∈ (segmentFields gFix).take 5, ∀ f ∈ ([⟨.es, .pair 0 20⟩] : List Sys2Proof.Machine.Field), ¬ givesKey f.key t) ∧
    (readNumber "48".toList = some 48 ∧ readNumber "-1".toList = some (-1) ∧
      segmentFields gFix = [] ++ "IV=8".toList :: ([] ++ (segmentFields gFix).tail) ∧ givesKey .iv "IV=8".toList ∧
      outsideFor .iv 7 ∧ ∃ r ∈ pairKey .es, (0 : Int) < r.1 ∨ r.2 < 0 ∨ 152 < r.1 ∨ r.2 < 152) ∧
    (readNumber "47".toList = some 47 ∧
      ∀ st, (withStaged 7 [⟨.es, .pair 0 20⟩] free).plan.staging = some st → (st.slot : Int) ≠ 47) := by
  refine ⟨⟨by decide, by decide, by decide, witness_notStaged, List.take_append_drop 5 _, by simp⟩,
    ⟨by simp, fun j => by cases j <;> decide⟩,
    ⟨⟨_, List.mem_cons_self, _, rfl⟩, noEs_of_take (by decide), Or.inl (by simp)⟩,
    ⟨by decide, ?_⟩, ⟨by decide, by decide, by decide, ⟨_, rfl⟩, ⟨_, rfl, by decide⟩, _, rfl, by decide⟩, by decide, ?_⟩
  · intro t ht f hf
    obtain rfl := List.mem_singleton.mp hf
    exact noEs_of_take (l := (segmentFields gFix).take 5) (by decide) t ht
  · intro st h
    cases h
    decide

theorem witness_EveryLoadIsChecked_range :
    (readNumber "48".toList = some 48 ∧ readNumber "-1".toList = some (-1) ∧ free.plan.staging = none) ∧
    (segmentFields gFix = [] ++ "IV=8".toList :: (segmentFields gFix).tail ∧ givesKey .iv "IV=8".toList) ∧
    outsideFor .iv 7 ∧ outsideFor .iv 1382401 ∧ outsideFor .div 2 ∧ outsideFor .fol 48 ∧
    (∃ r ∈ pairKey .es, (0 : Int) < r.1 ∨ r.2 < 0 ∨ 152 < r.1 ∨ r.2 < 152) :=
  ⟨by decide, ⟨by decide, _, rfl⟩, ⟨_, rfl, by decide⟩, ⟨_, rfl, by decide⟩, by decide, by decide, ⟨_, rfl, by decide⟩⟩

theorem witness_EveryLoadIsChecked_conflict :
    (let g := { gFix with esMin := 21 }
     numbersInRange g ∧ combinationKey g = some .es) ∧
    combinationKey { gFix with gm := 1, esMax := 11 } = some .gm ∧
    combinationKey { gFix with mode := .ramp 0 1, n := 1 } = some .n ∧
    combinationKey { gMet with mode := .met 150 0 1 3 2 3 20 190 } = some .bias ∧
    combinationKey { gMet with mode := .met 150 0 0 3 2 3 20 19 } = some .el ∧
    combinationKey { gFix with esMax := 120 } = some .iv ∧
    (foreignKey gFix .bias ∧ foreignKey gMet .er ∧ ∃ r ∈ pairKey .bias, r.1 ≤ (-64 : Int) ∧ (64 : Int) ≤ r.2) ∧
    gFix.win = none ∧ gFix.src = .timed := by
  refine ⟨⟨?_, rfl⟩, by decide, by decide, by decide, by decide, by decide, ⟨trivial, trivial, _, rfl, by decide⟩, rfl, rfl⟩
  simp [numbersInRange, gFix]

theorem witness_ShowReportsSlotsAndPlan :
    LinkFree free ∧ slotAt free 47 = none ∧ slotAt (loaded 47 gMet free) 47 = some gMet ∧
      LinkFree (loaded 47 gMet free) ∧ readNumber "1A".toList = none ∧ readNumber "48".toList = some 48 ∧
      readNumber "-1".toList = some (-1) := by
  decide

theorem witness_ClearEmptiesSlot :
    LinkFree free ∧ LinkFree (running .active gFix) ∧ inUse (running .active gFix) 0 = true ∧
      readNumber "1,2".toList = none ∧ readNumber "48".toList = some 48 ∧ readNumber "-1".toList = some (-1) := by decide

theorem witness_AdjustClampsLiveCopy :
    (-9999999999 : Int).natAbs < 10 ^ 10 ∧ (LinkFree free ∧ free.seq.live = none) ∧
    (LinkFree (running .active gFix) ∧ (running .active gFix).seq.live = some { slot := 0, seg := gFix, bo := 0 } ∧
      gFix.mode = .fix 3 ∧ isMet gFix = false) ∧
    ((running .active gMet).seq.live = some { slot := 0, seg := gMet, bo := 0 } ∧ gMet.mode = .met 150 0 0 3 2 3 20 190) := by
  decide

theorem witness_AdjustClampsLiveCopy_fields :
    let ps : List (AdjustKey × Int) := [(.iv, 7), (.bo, -65), (.key, 256)]
    adjustFormed ps ∧ ps.find? (fun p => p.1 ≠ .iv) = some (.bo, -65) ∧ adjustGives ps .key = some 256 ∧
      (∀ c ∈ ['I', 'V'], c ≠ '=') ∧ (∀ a : AdjustKey, a.text ≠ "XX".toList) ∧ AdjustKey.bo ∈ ps.map Prod.fst ∧
      readNumber "12345678901".toList = none :=
  ⟨by decide, by decide, by decide, by simp, fun a => by cases a <;> decide, by decide, by decide⟩

theorem witness_StartBeginsRun :
    let s := loaded 47 { gFix with endAt := some 1 } { free with cal := { free.cal with valid := true } }
    LinkFree s ∧ s.seq.run = .idle ∧ slotAt s 47 = some { gFix with endAt := some 1 } ∧ s.cal.seconds < 1 ∧
      s.power.level ≠ .reserve ∧ s.engine.retrying = false := by decide

/-- A record whose end time has passed, on the calendar of `valid`. -/
def gPassed (f : Follow) : Segment := { gFix with endAt := some 0, fol := f }

/-- The state on a valid calendar, at second 0. -/
def valid (s : State) : State := { s with cal := { s.cal with valid := true } }

theorem witness_endPassed (f : Follow) (s : State) : endPassed (gPassed f) (valid s) := ⟨rfl, 0, rfl, Nat.zero_le _⟩

theorem witness_endsAtOnce :
    (LinkFree (valid (loaded 47 (gPassed .finish) free)) ∧ (gPassed .finish).fol = .finish) ∧
    (let s := valid (loaded 47 (gPassed (.slot 0)) free)
     slotAt s 47 = some (gPassed (.slot 0)) ∧ s.seq.run = .idle ∧ needsNext s (.slot 0)) ∧
    (let s := valid (loaded 0 gFix (loaded 47 (gPassed (.slot 0)) free))
     slotAt s 47 = some (gPassed (.slot 0)) ∧ slotAt s 0 = some gFix ∧ gFix.endAt = none) ∧
    (gPassed (.slot 47)).fol = .slot 47 := by decide

theorem witness_StopEndsRun :
    (LinkFree free ∧ free.seq.run = .idle) ∧
    (LinkFree (pendingAt .ready 0 gFix) ∧ (pendingAt .ready 0 gFix).seq.run ≠ .idle ∧
      EngineSound (pendingAt .ready 0 gFix)) ∧
    (let s := inFlightWith .exposing (gathered .none none)
     LinkFree s ∧ frameInHand (flying (gathered .none none)) result (gathered .none none) s ∧ s.seq.run ≠ .idle ∧
       EngineSound s) :=
  ⟨by decide, ⟨by decide, by decide, by decide⟩, by decide, by decide, by decide, by decide⟩

theorem witness_PauseAndResume :
    (LinkFree (pendingAt .ready 0 gFix) ∧ EngineSound (pendingAt .ready 0 gFix) ∧
      (pendingAt .ready 0 gFix).seq.run = .active) ∧
    (EngineSound (inFlightWith .writing (gathered .none none)) ∧ inFlight (inFlightWith .writing (gathered .none none)) = true) ∧
    (LinkFree (running .suspended gFix) ∧ EngineSound (running .suspended gFix)) ∧
    (let s := running (.paused .camera) gFix
     LinkFree s ∧ s.seq.run = .paused .camera ∧ s.power.level ≠ .reserve ∧
       s.seq.live = some { slot := 0, seg := gFix, bo := 0 } ∧ s.seq.stage = .none ∧ s.engine.retrying = false) ∧
    (let s := { running (.paused .host) gFix with power := { free.power with level := .reserve } }
     LinkFree s ∧ s.seq.run = .paused .host ∧ s.power.level = .reserve) :=
  ⟨⟨by decide, by decide, by decide⟩, ⟨by decide, by decide⟩, ⟨by decide, by decide⟩, by decide, by decide⟩

/-- A run of slot 0 with slot 1 Armed and READY, after `k` handoffs. -/
def armedRun (k : Nat) (f : Follow) : State :=
  let s := loaded 1 gFix (running .active { gFix with fol := f })
  { s with seq := { s.seq with armed := some 1, handoffs := k } }

theorem witness_NextHandsOff :
    (LinkFree (running .active gFix) ∧ hasSegment (running .active gFix).seq.run = true ∧
      (running .active gFix).seq.live = some { slot := 0, seg := gFix, bo := 0 } ∧ inFlight (running .active gFix) = false) ∧
    (LinkFree (inFlightWith .writing (gathered .none none)) ∧ inFlight (inFlightWith .writing (gathered .none none)) = true ∧
      hasSegment (inFlightWith .writing (gathered .none none)).seq.run = true) ∧
    (follower { slot := 0, seg := { gFix with fol := .ask }, bo := 0 } (armedRun 47 .ask) = some 1 ∧
      slotAt (armedRun 47 .ask) 1 = some gFix ∧ (armedRun 47 .ask).seq.handoffs < 48 ∧ LinkFree (armedRun 47 .ask)) ∧
    48 ≤ (armedRun 48 .ask).seq.handoffs ∧
    ((running .active gFix).seq.armed = none ∧ gFix.fol = .finish) ∧
    needsNext (running .active gFix) (.slot 47) := by decide

/-- A run in a camera retry, its rail off, with this grid to count from. -/
def retryRun (grid : Option RetryGrid) (s : State) : State :=
  { s with seq := { s.seq with retryGrid := grid }
           engine := { Engine.cold with phase := .retryOff, retrying := true, holdLeft := 31 } }

theorem witness_NextHandsOff_retry_and_past_end :
    (let s := retryRun none (armedRun 47 .ask)
     s.seq.run = .active ∧ s.engine.retrying = true ∧ inFlight s = false) ∧
    (let s := valid (loaded 1 (gPassed (.slot 0)) (armedRun 46 .ask))
     slotAt s 1 = some (gPassed (.slot 0)) ∧ (slotAt s 0).isSome = true ∧ s.seq.handoffs < 47 ∧ inFlight s = false) ∧
    slotAt (valid (loaded 1 (gPassed (.slot 1)) (armedRun 0 .ask))) 1 = some (gPassed (.slot 1)) ∧
    (let s := loaded 1 gFix (pendingAt .ready 4000 gFix)
     EngineSound s ∧ s.seq.stage ≠ .none ∧ inFlight s = false ∧ LinkFree s ∧ ¬ s.engine.retrying = true) ∧
    (let s := { primingWith (some result) gMet with clock := { Clock.cold with shotAsks := true } }
     EngineSound s ∧ s.seq.stage = .priming 5000 ∧ inFlight s = false) :=
  ⟨by decide, by decide, by decide, ⟨by decide, by decide, by decide, by decide, by decide⟩,
    by decide, by decide, by decide⟩

theorem witness_QueueAndAutorun :
    (LinkFree (loaded 47 gFix (running .active gFix)) ∧ slotAt (loaded 47 gFix (running .active gFix)) 47 = some gFix ∧
      hasSegment (loaded 47 gFix (running .active gFix)).seq.run = true) ∧
    (let s := loaded 47 gFix { free with seq := { Sequencer.cold with run := .starved } }
     LinkFree s ∧ s.seq.run = .starved ∧ slotAt s 47 = some gFix ∧ gFix.endAt = none) ∧
    (let s := loaded 47 gFix { State.reset with startUp := .autorun { lost := true, trim := 0 } }
     s.startUp = .autorun { lost := true, trim := 0 } ∧ s.link.waiting = none ∧ s.settings.ar = none ∧ slotAt s 47 = some gFix ∧ slotAt s 0 = none) ∧
    (let s := loaded 47 (gPassed .ask) { State.reset with settings := { Settings.default with ar := some 47 } }
     s.settings.ar = some 47 ∧ slotAt (valid s) 47 = some (gPassed .ask)) := by
  decide

/-- A TRIP run in TRIP_WAIT inside its window. -/
def tripRun (edges : Nat) (div : Nat) : State :=
  let s := running .active { gTrip with div := div }
  { s with seq := { s.seq with wait := some .tripWait, edges := edges }
           cal := { free.cal with seconds := 3600, valid := true } }

theorem witness_TripEdgesMakeShots :
    free.seq.live = none ∧
    (∀ d, (tripRun 0 d).seq.live = some { slot := 0, seg := { gTrip with div := d }, bo := 0 }) ∧
    ¬ edgeCounts { slot := 0, seg := { gTrip with div := 4 }, bo := 0 } true (tripRun 0 4) ∧
    (edgeCounts { slot := 0, seg := { gTrip with div := 4 }, bo := 0 } false (tripRun 2 4) ∧
      (tripRun 2 4).seq.edges + 1 < 4) ∧
    (4 ≤ (tripRun 3 4).seq.edges + 1 ∧ tripTaken { slot := 0, seg := { gTrip with div := 4 }, bo := 0 } (tripRun 3 4) ∧
      windowOpen gTrip.win gTrip.days (now (tripRun 3 4) + preparation (tripRun 3 4)) = true) ∧
    ¬ tripTaken { slot := 0, seg := gTrip, bo := 0 } { tripRun 0 1 with seq := { (tripRun 0 1).seq with stage := .pending 9 } } := by
  refine ⟨by decide, fun _ => rfl, by decide, by decide, by decide, by decide⟩

/-- A calendar on a powered backup domain. -/
def calendar (seconds fraction : Nat) : Calendar :=
  { seconds := seconds, fraction := fraction, valid := true, span := 4095, correction := 0, lost := false, powered := true }

theorem witness_TickAdvancesCalendarAndCounts :
    ((calendar 4294967295 1023).powered = true ∧ calendarInRange (calendar 4294967295 1023)) ∧
    ((calendar 4294967295 1022).fraction + tickStep (calendar 4294967295 1022) < 1024 ∧
      (calendar 4294967295 1022).fraction < 1023) := by decide

theorem witness_OpeningIsFirstOpenInstant :
    windowOpen (some (1439, 0)) 1 0 = false ∧ windowOpen (some (0, 0)) 64 (86400 * 1024) = false ∧
      windowOpen (some (0, 1439)) 127 (1439 * 60 * 1024) = false := by decide

/-- A TRIP run in TRIP_WAIT in the last tick before its window closes. -/
def lastTripTick : State := { tripRun 0 1 with cal := calendar 7199 1023 }

/-- A run in CLOSED with the opening instant 5000. -/
def closedRun (g : Segment) (t : Nat) : State :=
  { running .active g with
    seq := { (running .active g).seq with wait := some .closed, opening := some 5000 }
    cal := calendar (t / 1024) (t % 1024) }

/-- A run in the last tick before second 100 of a segment that ends there, with this follow field. -/
def endingRun (f : Follow) : State :=
  { running .active { gFix with endAt := some 100, fol := f } with cal := calendar 99 1023 }

theorem witness_WindowsOpenAndClose_end :
    (let s := loaded 1 gFix (endingRun (.slot 1))
     secondBegins 100 s ∧ inFlight s = false ∧ s.seq.armed = none ∧ slotAt s 1 = some gFix ∧ s.seq.handoffs < 47 ∧
       s.engine.retrying = false ∧ s.seq.stage = .none ∧
       ∀ l, follower { slot := l, seg := { gFix with endAt := some 100, fol := .slot 1 }, bo := 0 } s = some 1) ∧
    inFlight (retryRun none (endingRun (.slot 1))) = false ∧ (retryRun none (endingRun (.slot 1))).engine.retrying = true ∧
    (slotAt (loaded 1 (gPassed (.slot 1)) (endingRun (.slot 1))) 1 = some (gPassed (.slot 1)) ∧ 0 ≤ 100) ∧
    { (endingRun .ask).seq with handoffs := 48 }.handoffs = 48 ∧ needsNext (endingRun .ask) .ask ∧
    (endingRun .finish).seq.live = some { slot := 0, seg := { gFix with endAt := some 100 }, bo := 0 } ∧
    (let s := { pendingAt .powering 4000 { gFix with endAt := some 100 } with cal := calendar 99 1023 }
     EngineSound s ∧ secondBegins 100 s ∧ s.seq.stage ≠ .none ∧ inFlight s = false) :=
  ⟨⟨by decide, by decide, by decide, by decide, by decide, by decide, by decide, fun _ => rfl⟩,
    by decide, by decide, by decide, by decide, trivial, rfl, by decide⟩

theorem witness_WindowsOpenAndClose :
    (let s := { running .active { gFix with endAt := some 100 } with cal := calendar 99 1023 }
     s.seq.live = some { slot := 0, seg := { gFix with endAt := some 100 }, bo := 0 } ∧ secondBegins 100 s) ∧
    (lastTripTick.seq.live = some { slot := 0, seg := { gTrip with div := 1 }, bo := 0 } ∧ gTrip.src = .trip ∧
      gTrip.endAt = none ∧ lastTripTick.seq.run = .active ∧ lastTripTick.seq.wait = some .tripWait ∧
      secondBegins 7200 lastTripTick ∧ windowOpen gTrip.win gTrip.days (7200 * 1024 - 1) = true ∧
      windowOpen gTrip.win gTrip.days (7200 * 1024) = false) ∧
    ((closedRun gFix 5000).seq.opening = some 5000 ∧ (closedRun gFix 5000).seq.wait = some .closed ∧
      5000 ≤ now (closedRun gFix 5000) ∧ gFix.src = .timed) ∧
    (closedRun gTrip 5000).seq.live = some { slot := 0, seg := gTrip, bo := 0 } ∧ now (closedRun gFix 4999) < 5000 := by
  decide

theorem witness_TimeSetsCalendar :
    (LinkFree free ∧ free.seq.run ≠ .active ∧ free.seq.live = none) ∧
    (let s := running .suspended { gFix with endAt := some 6 }
     LinkFree s ∧ s.seq.run ≠ .active ∧ s.seq.live = some { slot := 0, seg := { gFix with endAt := some 6 }, bo := 0 } ∧
       ∀ u ∈ some 6, 5 < u) ∧
    (let s := running .active { gFix with endAt := some 6 }
     LinkFree s ∧ s.seq.run = .active ∧ EngineSound s ∧ (∀ u ∈ some 6, 5 < u) ∧ inFlight s = false ∧
       s.engine.retrying = false) ∧
    (let s := inFlightWith .writing (gathered .none none)
     LinkFree s ∧ EngineSound s ∧ inFlight s = true) ∧
    (let s := { primingWith (some result) gMet with clock := { Clock.cold with shotAsks := true } }
     EngineSound s ∧ inFlight s = false) ∧
    (EngineSound (retryRun none (running .active gFix)) ∧ (retryRun none (running .active gFix)).engine.retrying = true) ∧
    (let s := loaded 1 gFix (running (.paused .host) { gFix with endAt := some 6, fol := .slot 1 })
     LinkFree s ∧ hasSegment s.seq.run = true ∧ inFlight s = false ∧ 6 ≤ 6 ∧
       follower { slot := 0, seg := { gFix with endAt := some 6, fol := .slot 1 }, bo := 0 } s = some 1 ∧
       slotAt s 1 = some gFix ∧ s.seq.handoffs < 48) :=
  ⟨by decide, ⟨by decide, by decide, rfl, by decide⟩,
    ⟨by decide, by decide, by decide, by decide, by decide, by decide⟩,
    ⟨by decide, by decide, by decide⟩, ⟨by decide, by decide⟩, ⟨by decide, by decide⟩, by decide⟩

theorem witness_TimeReportsAndChecks :
    LinkFree free ∧ readNumber "4294967296".toList = some 4294967296 ∧ readNumber "-1".toList = some (-1) ∧
      readNumber "1024".toList = some 1024 ∧ readNumber "12345678901".toList = none := by decide

theorem witness_BackupDomainRestarts :
    free.supply ≠ .below ∧ ({ free with supply := .below } : State).supply = .below ∧ free.cal.powered = true := by decide

theorem witness_ColdStartsBegin :
    (({ free with supply := .below } : State).supply = .below ∧ free.nrstLow = false ∧ free.cal.powered = true) ∧
    (State.unpowered.supply = .below ∧ State.unpowered.nrstLow = false ∧ State.unpowered.cal.powered = false) ∧
    (({ free with nrstLow := true } : State).supply = .good ∧ ({ free with nrstLow := true } : State).nrstLow = true) ∧
    (31 < 32 ∧ ({ free with supply := .returning 31 } : State).supply = .returning 31) ∧
    (setLink (.sending [] .cold) free).link.state = .sending [] .cold := by decide

theorem witness_WarmResetIsOrderedAndClears :
    LinkFree free ∧ ((setLink (.sending [] .warm) free).link.state = .sending [] .warm ∧ free.seq.run = .idle) ∧
    (let s := setLink (.sending [] .warm) (inFlightWith .writing (gathered .none none))
     s.link.state = .sending [] .warm ∧ s.seq.run ≠ .idle ∧ EngineSound s ∧
       frameInHand (flying (gathered .none none)) result (gathered .none none) s) ∧
    (let s := setLink (.sending [] .warm) (pendingAt .ready 0 gFix)
     EngineSound s ∧ inFlight s = false) :=
  ⟨by decide, by decide, ⟨by decide, by decide, by decide, by decide⟩, by decide, by decide⟩

theorem witness_SettleExpiryEndsPowering :
    (let s := pendingAt .powering 4487 gFix
     s.engine.phase = .powering ∧ s.engine.settleLeft < 32 ∧ s.engine.retrying = false ∧
       pendingShot s = some shot ∧ now s < shot.primeAt) ∧
    (let s := pendingAt .powering 4488 gFix
     pendingShot s = some shot ∧ shot.primeAt ≤ now s ∧ s.seq.live.isSome = true) ∧
    (let s := { running .active gFix with engine := { Engine.cold with phase := .powering, retrying := true } }
     s.engine.retrying = true ∧ s.seq.run = .active ∧ s.seq.stage = .none ∧ s.engine.settleLeft < 32) ∧
    (retryRun (some { due := 5, completed := 6, iv := some 8 }) (running .active gTrip)).seq.retryGrid =
      some { due := 5, completed := 6, iv := some 8 } := by decide

theorem witness_PrimeInstantBeginsPrime :
    (shotPending 5000 shot (pendingAt .ready 4488 gMet) ∧ (pendingAt .ready 4488 gMet).engine.phase = .ready ∧
      shot.primeAt ≤ now (pendingAt .ready 4488 gMet) ∧ isMet gMet = true ∧
      (pendingAt .ready 4488 gMet).meter.state = .idle) ∧
    now (pendingAt .ready 4487 gFix) < shot.primeAt ∧ plainExposure gFix 0 = some (3, .fixed) ∧
    plainExposure { gFix with mode := .ramp 0 40, n := 5 } 4 = some (40, .ramped) ∧
    hostReads (.converting .host 1 0 .waiting) = true ∧ calibrates (.calibrating 20 0 0 none) = true ∧
    (let s := { free with pins := { free.pins with wake := true }, engine := { Engine.cold with wakeLeft := 31 } }
     s.pins.wake = true ∧ s.engine.wakeLeft < 32) ∧
    (let s := { free with pins := { free.pins with wake := true }, engine := { Engine.cold with wakeLeft := 32 } }
     s.pins.wake = true ∧ 32 ≤ s.engine.wakeLeft) := by decide

theorem witness_DueTimeAssertsTrig :
    let s := primingWith (some result) gMet
    s.seq.stage = .priming 5000 ∧ s.engine.phase = .prime ∧ s.engine.shot = some { shot with exposure := some result } ∧
      s.expo.result = some result ∧ s.seq.live = some { slot := 0, seg := gMet, bo := 0 } ∧ 5000 ≤ now s := by decide

theorem witness_DueTimeCutsPrimeShort :
    (let s := { primingWith none gMet with meter := (metering (.converting .prime 2 0 .waiting)).meter }
     s.seq.stage = .priming 5000 ∧ s.engine.phase = .prime ∧ s.engine.shot = some shot ∧ shot.exposure = none ∧
       s.seq.live = some { slot := 0, seg := gMet, bo := 0 } ∧ gMet.mode = .met 150 0 0 3 2 3 20 190 ∧
       primeReading s = true ∧ 5000 ≤ now s) ∧
    (shotPending 5000 shot (pendingAt .powering 5000 gFix) ∧ (pendingAt .powering 5000 gFix).seq.live.isSome = true ∧
      5000 ≤ now (pendingAt .powering 5000 gFix)) ∧
    now (pendingAt .ready 4999 gFix) < 5000 ∧ (pendingAt .dormant 5000 gFix).engine.phase = .dormant := by decide

theorem witness_BulbEndReleasesTrig :
    (let f := gathered .none none
     shotFlying (flying f) f (inFlightWith .exposing f) ∧ (inFlightWith .exposing f).engine.phase = .exposing ∧
       f.sy = .none ∧ 0 < f.wf) ∧
    (let f := { gathered .busyHigh none with noSync := true }
     shotFlying (flying f) f (inFlightWith .exposing f) ∧ f.sy ≠ .none ∧ f.noSync = true ∧ 0 < f.wf) ∧
    (let f := gathered .busyHigh none
     shotFlying (flying f) f (inFlightWith .exposing f) ∧ f.sy ≠ .none ∧ f.noSync = false ∧ f.lag = none) ∧
    (let f := { gathered .none none with wf := 0 }
     inFlight (inFlightWith .exposing f) = true ∧ (flying f).exposure.isSome = true ∧ f.sy = .none ∧ f.wf = 0) ∧
    (let f := { gathered .busyHigh none with noSync := true, wf := 0 }
     inFlight (inFlightWith .exposing f) = true ∧ f.sy ≠ .none ∧ f.noSync = true ∧ f.wf = 0) ∧
    (let f := gathered .busyHigh (some 41)
     inFlight (inFlightWith .exposing f) = true ∧ f.lag.isSome = true ∧ ¬ (false = true ↔ f.sy = .busyHigh)) := by decide

theorem witness_bulbEnded :
    bulbEnded { gathered .none none with bulbLeft := 31 } ∧ ¬ bulbEnded { gathered .none none with bulbLeft := 32 } ∧
      bulbEnded { gathered .none none with fastLeft := some 4012, bulbLeft := 32 } ∧
      ¬ bulbEnded { gathered .none none with fastLeft := some 4013 } :=
  ⟨(by decide : (31 : Nat) < 32), (by decide : ¬ (32 : Nat) < 32), (by decide : (4012 : Nat) ≤ 4012),
    (by decide : ¬ (4013 : Nat) ≤ 4012)⟩

theorem witness_OpenEdgeAndOpenWatch :
    (let f := gathered .busyLow none
     shotFlying (flying f) f (inFlightWith .exposing f) ∧ f.sy ≠ .none ∧ f.noSync = false ∧ f.lag = none ∧
       16 * 2048 ≤ f.ot * 2048 ∧ f.ot * 2048 < 16 * 2048 + 1) ∧
    (let f := { gathered .busyHigh none with openLeft := 31 }
     shotFlying (flying f) f (inFlightWith .exposing f) ∧ f.openLeft < 32 ∧ (inFlightWith .exposing f).engine.phase = .exposing) ∧
    (let f := { gathered .busyHigh none with openLeft := 31 }
     (inFlightWith .writing f).engine.phase = .writing ∧ 0 < f.wf) ∧
    (let f := { gathered .busyHigh none with openLeft := 31, wf := 0 }
     shotFlying (flying f) f (inFlightWith .writing f) ∧ f.wf = 0 ∧ (flying f).exposure = some result ∧
       inFlight (inFlightWith .writing f) = true) ∧
    (let f := { gathered .busyHigh none with openLeft := 32 }
     shotFlying (flying f) f (inFlightWith .exposing f) ∧ f.sy ≠ .none ∧ f.lag = none ∧ 32 ≤ f.openLeft) := by decide

theorem witness_CompletionWritesFrame :
    (let f := gathered .busyHigh (some 41)
     frameInHand (flying f) result f (inFlightWith .writing f) ∧ (inFlightWith .writing f).engine.phase = .writing ∧
       f.sy ≠ .none ∧ f.lag.isSome = true ∧ f.noSync = false ∧ 160 * 2048 ≤ f.wt * 2048 ∧ f.writeLeft < 32) ∧
    (let f := { gathered .none none with fixedLeft := some 31 }
     frameInHand (flying f) result f (inFlightWith .writing f) ∧ f.fixedLeft = some 31) := by decide

/-- A shot whose write watch runs out after `k` misses, with `r` retries begun. -/
def missing (k r : Nat) : State :=
  let s := inFlightWith .writing (gathered .busyHigh (some 41))
  { s with engine := { s.engine with misses := k, retries := r } }

theorem witness_MissesCallRetryAndFault :
    (∀ k r, missEnds { slot := 0, seg := gFix, bo := 0 } (flying (gathered .busyHigh (some 41))) (gathered .busyHigh (some 41))
      5000 (missing k r)) ∧
    (2 ≤ (missing 2 0).engine.misses ∧ (missing 2 0).engine.retries = 0) ∧
    (5 ≤ (missing 5 1).engine.misses ∧ (missing 5 1).engine.retries = 1) ∧
    (missing 1 0).engine.misses < 2 ∧ ((missing 4 1).engine.retries = 1 ∧ (missing 4 1).engine.misses < 5) := by
  refine ⟨?_, by decide, by decide, by decide, by decide⟩
  intro k r
  exact ⟨rfl, rfl, rfl, rfl, Or.inl rfl, rfl, rfl, ⟨rfl, rfl⟩, rfl, by decide, rfl, rfl, by decide⟩

theorem witness_RailComesOnAfterMeasurement :
    (let s := pendingAt .dormant 1000 gFix
     shotPending 5000 shot s ∧ shot.measureAt ≤ now s ∧ s.engine.ask = .none ∧ s.pins.camPwr = false ∧
       { s.power with measuring := none }.measuring = none ∧ s.power.measuring.isSome = true) ∧
    now (pendingAt .dormant 999 gFix) < shot.measureAt ∧
    (let s := pendingAt .dormant 1003 gFix
     shot.railOnAt ≤ now s ∧ now s < shot.due ∧ 0 < s.settings.cs ∧ s.seq.live.isSome = true) ∧
    shot.due ≤ now (pendingAt .dormant 5000 gFix) ∧
    (let s := pendingAt .dormant 1000 gFix
     { s.engine with ask := .holdWaiting }.ask = .holdWaiting ∧ s.engine.phase = .dormant) ∧
    (let s := pendingAt .dormant 4487 gFix
     { s.settings with cs := 0 }.cs = 0 ∧ s.engine.retrying = false ∧ shot.railOnAt ≤ now s ∧ now s < shot.primeAt) ∧
    (let s := pendingAt .dormant 4488 gFix
     shot.primeAt ≤ now s ∧ now s < shot.due ∧ s.seq.live.isSome = true) ∧
    (let s := { running .active gFix with engine := { Engine.cold with phase := .retryOff, retrying := true, holdLeft := 31 } }
     s.engine.phase = .retryOff ∧ s.engine.ask = .none ∧ s.pins.camPwr = false ∧ s.engine.holdLeft < 32 ∧
       s.power.measuring.isSome = true) := by decide

/-- A shot of this record that the row at hand completes, with slot 1 Armed and READY. -/
def completing (g : Segment) (f : Flight) : State :=
  let s := loaded 1 gFix (inFlightWith .writing f)
  { s with seq := { s.seq with live := some { slot := 0, seg := g, bo := 0 }, armed := some 1 } }

/-- What a shot has gathered whose write_fixed count ends before the next tick. -/
def fixedEnds : Flight := { gathered .none none with fixedLeft := some 31 }

theorem completes_fixedEnds (s : State) : completesShot .writeFixedExpiry false fixedEnds s :=
  ⟨rfl, 31, rfl, by decide⟩

theorem witness_CompletionFollowsGrid :
    (∀ g, g.n = 0 → completionGoesOn .writeFixedExpiry false { slot := 0, seg := g, bo := 0 } 5000 fixedEnds
      (completing g fixedEnds)) ∧
    (gFix.src = .timed ∧ 0 < gFix.iv ∧ (completing gFix fixedEnds).seq.anchorWaiting = false ∧
      (completing gFix fixedEnds).pins.camPwr = true ∧ (completing gFix fixedEnds).power.level = .normal) ∧
    windowOpen (some (60, 120)) 127 (5000 + 1 * (8 * 64 * 1)) = false ∧ (gTrip.src = .trip ∧ gTrip.n = 0) ∧
    (let f := gathered .busyHigh (some 41)
     completesShot (.busyWriteEdge (160 * 2048)) false f (completing gFix f) ∧
       completesShot .writeWatchExpiry true f (completing gFix f)) ∧
    (let f := { gathered .busyHigh none with wf := 0 }
     completesShot .openWatchExpiry true f (completing gFix f)) ∧
    (let f := { gathered .none none with wf := 0 }
     completesShot (.bulbEnd false) false f (inFlightWith .exposing f)) ∧
    { (completing gFix fixedEnds).seq with anchorWaiting := true }.anchorWaiting = true := by
  refine ⟨?_, by decide, by decide, by decide, by decide, by decide, ?_, by decide⟩
  · intro g hg
    refine ⟨⟨rfl, rfl, rfl, completes_fixedEnds _⟩, rfl, ?_, rfl, by simp, by simp, rfl⟩
    simp [hg, completing, loaded, inFlightWith, running, free, Sequencer.cold]
  · exact ⟨rfl, show (0 : Nat) < 32 by decide, Or.inl ⟨rfl, rfl, rfl⟩⟩

theorem witness_CompletionFollowsGrid_ends :
    (let g := { gFix with n := 1 }
     completion .writeFixedExpiry false { slot := 0, seg := g, bo := 0 } 5000 fixedEnds (completing g fixedEnds) ∧
       completionEndsSegment { slot := 0, seg := g, bo := 0 } (completing g fixedEnds) ∧
       follower { slot := 0, seg := g, bo := 0 } (completing g fixedEnds) = some 1 ∧
       slotAt (completing g fixedEnds) 1 = some gFix ∧ (completing g fixedEnds).seq.handoffs < 47 ∧
       EngineSound (completing g fixedEnds) ∧ ¬ callsRetry false (completing g fixedEnds)) ∧
    (callsRetry true (missing 2 0) ∧ runAfterCompletion true (missing 2 0) = .active) ∧
    (callsFault true (missing 5 1) ∧ runAfterCompletion true (missing 5 1) = .paused .camera ∧
      (missing 5 1).seq.current.isSome = true ∧ (missing 5 1).engine.retrying = false) ∧
    (let s := completing gFix fixedEnds
     runAfterCompletion false { s with seq := { s.seq with suspWaiting := true } } = .suspended ∧
       runAfterCompletion false { s with seq := { s.seq with run := .suspended } } = .suspended ∧
       hasSegment (.paused .host) = true ∧
       ¬ completionEndsSegment { slot := 0, seg := gFix, bo := 0 } s) :=
  ⟨⟨⟨rfl, rfl, rfl, completes_fixedEnds _⟩, by decide, by decide, by decide, by decide, by decide, by decide⟩,
    by decide, by decide, by decide⟩

theorem witness_MeterAnswersHost :
    (LinkFree free ∧ hostMeterFree free ∧ free.clock.meterAsks = false) ∧
    (LinkFree (metering (.calibrating 20 0 0 none)) ∧ ¬ hostMeterFree (metering (.calibrating 20 0 0 none))) ∧
    ("DARKER".toList ≠ "LAST".toList ∧ "DARKER".toList ≠ "CLEAR".toList ∧ "DARKER".toList ≠ "DARK".toList) := by decide

theorem witness_IntegrationEndRepeatsOrComputes :
    integrationEnds .host 3 1 4012 (metering (.converting .host 3 1 (.integrating 4012))) ∧
    integrationEnds .prime 0 2 0 (metering (.converting .prime 0 2 (.integrating 0))) ∧
    integrationEnds .prime 2 0 0 (metering (.converting .prime 2 0 (.integrating 0))) ∧
    (¬ (65534 = 65535 ∧ 0 < 3) ∧ ¬ (64 < 64 ∧ 2 < 3)) := by decide

theorem witness_HostReadingIsDone :
    computationEnds .host 0 2 4012 65535 4095 (-64) (metering (.converting .host 0 2 (.computing 4012 65535 4095 (-64)))) ∧
      computationEnds .host 3 0 0 0 0 0 (metering (.converting .host 3 0 (.computing 0 0 0 0))) := by decide

theorem witness_PrimeReadingGivesExposure :
    let s := { primingWith none gMet with
      meter := (metering (.converting .prime 1 0 (.computing 4000 23000 0 (-10)))).meter, expo := Calculator.cold }
    computationEnds .prime 1 0 4000 23000 0 (-10) s ∧ s.seq.live = some { slot := 0, seg := gMet, bo := 0 } ∧
      gMet.mode = .met 150 0 0 3 2 3 20 190 ∧ modeValid gMet.n gMet.mode = true ∧ s.engine.shot = some shot ∧
      CalculatorSound s := by decide

theorem witness_PartitionSplitsExposure :
    limitsValid gFix = true ∧ limitsValid { gFix with esMin := 24, esMax := 120, gm := 4 } = true ∧
      (120 + 8 * 0 < 121 ∧ 120 ≤ 120 + 8 * 0) := by decide

theorem witness_CalibrationSetsDarkCount :
    darkIntegrationEnds (-40) 6 100 4012 (metering (.calibrating (-40) 6 100 (some 4012))) ∧
      darkIntegrationEnds 85 7 100 0 (metering (.calibrating 85 7 100 (some 0))) := by decide

/-- A part with a measurement ending. -/
def measured (k : MeasKind) (periodic : Bool) (s : State) : State :=
  { s with power := { s.power with measuring := some { kind := k, periodic := periodic, left := 31 } } }

theorem witness_MeasurementDecidesLevel :
    measurementEnds { kind := .rest, periodic := true, left := 31 } 6000 85 (measured .rest true free) ∧
      measurementEnds { kind := .loaded, periodic := false, left := 31 } 0 (-40) (measured .loaded false free) := by decide

/-- A measured run at a level. -/
def runAtLevel (v : Level) (r : RunState) (st : Stage) : State :=
  let s := measured .rest false (running r gFix)
  { s with power := { s.power with level := v }
           seq := { s.seq with stage := st, lastDue := some 4000, wait := if r = .active then some .between else none }
           engine := { Engine.cold with shot := if st = .none then none else some shot } }

theorem witness_LevelChangeReachesRun :
    (let s := runAtLevel .thrift .active (.pending 5000)
     measurementEnds { kind := .rest, periodic := false, left := 31 } 3299 0 s ∧ s.startUp = .working ∧
       s.seq.live = some { slot := 0, seg := gFix, bo := 0 } ∧ levelDecided (effectiveOf .rest 3299 0 s) s = .reserve ∧
       s.engine.ask = .none ∧ s.seq.run = .active ∧ inFlight s = false) ∧
    inFlight (runAtLevel .thrift .active (.inFlight 5000)) = true ∧
    (let s := runAtLevel .reserve .suspended .none
     levelDecided (effectiveOf .rest 3450 0 s) s = .thrift ∧ s.seq.run = .suspended ∧ s.seq.stage = .none ∧
       s.engine.retrying = false ∧ s.engine.phase = .dormant) ∧
    (let s := runAtLevel .reserve .suspended (.inFlight 5000)
     levelDecided (effectiveOf .rest 3450 0 s) s = .thrift ∧ inFlight s = true) ∧
    (let s := runAtLevel .normal .active (.pending 5000)
     levelDecided (effectiveOf .rest 3499 0 s) s = .thrift ∧ 1 < s.settings.st ∧ s.seq.wait = some .between ∧
       gFix.src = .timed ∧ s.engine.phase = .dormant ∧ pendingShot s = some shot ∧ s.seq.lastDue = some 4000) ∧
    (let s := runAtLevel .thrift .active (.pending 5000)
     levelDecided (effectiveOf .rest 3650 0 s) s = .normal ∧ pendingShot s = some shot ∧
       { s.seq with lastDue := none }.lastDue = none) ∧
    (let s := { runAtLevel .normal .active .none with engine := { Engine.cold with phase := .ready } }
     levelDecided (effectiveOf .rest 3499 0 s) s = .thrift ∧ s.seq.stage = .none ∧ s.engine.retrying = false ∧
       s.engine.phase = .ready) := by decide

/-- A run of the TRIP segment in TRIP_WAIT, measured at a level. -/
def tripAtLevel (v : Level) (st : Stage) (ask : RailAsk) : State :=
  let s := measured .rest false (running .active gTrip)
  { s with power := { s.power with level := v }, seq := { s.seq with stage := st, wait := some .tripWait }
           engine := { Engine.cold with shot := if st = .none then none else some shot, ask := ask }
           cal := { free.cal with seconds := 1 } }

theorem witness_LevelChangeReachesRun_trip :
    (let s := tripAtLevel .thrift .none .none
     measurementEnds { kind := .rest, periodic := false, left := 31 } 3650 0 s ∧
       levelDecided (effectiveOf .rest 3650 0 s) s = .normal ∧ s.engine.ask = .none ∧ s.engine.retrying = false ∧
       s.engine.phase = .dormant ∧ s.pins.camPwr = false ∧ s.seq.wait = some .tripWait ∧
       s.seq.live = some { slot := 0, seg := gTrip, bo := 0 } ∧ gTrip.src = .trip) ∧
    (let s := tripAtLevel .normal (.pending 5000) .shotWaiting
     measurementEnds { kind := .rest, periodic := false, left := 31 } 3499 0 s ∧ s.power.level = .normal ∧
       levelDecided (effectiveOf .rest 3499 0 s) s = .thrift ∧ s.engine.ask = .shotWaiting ∧
       pendingShot s = some shot ∧ shot.railOnAt ≤ now s ∧ now s < shot.due ∧ 0 < s.settings.cs) := by decide

theorem witness_MeasurementEndIsServed :
    (let s := measured .rest false (pendingAt .dormant 1002 gFix)
     levelHolds { kind := .rest, periodic := false, left := 31 } 3500 0 s ∧ pendingShot s = some shot ∧ now s < shot.railOnAt) ∧
    (let s := measured .rest false (pendingAt .dormant 1003 gFix)
     shot.railOnAt ≤ now s ∧ now s < shot.due ∧ 0 < s.settings.cs) ∧
    (let s := measured .rest false { running .active gFix with engine := { Engine.cold with ask := .holdWaiting } }
     levelHolds { kind := .rest, periodic := false, left := 31 } 3500 0 s ∧ s.engine.ask = .holdWaiting ∧ s.seq.stage = .none) ∧
    (let s := measured .loaded false { running .active gFix with engine := { Engine.cold with ask := .retryWaiting } }
     levelHolds { kind := .loaded, periodic := false, left := 31 } 3300 0 s ∧ s.engine.ask = .retryWaiting ∧
       s.pins.camPwr = false) ∧
    (let s := measured .rest true free
     levelHolds { kind := .rest, periodic := true, left := 31 } 3500 0 s ∧ s.engine.ask = .none) ∧
    (let s := measured .rest false State.reset
     measurementEnds { kind := .rest, periodic := false, left := 31 } 3500 0 s ∧ s.startUp = .series { lost := true, trim := 0 } ∧
       s.engine = Engine.cold ∧ s.seq = Sequencer.cold ∧ s.pins.camPwr = false) := by decide

theorem witness_TimerAndHeaterFramesRun :
    (31 < 32 ∧ ({ free.power with timer := some 31, measuring := none } : Supervisor).timer = some 31) ∧
    free.power.measuring.isSome = true ∧
    (let h : Heater := { left := 31, onLeft := 0, permission := true }
     h.left = 31 ∧ { free.power with heater := some h }.heater = some h) ∧
    (let h : Heater := { left := 32, onLeft := 31, permission := true }
     h.onLeft = 31 ∧ 32 ≤ h.left) := by decide

theorem witness_ClockStartsRunsAndFails :
    (let c : Clock := { Clock.cold with state := .starting, startLeft := 31 }
     c.state = .starting ∧ c.goodPeriods = 0 ∧ c.startLeft < 32 ∧ { c with goodPeriods := 1 }.goodPeriods = 1) ∧
    (metering .idle).clock.state = .running ∧ (3800 ≤ 3800 ∧ 4012 ≤ 4012 ∧ 3799 < 3800 ∧ 4012 < 4013) := by decide

theorem witness_FramesReadsLog :
    LinkFree free ∧ (-9999999999 : Int).natAbs < 10 ^ 10 ∧ readNumber "1A".toList = none := by decide

theorem witness_PollEmptiesNotices : LinkFree free ∧ free.notices ≠ [] := by decide

theorem witness_SetClampsNumbers :
    LinkFree free ∧ numericRange .hb = some (-40, 30) ∧ (9999999999 : Int).natAbs < 10 ^ 10 := by decide

theorem witness_SetTakesSpecialSettings :
    LinkFree free ∧ ((4500 : Nat) : Int) = max 3000 (min 4500 9999999999) ∧ ((2800 : Nat) : Int) = max 2800 (min 4400 (-1)) ∧
    free.power.level ≠ .thrift ∧
    (let s := runAtLevel .thrift .active (.pending 5000)
     LinkFree s ∧ s.power.level = .thrift ∧ stretchOf 8 ≠ s.settings.st ∧ s.seq.run = .active ∧
       s.engine.retrying = false ∧ s.seq.wait = some .between ∧ s.seq.live = some { slot := 0, seg := gFix, bo := 0 } ∧
       gFix.src = .timed ∧ pendingShot s = some shot ∧ s.seq.lastDue = some 4000) ∧
    ((47 : Nat) : Int) = max 0 (min 47 48) ∧ (∀ c ∈ ['X', 'X'], c ≠ '=') ∧ (∀ j ∈ SetKey.all, j.text ≠ "XX".toList) ∧
    numericRange .cs ≠ none ∧ readNumber "".toList = none :=
  ⟨by decide, by decide, by decide, by decide, by decide, by decide, by simp, by decide, by decide, by decide⟩

theorem witness_GetReportsSettings :
    LinkFree free ∧ ([.vr, .cs, .ar] : List SetKey).Nodup ∧ (∀ k ∈ setKeys, k.text ≠ "XX".toList) ∧
      "CS".toList ∈ ([.vr, .cs, .ar] : List SetKey).map SetKey.text := by decide

theorem witness_ImageIsStoredAndRecalled :
    LinkFree free ∧ (setLink (.working (imageNow free)) free).link.state = .working (imageNow free) ∧
    writingContents free.link.state = none ∧ (LinkFree (running .active gFix) ∧ (running .active gFix).seq.run ≠ .idle) ∧
    (free.seq.run = .idle ∧ free.image.good = false) ∧
    ({ free with image := { free.image with good := true } } : State).image.good = true ∧
    (metering (.calibrating 20 0 0 none)).meter.state = .calibrating 20 0 0 none := by decide

/-- A part with commands waiting, on which a step does something. -/
def busy : State := { pendingAt .ready 4488 gFix with pending := [.primeInstant], notices := [.timeLost, .storeBad],
                                                      clock := Clock.cold }

theorem witness_RecordsStayValid : RecordsValid busy := by
  refine ⟨by decide, by decide, by decide, by decide, ?_, ?_, ?_⟩
  · intro c h; cases h
  · intro l h; cases h; decide
  · intro f h; cases h

theorem witness_PointersStaySound : PointersSound busy := by
  refine ⟨by decide, by decide, ?_, by decide, by decide, ?_, by decide⟩
  · intro c h; cases h
  · intro n h
    have : n = 0 := by
      simp [inUse, busy, pendingAt, running, Sequencer.cold] at h
      exact h.symm
    subst this; decide

theorem witness_CameraLinesFollowShot : EngineSound busy := by decide

theorem witness_AttnAndHeatStayRight : AttnFollows busy ∧ HeatAllowed busy := by decide

theorem witness_LogHistoryAndClockStaySound :
    LogSound busy ∧ CalculatorSound busy ∧ ClockRequested busy ∧ step busy ≠ .next busy := by
  refine ⟨⟨by decide, trivial, by decide, by decide⟩, by decide, by decide, fun h => ?_⟩
  have h' := congrArg (fun o => match o with | Host.Outcome.next t => t.pending.length | _ => 5) h
  revert h'; decide

end Sys2Proof.Tests
end

