-- ==== Sys2Proof/Proofs/Sequencing.lean ====
section
/-! SUPPORT. Proofs of the statements of 02_sequencing_a_run.md: the invariant of the shot engine, the commands of the
run, the trip input, the windows, TIME, the completions and the changes of level. -/

namespace Sys2Proof.Sequencing

open Sys2Proof Sys2Proof.Machine

/-! ### EngineSound is not inductive

The autorun step starts its slot's run whatever the run state (R188 rests on the run being IDLE, which EngineSound does
not say), so a state that holds an autorun step to come beside a shot in flight meets EngineSound and loses it. -/

/-- A shot that exposes, in an ACTIVE run of slot 0, while the autorun step that will start slot 0 is still to come. -/
def autorunWhileExposing : State :=
  let seg : Segment :=
    { iv := 8, n := 0, endAt := none, win := none, days := 127, src := .timed, div := 1, mode := .fix 3,
      esMin := 0, esMax := 20, gm := 0, fol := .finish }
  let flight : Flight :=
    { stamp := none, slot := 0, index := 1, stretched := false, skip := 0, trip := none, sy := .none, ot := 16,
      wt := 160, wf := 16, fastLeft := none, coarse := false, bulbLeft := 40, openLeft := 0, noSync := false,
      lag := none, wr := none, writeLeft := 0, fixedLeft := none }
  let taken : Exposure := partition 3 0 seg .fixed
  { State.reset with
    startUp := .autorun { lost := false, trim := 0 }
    settings := { Settings.default with ar := some 0 }
    plan := { slots := some seg :: List.replicate 47 none, staging := none }
    seq := { Sequencer.cold with run := .active, current := some 0, live := some { slot := 0, seg := seg, bo := 0 },
                                 wait := some .between, stage := .inFlight 0 }
    engine := { Engine.cold with
      phase := .exposing
      shot := some { due := 0, measureAt := 0, railOnAt := 0, primeAt := 0, exposure := some taken, heldMeter := false,
                     overFlag := false, underFlag := false, flight := some flight } }
    clock := { Clock.cold with state := .running, shotAsks := true }
    pins := { State.reset.pins with camPwr := true, trig := true }
    pending := [.autorunStart] }

theorem autorunWhileExposing_sound : EngineSound autorunWhileExposing := by decide

/-- The state that the autorun step leads to: slot 0 is Current again, its new shot pending beside a phase that
exposes. -/
def autorunOverExposing : State := autorun { autorunWhileExposing with startUp := .working, pending := [] }

theorem step_autorunWhileExposing : step autorunWhileExposing = .next autorunOverExposing := rfl

/-- A pending shot and a phase that exposes do not agree (R65). -/
theorem autorunOverExposing_unsound :
    (∃ d, autorunOverExposing.seq.stage = .pending d) ∧ autorunOverExposing.engine.phase = .exposing ∧
      ¬ EngineSound autorunOverExposing := ⟨⟨_, rfl⟩, rfl, by decide⟩

/-- Refutes O58: EngineSound is not kept by AUTORUN_START where a shot is in flight, in a state that no run reaches: the
autorun step sets the stage PENDING with a new shot while the phase stays EXPOSING. -/
theorem not_cameraLinesFollowShot : ¬ Obligations.CameraLinesFollowShot := by
  intro h
  exact autorunOverExposing_unsound.2.2 (h _ _ autorunWhileExposing_sound step_autorunWhileExposing)

end Sys2Proof.Sequencing
end

