-- ==== Sys2Proof/Proofs/SequencingLaws.lean ====
section
/-! SUPPORT. What the shared procedures of the sequencer and the shot engine do, each said once: what a replanned rail
leaves of the sequencer, what the line commands of the run lead to, what a schedule, a segment made Current, an end of a
segment and a completion leave behind. -/

namespace Sys2Proof.Sequencing

open Sys2Proof Sys2Proof.Machine

/-! ### What arrivals and the rail decision leave of the sequencer (R66, R79) -/

/-- The sequencer stands, but that the prime of a pending shot may have begun. -/
def MayPrime (q r : Sequencer) : Prop := r = q ∨ ∃ d, q.stage = .pending d ∧ r = { q with stage := .priming d }

theorem MayPrime.refl (q : Sequencer) : MayPrime q q := .inl rfl

theorem MayPrime.trans {p q r : Sequencer} (h : MayPrime p q) (h' : MayPrime q r) : MayPrime p r := by
  rcases h with rfl | ⟨d, hd, rfl⟩
  · exact h'
  · rcases h' with rfl | ⟨e, he, -⟩
    · exact .inr ⟨d, hd, rfl⟩
    · cases he

theorem MayPrime.frame {q r : Sequencer} (h : MayPrime q r) :
    r.wait = q.wait ∧ r.opening = q.opening ∧ r.skip = q.skip ∧ r.ignored = q.ignored ∧ r.edges = q.edges ∧
    r.handoffs = q.handoffs ∧ r.endWaiting = q.endWaiting ∧ r.suspWaiting = q.suspWaiting ∧
    r.anchorWaiting = q.anchorWaiting ∧ r.retryGrid = q.retryGrid := by
  rcases h with rfl | ⟨d, -, rfl⟩ <;> and_intros <;> rfl

theorem MayPrime.run {q r : Sequencer} (h : MayPrime q r) :
    r.run = q.run ∧ r.current = q.current ∧ r.armed = q.armed ∧ r.live = q.live ∧ r.shotIndex = q.shotIndex ∧
    r.lastDue = q.lastDue := by
  rcases h with rfl | ⟨d, -, rfl⟩ <;> and_intros <;> rfl

theorem nextDue_of_stage {s : State} {d : Tick} (h : s.seq.stage = .pending d ∨ s.seq.stage = .priming d) :
    nextDue s = some d := by
  rcases h with h | h <;> simp [nextDue, h]

theorem nextDue_none_of_stage {s : State} (h : s.seq.stage = .none ∨ ∃ d, s.seq.stage = .inFlight d) :
    nextDue s = none := by
  rcases h with h | ⟨d, h⟩ <;> simp [nextDue, h]

theorem inFlight_iff (s : State) : inFlight s = true ↔ ∃ d, s.seq.stage = .inFlight d := by
  unfold inFlight; split <;> simp_all

theorem inFlight_false {s : State} (h : inFlight s = false) (d : Tick) : s.seq.stage ≠ .inFlight d := by
  intro hd; simp [inFlight, hd] at h

/-- R23: the due time shown stands, and so do an empty stage and a shot in flight. -/
theorem MayPrime.stage {s t : State} (h : MayPrime s.seq t.seq) :
    nextDue t = nextDue s ∧ (t.seq.stage = .none ↔ s.seq.stage = .none) ∧
    (∀ d, t.seq.stage = .inFlight d ↔ s.seq.stage = .inFlight d) := by
  rcases h with h | ⟨d, hd, h⟩
  · rw [nextDue, nextDue, h]; exact ⟨rfl, Iff.rfl, fun _ => Iff.rfl⟩
  · have hs : t.seq.stage = .priming d := by rw [h]
    rw [nextDue_of_stage (.inl hd), nextDue_of_stage (.inr hs), hd, hs]
    simp

theorem beginPrime_seq {s : State} {d : Tick} (h : s.seq.stage = .pending d) :
    (beginPrime s).seq = { s.seq with stage := .priming d } := by
  simp [beginPrime, h]

theorem beginPrime_mayPrime (s : State) : MayPrime s.seq (beginPrime s).seq := by
  rcases h : s.seq.stage with _ | d | d | d
  case pending => exact .inr ⟨d, h, beginPrime_seq h⟩
  all_goals exact .inl (by simp [beginPrime, h])

theorem arrivals_mayPrime (s : State) : MayPrime s.seq (arrivals s).seq := by
  simp only [arrivals]
  (repeat' split)
  · exact .refl _
  · exact .inl (by simp)
  · exact beginPrime_mayPrime s
  · exact .refl _
  · exact .refl _

theorem railDecision_mayPrime (s : State) : MayPrime s.seq (railDecision s).seq := by
  have hoff : MayPrime s.seq (arrivals (railOff s)).seq := (MayPrime.refl _).trans (arrivals_mayPrime (railOff s))
  unfold railDecision
  split
  · exact .refl _
  · split
    case h_5 =>
      split
      · split
        · exact .inl (by simp)
        · exact .refl _
      · exact MayPrime.trans (.inl (by simp)) (arrivals_mayPrime (dropHoldAsk s))
    case h_6 | h_7 =>
      split
      · exact .refl _
      · split
        · exact hoff
        · exact .refl _
    all_goals exact .refl _

theorem afterReplan_mayPrime (s : State) : MayPrime s.seq (afterReplan s).seq :=
  (arrivals_mayPrime s).trans (railDecision_mayPrime _)

@[simp] theorem arrivals_seqFrame (s : State) :
    (arrivals s).seq.wait = s.seq.wait ∧ (arrivals s).seq.opening = s.seq.opening ∧
    (arrivals s).seq.skip = s.seq.skip ∧ (arrivals s).seq.ignored = s.seq.ignored ∧
    (arrivals s).seq.edges = s.seq.edges ∧ (arrivals s).seq.handoffs = s.seq.handoffs ∧
    (arrivals s).seq.endWaiting = s.seq.endWaiting ∧ (arrivals s).seq.suspWaiting = s.seq.suspWaiting ∧
    (arrivals s).seq.anchorWaiting = s.seq.anchorWaiting ∧ (arrivals s).seq.retryGrid = s.seq.retryGrid :=
  (arrivals_mayPrime s).frame

@[simp] theorem afterReplan_seqFrame (s : State) :
    (afterReplan s).seq.wait = s.seq.wait ∧ (afterReplan s).seq.opening = s.seq.opening ∧
    (afterReplan s).seq.skip = s.seq.skip ∧ (afterReplan s).seq.ignored = s.seq.ignored ∧
    (afterReplan s).seq.edges = s.seq.edges ∧ (afterReplan s).seq.handoffs = s.seq.handoffs ∧
    (afterReplan s).seq.endWaiting = s.seq.endWaiting ∧ (afterReplan s).seq.suspWaiting = s.seq.suspWaiting ∧
    (afterReplan s).seq.anchorWaiting = s.seq.anchorWaiting ∧ (afterReplan s).seq.retryGrid = s.seq.retryGrid :=
  (afterReplan_mayPrime s).frame

@[simp] theorem arrivals_stage (s : State) :
    nextDue (arrivals s) = nextDue s ∧ ((arrivals s).seq.stage = .none ↔ s.seq.stage = .none) ∧
    (∀ d, (arrivals s).seq.stage = .inFlight d ↔ s.seq.stage = .inFlight d) := (arrivals_mayPrime s).stage

@[simp] theorem afterReplan_stage (s : State) :
    nextDue (afterReplan s) = nextDue s ∧ ((afterReplan s).seq.stage = .none ↔ s.seq.stage = .none) ∧
    (∀ d, (afterReplan s).seq.stage = .inFlight d ↔ s.seq.stage = .inFlight d) := (afterReplan_mayPrime s).stage

/-- R111: only an available reading joins the history, and no prime begins with one. -/
@[simp] theorem requestExposure_history (s : State) (o u : Bool) :
    (requestExposure .noReading o u s).expo.history = s.expo.history ∧
    (requestExposure .unavailable o u s).expo.history = s.expo.history := by
  constructor <;> simp only [requestExposure, historyAfter] <;> (repeat' split) <;> simp_all

@[simp] theorem primeExposure_history (s : State) : (primeExposure s).expo.history = s.expo.history := by
  simp only [primeExposure, primeAsksReading]; (repeat' split) <;> simp

@[simp] theorem beginPrime_history (s : State) : (beginPrime s).expo.history = s.expo.history := by
  simp only [beginPrime]; split <;> simp

@[simp] theorem arrivals_history (s : State) : (arrivals s).expo.history = s.expo.history := by
  simp only [arrivals]; (repeat' split) <;> simp

@[simp] theorem railDecision_history (s : State) : (railDecision s).expo.history = s.expo.history := by
  simp only [railDecision]; (repeat' split) <;> simp

@[simp] theorem afterReplan_history (s : State) : (afterReplan s).expo.history = s.expo.history := by
  simp [afterReplan]

end Sys2Proof.Sequencing
end

