-- ==== Sys2Proof/Proofs/ScheduleLaws.lean ====
section
/-! SUPPORT. What a schedule, a segment made Current and an end of a segment leave behind (R25 to R28, R35, R36, R38,
R39, R41), and what the line commands of the run lead to. -/

namespace Sys2Proof.Sequencing

open Sys2Proof Sys2Proof.Machine

/-! ### Line commands -/

/-- R166, R167: a free link answers a command line with the reply of its verb's owner. -/
theorem exec_line {c : Instr} {v : Verb} {args : List Token} {s : State} {p : State × List Text} (hf : LinkFree s)
    (hc : exec c s = .next (offerCommand v args s)) (ho : owner v args s = replied p) :
    exec c s = .next (p.1.answering p.2) := by
  rw [hc, offerCommand_free v args hf, ho, beginReply_replied]

/-- A slot number in the table is read from its decimal form (R7). -/
theorem slotArg_natText {n : Nat} (v : Verb) (h : n < 48) : slotArg v [natText n] = .ok n := by
  have hn : readNumber (natText n) = some (n : Int) := readNumber_natText (by omega)
  have hr : slotInRange (n : Int) = true := by simp [slotInRange, Config.slotCount]; omega
  simp [slotArg, readSlot, hn, hr]

/-! ### Facts about the calendar that the schedule asks -/

theorem now_congr {s t : State} (h : t.cal = s.cal) : now t = now s := by simp only [now, h]

@[simp] theorem now_afterReplan (s : State) : now (afterReplan s) = now s := now_congr (by simp)

theorem needsCalendar_iff (g : Segment) (s : State) :
    needsCalendar g s = true ↔ s.cal.valid = false ∧ (g.win.isSome = true ∨ g.endAt.isSome = true) := by
  simp [needsCalendar]

theorem untilReached_iff {s : State} {g : Segment} (h : liveSeg s = some g) : untilReached s = true ↔ endPassed g s := by
  rw [untilReached, h]
  rcases he : g.endAt with _ | u <;> simp [endPassed, he]

theorem untilReached_eq_false_iff {s : State} {g : Segment} (h : liveSeg s = some g) :
    untilReached s = false ↔ endAhead g s := by
  rw [untilReached, h]
  rcases he : g.endAt with _ | u <;> simp [endAhead, he]

theorem liveSeg_of_live {s : State} {l : Live} (h : s.seq.live = some l) : liveSeg s = some l.seg := by
  simp [liveSeg, h]

theorem prepTicks_eq (s : State) : prepTicks false s = preparation s := by
  simp only [prepTicks, Bool.false_and, Bool.false_eq_true, if_false, preparation]
  cases s.engine.phase <;> rfl

/-! ### Schedules (R22, R27, R38, R39, R41) -/

/-- The run's data stand; only the wait with its opening instant and the stage may differ. -/
def SameRun (q r : Sequencer) : Prop := r = { q with wait := r.wait, opening := r.opening, stage := r.stage }

theorem SameRun.frame {q r : Sequencer} (h : SameRun q r) :
    r.skip = q.skip ∧ r.ignored = q.ignored ∧ r.edges = q.edges ∧ r.handoffs = q.handoffs ∧
    r.endWaiting = q.endWaiting ∧ r.suspWaiting = q.suspWaiting ∧ r.anchorWaiting = q.anchorWaiting ∧
    r.retryGrid = q.retryGrid := by
  rw [h]; and_intros <;> rfl

theorem placeDue_sameRun (g : Segment) (d : Tick) (s : State) : SameRun s.seq (placeDue g d s).seq := by
  unfold placeDue; (repeat' split) <;> rfl

theorem placeTrip_sameRun (g : Segment) (s : State) : SameRun s.seq (placeTrip g s).seq := by
  unfold placeTrip; split <;> rfl

theorem waitUnscheduled_sameRun (g : Segment) (s : State) : SameRun s.seq (waitUnscheduled g s).seq := by
  unfold waitUnscheduled
  split
  · rfl
  · split
    · rfl
    · exact placeTrip_sameRun g s

theorem holdSchedule_sameRun (s : State) : SameRun s.seq (holdSchedule s).seq := by
  unfold holdSchedule
  split
  · rfl
  · exact waitUnscheduled_sameRun _ s

theorem startSchedule_sameRun (b : Bool) (d : Tick) (s : State) : SameRun s.seq (startSchedule b d s).seq := by
  unfold startSchedule
  split
  · rfl
  · split
    · exact waitUnscheduled_sameRun _ s
    · split
      · exact placeDue_sameRun _ _ s
      · exact placeTrip_sameRun _ s

theorem beginSegment_sameRun (hold b : Bool) (s : State) : SameRun s.seq (beginSegment hold b s).seq := by
  unfold beginSegment
  (repeat' split)
  · exact holdSchedule_sameRun s
  · exact startSchedule_sameRun _ _ s
  · rfl

@[simp] theorem placeDue_seqFrame (g : Segment) (d : Tick) (s : State) :
    (placeDue g d s).seq.skip = s.seq.skip ∧ (placeDue g d s).seq.ignored = s.seq.ignored ∧
    (placeDue g d s).seq.edges = s.seq.edges ∧ (placeDue g d s).seq.handoffs = s.seq.handoffs ∧
    (placeDue g d s).seq.endWaiting = s.seq.endWaiting ∧ (placeDue g d s).seq.suspWaiting = s.seq.suspWaiting ∧
    (placeDue g d s).seq.anchorWaiting = s.seq.anchorWaiting ∧ (placeDue g d s).seq.retryGrid = s.seq.retryGrid :=
  (placeDue_sameRun g d s).frame

@[simp] theorem holdSchedule_seqFrame (s : State) :
    (holdSchedule s).seq.skip = s.seq.skip ∧ (holdSchedule s).seq.ignored = s.seq.ignored ∧
    (holdSchedule s).seq.edges = s.seq.edges ∧ (holdSchedule s).seq.handoffs = s.seq.handoffs ∧
    (holdSchedule s).seq.endWaiting = s.seq.endWaiting ∧ (holdSchedule s).seq.suspWaiting = s.seq.suspWaiting ∧
    (holdSchedule s).seq.anchorWaiting = s.seq.anchorWaiting ∧ (holdSchedule s).seq.retryGrid = s.seq.retryGrid :=
  (holdSchedule_sameRun s).frame

@[simp] theorem startSchedule_seqFrame (b : Bool) (d : Tick) (s : State) :
    (startSchedule b d s).seq.skip = s.seq.skip ∧ (startSchedule b d s).seq.ignored = s.seq.ignored ∧
    (startSchedule b d s).seq.edges = s.seq.edges ∧ (startSchedule b d s).seq.handoffs = s.seq.handoffs ∧
    (startSchedule b d s).seq.endWaiting = s.seq.endWaiting ∧ (startSchedule b d s).seq.suspWaiting = s.seq.suspWaiting ∧
    (startSchedule b d s).seq.anchorWaiting = s.seq.anchorWaiting ∧
    (startSchedule b d s).seq.retryGrid = s.seq.retryGrid :=
  (startSchedule_sameRun b d s).frame

@[simp] theorem beginSegment_seqFrame (hold b : Bool) (s : State) :
    (beginSegment hold b s).seq.skip = s.seq.skip ∧ (beginSegment hold b s).seq.ignored = s.seq.ignored ∧
    (beginSegment hold b s).seq.edges = s.seq.edges ∧ (beginSegment hold b s).seq.handoffs = s.seq.handoffs ∧
    (beginSegment hold b s).seq.endWaiting = s.seq.endWaiting ∧
    (beginSegment hold b s).seq.suspWaiting = s.seq.suspWaiting ∧
    (beginSegment hold b s).seq.anchorWaiting = s.seq.anchorWaiting ∧
    (beginSegment hold b s).seq.retryGrid = s.seq.retryGrid :=
  (beginSegment_sameRun hold b s).frame

/-- R27 step 2, R41: a due time under the window test. -/
theorem placeDue_spec (g : Segment) (d : Tick) {s : State} (hs : s.seq.stage = .none) :
    if windowOpen g.win g.days d = true then
      (placeDue g d s).seq.wait = some .between ∧ nextDue (placeDue g d s) = some d
    else (placeDue g d s).seq.wait = some .closed ∧ (placeDue g d s).seq.opening = nextOpening g.win g.days d ∧
      nextDue (placeDue g d s) = nextOpening g.win g.days d := by
  have hopen : segOpen g d = windowOpen g.win g.days d := rfl
  by_cases ho : windowOpen g.win g.days d = true
  · simp [placeDue, hopen, ho, nextDue]
  · rcases hn : nextOpening g.win g.days d with _ | w <;> simp [placeDue, hopen, ho, hn, nextDue, hs]

/-- R27 step 3: the wait of a TRIP segment by its window now. -/
theorem placeTrip_spec (g : Segment) (s : State) :
    if windowOpen g.win g.days (now s) = true then (placeTrip g s).seq.wait = some .tripWait
    else (placeTrip g s).seq.wait = some .closed ∧
      (placeTrip g s).seq.opening = nextOpening g.win g.days (now s) := by
  have hopen : segOpen g (now s) = windowOpen g.win g.days (now s) := rfl
  by_cases ho : windowOpen g.win g.days (now s) = true <;> simp [placeTrip, hopen, ho]

/-- R22: the wait of a segment that is given no due time. -/
theorem waitUnscheduled_spec (g : Segment) (s : State) : waitsUnscheduled g s (waitUnscheduled g s) := by
  have htrip := placeTrip_spec g s
  unfold waitUnscheduled waitsUnscheduled
  simp only [← needsCalendar_iff]
  rcases hsrc : g.src <;> by_cases hn : needsCalendar g s = true <;> simp_all

/-- R27, R38, R39: a schedule started with no shot held and no retry in progress. -/
theorem startSchedule_spec {s : State} {g : Segment} (b : Bool) (target : Tick) (hl : liveSeg s = some g)
    (hr : s.engine.retrying = false) (hs : s.seq.stage = .none) :
    scheduledAt g (max target (now s + prepTicks b s)) s (startSchedule b target s) := by
  have htrip := placeTrip_spec g s
  have hdue := placeDue_spec g (max target (now s + prepTicks b s)) hs
  unfold startSchedule scheduledAt waitUnscheduled
  simp only [← needsCalendar_iff, hl, hr, Bool.false_or]
  rcases hsrc : g.src <;> by_cases hn : needsCalendar g s = true <;> simp_all

/-- R44: a schedule that a retry holds. -/
theorem startSchedule_held {s : State} {g : Segment} (b : Bool) (target : Tick) (hl : liveSeg s = some g)
    (hr : s.engine.retrying = true) : startSchedule b target s = waitUnscheduled g s := by
  simp [startSchedule, hl, hr]

theorem holdSchedule_eq {s : State} {g : Segment} (hl : liveSeg s = some g) : holdSchedule s = waitUnscheduled g s := by
  simp [holdSchedule, hl]

/-- The schedule is a matter of the calendar, the wait with its opening instant, and the stage. -/
theorem scheduledAt_congr {g : Segment} {d : Tick} {u s t t' : State} (h : scheduledAt g d s t) (hu : u.cal = s.cal)
    (hw : t'.seq.wait = t.seq.wait) (ho : t'.seq.opening = t.seq.opening) (hd : nextDue t' = nextDue t)
    (hs : t.seq.stage = .none → t'.seq.stage = .none) : scheduledAt g d u t' := by
  unfold scheduledAt at h ⊢
  rw [hu, hw, ho, hd, now_congr hu]
  (repeat' split at h) <;> simp_all

theorem waitsUnscheduled_congr {g : Segment} {u s t t' : State} (h : waitsUnscheduled g s t)
    (hv : u.cal.valid = s.cal.valid) (hn : now u = now s)
    (hw : t'.seq.wait = t.seq.wait) (ho : t'.seq.opening = t.seq.opening) : waitsUnscheduled g u t' := by
  unfold waitsUnscheduled at h ⊢
  rw [hv, hw, ho, hn]
  exact h

/-- What a replanned rail leaves of the schedule. -/
theorem scheduledAt_afterReplan {g : Segment} {d : Tick} {s t : State} (h : scheduledAt g d s t) :
    scheduledAt g d s (afterReplan t) :=
  scheduledAt_congr h rfl (by simp) (by simp) (by simp) (by simp)

end Sys2Proof.Sequencing
end

