-- ==== Sys2Proof/Proofs/SegmentLaws.lean ====
section
/-! SUPPORT. A segment made Current (R25, R26), and the end of a segment with its handoffs and the loop guard (R35,
R36). -/

namespace Sys2Proof.Sequencing

open Sys2Proof Sys2Proof.Machine

/-! ### A segment made Current (R25, R26) -/

theorem resolveFollow_eq (s : State) (f : Follow) : resolveFollow s f = armedFrom s f := by
  cases f <;> rfl

theorem asksNext_iff (s : State) (f : Follow) : asksNext s f = true ↔ needsNext s f := by
  cases f <;> simp [asksNext, needsNext]

theorem slotAt_congr {s t : State} (h : t.plan = s.plan) (n : Nat) : slotAt t n = slotAt s n := by
  simp only [slotAt, h]

theorem armedFrom_congr {s t : State} (h : t.plan = s.plan) (f : Follow) : armedFrom t f = armedFrom s f := by
  cases f <;> simp only [armedFrom, slotAt_congr h]

theorem needsNext_congr {s t : State} (h : t.plan = s.plan) (f : Follow) : needsNext t f ↔ needsNext s f := by
  cases f <;> simp only [needsNext, slotAt_congr h]

theorem fillCurrent_seq (n : Nat) (g : Segment) (s : State) :
    (fillCurrent n g s).seq = { s.seq with
      current := some n, live := some { slot := n, seg := g, bo := 0 }, armed := armedFrom s g.fol, shotIndex := 0,
      lastDue := none, skip := 0, ignored := 0, edges := 0, stage := .none, wait := none, opening := none,
      endWaiting := false, anchorWaiting := false,
      retryGrid := s.seq.retryGrid.map (RetryGrid.keepInterval (liveSeg s)) } := by
  simp only [fillCurrent, resolveFollow_eq]; split <;> rfl

theorem fillCurrent_notices (n : Nat) (g : Segment) (s : State) (k : Notice) :
    k ∈ (fillCurrent n g s).notices ↔ k ∈ s.notices ∨ (k = .needNext ∧ needsNext s g.fol) := by
  rw [← asksNext_iff]
  simp only [fillCurrent]; split <;> simp_all [or_comm]

theorem fillCurrent_live (n : Nat) (g : Segment) (s : State) : liveSeg (fillCurrent n g s) = some g := by
  simp [liveSeg, fillCurrent_seq]

/-- R25 steps 1 to 3. -/
theorem fillCurrent_madeCurrent (n : Nat) (g : Segment) (s : State) : madeCurrent n g s (fillCurrent n g s) := by
  rw [madeCurrent, fillCurrent_seq, fillCurrent_notices]
  simp

/-- What makes a segment Current is a matter of the plan and the notices before, the sequencer and the notices after. -/
theorem madeCurrent_congr {n : Nat} {g : Segment} {s s' t t' : State} (h : madeCurrent n g s t)
    (hp : s'.plan = s.plan) (hn : Notice.needNext ∈ s'.notices ↔ Notice.needNext ∈ s.notices)
    (hq : t'.seq.current = t.seq.current ∧ t'.seq.live = t.seq.live ∧ t'.seq.armed = t.seq.armed ∧
      t'.seq.shotIndex = t.seq.shotIndex ∧ t'.seq.lastDue = t.seq.lastDue ∧ t'.seq.skip = t.seq.skip ∧
      t'.seq.ignored = t.seq.ignored ∧ t'.seq.edges = t.seq.edges)
    (hk : Notice.needNext ∈ t'.notices ↔ Notice.needNext ∈ t.notices) : madeCurrent n g s' t' := by
  obtain ⟨h1, h2, h3, h4, h5, h6, h7, h8, h9⟩ := h
  obtain ⟨q1, q2, q3, q4, q5, q6, q7, q8⟩ := hq
  rw [madeCurrent, q1, q2, q3, q4, q5, q6, q7, q8, hk, armedFrom_congr hp, needsNext_congr hp, hn]
  exact ⟨h1, h2, h3, h4, h5, h6, h7, h8, h9⟩

theorem madeCurrent_beginSegment {n : Nat} {g : Segment} {s t : State} (hold b : Bool) (h : madeCurrent n g s t) :
    madeCurrent n g s (beginSegment hold b t) :=
  madeCurrent_congr h rfl Iff.rfl (by simp) (by simp)

theorem madeCurrent_afterReplan {n : Nat} {g : Segment} {s t : State} (h : madeCurrent n g s t) :
    madeCurrent n g s (afterReplan t) :=
  madeCurrent_congr h rfl Iff.rfl (by simp) (by simp)

/-- R25 step 4: a segment whose end time lies ahead begins; R27 gives its schedule. -/
theorem makeCurrent_ahead {n : Nat} {g : Segment} {s : State} (h : endAhead g s) :
    makeCurrent n g s = beginSegment false false (fillCurrent n g s) := by
  have hu : untilReached (fillCurrent n g s) = false :=
    (untilReached_eq_false_iff (fillCurrent_live n g s)).2 (by simpa [endAhead] using h)
  simp [makeCurrent, hu]

theorem makeCurrent_passed {n : Nat} {g : Segment} {s : State} (h : endPassed g s) :
    makeCurrent n g s = endSegment false false (handoffsLeft s) (fillCurrent n g s) := by
  have hu : untilReached (fillCurrent n g s) = true :=
    (untilReached_iff (fillCurrent_live n g s)).2 (by simpa [endPassed] using h)
  simp [makeCurrent, hu, handoffsLeft, fillCurrent_seq]

/-- R27: the schedule that a segment made Current in an ACTIVE run is given. -/
theorem beginSegment_scheduled {s : State} {g : Segment} (b : Bool) (hl : liveSeg s = some g) (ha : s.seq.run = .active)
    (hr : s.engine.retrying = false) (hs : s.seq.stage = .none) :
    scheduledAt g (now s + prepTicks b s) s (beginSegment false b s) := by
  have := startSchedule_spec b (now s) hl hr hs
  simpa [beginSegment, ha] using this

/-- R44, R37 step 2: a schedule held back leaves no shot and the segment's wait. -/
theorem beginSegment_held {s : State} {g : Segment} {hold : Bool} (b : Bool) (hl : liveSeg s = some g)
    (ha : s.seq.run = .active) (hh : hold = true ∨ s.engine.retrying = true) :
    beginSegment hold b s = waitUnscheduled g s := by
  rcases hh with rfl | hh
  · simp [beginSegment, ha, holdSchedule_eq hl]
  · cases hold <;> simp [beginSegment, ha, holdSchedule_eq hl, startSchedule_held _ _ hl hh]

theorem beginSegment_inactive {s : State} (hold b : Bool) (ha : s.seq.run ≠ .active) : beginSegment hold b s = s := by
  simp [beginSegment, ha]

/-! ### The end of a segment (R35, R36) -/

/-- R35 steps 1 and 3: SEGMENT_END, and the slot that follows made Current by a counted handoff. -/
def handTo (m : Nat) (g : Segment) (s : State) : State :=
  fillCurrent m g { raise .segmentEnd s with seq := { s.seq with handoffs := s.seq.handoffs + 1 } }

theorem handTo_frame (m : Nat) (g : Segment) (s : State) :
    (handTo m g s).plan = s.plan ∧ (handTo m g s).cal = s.cal ∧ (handTo m g s).engine = s.engine ∧
    (handTo m g s).power = s.power ∧ (handTo m g s).settings = s.settings ∧ (handTo m g s).seq.run = s.seq.run := by
  simp [handTo]

theorem handTo_seq (m : Nat) (g : Segment) (s : State) :
    (handTo m g s).seq.stage = .none ∧ (handTo m g s).seq.wait = none ∧ (handTo m g s).seq.opening = none ∧
    (handTo m g s).seq.handoffs = s.seq.handoffs + 1 ∧ (handTo m g s).seq.armed = armedFrom s g.fol ∧
    (handTo m g s).seq.suspWaiting = s.seq.suspWaiting := by
  simp only [handTo, fillCurrent_seq, and_true, true_and]
  exact armedFrom_congr (by simp) g.fol

theorem handTo_live (m : Nat) (g : Segment) (s : State) : liveSeg (handTo m g s) = some g := fillCurrent_live _ _ _

theorem handTo_notices (m : Nat) (g : Segment) (s : State) (k : Notice) :
    k ∈ (handTo m g s).notices ↔ k ∈ s.notices ∨ k = .segmentEnd ∨ (k = .needNext ∧ needsNext s g.fol) := by
  rw [handTo, fillCurrent_notices]
  have : k ∈ ({ raise .segmentEnd s with seq := { s.seq with handoffs := s.seq.handoffs + 1 } } : State).notices ↔
      k = .segmentEnd ∨ k ∈ s.notices := mem_raise k .segmentEnd s
  rw [this, needsNext_congr (s := s) (by simp)]
  tauto

theorem handTo_madeCurrent (m : Nat) (g : Segment) (s : State) : madeCurrent m g s (handTo m g s) :=
  madeCurrent_congr (fillCurrent_madeCurrent m g _) (by simp) (by simp) (by simp [handTo]) Iff.rfl

/-- R35: what follows is a matter of Armed, the live copy and the slots. -/
theorem followSlot_congr {s t : State} (hp : t.plan = s.plan) (ha : t.seq.armed = s.seq.armed)
    (hl : t.seq.live = s.seq.live) : followSlot t = followSlot s := by
  have hr : ∀ f, resolveFollow t f = resolveFollow s f := fun f => by
    simp only [resolveFollow_eq, armedFrom_congr hp]
  simp only [followSlot, ha, liveSeg, hl, hr, slotAt_congr hp]

@[simp] theorem followSlot_raise (k : Notice) (s : State) : followSlot (raise k s) = followSlot s :=
  followSlot_congr (by simp) (by simp) (by simp)

/-- R35 steps 2 and 3: Armed is followed, or with none Armed the slot of the follow field. -/
theorem followSlot_of_follower {s : State} {l : Live} {m : Nat} {g : Segment} (hl : s.seq.live = some l)
    (hf : follower l s = some m) (hg : slotAt s m = some g) : followSlot s = some (m, g) := by
  rcases ha : s.seq.armed with _ | a
  · rcases hfol : l.seg.fol with k | _ | _ <;> simp [follower, ha, hfol] at hf
    subst hf
    simp [followSlot, ha, liveSeg, hl, hfol, resolveFollow, hg]
  · simp [follower, ha] at hf
    subst hf
    simp [followSlot, ha, hg]

/-- R35 step 4: nothing follows. -/
theorem followSlot_none {s : State} {l : Live} (hl : s.seq.live = some l) (ha : s.seq.armed = none)
    (hf : l.seg.fol = .finish ∨ needsNext s l.seg.fol) : followSlot s = none := by
  rcases hfol : l.seg.fol with k | _ | _ <;> simp_all [followSlot, liveSeg, resolveFollow, needsNext]

/-- R35 step 3, R36: the handoff is made, and a segment whose end time has passed hands on at once. -/
theorem endSegment_succ {s : State} {m : Nat} {g : Segment} (hold b : Bool) (left : Nat)
    (hf : followSlot s = some (m, g)) : endSegment hold b (left + 1) s =
      if untilReached (handTo m g s) then endSegment hold b left (handTo m g s)
      else beginSegment hold b (handTo m g s) := by
  simp [endSegment, hf, handTo]

/-- R36: the loop guard ends the run with PLAN_LOOP. -/
theorem endSegment_zero {s : State} {p : Nat × Segment} (hold b : Bool) (hf : followSlot s = some p) :
    endSegment hold b 0 s = raise .planLoop (clearRun .idle (raise .segmentEnd s)) := by
  simp [endSegment, hf]

theorem endSegment_last {s : State} (hold b : Bool) (left : Nat) (hf : followSlot s = none) :
    endSegment hold b left s = endRun (raise .segmentEnd s) := by
  cases left <;> simp [endSegment, hf]

/-- One handoff, to a segment whose end time lies ahead. -/
theorem endSegment_once {s : State} {m : Nat} {g : Segment} (hold b : Bool) (hf : followSlot s = some (m, g))
    (ha : endAhead g s) (hk : s.seq.handoffs < 48) :
    endSegment hold b (handoffsLeft s) s = beginSegment hold b (handTo m g s) := by
  obtain ⟨k, hk'⟩ : ∃ k, handoffsLeft s = k + 1 := ⟨47 - s.seq.handoffs, by simp [handoffsLeft, Config.handoffLimit]; omega⟩
  have hu : untilReached (handTo m g s) = false :=
    (untilReached_eq_false_iff (handTo_live m g s)).2 (by simpa [endAhead, handTo_frame] using ha)
  rw [hk', endSegment_succ hold b k hf, hu]; rfl

/-- A segment whose end time has passed hands on at once (R25 step 4). -/
theorem endSegment_passed {s : State} {m : Nat} {g : Segment} (hold b : Bool) (hf : followSlot s = some (m, g))
    (ha : endPassed g s) (hk : s.seq.handoffs < 48) :
    endSegment hold b (handoffsLeft s) s = endSegment hold b (handoffsLeft (handTo m g s)) (handTo m g s) := by
  have hk' : handoffsLeft s = handoffsLeft (handTo m g s) + 1 := by
    simp [handoffsLeft, Config.handoffLimit, handTo_seq]; omega
  have hu : untilReached (handTo m g s) = true :=
    (untilReached_iff (handTo_live m g s)).2 (by simpa [endPassed, handTo_frame] using ha)
  rw [hk', endSegment_succ hold b _ hf, hu]; rfl

/-! ### Ends of the run (R35 step 4, R36) -/

/-- The run is over: no pointer, no live copy, no stage and no wait. -/
theorem clearRun_seq (r : RunState) (s : State) :
    (clearRun r s).seq.run = r ∧ (clearRun r s).seq.current = none ∧ (clearRun r s).seq.armed = none ∧
    (clearRun r s).seq.live = none ∧ (clearRun r s).seq.stage = .none ∧ (clearRun r s).seq.wait = none ∧
    (clearRun r s).seq.endWaiting = false ∧ (clearRun r s).seq.suspWaiting = false ∧
    (clearRun r s).seq.anchorWaiting = false ∧ (clearRun r s).seq.retryGrid = none := by
  unfold clearRun standDown; split <;> simp

/-- The run has ended in IDLE by the loop guard, and RUN_END is not raised (R36). -/
abbrev loopEnded (s t : State) : Prop :=
  runEndedIn .idle t ∧ Notice.segmentEnd ∈ t.notices ∧ Notice.planLoop ∈ t.notices ∧
    (Notice.runEnd ∈ t.notices ↔ Notice.runEnd ∈ s.notices)

theorem endSegment_guarded {s : State} {p : Nat × Segment} (hold b : Bool) (hf : followSlot s = some p)
    (hk : 48 ≤ s.seq.handoffs) : loopEnded s (endSegment hold b (handoffsLeft s) s) := by
  have h0 : handoffsLeft s = 0 := by simp [handoffsLeft, Config.handoffLimit]; omega
  rw [h0, endSegment_zero hold b hf]
  simp [loopEnded, runEndedIn, clearRun_seq]

/-- R36: a segment that follows itself, its end time passed, runs into the loop guard. -/
theorem endSegment_selfLoop {m : Nat} {g : Segment} (hold b : Bool) (hfol : g.fol = .slot m) (left : Nat) :
    ∀ s : State, followSlot s = some (m, g) → slotAt s m = some g → endPassed g s →
      loopEnded s (endSegment hold b left s) := by
  induction left with
  | zero =>
    intro s hf _ _
    rw [endSegment_zero hold b hf]
    simp [loopEnded, runEndedIn, clearRun_seq]
  | succ left ih =>
    intro s hf hg hp
    have hg' : slotAt (handTo m g s) m = some g := by rw [slotAt_congr (handTo_frame m g s).1, hg]
    have hp' : endPassed g (handTo m g s) := by simpa [endPassed, handTo_frame] using hp
    have hf' : followSlot (handTo m g s) = some (m, g) := by
      simp [followSlot, handTo_seq, armedFrom, hfol, hg, hg']
    have hu := (untilReached_iff (handTo_live m g s)).2 hp'
    rw [endSegment_succ hold b left hf, hu, if_pos rfl]
    obtain ⟨h1, h2, h3, h4⟩ := ih _ hf' hg' hp'
    refine ⟨h1, h2, h3, h4.trans ?_⟩
    simp [handTo_notices]

/-- R35 step 4 with FOL = END. -/
theorem endSegment_finish {s : State} {l : Live} (hold b : Bool) (left : Nat) (hl : s.seq.live = some l)
    (ha : s.seq.armed = none) (hf : l.seg.fol = .finish) :
    runEndedIn .idle (endSegment hold b left s) ∧ Notice.segmentEnd ∈ (endSegment hold b left s).notices ∧
      Notice.runEnd ∈ (endSegment hold b left s).notices := by
  rw [endSegment_last hold b left (followSlot_none hl ha (.inl hf))]
  have hl' : liveSeg (raise .segmentEnd s) = some l.seg := by simp [liveSeg, hl]
  simp [endRun, hl', hf, runEndedIn, clearRun_seq]

/-- R35 step 4 with FOL = ASK or an EMPTY slot. -/
theorem endSegment_starved {s : State} {l : Live} (hold b : Bool) (left : Nat) (hl : s.seq.live = some l)
    (ha : s.seq.armed = none) (hf : needsNext s l.seg.fol) :
    runEndedIn .starved (endSegment hold b left s) ∧ Notice.segmentEnd ∈ (endSegment hold b left s).notices ∧
      Notice.starved ∈ (endSegment hold b left s).notices := by
  rw [endSegment_last hold b left (followSlot_none hl ha (.inr hf))]
  have hl' : liveSeg (raise .segmentEnd s) = some l.seg := by simp [liveSeg, hl]
  have hne : l.seg.fol ≠ .finish := by intro he; simp [needsNext, he] at hf
  simp [endRun, hl', hne, runEndedIn, clearRun_seq]

end Sys2Proof.Sequencing
end

