-- ==== Sys2Proof/Proofs/StartingARun.lean ====
section
/-! SUPPORT. START, QUEUE and the autorun step (R28, R33, R188). -/

namespace Sys2Proof.Sequencing

open Sys2Proof Sys2Proof.Machine

/-! ### A slot made Current by a command -/

/-- R25: the slot has become Current, in the run state and with the handoff counter that it was started with. -/
theorem makeCurrent_made {n : Nat} {g : Segment} {s x : State} (ha : endAhead g s) (hc : x.cal = s.cal)
    (hp : x.plan = s.plan) (hn : x.notices = s.notices) :
    madeCurrent n g s (afterReplan (makeCurrent n g x)) ∧
      (afterReplan (makeCurrent n g x)).seq.run = x.seq.run ∧
      (afterReplan (makeCurrent n g x)).seq.handoffs = x.seq.handoffs := by
  have ha' : endAhead g x := by simpa [endAhead, hc] using ha
  rw [makeCurrent_ahead ha']
  refine ⟨?_, by simp, by simp [fillCurrent_seq]⟩
  refine madeCurrent_congr ?_ hp.symm (by rw [hn]) (by simp) Iff.rfl
  exact madeCurrent_afterReplan (madeCurrent_beginSegment _ _ (fillCurrent_madeCurrent n g x))

/-- R27, R38, R39: its schedule in an ACTIVE run. -/
theorem makeCurrent_scheduled {n : Nat} {g : Segment} {s x : State} (ha : endAhead g s) (hc : x.cal = s.cal)
    (hrun : x.seq.run = .active) (hr : x.engine.retrying = false) :
    scheduledAt g (now x + preparation x) s (afterReplan (makeCurrent n g x)) := by
  have ha' : endAhead g x := by simpa [endAhead, hc] using ha
  have hsched := beginSegment_scheduled (s := fillCurrent n g x) false (fillCurrent_live n g x) (by simpa using hrun)
    (by simpa using hr) (by simp [fillCurrent_seq])
  have hnow : now (fillCurrent n g x) = now x := now_congr (by simp)
  have hprep : prepTicks false (fillCurrent n g x) = preparation x := by
    rw [prepTicks_eq]; simp [preparation]
  rw [hnow, hprep] at hsched
  rw [makeCurrent_ahead ha']
  exact scheduledAt_congr (scheduledAt_afterReplan hsched) (by simp [hc]) rfl rfl rfl id

/-- R25 step 4, R35, R36: its end time has passed, and it ends at once. -/
theorem makeCurrent_endsAtOnce {c : Instr} {n : Nat} {g : Segment} {s x t : State} (hexec : exec c s = .next t)
    (hq : t.seq = (afterReplan (makeCurrent n g x)).seq) (hk : t.notices = (afterReplan (makeCurrent n g x)).notices)
    (hg : slotAt s n = some g) (hc : x.cal = s.cal) (hp : x.plan = s.plan) (hn : x.notices = s.notices)
    (hh : x.seq.handoffs = 0) (hrun : startedAs s x) (hpass : endPassed g s) : endsAtOnce c n g s := by
  have hpass' : endPassed g x := by simpa [endPassed, hc] using hpass
  have hf : slotAt (fillCurrent n g x) = slotAt s := funext (slotAt_congr (by simpa using hp))
  have harmed : (fillCurrent n g x).seq.armed = armedFrom s g.fol := by
    rw [fillCurrent_seq]; exact armedFrom_congr hp g.fol
  have hlive : (fillCurrent n g x).seq.live = some { slot := n, seg := g, bo := 0 } := by rw [fillCurrent_seq]
  have hhand : (fillCurrent n g x).seq.handoffs = 0 := by rw [fillCurrent_seq]; exact hh
  have hleft : handoffsLeft x = handoffsLeft (fillCurrent n g x) := by simp [handoffsLeft, hhand, hh]
  rw [makeCurrent_passed hpass', hleft] at hq hk
  simp only [endsAtOnce, leadsTo, hexec, Host.Outcome.next.injEq, exists_eq_left', runEndedIn, madeCurrent, startedAs, hq,
    hk, afterReplan_frame, afterReplan_seqFrame]
  refine ⟨fun hfol => ?_, fun hfol => ?_, fun m h hfol hm hah => ?_, fun hfol => ?_⟩
  · exact endSegment_finish _ _ _ hlive (by rw [harmed, hfol]) hfol
  · have hnone : armedFrom s g.fol = none := by
      rcases hfol' : g.fol with k | _ | _ <;> simp_all [armedFrom, needsNext]
    exact endSegment_starved _ _ _ hlive (by rw [harmed, hnone]) ((needsNext_congr (by simpa using hp) _).2 hfol)
  · have hfs : followSlot (fillCurrent n g x) = some (m, h) :=
      followSlot_of_follower hlive (by simp [follower, harmed, hfol, armedFrom, hm]) (by rw [hf, hm])
    have hahx : endAhead h (fillCurrent n g x) := by simpa [endAhead, hc] using hah
    rw [endSegment_once false false hfs hahx (by omega)]
    have hmade := madeCurrent_beginSegment false false (handTo_madeCurrent m h (fillCurrent n g x))
    have hneed : ¬ needsNext x g.fol := by
      rw [hfol, needsNext_congr hp]; simp [hm]
    refine ⟨madeCurrent_congr hmade (by simp [hp]) ?_ (by simp) Iff.rfl, ?_, ?_, ?_⟩
    · simp [fillCurrent_notices, hn, hneed]
    · simpa [handTo_frame] using hrun
    · simp [handTo_seq, hhand]
    · simp [handTo_notices]
  · have hfs : followSlot (fillCurrent n g x) = some (n, g) :=
      followSlot_of_follower hlive (by simp [follower, harmed, hfol, armedFrom, hg]) (by rw [hf, hg])
    obtain ⟨h1, h2, h3, h4⟩ := endSegment_selfLoop false false hfol (handoffsLeft (fillCurrent n g x)) _ hfs
      (by rw [hf, hg]) (by simpa [endPassed] using hpass')
    exact ⟨h1, h2, h3, h4.trans (by simp [fillCurrent_notices, hn])⟩

/-! ### START (R28) -/

/-- R28: what START sets before its slot becomes Current. -/
def readied (s : State) : State :=
  { s with
    seq := { s.seq with handoffs := 0, run := startedRun s }
    expo := s.expo.fresh
    engine := { s.engine with misses := 0, retries := 0 } }

theorem startRun_eq (n : Nat) (g : Segment) (s : State) :
    startRun n g s = afterReplan (makeCurrent n g (readied s)) := rfl

theorem exec_start {n : Nat} {g : Segment} {s : State} (hf : LinkFree s) (hn : n < 48) (hr : s.seq.run = .idle)
    (hg : slotAt s n = some g) :
    exec (.start [natText n]) s = .next ((startRun n g s).answering ["=START ".toList ++ natText n]) := by
  have ho : ownStart [natText n] s = (startRun n g s, okLine .start [natText n]) := by
    simp [ownStart, slotArg_natText _ hn, hr, hg]
  exact exec_line (v := .start) (p := (startRun n g s, okLine .start [natText n])) hf rfl (congrArg replied ho)

theorem startedAs_readied (s : State) : startedAs s (readied s) := rfl

/-- Settles O12: START's slot is made Current, given its schedule, or ended at once. -/
theorem startBeginsRun : Obligations.StartBeginsRun := by
  refine ⟨fun n g s hf hn hr hg ha => ?_, fun n g s hf hn hr hg ha hl hretry => ?_, fun n g s hf hn hr hg hp => ?_⟩
  · obtain ⟨hmade, hrun, hhand⟩ := makeCurrent_made (n := n) (x := readied s) ha rfl rfl rfl
    exact ⟨_, exec_start hf hn hr hg, hmade, hrun, hhand, by simp [startRun_eq, readied, Calculator.fresh],
      by simp [startRun_eq, readied, Calculator.fresh], by simp [startRun_eq, readied, Calculator.fresh],
      by simp [replies], by simp [runFrame]⟩
  · have hact : (readied s).seq.run = .active := by simp [readied, startedRun, hl]
    exact ⟨_, exec_start hf hn hr hg,
      scheduledAt_congr (makeCurrent_scheduled (n := n) (x := readied s) ha rfl hact hretry) rfl rfl rfl rfl id⟩
  · exact makeCurrent_endsAtOnce (exec_start hf hn hr hg) rfl rfl hg rfl rfl rfl rfl (startedAs_readied s) hp

/-! ### QUEUE and the autorun step (R33, R188) -/

/-- R33: what QUEUE sets in STARVED before its slot becomes Current. -/
def unstarved (s : State) : State := { s with seq := { s.seq with handoffs := 0, run := startedRun s } }

theorem exec_queue_armed {n : Nat} {g : Segment} {s : State} (hf : LinkFree s) (hn : n < 48) (hg : slotAt s n = some g)
    (hr : hasSegment s.seq.run = true) : exec (.queue [natText n]) s = .next
      ({ s with seq := { s.seq with armed := some n } }.answering ["=QUEUE ".toList ++ natText n]) := by
  have hidle : s.seq.run ≠ .idle := by intro h; simp [h, hasSegment] at hr
  have hstarved : s.seq.run ≠ .starved := by intro h; simp [h, hasSegment] at hr
  have ho : ownQueue [natText n] s =
      ({ s with seq := { s.seq with armed := some n } }, okLine .queue [natText n]) := by
    simp [ownQueue, slotArg_natText _ hn, hidle, hg, hstarved]
  exact exec_line (v := .queue) (p := (_, okLine .queue [natText n])) hf rfl (congrArg replied ho)

theorem exec_queue_starved {n : Nat} {g : Segment} {s : State} (hf : LinkFree s) (hn : n < 48)
    (hg : slotAt s n = some g) (hr : s.seq.run = .starved) : exec (.queue [natText n]) s = .next
      ((afterReplan (makeCurrent n g (unstarved s))).answering ["=QUEUE ".toList ++ natText n]) := by
  have ho : ownQueue [natText n] s =
      (afterReplan (makeCurrent n g (unstarved s)), okLine .queue [natText n]) := by
    simp [ownQueue, slotArg_natText _ hn, hg, hr, unstarved]
  exact exec_line (v := .queue) (p := (_, okLine .queue [natText n])) hf rfl (congrArg replied ho)

theorem takeLine_empty {s : State} (h : s.link.waiting = none) : takeLine s = s := by
  simp [takeLine, h]

/-- R188: the autorun step, no line waiting in the pending slot. -/
theorem exec_autorunStart {found : Found} {s : State} (hs : s.startUp = .autorun found) (hw : s.link.waiting = none) :
    exec .autorunStart s = .next (autorun { s with startUp := .working }) := by
  have hlink : (autorun { s with startUp := .working }).link = s.link := by
    simp only [autorun]; (repeat' split) <;> simp
  have : exec .autorunStart s = .next (takeLine (autorun { s with startUp := .working })) := by
    simp only [exec, execAutorunStart, hs]
  rw [this, takeLine_empty (by rw [hlink, hw])]

theorem autorun_ready {n : Nat} {g : Segment} {s : State} (har : s.settings.ar = some n) (hg : slotAt s n = some g) :
    autorun s = startRun n g s := by
  simp [autorun, har, hg]

/-- Settles O16: QUEUE arms its slot or, in STARVED, makes it Current; the autorun step starts its slot. -/
theorem queueAndAutorun : Obligations.QueueAndAutorun := by
  refine ⟨fun n g s hf hn hg => ⟨fun hr => exec_queue_armed hf hn hg hr, fun hr ha => ?_, fun hr hp => ?_⟩,
    fun found s hs hw => ⟨fun har => ?_, fun n har hg => ?_, fun n har g hg => ⟨fun ha => ?_, fun hp => ?_⟩⟩⟩
  · obtain ⟨hmade, hrun, hhand⟩ := makeCurrent_made (n := n) (x := unstarved s) ha rfl rfl rfl
    exact ⟨_, exec_queue_starved hf hn hg hr, hmade, hrun, hhand, by simp [unstarved], by simp [unstarved],
      by simp [unstarved], by simp [replies, unstarved], by simp [runFrame, unstarved]⟩
  · exact makeCurrent_endsAtOnce (exec_queue_starved hf hn hg hr) rfl rfl hg rfl rfl rfl rfl rfl hp
  · rw [exec_autorunStart hs hw]; simp [autorun, har]
  · refine ⟨_, exec_autorunStart hs hw, ?_⟩
    have hg' : slotAt { s with startUp := .working } n = none := hg
    simp [autorun, har, hg']
  all_goals
    have hg' : slotAt { s with startUp := .working } n = some g := hg
    have hexec := exec_autorunStart hs hw
    rw [autorun_ready (s := { s with startUp := .working }) har hg'] at hexec
  · obtain ⟨hmade, hrun, hhand⟩ :=
      makeCurrent_made (n := n) (s := s) (x := readied { s with startUp := .working }) ha rfl rfl rfl
    exact ⟨_, hexec, by simp, hmade, hrun, hhand, by simp [startRun_eq, readied, Calculator.fresh],
      by simp [startRun_eq, readied, Calculator.fresh], by simp [startRun_eq, readied, Calculator.fresh], by simp⟩
  · exact makeCurrent_endsAtOnce hexec rfl rfl hg rfl rfl rfl rfl rfl hp

end Sys2Proof.Sequencing
end

