-- ==== Sys2Proof/Proofs/EndingASegment.lean ====
section
/-! SUPPORT. The end of a segment as the statements put it (`endsSegment`), for whatever row ends it; NEXT (R32). -/

namespace Sys2Proof.Sequencing

open Sys2Proof Sys2Proof.Machine

/-! ### A segment handed to -/

/-- Slot `m` with record `g` has been made Current in `t` by the last of `k` handoffs from `s`, its schedule not yet
begun. -/
structure HandedOver (m : Nat) (g : Segment) (k : Nat) (s t : State) : Prop where
  made : madeCurrent m g s t
  live : liveSeg t = some g
  run : t.seq.run = s.seq.run
  handoffs : t.seq.handoffs = s.seq.handoffs + k
  segmentEnd : Notice.segmentEnd ∈ t.notices
  stage : t.seq.stage = .none
  wait : t.seq.wait = none
  cal : t.cal = s.cal
  engine : t.engine = s.engine
  power : t.power = s.power
  settings : t.settings = s.settings

theorem handTo_handedOver (m : Nat) (g : Segment) (s : State) : HandedOver m g 1 s (handTo m g s) where
  made := handTo_madeCurrent m g s
  live := handTo_live m g s
  run := by simp [handTo_frame]
  handoffs := by simp [handTo_seq]
  segmentEnd := by simp [handTo_notices]
  stage := by simp [handTo_seq]
  wait := by simp [handTo_seq]
  cal := by simp [handTo_frame]
  engine := by simp [handTo_frame]
  power := by simp [handTo_frame]
  settings := by simp [handTo_frame]

/-- Two handoffs, by way of a segment that names a READY slot. -/
theorem handTo_handTo_handedOver {m k : Nat} {g h : Segment} {s : State} (hfol : g.fol = .slot k)
    (hk : slotAt s k = some h) : HandedOver k h 2 s (handTo k h (handTo m g s)) where
  made := madeCurrent_congr (handTo_madeCurrent k h (handTo m g s)) (by simp [handTo_frame])
    (by simp [handTo_notices, needsNext, hfol, hk]) (by simp) Iff.rfl
  live := handTo_live _ _ _
  run := by simp [handTo_frame]
  handoffs := by simp [handTo_seq]
  segmentEnd := by simp [handTo_notices]
  stage := by simp [handTo_seq]
  wait := by simp [handTo_seq]
  cal := by simp [handTo_frame]
  engine := by simp [handTo_frame]
  power := by simp [handTo_frame]
  settings := by simp [handTo_frame]

/-- The notices that an end of a segment raises or leaves. -/
def endNotices : List Notice := [.segmentEnd, .needNext, .starved, .runEnd, .planLoop]

/-- A row ends the segment of `l`: it takes the end in a state `x` that has the segment, its pointers and the slots as
`s` has them, and goes on with `after`, which keeps what the end of a run leaves and the notices of an end. What the
segment handed to is left with is for each row to say. -/
theorem endsSegment_intro {c : Instr} {l : Live} {s u x : State} {target : Tick} {run : RunState} {held : Prop}
    {hold b : Bool} {after : State → State}
    (hexec : exec c s = .next (after (endSegment hold b (handoffsLeft x) x)))
    (hlive : x.seq.live = some l) (harmed : x.seq.armed = s.seq.armed) (hplan : x.plan = s.plan)
    (hnotices : x.notices = s.notices) (hhand : x.seq.handoffs = s.seq.handoffs)
    (hvalid : x.cal.valid = u.cal.valid) (hsec : x.cal.seconds = u.cal.seconds)
    (hnot : ∀ y, ∀ k ∈ endNotices, k ∈ (after y).notices ↔ k ∈ y.notices)
    (hended : ∀ r y, hasSegment r = false → runEndedIn r y → runEndedIn r (after y))
    (hhanded : ∀ m g k y, HandedOver m g k x y → handedTo m g k s u target run held (after (beginSegment hold b y))) :
    endsSegment c l s u target run held := by
  have hslot : slotAt x = slotAt s := funext (slotAt_congr hplan)
  have hahead : ∀ g, endAhead g u → endAhead g x := fun g h => by simpa [endAhead, hvalid, hsec] using h
  have hpassed : ∀ g, endPassed g u → endPassed g x := fun g h => by simpa [endPassed, hvalid, hsec] using h
  have hfollow : ∀ m g, follower l s = some m → slotAt s m = some g → followSlot x = some (m, g) := fun m g h hg =>
    followSlot_of_follower hlive (by simpa only [follower, harmed] using h) (by rw [hslot, hg])
  have hloop : ∀ y, loopEnded x y → loopEnded s (after y) := fun y ⟨h1, h2, h3, h4⟩ =>
    ⟨hended _ _ rfl h1, (hnot y _ (by decide)).2 h2, (hnot y _ (by decide)).2 h3, by
      rw [hnot y _ (by decide), h4, hnotices]⟩
  refine ⟨fun m hm g hg => ⟨fun ha hk => ?_, fun hp => ⟨fun k h hfol hkh ha hk => ?_, fun hfol => ?_⟩, fun hk => ?_⟩,
    fun ha hfol => ?_, fun ha hfol => ?_⟩
  · refine ⟨_, hexec, ?_⟩
    rw [endSegment_once hold b (hfollow m g hm hg) (hahead g ha) (by omega)]
    exact hhanded m g 1 _ (handTo_handedOver m g x)
  · refine ⟨_, hexec, ?_⟩
    have hkh' : slotAt x k = some h := by rw [hslot, hkh]
    have hfs : followSlot (handTo m g x) = some (k, h) := by
      have hs := slotAt_congr (handTo_frame m g x).1
      simp [followSlot, handTo_seq, armedFrom, hfol, hs, hkh']
    have hah : endAhead h (handTo m g x) := by simpa [endAhead, handTo_frame] using hahead h ha
    rw [endSegment_passed hold b (hfollow m g hm hg) (hpassed g hp) (by omega),
      endSegment_once hold b hfs hah (by simp [handTo_seq]; omega)]
    exact hhanded k h 2 _ (handTo_handTo_handedOver hfol hkh')
  · exact ⟨_, hexec, hloop _ (endSegment_selfLoop hold b hfol _ x (hfollow m g hm hg) (by rw [hslot, hg]) (hpassed g hp))⟩
  · exact ⟨_, hexec, hloop _ (endSegment_guarded hold b (hfollow m g hm hg) (by omega))⟩
  · obtain ⟨h1, h2, h3⟩ := endSegment_finish hold b (handoffsLeft x) hlive (by rw [harmed, ha]) hfol
    exact ⟨_, hexec, hended _ _ rfl h1, (hnot _ _ (by decide)).2 h2, (hnot _ _ (by decide)).2 h3⟩
  · obtain ⟨h1, h2, h3⟩ := endSegment_starved hold b (handoffsLeft x) hlive (by rw [harmed, ha])
      ((needsNext_congr hplan _).2 hfol)
    exact ⟨_, hexec, hended _ _ rfl h1, (hnot _ _ (by decide)).2 h2, (hnot _ _ (by decide)).2 h3⟩

/-! ### An end taken at once (R32, R34) -/

/-- R82: a shot that is not in flight is dropped. -/
theorem dropShot_stage {s : State} (h : inFlight s = false) : (dropShot s).seq.stage = .none := by
  rcases hs : s.seq.stage with _ | d | d | d
  case inFlight => exact absurd hs (inFlight_false h d)
  all_goals simp [dropShot, withdrawShot, abandonPrime, hs]

/-- Without a shot there is nothing to drop. -/
theorem dropShot_none {s : State} (h : s.seq.stage = .none) : dropShot s = s := by
  simp [dropShot, withdrawShot, abandonPrime, h]

theorem dropShot_inFlight {s : State} (h : inFlight s = true) : dropShot s = s := by
  obtain ⟨d, hd⟩ := (inFlight_iff s).1 h
  simp [dropShot, withdrawShot, abandonPrime, hd]

/-- Only the stage of the sequencer changes when a shot is dropped. -/
theorem dropShot_seq (s : State) : (dropShot s).seq = { s.seq with stage := (dropShot s).seq.stage } := by
  rcases hs : s.seq.stage with _ | d | d | d
  case none => rw [dropShot_none hs]
  case inFlight => rw [dropShot_inFlight ((inFlight_iff s).2 ⟨d, hs⟩)]
  case pending => simp [dropShot, withdrawShot, abandonPrime, hs]
  case priming => simp only [dropShot, withdrawShot, abandonPrime, hs]; split <;> simp

/-- R65: a priming shot is in PRIME. -/
theorem priming_phase {s : State} (h : s.seq.stage = .none ∨ EngineSound s) {d : Tick} (hs : s.seq.stage = .priming d) :
    s.engine.phase = .prime := by
  obtain ⟨-, hm, -⟩ := h.resolve_left (by simp [hs])
  simp only [stageMatches, hs] at hm
  split at hm <;> simp_all

/-- R38: the preparation time is that of the phase, and a priming shot that is dropped leaves READY, with the same. -/
theorem dropShot_preparation {s : State} (h : ∀ d, s.seq.stage = .priming d → s.engine.phase = .prime) :
    preparation (dropShot s) = preparation s := by
  rcases hs : s.seq.stage with _ | d | d | d
  case priming =>
    have hp' : (dropShot s).engine.phase = .ready := by simp [dropShot, withdrawShot, abandonPrime, hs]
    simp [preparation, h d hs, hp']
  all_goals simp [dropShot, withdrawShot, abandonPrime, hs, preparation]

/-- What the segment handed to is left with by an end taken at once (R27, R44). -/
theorem handedTo_afterReplan {m k : Nat} {g : Segment} {s u x y : State} {target : Tick} (h : HandedOver m g k x y)
    (hplan : x.plan = s.plan) (hnotices : x.notices = s.notices) (hhand : x.seq.handoffs = s.seq.handoffs)
    (hrun : x.seq.run = s.seq.run) (hretry : x.engine.retrying = s.engine.retrying)
    (hvalid : x.cal.valid = u.cal.valid) (hnow : now x = now u)
    (htarget : s.seq.stage = .none ∨ EngineSound s → target = now x + preparation x) :
    handedTo m g k s u target s.seq.run (s.engine.retrying = true) (afterReplan (beginSegment false false y)) := by
  obtain ⟨hmade, hlive, hrunY, hhandY, hsegEnd, hstage, hwait, hcal, hengine, hpower, hsettings⟩ := h
  refine ⟨?_, by simp [hrunY, hrun], by simp [hhandY, hhand], by simpa using hsegEnd, fun hr => ?_, fun hr hheld => ?_,
    fun hr hheld hsound => ?_⟩
  · exact madeCurrent_congr (madeCurrent_afterReplan (madeCurrent_beginSegment _ _ hmade)) hplan.symm (by rw [hnotices])
      (by simp) Iff.rfl
  · rw [beginSegment_inactive _ _ (by rw [hrunY, hrun]; exact hr)]
    simp [hstage, hwait]
  · rw [beginSegment_held false hlive (by rw [hrunY, hrun]; exact hr) (.inr (by rw [hengine, hretry]; exact hheld))]
    refine ⟨by simp [hengine, hretry, hheld], by simp [hstage], ?_⟩
    exact waitsUnscheduled_congr (waitUnscheduled_spec g y) (by rw [hcal, hvalid]) (by rw [now_congr hcal, hnow])
      (by simp) (by simp)
  · have hsched := beginSegment_scheduled (s := y) false hlive (by rw [hrunY, hrun]; exact hr)
      (by rw [hengine, hretry]; simpa using hheld) hstage
    have hprep : prepTicks false y = preparation x := by
      rw [prepTicks_eq]; simp [preparation, hengine, hsettings]
    rw [now_congr hcal, hprep, ← htarget hsound] at hsched
    have := scheduledAt_afterReplan hsched
    unfold scheduledAt at this ⊢
    rwa [hcal, hvalid, now_congr hcal, hnow] at this

/-! ### NEXT (R32) -/

theorem exec_next {s : State} (hf : LinkFree s) (hr : hasSegment s.seq.run = true) :
    exec (.nextSegment []) s = .next ((takeEnd s).answering ["=NEXT".toList]) := by
  have ho : ownNext [] s = (takeEnd s, okLine .next []) := by
    rcases h : s.seq.run with _ | _ | _ | _ | _ <;> simp [ownNext, h, hasSegment] at hr ⊢
  exact exec_line (v := .next) (p := (takeEnd s, okLine .next [])) hf rfl (congrArg replied ho)

/-- R32, R34: an end that meets a shot in flight waits for its completion. -/
theorem takeEnd_inFlight {s : State} (h : inFlight s = true) :
    takeEnd s = { s with seq := { s.seq with endWaiting := true } } := by
  simp [takeEnd, h]

theorem takeEnd_atOnce {s : State} (h : inFlight s = false) :
    takeEnd s = afterReplan (endSegment false false (handoffsLeft (dropShot s)) (dropShot s)) := by
  simp [takeEnd, h]

/-- R35 step 1. -/
theorem endSegment_segmentEnd (hold b : Bool) (left : Nat) (s : State) :
    Notice.segmentEnd ∈ (endSegment hold b left s).notices := by
  have hraise : ∀ x : State, Notice.segmentEnd ∈ (raise .segmentEnd x).notices := fun x => by simp
  have hend : ∀ x : State, Notice.segmentEnd ∈ x.notices → Notice.segmentEnd ∈ (endRun x).notices := fun x h => by
    unfold endRun; split <;> simp [h]
  induction left generalizing s with
  | zero =>
    rcases hf : followSlot s with _ | p
    · rw [endSegment_last hold b _ hf]; exact hend _ (hraise s)
    · rw [endSegment_zero hold b hf]; simp
  | succ left ih =>
    rcases hf : followSlot s with _ | ⟨m, g⟩
    · rw [endSegment_last hold b _ hf]; exact hend _ (hraise s)
    · rw [endSegment_succ hold b left hf]
      split
      · exact ih _
      · simp [handTo_notices]

/-- Settles O15: NEXT ends the segment by `takeEnd`, and what follows is that of every end taken at once. -/
theorem nextHandsOff : Obligations.NextHandsOff := by
  refine ⟨fun l s hf hr hl => ⟨fun hfl => ?_, fun hfl => ?_⟩, fun l s hf hr hl hfl => ?_⟩
  · rw [exec_next hf hr, takeEnd_inFlight hfl]
  · refine ⟨_, exec_next hf hr, ?_, by simp [replies], by simp [runFrame]⟩
    have := endSegment_segmentEnd false false (handoffsLeft (dropShot s)) (dropShot s)
    simpa [takeEnd_atOnce hfl] using this
  · have hexec := exec_next hf hr
    rw [takeEnd_atOnce hfl] at hexec
    have hseq := dropShot_seq s
    refine endsSegment_intro (after := fun y => (afterReplan y).answering ["=NEXT".toList]) hexec (by simpa using hl)
      (by simp) (by simp) (by simp) (by rw [hseq]) (by simp) (by simp) (fun y k _ => by simp)
      (fun r y _ h => by simpa [runEndedIn] using h) (fun m g k y h => ?_)
    exact handedTo_afterReplan h (by simp) (by simp) (by rw [hseq]) (by simp) (by simp) (by simp)
      (now_congr (by simp)) (fun hs => by
      rw [dropShot_preparation fun d => priming_phase hs, now_congr (s := s) (t := dropShot s) (by simp)])

end Sys2Proof.Sequencing
end

