-- ==== Sys2Proof/Proofs/PausingARun.lean ====
section
/-! SUPPORT. PAUSE and RESUME (R30, R31). -/

namespace Sys2Proof.Sequencing

open Sys2Proof Sys2Proof.Machine

/-! ### PAUSE and RESUME (R30, R31) -/

theorem exec_pause {s : State} (hf : LinkFree s) (hr : s.seq.run = .active ∨ s.seq.run = .suspended) :
    exec (.pause []) s = .next ((pauseRun s).answering ["=PAUSE".toList]) := by
  have ho : ownPause [] s = (pauseRun s, okLine .pause []) := by
    rcases hr with h | h <;> simp [ownPause, h]
  exact exec_line (v := .pause) (p := (pauseRun s, okLine .pause [])) hf rfl (congrArg replied ho)

/-- R82: the retry ends, and the skip counter stands. -/
theorem standDown_retrying (s : State) :
    (standDown s).engine.retrying = false ∧ (standDown s).seq.skip = s.seq.skip := by
  unfold standDown; split <;> simp_all

/-- R22, R23: in a run that is not ACTIVE, only a shot in flight is held, and no retry is in progress. -/
theorem engineSound_inactive {s : State} (h : EngineSound s) (hr : s.seq.run ≠ .active) :
    (inFlight s = false → s.seq.stage = .none) ∧ s.engine.retrying = false := by
  obtain ⟨-, -, -, hact, -, -, hretry, -⟩ := h
  refine ⟨fun hfl => by_contra fun hs => hr (hact hs hfl), ?_⟩
  rcases hb : s.engine.retrying with _ | _
  · rfl
  · exact absurd (hretry hb).2.1 hr

theorem inFlight_congr {s t : State} (h : t.seq.stage = s.seq.stage) : inFlight t = inFlight s := by
  simp only [inFlight, h]

theorem inFlight_of_none {s : State} (h : s.seq.stage = .none) : inFlight s = false := by
  simp [inFlight, h]

/-- R30: what PAUSE leaves of the shot: one in flight. -/
theorem pauseRun_stage {s : State} (h : EngineSound s) :
    (pauseRun s).seq.stage = if inFlight s then s.seq.stage else .none := by
  have hkeep : ∀ x : State, inFlight x = inFlight s → (x.seq.stage = if inFlight s then s.seq.stage else .none) →
      (afterReplan x).seq.stage = if inFlight s then s.seq.stage else .none := by
    intro x hx hst
    by_cases hfl : inFlight s = true
    · obtain ⟨d, hd⟩ := (inFlight_iff s).1 hfl
      rw [if_pos hfl] at hst ⊢
      rw [hd] at hst ⊢
      exact ((afterReplan_stage x).2.2 d).2 hst
    · rw [if_neg hfl] at hst ⊢
      exact (afterReplan_stage x).2.1.2 hst
  have hstage : ∀ x : State, x.seq.stage = (if inFlight s then s.seq.stage else .none) → inFlight x = inFlight s := by
    intro x hx
    by_cases hfl : inFlight s = true
    · exact inFlight_congr (by rw [hx, if_pos hfl])
    · rw [if_neg hfl] at hx
      simpa [inFlight_of_none hx] using hfl
  have hs1 : (if s.seq.run = .active then standDown (dropShot s) else s).seq.stage =
      if inFlight s then s.seq.stage else .none := by
    by_cases hact : s.seq.run = .active
    · rw [if_pos hact]
      by_cases hfl : inFlight s = true
      · simp [hfl, dropShot_inFlight hfl]
      · simp [hfl, dropShot_stage (by simpa using hfl)]
    · rw [if_neg hact]
      by_cases hfl : inFlight s = true
      · simp [hfl]
      · simpa [hfl] using (engineSound_inactive h hact).1 (by simpa using hfl)
  unfold pauseRun
  exact hkeep _ (hstage _ (by simpa using hs1)) (by simpa using hs1)

theorem pauseRun_seq {s : State} (h : EngineSound s) :
    (pauseRun s).seq.run = .paused .host ∧ (pauseRun s).seq.wait = none ∧ (pauseRun s).seq.suspWaiting = false ∧
    (pauseRun s).seq.skip = s.seq.skip ∧ (pauseRun s).engine.retrying = false := by
  by_cases hact : s.seq.run = .active
  · simp [pauseRun, hact, standDown_retrying, congrArg Sequencer.skip (dropShot_seq s)]
  · simp [pauseRun, hact, (engineSound_inactive h hact).2]

theorem exec_resume {r : PauseReason} {s : State} (hf : LinkFree s) (hr : s.seq.run = .paused r) :
    (s.power.level = .reserve → exec (.resume []) s = .next
      ({ clearMisses s with seq := { s.seq with run := .suspended } }.answering ["=RESUME SUSPENDED".toList])) ∧
    (s.power.level ≠ .reserve → exec (.resume []) s = .next
      ((afterReplan (activate (clearMisses s))).answering ["=RESUME ACTIVE".toList])) := by
  refine ⟨fun hl => ?_, fun hl => ?_⟩
  · have ho : ownResume [] s = ({ clearMisses s with seq := { s.seq with run := .suspended } },
        okLine .resume ["SUSPENDED".toList]) := by simp [ownResume, hr, hl]
    exact exec_line (v := .resume) (p := (_, okLine .resume ["SUSPENDED".toList])) hf rfl (congrArg replied ho)
  · have ho : ownResume [] s = (afterReplan (activate (clearMisses s)), okLine .resume ["ACTIVE".toList]) := by
      simp [ownResume, hr, hl]
    exact exec_line (v := .resume) (p := (_, okLine .resume ["ACTIVE".toList])) hf rfl (congrArg replied ho)

/-- R31, R43: with a shot in flight the segment only takes its wait. -/
theorem activate_inFlight {s : State} (h : inFlight s = true) :
    activate s = holdSchedule { s with seq := { s.seq with run := .active } } := by
  simp [activate, h]

theorem activate_run (s : State) : (activate s).seq.run = .active := by
  unfold activate; split <;> simp

/-- R31, R43: with no shot the schedule starts from now. -/
theorem activate_scheduled {s : State} {l : Live} (hl : s.seq.live = some l) (hs : s.seq.stage = .none)
    (hr : s.engine.retrying = false) :
    scheduledAt l.seg (now s + preparation s) s (activate s) := by
  have hspec := startSchedule_spec (s := { s with seq := { s.seq with run := .active } }) false (now s)
    (liveSeg_of_live (l := l) hl) hr hs
  have hprep : prepTicks false { s with seq := { s.seq with run := .active } } = preparation s := prepTicks_eq _
  have hnow : now { s with seq := { s.seq with run := .active } } = now s := rfl
  rw [hprep, hnow, max_eq_right (Nat.le_add_right _ _)] at hspec
  have hact : activate s = startSchedule false (now s) { s with seq := { s.seq with run := .active } } := by
    simp [activate, inFlight_of_none hs]
  rw [hact]
  exact scheduledAt_congr hspec rfl rfl rfl rfl id

/-- Settles O14: PAUSE by what it leaves of the stage and the retry, RESUME by the schedule it starts. -/
theorem pauseAndResume : Obligations.PauseAndResume := by
  refine ⟨fun s hf hsound hr => ?_, fun r s hf hr => ⟨fun hl => ?_, fun hl => ?_⟩⟩
  · obtain ⟨h1, h2, h3, h4, h5⟩ := pauseRun_seq hsound
    exact ⟨_, exec_pause hf hr, h1, h2, h3, h5, pauseRun_stage hsound, by simp, by simp, by simp, by simp, h4, by simp,
      by simp [replies], by simp [runFrame]⟩
  · exact (exec_resume hf hr).1 hl
  · refine ⟨_, (exec_resume hf hr).2 hl, by simp [activate_run], by simp, by simp, by simp, by simp, by simp, by simp, fun hfl => ?_,
      fun l hlive hs hretry => ?_, by simp [replies], by simp [runFrame]⟩
    · obtain ⟨d, hd⟩ := (inFlight_iff s).1 hfl
      have hfl' : inFlight (clearMisses s) = true := by simpa [inFlight] using hfl
      have : (activate (clearMisses s)).seq.stage = .inFlight d := by
        rw [activate_inFlight hfl', holdSchedule]
        split <;> simp [hd]
      rw [hd]
      exact ((afterReplan_stage _).2.2 d).2 this
    · have hsched := activate_scheduled (s := clearMisses s) (l := l) (by simpa using hlive) (by simpa using hs)
        (by simpa using hretry)
      exact scheduledAt_congr (scheduledAt_afterReplan hsched) rfl rfl rfl rfl id

end Sys2Proof.Sequencing
end

