-- ==== Sys2Proof/Proofs/TripsAndInstants.lean ====
section
/-! SUPPORT. The trip input (R46, R47), the settle expiry (R68, R81, R44) and the due time (R71 to R73). -/

namespace Sys2Proof.Sequencing

open Sys2Proof Sys2Proof.Machine

/-! ### The trip input (R46, R47) -/

@[simp] theorem nextDue_handShot (d : Tick) (s : State) : nextDue (handShot d s) = some d := rfl

theorem edgeCounts_iff {l : Live} {rising : Bool} {s : State} (hl : s.seq.live = some l) :
    (countsEdges s && qualifies s.settings.te rising) = true ↔ edgeCounts l rising s := by
  cases rising <;> simp [countsEdges, qualifies, edgeCounts, liveSeg, hl, and_assoc]

/-- R46: what an edge of TRIP does in a run with a live copy. -/
theorem exec_tripEdge {l : Live} {s : State} (rising : Bool) (hl : s.seq.live = some l) :
    (¬ edgeCounts l rising s → exec (.tripEdge rising) s = .next (tripLevel rising s)) ∧
    (edgeCounts l rising s → exec (.tripEdge rising) s = .next (countEdge l.seg (tripLevel rising s))) := by
  have hexec : exec (.tripEdge rising) s = .next (if countsEdges s && qualifies s.settings.te rising then
      countEdge l.seg (tripLevel rising s) else tripLevel rising s) := by
    simp only [exec, execTripEdge, liveSeg_of_live hl]
  refine ⟨fun h => ?_, fun h => ?_⟩
  · rw [hexec, if_neg (by rwa [edgeCounts_iff hl])]
  · rw [hexec, if_pos ((edgeCounts_iff hl).2 h)]

/-- R46: the state in which a trip event is decided. -/
def tripped (rising : Bool) (s : State) : State :=
  { s with seq := { s.seq with edges := 0 }, pins := { s.pins with trip := rising } }

/-- R46: the edge that would bring the counter to DIV. -/
theorem exec_tripEdge_event {l : Live} {s : State} {rising : Bool} (hl : s.seq.live = some l)
    (hc : edgeCounts l rising s) (hle : l.seg.div ≤ s.seq.edges + 1) :
    exec (.tripEdge rising) s = .next (tripEvent l.seg (tripped rising s)) := by
  rw [(exec_tripEdge rising hl).2 hc, countEdge, if_pos (by simpa [tripLevel] using hle)]
  rfl

theorem spacingPassed_iff (g : Segment) (s : State) :
    spacingPassed g s = true ↔ ∀ x ∈ s.seq.lastDue, x + g.iv * 64 * stretch s ≤ now s := by
  rcases hx : s.seq.lastDue with _ | x
  · simp [spacingPassed, hx]
  · simp only [spacingPassed, hx, Option.mem_some_iff, forall_eq']
    exact decide_eq_true_iff

/-- R47: the tests that take a trip event. -/
theorem tripEvent_taken_iff {l : Live} {s : State} :
    (decide (s.seq.stage = .none) && !s.engine.retrying && spacingPassed l.seg s) = true ↔ tripTaken l s := by
  simp [tripTaken, spacingPassed_iff, and_assoc]

theorem tripEvent_ignored {l : Live} {s : State}
    (h : ¬ tripTaken l s ∨ windowOpen l.seg.win l.seg.days (now s + preparation s) = false) :
    tripEvent l.seg s = ignoreTrip s := by
  simp only [tripEvent, prepTicks_eq, segOpen]
  split
  · next ht => rw [if_neg (by simpa using h.resolve_left (not_not_intro (tripEvent_taken_iff.1 ht)))]
  · rfl

theorem tripEvent_shot {l : Live} {s : State} (h : tripTaken l s)
    (ho : windowOpen l.seg.win l.seg.days (now s + preparation s) = true) :
    tripEvent l.seg s = arrivals (handShot (now s + preparation s) s) := by
  simp only [tripEvent, prepTicks_eq, segOpen]
  rw [if_pos (tripEvent_taken_iff.2 h), if_pos ho]

/-- Settles O17: each edge by the count, each event by the tests that take it. -/
theorem tripEdgesMakeShots : Obligations.TripEdgesMakeShots := by
  refine fun rising s => ⟨fun hn => ?_, fun l hl => ⟨fun hc => (exec_tripEdge rising hl).1 hc, fun hc hlt => ?_,
    fun hc hle hno => ?_, fun hc hle ht ho => ?_⟩⟩
  · simp [exec, execTripEdge, liveSeg, hn, tripLevel]
  · rw [(exec_tripEdge rising hl).2 hc]
    have : ¬ l.seg.div ≤ s.seq.edges + 1 := by omega
    simp [countEdge, tripLevel, this]
  · rw [exec_tripEdge_event hl hc hle, tripEvent_ignored (l := l) (s := tripped rising s) hno]
    simp [ignoreTrip, tripped, addUpTo, Config.maxHanded]
  · have hexec := exec_tripEdge_event hl hc hle
    have hdue : now (tripped rising s) + preparation (tripped rising s) = now s + preparation s := rfl
    rw [tripEvent_shot (l := l) (s := tripped rising s) ht ho, hdue] at hexec
    obtain ⟨hrun, hwait, -⟩ := hc
    refine ⟨_, hexec, ?_⟩
    simp [tripped, hrun, hwait]

/-! ### The requester set (R145, R148) -/

@[simp] theorem request_shotAsks (c : Clock) :
    (c.request .shot).shotAsks = true ∧ (c.request .meter).shotAsks = c.shotAsks := by
  constructor
  · unfold Clock.request
    split
    · assumption
    · cases c.state <;> rfl
  · unfold Clock.request
    split
    · rfl
    · cases c.state <;> rfl

@[simp] theorem drop_shotAsks (c : Clock) :
    (c.drop .shot).shotAsks = false ∧ (c.drop .meter).shotAsks = c.shotAsks := by
  constructor
  · rcases hm : c.meterAsks with _ | _ <;> rcases hs : c.state <;> simp [Clock.drop, Clock.setAsk, hm, hs]
  · rcases hm : c.shotAsks with _ | _ <;> rcases hs : c.state <;> simp [Clock.drop, Clock.setAsk, hm, hs]

@[simp] theorem requestClock_shotAsks (s : State) :
    (requestClock .shot s).clock.shotAsks = true ∧ (requestClock .meter s).clock.shotAsks = s.clock.shotAsks := by
  constructor <;> simp only [requestClock] <;> split <;> simp [tellMeterRunning]

@[simp] theorem abandonReading_shotAsks (s : State) : (abandonReading s).clock.shotAsks = s.clock.shotAsks := by
  unfold abandonReading; split <;> simp [meterToIdle, dropClock]

@[simp] theorem primeExposure_shotAsks (s : State) : (primeExposure s).clock.shotAsks = s.clock.shotAsks := by
  unfold primeExposure primeAsksReading
  (repeat' split) <;> simp [beginReading]

/-- R69: the prime of a pending shot. -/
theorem beginPrime_enters {d : Tick} {s : State} (h : s.seq.stage = .pending d) :
    (beginPrime s).engine.phase = .prime ∧ nextDue (beginPrime s) = some d ∧ (beginPrime s).clock.shotAsks = true := by
  refine ⟨by simp [beginPrime, h], ?_, by simp [beginPrime, h]⟩
  simp [nextDue, beginPrime_seq h]

/-! ### The settle expiry (R68, R81, R44) -/

/-- R68: the settle has ended, nothing else said of it. -/
def railReady (s : State) : State := { s with engine := { s.engine with phase := .ready, settleLeft := 0 } }

theorem exec_settleExpiry {s : State} (hp : s.engine.phase = .powering) (hl : s.engine.settleLeft < 32) :
    exec .settleExpiry s =
      .next (if s.engine.retrying then afterReplan (retryEnded (railReady s)) else arrivals (railReady s)) := by
  have hout : ranOut s.engine.settleLeft = true := by simp [ranOut, Config.tickCycles, hl]
  simp [exec, execSettleExpiry, hp, hout, settled, railReady]

theorem arrivals_ready_before {s : State} (hp : s.engine.phase = .ready) (hb : ∀ x, pendingShot s = some x → now s < x.primeAt) :
    arrivals s = s := by
  rcases hx : pendingShot s with _ | x
  · simp [arrivals, hx]
  · have : ¬ x.primeAt ≤ now s := Nat.not_le.2 (hb x hx)
    simp [arrivals, hx, hp, arrived, this]

theorem arrivals_ready_passed {s : State} {x : Shot} (hp : s.engine.phase = .ready) (hx : pendingShot s = some x)
    (hb : x.primeAt ≤ now s) : arrivals s = beginPrime s := by
  simp [arrivals, hx, hp, arrived, hb]

theorem pendingShot_stage {s : State} {x : Shot} (h : pendingShot s = some x) : ∃ d, s.seq.stage = .pending d := by
  unfold pendingShot at h; split at h
  · exact ⟨_, by assumption⟩
  · cases h

/-- R44: the retry has ended, the schedule not yet started. -/
def retryCounted (g : Segment) (s : State) : State :=
  { s with
    seq := { s.seq with skip := addUpTo Config.maxHanded s.seq.skip (retrySkips g s), retryGrid := none }
    engine := { s.engine with retrying := false } }

theorem retryEnded_active {l : Live} {s : State} (hl : s.seq.live = some l) (hr : s.seq.run = .active) :
    retryEnded s = startSchedule false (now s) (retryCounted l.seg s) := by
  have h : retryEnded s = if s.seq.run = .active then startSchedule false (now s) (retryCounted l.seg s)
      else retryCounted l.seg s := by
    simp only [retryEnded, liveSeg_of_live hl]
    rfl
  rw [h, if_pos hr]

theorem retrySkips_none {s : State} (g : Segment) (hg : s.seq.retryGrid = none) : retrySkips g s = 0 := by
  simp [retrySkips, hg]

/-- R44: the skips on the grid of the retry. -/
theorem retrySkips_some {s : State} {p : RetryGrid} (g : Segment) (hg : s.seq.retryGrid = some p) :
    retrySkips g s = if g.src = .timed then
      (now s - p.due) / (p.iv.getD g.iv * 64 * stretch s) - (p.completed - p.due) / (p.iv.getD g.iv * 64 * stretch s)
      else 0 := by
  rcases hs : g.src <;> simp [retrySkips, hg, hs, gridPoints, gridStep, stretch, Config.sixteenthTicks]

/-- Settles O27: the settle by what arrives in READY, and a retry's by the schedule that it starts. -/
theorem settleExpiryEndsPowering : Obligations.SettleExpiryEndsPowering := by
  refine fun s hp hleft => ⟨fun hr hb => ?_, fun hr x hx hb _ => ?_, fun hr hact hs l hl => ?_⟩ <;>
    have hexec := exec_settleExpiry hp hleft <;> rw [hr] at hexec
  · rw [hexec, if_neg (by simp), arrivals_ready_before (s := railReady s) rfl hb]
    rfl
  · obtain ⟨d, hd⟩ := pendingShot_stage hx
    rw [if_neg (by simp), arrivals_ready_passed (s := railReady s) rfl hx hb] at hexec
    obtain ⟨h1, h2, h3⟩ := beginPrime_enters (s := railReady s) hd
    exact ⟨_, hexec, h1, by rw [h2, nextDue_of_stage (.inl hd)], h3⟩
  · rw [if_pos rfl, retryEnded_active (s := railReady s) hl hact] at hexec
    have hspec := startSchedule_spec (s := retryCounted l.seg (railReady s)) false (now s) (liveSeg_of_live hl) rfl hs
    have hprep : prepTicks false (retryCounted l.seg (railReady s)) = s.settings.pl * 64 := rfl
    have hnow : now (retryCounted l.seg (railReady s)) = now s := rfl
    rw [hprep, hnow, max_eq_right (Nat.le_add_right _ _)] at hspec
    have hsame : retrySkips l.seg (railReady s) = retrySkips l.seg s := rfl
    have hskip : (afterReplan (startSchedule false (now s) (retryCounted l.seg (railReady s)))).seq.skip =
        min 255 (s.seq.skip + retrySkips l.seg s) := by
      simp [retryCounted, addUpTo, Config.maxHanded, hsame]
      rfl
    refine ⟨_, hexec, by simp [retryCounted], by simp [retryCounted], hskip.trans ?_, ?_⟩
    · rcases hg : s.seq.retryGrid with _ | p
      · rw [retrySkips_none l.seg hg]
      · rw [retrySkips_some l.seg hg]
    · exact scheduledAt_congr (scheduledAt_afterReplan hspec) rfl rfl rfl rfl id

/-! ### TRIG assert (R71, R72, R73) -/

/-- R71: an exposure that stands at the due time. -/
theorem exec_dueTime {d : Tick} {x : Shot} {e : Exposure} {s : State} (hs : s.seq.stage = .priming d)
    (hp : s.engine.phase = .prime) (hx : s.engine.shot = some x) (he : x.exposure = some e) (hd : d ≤ now s) :
    exec .dueTime s = .next (assertTrig s) := by
  have hend : endPrime s = s := by simp [endPrime, hx, he]
  simp [exec, execDueTime, hs, hp, arrived, hd, dueInPrime, hend]

theorem slowCycles_eq (t : Nat) : slowCycles t = (2 * (t * 32768) + 1000000) / (2 * 1000000) := by
  unfold slowCycles; omega

/-- Settles O29: TRIG is asserted with the flight of `newFlight`. -/
theorem dueTimeAssertsTrig : Obligations.DueTimeAssertsTrig := by
  intro d x e l s hs hp hx he hr hl hd
  refine ⟨newFlight s l e, ?_, ?_⟩
  · rw [exec_dueTime hs hp hx he hd]
    simp [assertTrig, hs, hx, hl, he, Calculator.commit, hr]
  · by_cases hes : e.es ≤ 79 <;> by_cases hc : s.clock.state = .running <;>
      simp [newFlight, timeStamp, slowCycles_eq, Config.fastBulbMax, Config.sixteenthCycles, hes, hc]

end Sys2Proof.Sequencing
end

