-- ==== Sys2Proof/Proofs/StoppingARun.lean ====
section
/-! SUPPORT. The frame record (R78, R85), STOP (R29, R84) and the warm reset (R189). -/

namespace Sys2Proof.Sequencing

open Sys2Proof Sys2Proof.Machine

/-! ### The frame record (R78, R85) -/

theorem appendRecord_getLast (log : List FrameRecord) (r : FrameRecord) : (appendRecord log r).getLast? = some r := by
  have h : log.length + 1 - Config.logSize ≤ log.length := by simp [Config.logSize]
  rw [appendRecord, List.drop_append_of_le_length h, List.getLast?_concat]

/-- R85: the record of a shot that has an exposure and a flight. -/
theorem writeFrame_recordsFrame {x : Shot} {e : Exposure} {f : Flight} {s : State} (cut : Bool) (hf : shotFlying x f s)
    (he : x.exposure = some e) : recordsFrame x e f cut (if cut then none else f.wr) s (writeFrame cut s) := by
  obtain ⟨hx, hflight⟩ := hf
  have hw : ∀ wrap : Bool, wrap = decide (s.engine.frameCounter = Config.maxFrame) →
      writeFrame cut s = { s with
        log := appendRecord (if wrap then [] else s.log)
          (recordOf s x e f cut (if wrap then 1 else s.engine.frameCounter + 1))
        engine := { s.engine with frameCounter := if wrap then 1 else s.engine.frameCounter + 1 } } := by
    rintro _ rfl
    simp only [writeFrame, hx, he, hflight]
  by_cases hc : s.engine.frameCounter = 4294967295
  all_goals
    rw [hw _ rfl]
    simp only [recordsFrame, appendRecord_getLast, Option.mem_some_iff, exists_eq_left']
    simp [hc, Config.maxFrame, appendRecord, Config.logSize, recordOf, frameFlagsOf, lastVolts, lastTemp]
  all_goals
    refine ⟨?_, ?_, fun m hm => by simp [hm]⟩ <;> cases e.path <;> rfl

/-- What a frame record is a matter of. -/
theorem recordsFrame_congr {x : Shot} {e : Exposure} {f : Flight} {cut : Bool} {wr : Option Nat} {s s' t t' : State}
    (h : recordsFrame x e f cut wr s t) (hc : s'.engine.frameCounter = s.engine.frameCounter) (hl : s'.log = s.log)
    (hp : s'.power = s.power) (hc' : t'.engine.frameCounter = t.engine.frameCounter) (hl' : t'.log = t.log) :
    recordsFrame x e f cut wr s' t' := by
  unfold recordsFrame at h ⊢
  rw [hc, hl, hp, hc', hl']
  exact h

/-! ### What STOP does to the shot (R29, R82, R84) -/

/-- No shot is held, and the camera lines of a shot, its clock request and its reading are gone. -/
structure Disengaged (s : State) : Prop where
  stage : s.seq.stage = .none
  shot : s.engine.shot = none
  trig : s.pins.trig = false
  wake : s.pins.wake = false
  shotAsks : s.clock.shotAsks = false
  primeReading : primeReading s = false

/-- R64, R69, R73: outside PRIME and EXPOSING the lines and the requests of a shot are at rest. -/
theorem engineSound_quiet {s : State} (h : EngineSound s) (hp : s.engine.phase ≠ .prime)
    (he : s.engine.phase ≠ .exposing) :
    s.pins.trig = false ∧ s.pins.wake = false ∧ s.clock.shotAsks = false ∧ primeReading s = false := by
  obtain ⟨⟨-, htrig, hwake, -⟩, -, -, -, hreading, hasks, -⟩ := h
  refine ⟨by simp [htrig, he], ?_, by simp [hasks, hp, he], ?_⟩
  · exact Bool.eq_false_iff.2 fun hw => hp (hwake hw)
  · exact Bool.eq_false_iff.2 fun hr => hp (hreading hr).1

/-- R23, R65: the phases that each stage of the shot goes with. -/
theorem engineSound_stage {s : State} (h : EngineSound s) :
    (s.seq.stage = .none → s.engine.shot = none ∧ s.engine.phase ≠ .prime ∧ s.engine.phase ≠ .exposing) ∧
    (∀ d, s.seq.stage = .pending d → s.engine.phase ≠ .prime ∧ s.engine.phase ≠ .exposing) ∧
    (∀ d, s.seq.stage = .priming d → s.engine.phase = .prime) ∧
    (∀ d, s.seq.stage = .inFlight d → s.engine.phase = .exposing ∨ s.engine.phase = .writing) := by
  obtain ⟨-, hm, -⟩ := h
  rcases hst : s.seq.stage with _ | d | d | d <;> rcases hsh : s.engine.shot with _ | x <;>
    simp only [stageMatches, hst, hsh] at hm
  all_goals rcases hp : s.engine.phase <;> simp_all

theorem primeReading_abandonReading {s : State} (h : primeReading s = true) :
    primeReading (abandonReading s) = false := by
  unfold primeReading at h
  split at h
  · next hst => simp [abandonReading, hst, primeReading, meterToIdle]
  · cases h

theorem primeReading_congr {s t : State} (h : t.meter.state = s.meter.state) : primeReading t = primeReading s := by
  simp only [primeReading, h]

/-- R82: a prime abandoned. -/
theorem abandonPrime_disengaged {s : State} {d : Tick} (hst : s.seq.stage = .priming d) (ht : s.pins.trig = false) :
    Disengaged (abandonPrime s) := by
  have hread : primeReading (abandonPrime s) = false := by
    have hr : primeReading (dropClock .shot (releaseWake s)) = primeReading s := primeReading_congr rfl
    rcases hpr : primeReading s with _ | _
    · simp only [abandonPrime, hst, hr, hpr]
      exact (primeReading_congr rfl).trans hpr
    · simp only [abandonPrime, hst, hr, hpr]
      exact (primeReading_congr rfl).trans (primeReading_abandonReading (hr.trans hpr))
  refine ⟨by simp [abandonPrime, hst], by simp [abandonPrime, hst], by simp [ht], ?_, ?_, hread⟩
  · simp only [abandonPrime, hst]; split <;> simp [releaseWake]
  · simp only [abandonPrime, hst]; split <;> simp

/-- R84: the shot in flight is cut. -/
theorem cutShot_eq {s : State} (h : inFlight s = true) : cutShot s =
    { writeFrame true (dropClock .shot { s with pins := { s.pins with trig := false } }) with
      seq := { s.seq with stage := .none }
      engine := { (writeFrame true (dropClock .shot { s with pins := { s.pins with trig := false } })).engine with
        shot := none } } := by
  simp [cutShot, h]

theorem cutShot_calm {s : State} (h : inFlight s = false) : cutShot s = s := by simp [cutShot, h]

/-- R29: the shot cut, abandoned or withdrawn. -/
theorem dropShot_cutShot_disengaged {s : State} (h : EngineSound s) : Disengaged (dropShot (cutShot s)) := by
  obtain ⟨hnone, hpend, hprim, hfly⟩ := engineSound_stage h
  rcases hst : s.seq.stage with _ | d | d | d
  case none =>
    obtain ⟨hshot, hp, he⟩ := hnone hst
    obtain ⟨h1, h2, h3, h4⟩ := engineSound_quiet h hp he
    rw [cutShot_calm (inFlight_of_none hst), dropShot_none hst]
    exact ⟨hst, hshot, h1, h2, h3, h4⟩
  case pending =>
    obtain ⟨hp, he⟩ := hpend d hst
    obtain ⟨h1, h2, h3, h4⟩ := engineSound_quiet h hp he
    rw [cutShot_calm (by simp [inFlight, hst])]
    exact ⟨by simp [dropShot, withdrawShot, abandonPrime, hst], by simp [dropShot, withdrawShot, abandonPrime, hst],
      by simpa [dropShot, withdrawShot, abandonPrime, hst] using h1,
      by simpa [dropShot, withdrawShot, abandonPrime, hst] using h2,
      by simpa [dropShot, withdrawShot, abandonPrime, hst] using h3,
      by simpa [dropShot, withdrawShot, abandonPrime, hst, primeReading] using h4⟩
  case priming =>
    have ht : s.pins.trig = false := by
      obtain ⟨⟨-, htrig, -⟩, -⟩ := h
      simp [htrig, hprim d hst]
    have hw : dropShot s = abandonPrime s := by simp [dropShot, withdrawShot, hst]
    rw [cutShot_calm (by simp [inFlight, hst]), hw]
    exact abandonPrime_disengaged hst ht
  case inFlight =>
    have hfl : inFlight s = true := by simp [inFlight, hst]
    have hp : s.engine.phase ≠ .prime := by rcases hfly d hst with hp | hp <;> simp [hp]
    obtain ⟨⟨-, -, hwake, -⟩, -, -, -, hreading, -⟩ := h
    have hw : s.pins.wake = false := Bool.eq_false_iff.2 fun hw => hp (hwake hw)
    have hr : primeReading s = false := Bool.eq_false_iff.2 fun hr => hp (hreading hr).1
    rw [cutShot_eq hfl, dropShot_none rfl]
    exact ⟨rfl, rfl, by simp, by simpa using hw, by simp, by simpa [primeReading] using hr⟩

/-! ### STOP (R29, R84) -/

theorem exec_stop {s : State} (hf : LinkFree s) : exec (.stop []) s = .next ((stopRun s).answering ["=STOP".toList]) :=
  exec_line (v := .stop) (p := (stopRun s, okLine .stop [])) hf rfl rfl

theorem stopRun_eq {s : State} (h : s.seq.run ≠ .idle) :
    stopRun s = railOff (clearRun .idle (standDown (dropShot (cutShot s)))) := by
  simp [stopRun, h]

theorem clearRun_retrying (r : RunState) (s : State) : (clearRun r s).engine.retrying = false :=
  (standDown_retrying _).1

/-- R29: the rail is off and no retry is in progress. -/
theorem stopRun_engine {s : State} (h : s.seq.run ≠ .idle) :
    (stopRun s).engine.phase = .dormant ∧ (stopRun s).engine.retrying = false ∧ (stopRun s).engine.ask = .none ∧
    (stopRun s).pins.camPwr = false ∧ (stopRun s).pins.gain = 0 := by
  simp [stopRun_eq h, clearRun_retrying]

/-- R29: what STOP leaves of the shot. -/
theorem stopRun_disengaged {s : State} (h : s.seq.run ≠ .idle) (hs : EngineSound s) : Disengaged (stopRun s) := by
  obtain ⟨-, h2, h3, h4, h5, h6⟩ := dropShot_cutShot_disengaged hs
  refine ⟨by simp [stopRun_eq h, clearRun_seq], by simpa [stopRun_eq h] using h2, by simpa [stopRun_eq h] using h3,
    by simpa [stopRun_eq h] using h4, by simpa [stopRun_eq h] using h5, ?_⟩
  rw [← h6]
  exact primeReading_congr (by simp [stopRun_eq h])

/-- R84: STOP records a frame only for a shot in flight. -/
theorem stopRun_log {s : State} (h : inFlight s = false) :
    (stopRun s).log = s.log ∧ (stopRun s).engine.frameCounter = s.engine.frameCounter := by
  by_cases hi : s.seq.run = .idle
  · simp [stopRun, hi]
  · simp [stopRun_eq hi, cutShot_calm h]

/-- R84: the frame that STOP cuts. -/
theorem stopRun_recordsFrame {x : Shot} {e : Exposure} {f : Flight} {s : State} (h : frameInHand x e f s)
    (hr : s.seq.run ≠ .idle) : recordsFrame x e f true none s (stopRun s) := by
  obtain ⟨hfly, he, hfl⟩ := h
  have hrec := writeFrame_recordsFrame (s := dropClock .shot { s with pins := { s.pins with trig := false } }) true
    (x := x) (f := f) (by simpa [shotFlying] using hfly) he
  rw [if_pos rfl] at hrec
  refine recordsFrame_congr hrec rfl rfl rfl ?_ ?_ <;> simp [stopRun_eq hr, cutShot_eq hfl]

/-- Settles O34: STOP by what it leaves of the run, the rail and the shot. -/
theorem stopEndsRun : Obligations.StopEndsRun := by
  refine ⟨fun s hf => ⟨fun hi => ?_, fun hr hs => ?_⟩, fun x e f s hf hfr hr => ?_⟩
  · rw [exec_stop hf, stopRun, if_pos hi]
  · obtain ⟨h1, h2, h3, h4, h5⟩ := stopRun_engine hr
    obtain ⟨d1, d2, d3, d4, d5, d6⟩ := stopRun_disengaged hr hs
    have hseq : ∀ y, (railOff (clearRun .idle y)).seq = (clearRun .idle y).seq := fun y => by simp
    obtain ⟨q1, q2, q3, q4, -, q6, q7, q8, q9, -⟩ :=
      clearRun_seq .idle (standDown (dropShot (cutShot s)))
    rw [← hseq, ← stopRun_eq hr] at q1 q2 q3 q4 q6 q7 q8 q9
    exact ⟨_, exec_stop hf, q1, q2, q3, q4, d1, q6, q7, q8, q9, h1, d2, h2, h3, h4, d3, d4, h5, d5, d6, by simp, by simp,
      by simp, by simp, by simp, by simp, fun hfl => (stopRun_log hfl).1, by simp [replies]⟩
  · have hfl := hfr.2.2
    obtain ⟨h1, -⟩ := stopRun_engine hr
    refine ⟨_, exec_stop hf, stopRun_recordsFrame hfr hr, ?_, ?_, ?_, by simp, by simp, h1⟩ <;>
      simp [stopRun_eq hr, cutShot_eq hfl, dropShot_none, clearRun_seq]

/-! ### The warm reset (R174, R189) -/

theorem exec_replySent_warm {s : State} {r : List Text} (h : s.link.state = .sending r .warm) :
    exec .replySent s = .next (warmReset (setLink .ready s)) := by
  simp [exec, execReplySent, replyDone, h]

theorem engineSound_setLink {s : State} (k : LinkState) (h : EngineSound s) : EngineSound (setLink k s) := h

/-- Settles O26: the warm reset is STOP with the blocks' own values after it. -/
theorem warmResetIsOrderedAndClears : Obligations.WarmResetIsOrderedAndClears := by
  refine ⟨fun s hf => ⟨?_, ?_⟩, fun s r hl hr => ?_, fun s r hl hr hs => ?_⟩
  · have : exec (.resetWarm []) s = .next (offerCommand .reset ["WARM".toList] s) := rfl
    rw [this, offerCommand_free _ _ hf]
    rfl
  · have : exec (.resetCold []) s = .next (offerCommand .reset ["COLD".toList] s) := rfl
    rw [this, offerCommand_free _ _ hf]
    rfl
  · rw [exec_replySent_warm hl]
    have hstop : stopRun (setLink .ready s) = setLink .ready s := by simp [stopRun, setLink, hr]
    simp only [warmReset, hstop]
    rcases hm : s.meter.state <;>
      simp [clearNotices, refreshAttn, warmMeter, hm, Link.cold, Calculator.cold, Clock.cold, setLink]
  · have hr' : (setLink .ready s).seq.run ≠ .idle := hr
    obtain ⟨h1, h2, h3, h4, h5⟩ := stopRun_engine hr'
    obtain ⟨d1, d2, d3, d4, d5, d6⟩ := stopRun_disengaged hr' (engineSound_setLink .ready hs)
    refine ⟨_, exec_replySent_warm hl, rfl, h1, d2, rfl, rfl, h2, h4, d3, d4, h5, rfl, rfl, rfl, rfl, rfl, rfl, ?_,
      by simp, by simp, by simp, by simp, fun hfl => stopRun_log (s := setLink .ready s) hfl, fun x e f hfr => ?_⟩
    · simp [warmReset, clearNotices, refreshAttn]
    · exact recordsFrame_congr (stopRun_recordsFrame (s := setLink .ready s) hfr hr') rfl rfl rfl rfl rfl

end Sys2Proof.Sequencing
end

