-- ==== Sys2Proof/Proofs/CalendarAndRun.lean ====
section
/-! SUPPORT. What the calendar does to a run: UNTIL, the close and the opening of a window (R34, R41, R48, R61, R62), and
TIME (R42, R56). -/

namespace Sys2Proof.Sequencing

open Sys2Proof Sys2Proof.Machine

/-! ### The tick increment that begins a second -/

/-- The calendar and the slow counts after a tick increment, nothing yet reported of the second. -/
def ticked (s : State) : State := countSlow { s with cal := s.cal.tick s.settings.tr }

theorem tick_second {sec : Nat} {s : State} (h : secondBegins sec s) :
    (s.cal.tick s.settings.tr).valid = true ∧ (s.cal.tick s.settings.tr).seconds = sec ∧
    (s.cal.tick s.settings.tr).fraction = 0 := by
  obtain ⟨-, hv, hf, hc, rfl, hle⟩ := h
  have hne : s.cal.seconds ≠ 4294967295 := by omega
  have hend : s.cal.atEnd = false := by simp [Calendar.atEnd, Config.maxSeconds, hne]
  simp only [Calendar.tick, hend, hf, hc, tickAdds, Config.ticksPerSecond, Config.maxSeconds, hne, Calendar.nextSecond]
  by_cases hspan : s.cal.span + 1 = Config.spanSeconds <;> simp [hspan, hv]

theorem ticked_cal {sec : Nat} {s : State} (h : secondBegins sec s) :
    (ticked s).cal.valid = true ∧ (ticked s).cal.seconds = sec ∧ now (ticked s) = sec * 1024 := by
  obtain ⟨hv, hs, hf⟩ := tick_second h
  refine ⟨hv, hs, ?_⟩
  have : now (ticked s) = (s.cal.tick s.settings.tr).seconds * 1024 + (s.cal.tick s.settings.tr).fraction := rfl
  rw [this, hs, hf, Nat.add_zero]

theorem exec_tickIncrement_second {sec : Nat} {s : State} (h : secondBegins sec s) :
    exec .tickIncrement s = .next (secondPassed (ticked s)) := by
  have hp : restartDomain s = s := restartDomain_powered h.1
  have hlt : s.cal.seconds < (ticked s).cal.seconds := by
    rw [(ticked_cal h).2.1]
    obtain ⟨-, -, -, -, rfl, -⟩ := h
    exact Nat.lt_succ_self _
  have hexec : exec .tickIncrement s =
      .next (if s.cal.seconds < (ticked s).cal.seconds then secondPassed (ticked s) else ticked s) := by
    simp only [exec, execTickIncrement, hp]
    rfl
  rw [hexec, if_pos hlt]

theorem untilReached_ticked {l : Live} {u sec : Nat} {s : State} (hl : s.seq.live = some l) (hu : l.seg.endAt = some u)
    (h : secondBegins sec s) (hle : u ≤ sec) : untilReached (ticked s) = true := by
  obtain ⟨hv, hs, -⟩ := ticked_cal h
  exact (untilReached_iff (liveSeg_of_live (by simpa [ticked] using hl))).2 ⟨hv, u, hu, by rwa [hs]⟩

/-! ### The close report (R48, R61) -/

/-- No report is made of a window that is open now. -/
theorem closeReport_none {g : Segment} {s : State} (hl : liveSeg s = some g)
    (hs : now s = s.cal.seconds * 1024) (h : s.seq.wait = some .tripWait → segOpen g (now s) = true) :
    closeReport s = s := by
  by_cases hw : s.seq.wait = some .tripWait
  · have hc : windowCloses g s.cal.seconds = false := by simp [windowCloses, Config.ticksPerSecond, ← hs, h hw]
    simp [closeReport, hl, hc]
  · simp [closeReport, hl, hw]

/-- R27 step 3, R48: a TRIP segment is given its wait by its window now. -/
theorem placeTrip_open {g : Segment} {s : State} (h : (placeTrip g s).seq.wait = some .tripWait) :
    segOpen g (now s) = true := by
  by_contra ho
  simp [placeTrip, ho] at h

theorem waitUnscheduled_open {g : Segment} {s : State} (h : (waitUnscheduled g s).seq.wait = some .tripWait) :
    segOpen g (now s) = true := by
  unfold waitUnscheduled at h
  split at h
  · simp at h
  · split at h
    · simp at h
    · exact placeTrip_open h

theorem placeDue_wait (g : Segment) (d : Tick) (s : State) : (placeDue g d s).seq.wait ≠ some .tripWait := by
  unfold placeDue
  split
  · simp
  · split <;> simp

/-- A segment that has just been made Current waits for trips only with its window open now. -/
theorem beginSegment_open {g : Segment} {hold b : Bool} {s : State} (hl : liveSeg s = some g) (hw : s.seq.wait = none)
    (h : (beginSegment hold b s).seq.wait = some .tripWait) : segOpen g (now s) = true := by
  unfold beginSegment at h
  split at h
  · split at h
    · rw [holdSchedule_eq hl] at h
      exact waitUnscheduled_open h
    · simp only [startSchedule, hl] at h
      split at h
      · exact waitUnscheduled_open h
      · split at h
        · exact absurd h (placeDue_wait _ _ _)
        · exact placeTrip_open h
  · rw [hw] at h; cases h

/-- R61: what the close of the window makes of the wait and of the shot. -/
theorem closeTrip_spec (g : Segment) (s : State) :
    (closeTrip g s).seq.wait = some .closed ∧ (closeTrip g s).seq.opening = nextOpening g.win g.days (now s) ∧
    (∀ d, s.seq.stage = .inFlight d →
      (closeTrip g s).seq.stage = .inFlight d ∧ (closeTrip g s).seq.ignored = s.seq.ignored) ∧
    (s.seq.stage = .none → (closeTrip g s).seq.stage = .none ∧ (closeTrip g s).seq.ignored = s.seq.ignored) ∧
    (nextDue s ≠ none →
      (closeTrip g s).seq.stage = .none ∧ (closeTrip g s).seq.ignored = min 255 (s.seq.ignored + 1)) := by
  have hdrop := dropShot_seq s
  refine ⟨?_, ?_, fun d hd => ?_, fun hn => ?_, fun hn => ?_⟩
  · simp only [closeTrip]; split <;> simp
  · simp only [closeTrip]; split <;> simp
  · have hfl : inFlight s = true := (inFlight_iff s).2 ⟨d, hd⟩
    simp [closeTrip, hd, dropShot_inFlight hfl]
  · simp [closeTrip, hn, dropShot_none]
  · have hfl : inFlight s = false := by
      refine Bool.eq_false_iff.2 fun hfl => hn ?_
      exact nextDue_none_of_stage (.inr ((inFlight_iff s).1 hfl))
    have hst := dropShot_stage hfl
    rcases hs : s.seq.stage with _ | d | d | d
    case none => exact absurd (nextDue_none_of_stage (.inl hs)) hn
    case inFlight => exact absurd (nextDue_none_of_stage (.inr ⟨d, hs⟩)) hn
    all_goals simp [closeTrip, hs, hst, congrArg Sequencer.ignored hdrop, addUpTo, Config.maxHanded]

/-- R34: an end that waits goes on waiting. -/
theorem closeReport_inFlight {d : Tick} {s : State} (h : s.seq.stage = .inFlight d) :
    (closeReport s).seq.stage = .inFlight d ∧ (closeReport s).seq.endWaiting = s.seq.endWaiting := by
  unfold closeReport
  split
  · split
    · refine ⟨((closeTrip_spec _ s).2.2.1 d h).1, ?_⟩
      simp [closeTrip, h, dropShot_inFlight ((inFlight_iff s).2 ⟨d, h⟩)]
    · exact ⟨h, rfl⟩
  · exact ⟨h, rfl⟩

/-! ### UNTIL, the close and the opening of a window -/

/-- R34: the tick increment that reaches UNTIL with no shot in flight. -/
theorem exec_tickIncrement_until {l : Live} {u sec : Nat} {s : State} (hl : s.seq.live = some l)
    (hu : l.seg.endAt = some u) (h : secondBegins sec s) (hle : u ≤ sec) (hfl : inFlight s = false) :
    exec .tickIncrement s = .next (closeReport (afterReplan
      (endSegment false false (handoffsLeft (dropShot (ticked s))) (dropShot (ticked s))))) := by
  have hfl' : inFlight (ticked s) = false := (inFlight_congr (by simp [ticked])).trans hfl
  rw [exec_tickIncrement_second h, secondPassed, untilReached_ticked hl hu h hle, if_pos rfl, takeEnd_atOnce hfl']

theorem preparation_ticked (s : State) : preparation (ticked s) =
    preparation { s with engine := { s.engine with settleLeft := s.engine.settleLeft - 32 } } := rfl

/-- R61: the tick increment at which the window of a TRIP segment closes. -/
theorem exec_tickIncrement_close {l : Live} {sec : Nat} {s : State} (hl : s.seq.live = some l)
    (hsrc : l.seg.src = .trip) (hend : l.seg.endAt = none) (hr : s.seq.run = .active)
    (hw : s.seq.wait = some .tripWait) (h : secondBegins sec s) (hmin : sec % 60 = 0)
    (hbefore : windowOpen l.seg.win l.seg.days (sec * 1024 - 1) = true)
    (hnow : windowOpen l.seg.win l.seg.days (sec * 1024) = false) :
    exec .tickIncrement s = .next (closeTrip l.seg (ticked s)) := by
  obtain ⟨hv, hs, -⟩ := ticked_cal h
  have hl' : liveSeg (ticked s) = some l.seg := liveSeg_of_live (by simpa [ticked] using hl)
  have hu : untilReached (ticked s) = false := (untilReached_eq_false_iff hl').2 (by simp [endAhead, hend])
  have hc : windowCloses l.seg (ticked s).cal.seconds = true := by
    simp [hs, windowCloses, hmin, segOpen, Config.ticksPerSecond, hbefore, hnow]
  have hr' : (ticked s).seq.run = .active := by simpa [ticked] using hr
  have hw' : (ticked s).seq.wait = some .tripWait := by simpa [ticked] using hw
  rw [exec_tickIncrement_second h, secondPassed, hu, if_neg (by simp)]
  simp [closeReport, hl', hr', hv, hsrc, hw', hc]

/-- R41, R48, R51: the opening instant. -/
theorem exec_windowOpening {l : Live} {w : Tick} {s : State} (hl : s.seq.live = some l) (ho : s.seq.opening = some w) :
    (s.seq.wait = some .closed → w ≤ now s → exec .windowOpening s = .next (openWindow l.seg s)) ∧
    (s.seq.wait ≠ some .closed ∨ now s < w → exec .windowOpening s = .next s) := by
  refine ⟨fun hw hle => ?_, fun h => ?_⟩
  · simp [exec, execWindowOpening, hw, ho, liveSeg_of_live hl, arrived, hle]
  · rcases hw : s.seq.wait with _ | k
    · simp [exec, execWindowOpening, hw]
    · cases k
      case closed =>
        have hlt : ¬ w ≤ now s := Nat.not_le.2 (h.resolve_left (by simp [hw]))
        simp [exec, execWindowOpening, hw, ho, liveSeg_of_live hl, arrived, hlt]
      all_goals simp [exec, execWindowOpening, hw]

/-- Settles O20: UNTIL by the end taken at once, the close and the opening of a window by their reports. -/
theorem windowsOpenAndClose : Obligations.WindowsOpenAndClose := by
  refine ⟨fun l u sec s hl hu h hle => ?_, fun l u sec s hl hu h hle hfl => ?_,
    fun l sec s hl hsrc hend hr hw h hmin hb hn => ?_, fun l w s hl ho => ⟨fun hw hle hsrc => ?_, fun hw hle hsrc => ?_,
    (exec_windowOpening hl ho).2⟩⟩
  · by_cases hfl : inFlight s = true
    · obtain ⟨d, hd⟩ := (inFlight_iff s).1 hfl
      have hfl' : inFlight (ticked s) = true := (inFlight_congr (by simp [ticked])).trans hfl
      have hexec := exec_tickIncrement_second h
      rw [secondPassed, untilReached_ticked hl hu h hle, if_pos rfl, takeEnd_inFlight hfl'] at hexec
      refine ⟨_, hexec, ?_⟩
      obtain ⟨hst, hwt⟩ := closeReport_inFlight (d := d)
        (s := { ticked s with seq := { (ticked s).seq with endWaiting := true } }) (by simpa [ticked] using hd)
      simp only [hfl, if_true]
      exact ⟨hwt, by rw [hst, hd], by simp [ticked]⟩
    · refine ⟨_, exec_tickIncrement_until hl hu h hle (by simpa using hfl), ?_⟩
      simp only [hfl]
      have := endSegment_segmentEnd false false (handoffsLeft (dropShot (ticked s))) (dropShot (ticked s))
      simpa using this
  · have hseq := dropShot_seq (ticked s)
    have hcal := ticked_cal h
    obtain ⟨hv, hs, hnow⟩ := ticked_cal h
    have hlive : (dropShot (ticked s)).seq.live = some l := by simpa [ticked] using hl
    refine endsSegment_intro (x := dropShot (ticked s)) (after := fun y => closeReport (afterReplan y))
      (exec_tickIncrement_until hl hu h hle hfl) hlive
      (by simp [ticked]) (by simp [ticked]) (by simp [ticked]) (by rw [hseq]; simp [ticked]) (by simp [hv, h.2.1])
      (by simpa using hs) (fun y k _ => by simp) (fun r y _ h => by simpa [runEndedIn] using h) (fun m g k y hy => ?_)
    have hnow' : now y = sec * 1024 := (now_congr (by rw [hy.cal]; simp)).trans hnow
    have hopen : closeReport (afterReplan (beginSegment false false y)) = afterReplan (beginSegment false false y) := by
      refine closeReport_none (g := g) (by simpa [liveSeg] using hy.live) ?_ fun hw => ?_
      · rw [now_afterReplan, now_congr (s := y) (by simp), hnow']
        simp [hy.cal, hs]
      · rw [now_afterReplan, now_congr (s := y) (by simp)]
        exact beginSegment_open hy.live hy.wait (by simpa using hw)
    rw [hopen]
    have hnowx : now (dropShot (ticked s)) = sec * 1024 := (now_congr (by simp)).trans hnow
    refine handedTo_afterReplan hy (by simp [ticked]) (by simp [ticked]) (by rw [hseq]; simp [ticked]) (by simp [ticked])
      (by simp [ticked]) (by simp [hv, h.2.1]) (hnowx.trans (Nat.add_zero _).symm) (fun hst => ?_)
    rw [hnowx, dropShot_preparation, preparation_ticked]
    intro d hd
    simpa [ticked] using priming_phase hst (by simpa [ticked] using hd)
  · have hexec := exec_tickIncrement_close hl hsrc hend hr hw h hmin hb hn
    obtain ⟨h1, h2, h3, h4, h5⟩ := closeTrip_spec l.seg (ticked s)
    rw [(ticked_cal h).2.2] at h2
    have hq : (ticked s).seq = s.seq := by simp [ticked]
    rw [hq] at h3 h4 h5
    refine ⟨_, hexec, h1, h2, fun hfl => ?_, h4, fun hd => h5 (by simpa [nextDue, hq] using hd), by simp [ticked],
      by simp [ticked, hr], by simp [ticked]⟩
    obtain ⟨d, hd⟩ := (inFlight_iff s).1 hfl
    rw [hd]
    exact h3 d hd
  · rw [(exec_windowOpening hl ho).1 hw hle, openWindow, hsrc]
    rfl
  · have hexec := (exec_windowOpening hl ho).1 hw hle
    rw [openWindow, hsrc] at hexec
    exact ⟨_, hexec, by simp⟩

/-! ### TIME (R42, R55, R56) -/

theorem timeReply_eq (s : State) : timeReply s = [timeLine s.cal] := by
  have hverb : Verb.time.text = "TIME".toList := rfl
  rcases hv : s.cal.valid <;>
    simp [timeReply, okLine, success, joinWith, hverb, fieldText, timeLine, dayOf, minuteOf, weekdayOf, hv]

/-- R56: TIME with two numbers in range. -/
theorem exec_timeSet {sec frac : Nat} {s : State} (hf : LinkFree s) (hs : sec ≤ 4294967295) (hr : frac < 1024) :
    exec (.timeSet [natText sec, natText frac]) s =
      .next ((setTime sec frac s).answering [timeLine (calendarSetTo sec frac s.cal)]) := by
  have hread : readTime [natText sec, natText frac] = some ((sec : Int), (frac : Int)) := by
    simp [readTime, readNumber_natText (show sec < 10 ^ 10 by omega),
      readNumber_natText (show frac < 10 ^ 10 by omega)]
  have hrange : timeInRange (sec : Int) (frac : Int) = true := by
    simp [timeInRange, Config.maxSeconds, Config.ticksPerSecond]; omega
  have ho : ownTime [natText sec, natText frac] s =
      (setTime sec frac s, [timeLine (calendarSetTo sec frac s.cal)]) := by
    simp only [ownTime, hread, hrange, timeReply_eq]
    simp [setTime, Calendar.setTo]
  exact exec_line (v := .time) (p := (_, _)) hf rfl (congrArg replied ho)

/-- R42: the state in which TIME meets the run: the new calendar, the last due time none. -/
def retimed (sec frac : Nat) (s : State) : State :=
  { s with cal := s.cal.setTo sec frac, seq := { s.seq with lastDue := none } }

/-- R42: what follows step 1: an end that is reached, and then the re-anchor. -/
theorem setTime_eq (sec frac : Nat) (s : State) : setTime sec frac s =
    (let r := retimed sec frac s
     let s2 := if untilReached r then takeEnd r else r
     if decide (s2.seq.run = .active) && (inFlight r || !untilReached r) then
       if inFlight s2 then { s2 with seq := { s2.seq with anchorWaiting := true } }
       else afterReplan (startSchedule false (now (dropShot s2)) (dropShot s2))
     else s2) := rfl

theorem retimed_inFlight (sec frac : Nat) (s : State) : inFlight (retimed sec frac s) = inFlight s := inFlight_congr rfl

/-- R42: TIME that reaches no end time. -/
theorem setTime_ahead {sec frac : Nat} {s : State} (hu : untilReached (retimed sec frac s) = false) :
    (s.seq.run ≠ .active → setTime sec frac s = retimed sec frac s) ∧
    (s.seq.run = .active → inFlight s = true → setTime sec frac s =
      { retimed sec frac s with seq := { (retimed sec frac s).seq with anchorWaiting := true } }) ∧
    (s.seq.run = .active → inFlight s = false → setTime sec frac s = afterReplan
      (startSchedule false (now (dropShot (retimed sec frac s))) (dropShot (retimed sec frac s)))) := by
  have hrun : (retimed sec frac s).seq.run = s.seq.run := rfl
  refine ⟨fun hr => ?_, fun hr hf => ?_, fun hr hf => ?_⟩
  · simp [setTime_eq, hu, hrun, hr]
  · simp [setTime_eq, hu, hrun, hr, retimed_inFlight, hf]
  · simp [setTime_eq, hu, hrun, hr, retimed_inFlight, hf]

/-- R42: an ACTIVE run goes on with its segment. -/
theorem setTime_ahead_run {sec frac : Nat} {s : State} (hu : untilReached (retimed sec frac s) = false)
    (hr : s.seq.run = .active) : (setTime sec frac s).seq.lastDue = none ∧
    (setTime sec frac s).seq.live = s.seq.live ∧ (setTime sec frac s).seq.run = .active := by
  obtain ⟨-, hflying, hidle⟩ := setTime_ahead hu
  rcases hfl : inFlight s with _ | _
  · simp [hidle hr hfl, retimed, hr]
  · rw [hflying hr hfl]
    exact ⟨rfl, rfl, hr⟩

/-- R42 step 2: TIME that reaches the end time of the segment. -/
theorem setTime_passed {sec frac : Nat} {s : State} (hu : untilReached (retimed sec frac s) = true) :
    (inFlight s = true → setTime sec frac s = { s with
      cal := s.cal.setTo sec frac
      seq := { s.seq with
        lastDue := none, endWaiting := true
        anchorWaiting := s.seq.anchorWaiting || decide (s.seq.run = RunState.active) } }) ∧
    (inFlight s = false → setTime sec frac s = takeEnd (retimed sec frac s)) := by
  refine ⟨fun hf => ?_, fun hf => ?_⟩
  · have hend := takeEnd_inFlight ((retimed_inFlight sec frac s).trans hf)
    have hfl : inFlight { retimed sec frac s with seq := { (retimed sec frac s).seq with endWaiting := true } } = true :=
      (retimed_inFlight sec frac s).trans hf
    simp only [setTime_eq, hu, if_true, hend, hfl, retimed_inFlight, hf, Bool.true_or, Bool.and_true]
    by_cases hr : s.seq.run = .active <;> simp [retimed, hr]
  · simp [setTime_eq, hu, retimed_inFlight, hf]

theorem untilReached_retimed {l : Live} {sec frac : Nat} {s : State} (hl : s.seq.live = some l) :
    (untilReached (retimed sec frac s) = true ↔ ∃ u ∈ l.seg.endAt, u ≤ sec) ∧
    (untilReached (retimed sec frac s) = false ↔ ∀ u ∈ l.seg.endAt, sec < u) := by
  have hl' : liveSeg (retimed sec frac s) = some l.seg := liveSeg_of_live hl
  exact ⟨(untilReached_iff hl').trans ⟨And.right, fun h => ⟨rfl, h⟩⟩,
    (untilReached_eq_false_iff hl').trans ⟨fun h => h rfl, fun h _ => h⟩⟩

/-- R81, R82: a retry holds no shot. -/
theorem engineSound_retrying {s : State} (h : EngineSound s) (hr : s.engine.retrying = true) : s.seq.stage = .none := by
  obtain ⟨-, -, -, -, -, -, hretry, -⟩ := h
  exact (hretry hr).1

/-- Settles O21: TIME by its two steps, an end by the end taken at once. -/
theorem timeSetsCalendar : Obligations.TimeSetsCalendar := by
  refine fun sec frac s hf hs hfr => ⟨?_, fun hr hu => ?_, fun l hl hr hsound hu => ?_, fun l hl hr hu => ⟨fun hfl => ?_,
    fun hfl => ?_⟩⟩ <;> have hexec := exec_timeSet hf hs hfr
  · refine ⟨_, hexec, ?_⟩
    simp [setTime, Calendar.setTo, replies]
  · have hnot : untilReached (retimed sec frac s) = false := by
      rcases hl : s.seq.live with _ | l
      · simp [untilReached, liveSeg, retimed, hl]
      · exact (untilReached_retimed hl).2.2 (hu l hl)
    rw [hexec, (setTime_ahead hnot).1 hr]
    rfl
  · obtain ⟨-, hflying, hidle⟩ := setTime_ahead (frac := frac) ((untilReached_retimed hl).2.2 hu)
    obtain ⟨hlast, hsame, hrun⟩ := setTime_ahead_run (frac := frac) ((untilReached_retimed hl).2.2 hu) hr
    refine ⟨_, hexec, hlast, hsame, hrun, fun hfl => ?_, fun hfl hretry => ?_, fun hretry => ?_⟩
    · rw [hflying hr hfl]
      exact ⟨rfl, rfl, rfl⟩
    all_goals
      have hnow : now (dropShot (retimed sec frac s)) = sec * 1024 + frac :=
        now_congr (s := retimed sec frac s) (by simp)
      have hlive : liveSeg (dropShot (retimed sec frac s)) = some l.seg :=
        liveSeg_of_live (by simpa [retimed] using hl)
    · have hspec := startSchedule_spec false (sec * 1024 + frac) hlive (by simpa [retimed] using hretry)
        (dropShot_stage ((retimed_inFlight sec frac s).trans hfl))
      have hprep : preparation (dropShot (retimed sec frac s)) = preparation s :=
        dropShot_preparation fun d hd => priming_phase (s := s) (.inr hsound) hd
      rw [hnow, prepTicks_eq, hprep, max_eq_right (Nat.le_add_right _ _)] at hspec
      rw [hidle hr hfl, hnow]
      exact scheduledAt_congr (scheduledAt_afterReplan hspec) (by simp [retimed, Calendar.setTo]) rfl rfl rfl id
    · have hstage := engineSound_retrying hsound hretry
      have hfl : inFlight s = false := inFlight_of_none hstage
      rw [hidle hr hfl, hnow, startSchedule_held _ _ hlive (by simpa [retimed] using hretry)]
      refine ⟨by simpa [retimed] using hretry, by simp [dropShot_stage ((retimed_inFlight sec frac s).trans hfl)], ?_⟩
      exact waitsUnscheduled_congr (waitUnscheduled_spec l.seg (dropShot (retimed sec frac s)))
        (by simp [retimed, Calendar.setTo]) hnow.symm (by simp) (by simp)
  · rw [hexec, (setTime_passed ((untilReached_retimed hl).1.2 hu)).1 hfl]
    rfl
  · rw [(setTime_passed ((untilReached_retimed hl).1.2 hu)).2 hfl, takeEnd_atOnce ((retimed_inFlight _ _ _).trans hfl)]
      at hexec
    have hseq := dropShot_seq (retimed sec frac s)
    refine endsSegment_intro (x := dropShot (retimed sec frac s))
      (after := fun y => (afterReplan y).answering [timeLine (calendarSetTo sec frac s.cal)]) hexec
      (by simpa [retimed] using hl) (by simp [retimed]) (by simp [retimed]) (by simp [retimed])
      (by rw [hseq]; rfl) (by simp [retimed, Calendar.setTo]) (by simp [retimed, Calendar.setTo])
      (fun y k _ => by simp) (fun r y _ h => by simpa [runEndedIn] using h) (fun m g k y hy => ?_)
    have hnow : now (dropShot (retimed sec frac s)) = sec * 1024 + frac := now_congr (s := retimed sec frac s) (by simp)
    refine handedTo_afterReplan hy (by simp [retimed]) (by simp [retimed]) (by rw [hseq]; rfl) (by simp [retimed])
      (by simp [retimed]) (by simp [retimed, Calendar.setTo]) hnow (fun hst => ?_)
    rw [hnow, dropShot_preparation]
    · rfl
    · exact fun d hd => priming_phase hst (s := s) hd

end Sys2Proof.Sequencing
end

