-- ==== Sys2Proof/Proofs/CompletionLaws.lean ====
section
/-! SUPPORT. The completion of a shot (R37, R77, R80): the rows that complete one, the report to the sequencer, and the
rail after it (R79). -/

namespace Sys2Proof.Sequencing

open Sys2Proof Sys2Proof.Machine

/-! ### The rows that complete a shot (R74 to R76) -/

/-- What the row that completes a shot has left alone of what the completion asks for. -/
structure RowLeaves (s x : State) : Prop where
  plan : x.plan = s.plan
  seq : x.seq = s.seq
  cal : x.cal = s.cal
  power : x.power = s.power
  settings : x.settings = s.settings
  notices : x.notices = s.notices
  misses : x.engine.misses = s.engine.misses
  retries : x.engine.retries = s.engine.retries
  retrying : x.engine.retrying = s.engine.retrying
  camPwr : x.pins.camPwr = s.pins.camPwr
  preparation : preparation x = preparation s

theorem RowLeaves.refl (s : State) : RowLeaves s s := ⟨rfl, rfl, rfl, rfl, rfl, rfl, rfl, rfl, rfl, rfl, rfl⟩

theorem setFlight_leaves {s x : State} (shot : Shot) (f : Flight) (h : RowLeaves s x) :
    RowLeaves s (setFlight shot f x) := by
  obtain ⟨h1, h2, h3, h4, h5, h6, h7, h8, h9, h10, h11⟩ := h
  exact ⟨by simpa using h1, by simpa using h2, by simpa using h3, by simpa using h4, by simpa using h5,
    by simpa using h6, by simpa using h7, by simpa using h8, by simpa using h9, by simpa using h10, h11⟩

theorem busyLevel_leaves (b : Bool) (s : State) : RowLeaves s { s with pins := { s.pins with busy := b } } :=
  ⟨rfl, rfl, rfl, rfl, rfl, rfl, rfl, rfl, rfl, rfl, rfl⟩

theorem releaseTrig_leaves {s : State} (busy : Bool) (h : s.engine.phase = .exposing) :
    RowLeaves s (releaseTrig busy s) := by
  refine ⟨rfl, rfl, rfl, rfl, rfl, rfl, rfl, rfl, rfl, rfl, ?_⟩
  have hp : (releaseTrig busy s).engine.phase = .writing := rfl
  have hs : (releaseTrig busy s).settings = s.settings := rfl
  simp only [preparation, hp, hs, h]

theorem flightOf_eq {f : Flight} {s : State} (h : s.engine.shot.bind Shot.flight = some f) :
    ∃ x, flightOf s = some (x, f) := by
  rcases hx : s.engine.shot with _ | x
  · simp [hx] at h
  · exact ⟨x, by simp [flightOf, hx, show x.flight = some f by simpa [hx] using h]⟩

theorem ranOut_iff (n : Nat) : ranOut n = true ↔ n < 32 := decide_eq_true_iff

theorem bulbRanOut_iff (f : Flight) : bulbRanOut f = true ↔ bulbEnded f := by
  unfold bulbRanOut bulbEnded
  rcases f.fastLeft with _ | left
  · simp [ranOut_iff]
  · exact decide_eq_true_iff

/-- R74, R76: without write_fixed to count the shot completes at once. -/
theorem beginWriteFixed_zero {miss : Bool} {shot : Shot} {f : Flight} (s : State) (h : f.wf = 0) :
    beginWriteFixed miss shot f s = completeShot miss s := by
  simp [beginWriteFixed, h]

/-- R77: a completing row is a completion in a state that it has hardly changed. -/
theorem exec_completion {c : Instr} {miss : Bool} {f : Flight} {s : State}
    (hf : s.engine.shot.bind Shot.flight = some f) (h : completesShot c miss f s) :
    ∃ x, exec c s = .next (completeShot miss x) ∧ RowLeaves s x := by
  obtain ⟨shot, hfl⟩ := flightOf_eq hf
  unfold completesShot at h
  split at h
  case h_1 =>
    obtain ⟨rfl, left, hleft, hlt⟩ := h
    refine ⟨s, ?_, .refl s⟩
    have hleft' : f.fixedLeft = some left := hleft
    simp [exec, execWriteFixedExpiry, hfl, hleft', (ranOut_iff left).2 hlt]
  case h_2 cycles =>
    obtain ⟨rfl, hp, hsy, hlag, hns, hle⟩ := h
    refine ⟨_, ?_, setFlight_leaves shot { f with wr := some (toMs cycles) } (busyLevel_leaves (!activeLevel f.sy) s)⟩
    simp [exec, execBusyWriteEdge, hfl, awaitsWriteEdge, hp, hsy, hlag, hns, Config.sixteenthCycles, hle]
  case h_3 =>
    obtain ⟨rfl, hp, hsy, hlag, hns, hlt⟩ := h
    refine ⟨_, ?_, setFlight_leaves shot { f with noSync := true } (.refl s)⟩
    simp [exec, execWriteWatchExpiry, hfl, awaitsWriteEdge, hp, hsy, hlag, hns, (ranOut_iff _).2 hlt]
  case h_4 =>
    obtain ⟨rfl, hp, hsy, hlag, hns, hlt, hwf⟩ := h
    refine ⟨_, ?_, setFlight_leaves shot { f with noSync := true } (.refl s)⟩
    simp [exec, execOpenWatchExpiry, hfl, awaitsOpenEdge, hp, hsy, hlag, hns, (ranOut_iff _).2 hlt,
      beginWriteFixed_zero, hwf]
  case h_5 busy =>
    obtain ⟨hp, hended, hcase⟩ := h
    have hexec : exec (.bulbEnd busy) s = .next (afterRelease busy shot f (releaseTrig busy s)) := by
      simp [exec, execBulbEnd, hfl, hp, (bulbRanOut_iff f).2 hended]
    rcases hcase with ⟨rfl, hsy, hwf⟩ | ⟨rfl, hsy, hns, hwf⟩ | ⟨rfl, hsy, hns, hlag, hbusy⟩
    · refine ⟨_, ?_, releaseTrig_leaves busy hp⟩
      rw [hexec, afterRelease, if_pos hsy, beginWriteFixed_zero _ hwf]
    · refine ⟨_, ?_, releaseTrig_leaves busy hp⟩
      rw [hexec, afterRelease, if_neg hsy, if_pos hns, beginWriteFixed_zero _ hwf]
    · refine ⟨_, ?_, setFlight_leaves shot { f with wr := some 0 } (releaseTrig_leaves busy hp)⟩
      have hb : busy ≠ activeLevel f.sy := by
        rintro rfl
        exact hbusy (by simp [activeLevel])
      rw [hexec, afterRelease, if_neg hsy, if_neg (by simp [hns]), if_pos (by simp [hlag, hb])]
  case h_6 => exact h.elim

/-! ### The shot counted (R37 step 1, R80) -/

/-- R77, R80: the frame is written and a miss counted; the shot is no longer held. -/
def shotCounted (miss : Bool) (s : State) : State :=
  countMiss miss { writeFrame false s with engine := { (writeFrame false s).engine with shot := none } }

/-- R37 step 1: the sequencer has counted the shot. -/
def indexCounted (d : Tick) (s : State) : State :=
  { s with seq := { s.seq with
    stage := .none, shotIndex := addUpTo Config.maxShotIndex s.seq.shotIndex 1, lastDue := some d } }

/-- What stands when the shot has been counted. -/
structure Counted (miss : Bool) (s x : State) : Prop where
  plan : x.plan = s.plan
  seq : x.seq = s.seq
  cal : x.cal = s.cal
  power : x.power = s.power
  settings : x.settings = s.settings
  notices : x.notices = s.notices
  misses : x.engine.misses = if miss then min 6 (s.engine.misses + 1) else 0
  retries : x.engine.retries = if miss then s.engine.retries else 0
  retrying : x.engine.retrying = s.engine.retrying
  camPwr : x.pins.camPwr = s.pins.camPwr
  preparation : preparation x = preparation s

theorem shotCounted_counted {miss : Bool} {s x : State} (h : RowLeaves s x) : Counted miss s (shotCounted miss x) := by
  obtain ⟨h1, h2, h3, h4, h5, h6, h7, h8, h9, h10, h11⟩ := h
  refine ⟨by simpa [shotCounted] using h1, by simpa [shotCounted] using h2, by simpa [shotCounted] using h3,
    by simpa [shotCounted] using h4, by simpa [shotCounted] using h5, by simpa [shotCounted] using h6, ?_, ?_,
    by simpa [shotCounted] using h9, by simpa [shotCounted] using h10, ?_⟩
  · cases miss <;> simp [shotCounted, countMiss, addUpTo, Config.maxMisses, h7]
  · cases miss <;> simp [shotCounted, countMiss, h8]
  · rw [← h11]
    have hsettle : (writeFrame false x).engine.settleLeft = x.engine.settleLeft := by
      simp only [writeFrame]; (repeat' split) <;> rfl
    cases miss <;> simp [shotCounted, countMiss, preparation, hsettle]

/-! ### The report and the rail after it (R37, R79, R81, R83) -/

/-- R37 steps 3 to 5: a camera fault pauses the run, a suspension that waited suspends it, and nothing waits on. -/
def runSettled (fault susp : Bool) (s : State) : State :=
  let s3 := if fault && s.seq.current.isSome then haltRun (.paused .camera) s else s
  let s4 := if susp && decide (s3.seq.run = .active) then haltRun .suspended s3 else s3
  { s4 with seq := { s4.seq with suspWaiting := false, anchorWaiting := false } }

/-- R79, R81, R83: what the shot engine does when the completion has been reported. -/
def railAfterShot (retry fault : Bool) (s : State) : State :=
  if retry then
    if s.seq.run = .active then beginRetry s else railOff s
  else if fault then raise .cameraFault (railOff s)
  else arrivals (railDecision { s with engine := { s.engine with phase := .ready } })

/-- R37 steps 3 to 6: what follows when the segment has been handed on (`ends`) or goes on. -/
def runGoesOn (retry fault susp anchor ends : Bool) (d : Tick) (s : State) : State :=
  let s5 := runSettled fault susp s
  if decide (s5.seq.run = .active) then
    if retry then { s5 with seq := { s5.seq with retryGrid := if ends then none else gridOfRetry d s5 } }
    else if ends then s5 else nextAfterShot anchor d s5
  else s5

theorem reportCompletion_eq {d : Tick} {s : State} (retry fault : Bool) (h : s.seq.stage = .inFlight d) :
    reportCompletion retry fault s =
      runGoesOn retry fault s.seq.suspWaiting s.seq.anchorWaiting (completionEnds (indexCounted d s)) d
        (if completionEnds (indexCounted d s) then
          endSegment (retry || fault || s.seq.suspWaiting) true (handoffsLeft (indexCounted d s)) (indexCounted d s)
        else indexCounted d s) := by
  unfold reportCompletion
  rw [h]
  rfl

theorem completeShot_eq (miss : Bool) (s : State) : completeShot miss s =
    (let x := shotCounted miss s
     let retry := startsRetry miss x
     let fault := !retry && givesFault miss x
     railAfterShot retry fault (reportCompletion retry fault x)) := rfl

end Sys2Proof.Sequencing
end

