-- ==== Sys2Proof/Proofs/ShotReports.lean ====
section
/-! SUPPORT. The report of a completion (R37 steps 2 to 6), and the rail after it (R79, R81, R83). -/

namespace Sys2Proof.Sequencing

open Sys2Proof Sys2Proof.Machine

/-! ### A retry, a fault, an end (R37 step 2, R80, R83) -/

theorem startsRetry_counted {miss : Bool} {s x : State} (h : Counted miss s x) :
    startsRetry miss x = decide (callsRetry miss s) := by
  rw [Bool.eq_iff_iff]
  cases miss
  · simp [startsRetry]
  · have : 3 ≤ min 6 (s.engine.misses + 1) ↔ 2 ≤ s.engine.misses := by omega
    simp [startsRetry, h.misses, h.retries, h.seq, Config.retryMisses, this, and_assoc]

theorem givesFault_counted {miss : Bool} {s x : State} (h : Counted miss s x) :
    (!startsRetry miss x && givesFault miss x) = decide (callsFault miss s) := by
  rw [startsRetry_counted h, Bool.eq_iff_iff]
  cases miss
  · simp [givesFault]
  · have : min 6 (s.engine.misses + 1) = 6 ↔ 5 ≤ s.engine.misses := by omega
    simp [givesFault, h.misses, h.retries, Config.maxMisses, this]
    omega

theorem completionEnds_counted {l : Live} {miss : Bool} {s x : State} (d : Tick) (h : Counted miss s x)
    (hl : s.seq.live = some l) : completionEnds (indexCounted d x) = true ↔ completionEndsSegment l s := by
  simp [completionEnds, indexCounted, liveSeg, h.seq, hl, addUpTo, Config.maxShotIndex]

/-! ### The run after the completion (R37 steps 3 to 5) -/

/-- R37 steps 3 to 5: the run paused by a fault, suspended, or left as it is. -/
theorem runSettled_cases (fault susp : Bool) (s : State) :
    ((fault && s.seq.current.isSome) = true ∧ runSettled fault susp s = { s with seq := { s.seq with
        run := .paused .camera, wait := none, opening := none, suspWaiting := false, anchorWaiting := false } }) ∨
    ((fault && s.seq.current.isSome) = false ∧ (susp && decide (s.seq.run = .active)) = true ∧
      runSettled fault susp s = { s with seq := { s.seq with
        run := .suspended, wait := none, opening := none, suspWaiting := false, anchorWaiting := false } }) ∨
    ((fault && s.seq.current.isSome) = false ∧ (susp && decide (s.seq.run = .active)) = false ∧
      runSettled fault susp s = { s with seq := { s.seq with suspWaiting := false, anchorWaiting := false } }) := by
  rcases hf : fault && s.seq.current.isSome with _ | _
  · rcases hs : susp && decide (s.seq.run = .active) with _ | _
    · exact .inr (.inr ⟨rfl, rfl, by simp only [runSettled, hf, hs, Bool.false_eq_true, if_false]⟩)
    · refine .inr (.inl ⟨rfl, rfl, ?_⟩)
      simp only [runSettled, hf, hs, Bool.false_eq_true, if_false, if_true]
      rfl
  · refine .inl ⟨rfl, ?_⟩
    have hne : (haltRun (.paused .camera) s).seq.run ≠ .active := by simp
    simp only [runSettled, hf, if_true, hne, decide_false, Bool.and_false, Bool.false_eq_true, if_false]
    rfl

@[simp] theorem runSettled_frame (fault susp : Bool) (s : State) :
    (runSettled fault susp s).plan = s.plan ∧ (runSettled fault susp s).cal = s.cal ∧
    (runSettled fault susp s).engine = s.engine ∧ (runSettled fault susp s).pins = s.pins ∧
    (runSettled fault susp s).power = s.power ∧ (runSettled fault susp s).settings = s.settings ∧
    (runSettled fault susp s).notices = s.notices := by
  rcases runSettled_cases fault susp s with ⟨-, h⟩ | ⟨-, -, h⟩ | ⟨-, -, h⟩ <;> rw [h] <;> and_intros <;> rfl

/-- The pointers, the counts and the stage stand; nothing of the completion waits on. -/
@[simp] theorem runSettled_seqFrame (fault susp : Bool) (s : State) :
    (runSettled fault susp s).seq.current = s.seq.current ∧ (runSettled fault susp s).seq.armed = s.seq.armed ∧
    (runSettled fault susp s).seq.live = s.seq.live ∧ (runSettled fault susp s).seq.stage = s.seq.stage ∧
    (runSettled fault susp s).seq.shotIndex = s.seq.shotIndex ∧
    (runSettled fault susp s).seq.lastDue = s.seq.lastDue ∧ (runSettled fault susp s).seq.skip = s.seq.skip ∧
    (runSettled fault susp s).seq.ignored = s.seq.ignored ∧ (runSettled fault susp s).seq.edges = s.seq.edges ∧
    (runSettled fault susp s).seq.handoffs = s.seq.handoffs ∧ (runSettled fault susp s).seq.suspWaiting = false ∧
    (runSettled fault susp s).seq.anchorWaiting = false := by
  rcases runSettled_cases fault susp s with ⟨-, h⟩ | ⟨-, -, h⟩ | ⟨-, -, h⟩ <;> rw [h] <;> and_intros <;> rfl

theorem runSettled_run {miss : Bool} {s y : State} (hc : y.seq.current.isSome = true) (hr : y.seq.run = s.seq.run) :
    (runSettled (decide (callsFault miss s)) s.seq.suspWaiting y).seq.run = runAfterCompletion miss s := by
  unfold runAfterCompletion
  rcases runSettled_cases (decide (callsFault miss s)) s.seq.suspWaiting y with ⟨hf, h⟩ | ⟨hf, hs, h⟩ | ⟨hf, hs, h⟩ <;>
    rw [hc, Bool.and_true] at hf <;> rw [h]
  · rw [if_pos (decide_eq_true_iff.1 hf)]
  · rw [if_neg (decide_eq_false_iff_not.1 hf), if_pos (by simpa [hr] using hs)]
  · rw [if_neg (decide_eq_false_iff_not.1 hf), if_neg (by simpa [hr] using hs)]
    exact hr

/-- R22: no wait is held where the completion halts the run. -/
theorem runSettled_wait {fault susp : Bool} {s : State} (hrun : (runSettled fault susp s).seq.run ≠ .active)
    (hw : s.seq.run = .active ∨ s.seq.wait = none) : (runSettled fault susp s).seq.wait = none := by
  rcases runSettled_cases fault susp s with ⟨-, h⟩ | ⟨-, -, h⟩ | ⟨-, -, h⟩
  · rw [h]
  · rw [h]
  · rw [h] at hrun ⊢
    exact hw.resolve_left hrun

/-- A run that is still ACTIVE has not been halted. -/
theorem runSettled_active {fault susp : Bool} {s : State} (hrun : (runSettled fault susp s).seq.run = .active) :
    s.seq.run = .active ∧
    runSettled fault susp s = { s with seq := { s.seq with suspWaiting := false, anchorWaiting := false } } := by
  rcases runSettled_cases fault susp s with ⟨-, h⟩ | ⟨-, -, h⟩ | ⟨-, -, h⟩ <;> rw [h] at hrun
  · cases hrun
  · cases hrun
  · exact ⟨hrun, h⟩

/-! ### The rail after the shot (R79, R81, R83) -/

theorem railAfterShot_mayPrime (retry fault : Bool) (s : State) : MayPrime s.seq (railAfterShot retry fault s).seq := by
  unfold railAfterShot
  split
  · split
    · exact .inl (by simp)
    · exact .inl (by simp)
  · split
    · exact .inl (by simp)
    · exact (railDecision_mayPrime { s with engine := { s.engine with phase := .ready } }).trans (arrivals_mayPrime _)

@[simp] theorem railAfterShot_seqFrame (retry fault : Bool) (s : State) :
    (railAfterShot retry fault s).seq.wait = s.seq.wait ∧ (railAfterShot retry fault s).seq.opening = s.seq.opening ∧
    (railAfterShot retry fault s).seq.skip = s.seq.skip ∧ (railAfterShot retry fault s).seq.ignored = s.seq.ignored ∧
    (railAfterShot retry fault s).seq.edges = s.seq.edges ∧
    (railAfterShot retry fault s).seq.handoffs = s.seq.handoffs ∧
    (railAfterShot retry fault s).seq.endWaiting = s.seq.endWaiting ∧
    (railAfterShot retry fault s).seq.suspWaiting = s.seq.suspWaiting ∧
    (railAfterShot retry fault s).seq.anchorWaiting = s.seq.anchorWaiting ∧
    (railAfterShot retry fault s).seq.retryGrid = s.seq.retryGrid := (railAfterShot_mayPrime retry fault s).frame

@[simp] theorem railAfterShot_runFrame (retry fault : Bool) (s : State) :
    (railAfterShot retry fault s).seq.run = s.seq.run ∧ (railAfterShot retry fault s).seq.current = s.seq.current ∧
    (railAfterShot retry fault s).seq.armed = s.seq.armed ∧ (railAfterShot retry fault s).seq.live = s.seq.live ∧
    (railAfterShot retry fault s).seq.shotIndex = s.seq.shotIndex ∧
    (railAfterShot retry fault s).seq.lastDue = s.seq.lastDue := (railAfterShot_mayPrime retry fault s).run

@[simp] theorem railAfterShot_stage (retry fault : Bool) (s : State) :
    nextDue (railAfterShot retry fault s) = nextDue s ∧
    ((railAfterShot retry fault s).seq.stage = .none ↔ s.seq.stage = .none) ∧
    (∀ d, (railAfterShot retry fault s).seq.stage = .inFlight d ↔ s.seq.stage = .inFlight d) :=
  (railAfterShot_mayPrime retry fault s).stage

@[simp] theorem railAfterShot_frame (retry fault : Bool) (s : State) :
    (railAfterShot retry fault s).plan = s.plan ∧ (railAfterShot retry fault s).cal = s.cal ∧
    (railAfterShot retry fault s).engine.misses = s.engine.misses ∧
    (railAfterShot retry fault s).engine.retries = s.engine.retries := by
  unfold railAfterShot
  (repeat' split) <;> simp

/-- R79, R81, R83: the notices of an end are as they were. -/
theorem railAfterShot_notices {retry fault : Bool} {s : State} {k : Notice} (h : k ∈ endNotices) :
    k ∈ (railAfterShot retry fault s).notices ↔ k ∈ s.notices := by
  have hk : k ≠ .cameraRetry ∧ k ≠ .cameraFault := by
    simp only [endNotices, List.mem_cons, List.not_mem_nil, or_false] at h
    rcases h with rfl | rfl | rfl | rfl | rfl <;> decide
  unfold railAfterShot
  split
  · split
    · simp [beginRetry, hk.1]
    · simp
  · split
    · simp [hk.2]
    · simp

/-- R66: in DORMANT an instant that arrives asks for a measurement at most. -/
theorem arrivals_dormant {s : State} (h : s.engine.phase = .dormant) :
    (arrivals s).engine.phase = .dormant ∧ (arrivals s).pins.camPwr = s.pins.camPwr ∧
    (arrivals s).pins.gain = s.pins.gain := by
  unfold arrivals
  split
  · exact ⟨h, rfl, rfl⟩
  · simp [h]

/-- R66: in READY a prime may begin. -/
theorem arrivals_ready {s : State} (h : s.engine.phase = .ready) :
    (arrivals s).engine.phase = .ready ∨ (arrivals s).engine.phase = .prime := by
  rcases hx : pendingShot s with _ | x
  · simp [arrivals, hx, h]
  · obtain ⟨d, hd⟩ := pendingShot_stage hx
    by_cases ha : arrived s x.primeAt = true
    · exact .inr (by simp only [arrivals, hx, h, ha, if_true]; exact (beginPrime_enters hd).1)
    · exact .inl (by simp [arrivals, hx, h, ha])

/-- R79: the rail decision of a camera in READY, no retry being in progress. -/
theorem railDecision_ready {s : State} (hp : s.engine.phase = .ready) (hr : s.engine.retrying = false) :
    railDecision s = if tripHold s || !railGoesOff s then s else arrivals (railOff s) := by
  rcases hh : tripHold s <;> rcases ho : railGoesOff s <;> simp [railDecision, hp, hr, hh, ho]

/-- R79: the rail that is kept. -/
theorem railAfterShot_kept {s : State} (hr : s.engine.retrying = false)
    (h : (tripHold s || !railGoesOff s) = true) :
    (railAfterShot false false s).pins.camPwr = s.pins.camPwr ∧
    ((railAfterShot false false s).engine.phase = .ready ∨ (railAfterShot false false s).engine.phase = .prime) := by
  have hd := railDecision_ready (s := { s with engine := { s.engine with phase := .ready } }) rfl hr
  have hh : (tripHold { s with engine := { s.engine with phase := .ready } } ||
      !railGoesOff { s with engine := { s.engine with phase := .ready } }) = true := h
  rw [if_pos hh] at hd
  have heq : railAfterShot false false s = arrivals { s with engine := { s.engine with phase := .ready } } := by
    simp only [railAfterShot, hd, Bool.false_eq_true, if_false]
  rw [heq]
  exact ⟨by simp, arrivals_ready rfl⟩

/-- R79: the rail that goes off. -/
theorem railAfterShot_off {s : State} (hr : s.engine.retrying = false)
    (h : (tripHold s || !railGoesOff s) = false) :
    (railAfterShot false false s).pins.camPwr = false ∧ (railAfterShot false false s).pins.gain = 0 ∧
    (railAfterShot false false s).engine.phase = .dormant := by
  have hd := railDecision_ready (s := { s with engine := { s.engine with phase := .ready } }) rfl hr
  have hh : (tripHold { s with engine := { s.engine with phase := .ready } } ||
      !railGoesOff { s with engine := { s.engine with phase := .ready } }) = false := h
  rw [hh, if_neg (by simp)] at hd
  have heq : railAfterShot false false s =
      arrivals (arrivals (railOff { s with engine := { s.engine with phase := .ready } })) := by
    simp only [railAfterShot, hd, Bool.false_eq_true, if_false]
  rw [heq]
  obtain ⟨h1, h2, h3⟩ := arrivals_dormant (s := railOff { s with engine := { s.engine with phase := .ready } }) rfl
  obtain ⟨k1, k2, k3⟩ := arrivals_dormant h1
  exact ⟨k2.trans h2, k3.trans h3, k1⟩

/-- R79: where no shot is pending and no trip hold stands the rail goes off after the shot, whatever ended it. -/
theorem railAfterShot_idle {retry fault : Bool} {s : State} (hr : s.engine.retrying = false) (hs : s.seq.stage = .none)
    (ha : s.seq.run ≠ .active) :
    (railAfterShot retry fault s).pins.camPwr = false ∧ (railAfterShot retry fault s).pins.gain = 0 ∧
    (railAfterShot retry fault s).engine.phase = .dormant := by
  cases retry
  · cases fault
    · exact railAfterShot_off hr (by simp [tripHold, ha, railGoesOff, pendingShot, hs])
    · simp [railAfterShot]
  · simp [railAfterShot, ha]

end Sys2Proof.Sequencing
end

