-- ==== Sys2Proof/Proofs/Completions.lean ====
section
/-! SUPPORT. What follows a completion (R37, R40, R79 to R83). -/

namespace Sys2Proof.Sequencing

open Sys2Proof Sys2Proof.Machine

/-! ### The row with its report -/

/-- R37, R77: a completing row by its report, in the words of the statements. -/
theorem exec_completed {c : Instr} {miss : Bool} {l : Live} {d : Tick} {f : Flight} {s : State}
    (h : completion c miss l d f s) : ∃ x, Counted miss s x ∧
      exec c s = .next (railAfterShot (decide (callsRetry miss s)) (decide (callsFault miss s))
        (runGoesOn (decide (callsRetry miss s)) (decide (callsFault miss s)) s.seq.suspWaiting s.seq.anchorWaiting
          (decide (completionEndsSegment l s)) d
          (if completionEndsSegment l s then
            endSegment (decide (callsRetry miss s) || decide (callsFault miss s) || s.seq.suspWaiting) true
              (handoffsLeft (indexCounted d x)) (indexCounted d x)
          else indexCounted d x))) := by
  obtain ⟨hst, hl, hf, hc⟩ := h
  obtain ⟨x, hexec, hrow⟩ := exec_completion hf hc
  have hx := shotCounted_counted (miss := miss) hrow
  have hends : completionEnds (indexCounted d (shotCounted miss x)) = decide (completionEndsSegment l s) := by
    rw [Bool.eq_iff_iff, completionEnds_counted d hx hl, decide_eq_true_iff]
  refine ⟨_, hx, ?_⟩
  rw [hexec, completeShot_eq]
  simp only [startsRetry_counted hx]
  rw [← startsRetry_counted hx, givesFault_counted hx, startsRetry_counted hx,
    reportCompletion_eq _ _ (by rw [hx.seq, hst]), hends, hx.seq]
  simp only [decide_eq_true_eq]

/-- The completion counted, nothing being left to wait for it. -/
def resumed (d : Tick) (x : State) : State :=
  { indexCounted d x with seq := { (indexCounted d x).seq with suspWaiting := false, anchorWaiting := false } }

theorem resumed_live {l : Live} {miss : Bool} {s x : State} (d : Tick) (hx : Counted miss s x)
    (hl : s.seq.live = some l) : liveSeg (resumed d x) = some l.seg :=
  liveSeg_of_live (by simpa [resumed, indexCounted, hx.seq] using hl)

theorem runSettled_calm {susp : Bool} {d : Tick} {x : State} (h : susp = false) :
    runSettled false susp (indexCounted d x) = resumed d x := by
  subst h
  rfl

/-- R37 step 6: an ACTIVE run that goes on with its segment. -/
theorem exec_goesOn {c : Instr} {miss : Bool} {l : Live} {d : Tick} {f : Flight} {s : State}
    (hc : completion c miss l d f s) (hrun : s.seq.run = .active) (hends : ¬ completionEndsSegment l s)
    (hsusp : s.seq.suspWaiting = false) (hretry : ¬ callsRetry miss s) (hfault : ¬ callsFault miss s) :
    ∃ x, Counted miss s x ∧
      exec c s = .next (railAfterShot false false (nextAfterShot s.seq.anchorWaiting d (resumed d x))) := by
  obtain ⟨x, hx, hexec⟩ := exec_completed hc
  refine ⟨x, hx, ?_⟩
  have hact : (resumed d x).seq.run = .active := by simp [resumed, indexCounted, hx.seq, hrun]
  rw [hexec, if_neg hends, decide_eq_false hends, decide_eq_false hretry, decide_eq_false hfault, runGoesOn,
    runSettled_calm hsusp]
  simp only [hact, decide_true, if_true, Bool.false_eq_true, if_false]

@[simp] theorem nextAfterShot_seqFrame (anchor : Bool) (d : Tick) (s : State) :
    (nextAfterShot anchor d s).seq.ignored = s.seq.ignored ∧ (nextAfterShot anchor d s).seq.edges = s.seq.edges ∧
    (nextAfterShot anchor d s).seq.suspWaiting = s.seq.suspWaiting ∧
    (nextAfterShot anchor d s).seq.anchorWaiting = s.seq.anchorWaiting := by
  unfold nextAfterShot
  split
  · simp
  · split
    · simp
    · split <;> simp [gridNext]

/-- R37 step 1, R80: the counts of the completion are those of the shot counted. -/
theorem completionCounted_of {miss : Bool} {d : Tick} {s x t : State} (hx : Counted miss s x)
    (hrun : t.seq.shotIndex = (indexCounted d x).seq.shotIndex ∧ t.seq.lastDue = (indexCounted d x).seq.lastDue ∧
      t.seq.live = x.seq.live ∧ t.seq.current = x.seq.current ∧ t.seq.armed = x.seq.armed ∧
      t.seq.edges = x.seq.edges ∧ t.seq.ignored = x.seq.ignored)
    (hwait : t.seq.suspWaiting = false ∧ t.seq.anchorWaiting = false)
    (hmiss : t.engine.misses = x.engine.misses ∧ t.engine.retries = x.engine.retries) :
    completionCounted d miss s t := by
  obtain ⟨h1, h2, h3, h4, h5, h6, h7⟩ := hrun
  rw [completionCounted, h1, h2, h3, h4, h5, h6, h7, hwait.1, hwait.2, hmiss.1, hmiss.2, hx.misses, hx.retries]
  simp [indexCounted, hx.seq, addUpTo, Config.maxShotIndex]

theorem completionCounted_goesOn {miss : Bool} {d : Tick} {s x : State} (anchor : Bool) (hx : Counted miss s x) :
    completionCounted d miss s (railAfterShot false false (nextAfterShot anchor d (resumed d x))) :=
  completionCounted_of hx (by simp [resumed, indexCounted]) (by simp [resumed]) (by simp [resumed, indexCounted])

theorem run_goesOn {miss : Bool} {d : Tick} {s x : State} (anchor : Bool) (hx : Counted miss s x)
    (hr : s.seq.run = .active) :
    (railAfterShot false false (nextAfterShot anchor d (resumed d x))).seq.run = .active := by
  simp [resumed, indexCounted, hx.seq, hr]

/-! ### The grid (R40, R41) -/

/-- R40: the first grid point later than now. -/
theorem gridPoints_next {d step x : Nat} (h : 0 < step) :
    x < d + (gridPoints d step x + 1) * step ∧
    ∀ j < gridPoints d step x + 1, 1 ≤ j → d + j * step ≤ x := by
  unfold gridPoints
  constructor
  · have := Nat.lt_div_mul_add (a := x - d) h
    rw [Nat.add_mul, Nat.one_mul]
    omega
  · intro j hj hj1
    have hle : j * step ≤ x - d := (Nat.le_div_iff_mul_le h).1 (by omega)
    have : 1 * step ≤ j * step := Nat.mul_le_mul_right _ hj1
    omega

theorem gridStep_resumed {miss : Bool} {d : Tick} {s x : State} (g : Segment) (hx : Counted miss s x) :
    gridStep g (resumed d x) = g.iv * 64 * stretch s := by
  simp [gridStep, stretch, resumed, indexCounted, hx.power, hx.settings, Config.sixteenthTicks]

theorem now_resumed {miss : Bool} {d : Tick} {s x : State} (hx : Counted miss s x) : now (resumed d x) = now s :=
  now_congr hx.cal

/-- R40, R41: the next due time on the grid, under the window test, and the grid points passed over. -/
theorem nextAfterShot_grid {g : Segment} {d : Tick} {s : State} (hl : liveSeg s = some g) (hsrc : g.src = .timed)
    (hs : s.seq.stage = .none) (k : Nat) (hk : k = gridPoints d (gridStep g s) (now s)) :
    (if windowOpen g.win g.days (d + (k + 1) * gridStep g s) = true then
      (nextAfterShot false d s).seq.wait = some .between ∧
      nextDue (nextAfterShot false d s) = some (d + (k + 1) * gridStep g s)
    else (nextAfterShot false d s).seq.wait = some .closed ∧
      (nextAfterShot false d s).seq.opening = nextOpening g.win g.days (d + (k + 1) * gridStep g s) ∧
      nextDue (nextAfterShot false d s) = nextOpening g.win g.days (d + (k + 1) * gridStep g s)) ∧
    (nextAfterShot false d s).seq.skip = min 255 (s.seq.skip + k) := by
  have hgrid : nextAfterShot false d s = placeDue g (d + (k + 1) * gridStep g s)
      { s with seq := { s.seq with skip := min 255 (s.seq.skip + k) } } := by
    simp only [nextAfterShot, hl, hsrc, gridNext, ← hk]
    rfl
  rw [hgrid]
  exact ⟨placeDue_spec g _ (s := { s with seq := { s.seq with skip := min 255 (s.seq.skip + k) } }) hs, by simp⟩

theorem nextAfterShot_trip {g : Segment} {d : Tick} {s : State} (hl : liveSeg s = some g) (hsrc : g.src = .trip) :
    nextAfterShot false d s = s := by
  simp [nextAfterShot, hl, hsrc]

theorem prepTicks_congr {s t : State} (b : Bool) (he : t.engine = s.engine) (hp : t.power = s.power)
    (hs : t.settings = s.settings) : prepTicks b t = prepTicks b s := by
  simp only [prepTicks, he, hp, hs]

/-- R38: P at a completion. -/
theorem prepTicks_completion {miss : Bool} {d : Tick} {s x : State} (hx : Counted miss s x) :
    prepTicks true (resumed d x) = completionPreparation s := by
  have hp : prepTicks false (resumed d x) = preparation s := (prepTicks_eq _).trans hx.preparation
  have hl : (resumed d x).power.level = s.power.level := congrArg Supervisor.level hx.power
  have hs : (resumed d x).settings = s.settings := hx.settings
  by_cases ht : s.power.level = .thrift
  · simp [prepTicks, completionPreparation, hl, hs, ht, Config.sixteenthTicks]
  · rw [completionPreparation, if_neg ht, ← hp]
    simp [prepTicks, hl, ht]

/-! ### The rail after a shot of a run that goes on (R79) -/

/-- The shot held is the one that the stage says. -/
def ShotAgrees (s : State) : Prop :=
  s.seq.stage = .none ∨ ∃ d x, s.seq.stage = .pending d ∧ s.engine.shot = some x ∧ x.due = d

theorem placeDue_agrees (g : Segment) (d : Tick) {s : State} (h : s.seq.stage = .none) : ShotAgrees (placeDue g d s) := by
  unfold placeDue
  split
  · exact .inr ⟨d, _, rfl, rfl, rfl⟩
  · split
    · next w _ => exact .inr ⟨w, _, rfl, rfl, rfl⟩
    · exact .inl (by simpa using h)

theorem startSchedule_agrees (b : Bool) (target : Tick) {s : State} (h : s.seq.stage = .none) :
    ShotAgrees (startSchedule b target s) := by
  unfold startSchedule
  split
  · exact .inl h
  · split
    · exact .inl (by simpa using h)
    · split
      · exact placeDue_agrees _ _ h
      · exact .inl (by simpa using h)

theorem startSchedule_trip_stage {g : Segment} (b : Bool) (target : Tick) {s : State} (hl : liveSeg s = some g)
    (hsrc : g.src = .trip) : (startSchedule b target s).seq.stage = s.seq.stage := by
  simp only [startSchedule, hl, hsrc]
  split <;> simp

theorem nextAfterShot_agrees (anchor : Bool) (d : Tick) {s : State} (h : s.seq.stage = .none) :
    ShotAgrees (nextAfterShot anchor d s) := by
  unfold nextAfterShot
  split
  · exact startSchedule_agrees true _ h
  · split
    · exact .inl h
    · split
      · exact placeDue_agrees _ _ h
      · exact .inl h

theorem nextAfterShot_trip_stage {g : Segment} (anchor : Bool) (d : Tick) {s : State} (hl : liveSeg s = some g)
    (hsrc : g.src = .trip) : (nextAfterShot anchor d s).seq.stage = s.seq.stage := by
  cases anchor
  · rw [nextAfterShot_trip hl hsrc]
  · simp [nextAfterShot, startSchedule_trip_stage true _ hl hsrc]

/-- R79: what keeps the rail on in NORMAL for the run of segment `g`. -/
def keepsRail (g : Segment) (s : State) : Bool :=
  match g.src, nextDue s with
  | .timed, some due => decide (due ≤ now s + (s.settings.lm + s.settings.cs + s.settings.pl) * 64)
  | .timed, none => false
  | .trip, _ => decide (s.seq.wait = some .tripWait)

theorem keepsRail_eq {g : Segment} {s : State} (hl : liveSeg s = some g) (hr : s.seq.run = .active)
    (hn : s.power.level = .normal) (ha : ShotAgrees s) (ht : g.src = .trip → s.seq.stage = .none) :
    (tripHold s || !railGoesOff s) = keepsRail g s := by
  rcases hsrc : g.src
  case trip =>
    have hp : pendingShot s = none := by simp [pendingShot, ht hsrc]
    simp [tripHold, railGoesOff, hp, keepsRail, hsrc, hr, hn, hl]
  case timed =>
    have hh : tripHold s = false := by simp [tripHold, hl, hsrc]
    rcases ha with hs | ⟨d, x, hs, hx, rfl⟩
    · simp [hh, railGoesOff, pendingShot, hs, keepsRail, hsrc, nextDue, hn]
    · have hp : pendingShot s = some x := by simp [pendingShot, hs, hx]
      have hd : nextDue s = some x.due := nextDue_of_stage (.inl hs)
      have hadd : now s + s.settings.lm * 64 + (s.settings.cs + s.settings.pl) * 64 =
          now s + (s.settings.lm + s.settings.cs + s.settings.pl) * 64 := by ring
      rcases Nat.lt_or_ge (now s + (s.settings.lm + s.settings.cs + s.settings.pl) * 64) x.due with h | h
      · simp [hh, railGoesOff, hp, lingersOff, hd, keepsRail, hsrc, hn, Config.sixteenthTicks, hadd, h, Nat.not_le.2 h]
      · simp [hh, railGoesOff, hp, lingersOff, hd, keepsRail, hsrc, hn, Config.sixteenthTicks, hadd, h, Nat.not_lt.2 h]

/-- R79 steps 2 to 4: the rail after a shot of a run that goes on. -/
theorem railAfterShot_goesOn {g : Segment} {s : State} (hl : liveSeg s = some g) (hr : s.seq.run = .active)
    (hretry : s.engine.retrying = false) (hc : s.pins.camPwr = true) (ha : ShotAgrees s)
    (ht : g.src = .trip → s.seq.stage = .none) :
    (s.power.level = .thrift → (railAfterShot false false s).pins.camPwr = false ∧
      (railAfterShot false false s).pins.gain = 0 ∧ (railAfterShot false false s).engine.phase = .dormant) ∧
    (s.power.level = .normal → (railAfterShot false false s).pins.camPwr = keepsRail g s ∧
      ((railAfterShot false false s).pins.camPwr = true ↔
        (railAfterShot false false s).engine.phase = .ready ∨ (railAfterShot false false s).engine.phase = .prime)) := by
  refine ⟨fun hn => railAfterShot_off hretry (by simp [tripHold, railGoesOff, hn]), fun hn => ?_⟩
  have hk := keepsRail_eq hl hr hn ha ht
  rcases hkeep : keepsRail g s with _ | _
  · obtain ⟨h1, -, h3⟩ := railAfterShot_off hretry (hk.trans hkeep)
    simp [h1, h3]
  · obtain ⟨h1, h2⟩ := railAfterShot_kept hretry (hk.trans hkeep)
    simp [h1, hc, h2]

end Sys2Proof.Sequencing
end

