-- ==== Sys2Proof/Proofs/AfterAShot.lean ====
section
/-! SUPPORT. The statements about completions: misses, retries and faults (R80 to R83), and the grid, the end of the
segment, a suspension and the rail (R37). -/

namespace Sys2Proof.Sequencing

open Sys2Proof Sys2Proof.Machine

/-! ### Misses (R80, R81, R83) -/

theorem missEnds_completion {l : Live} {x : Shot} {f : Flight} {d : Tick} {s : State} (h : missEnds l x f d s) :
    completion .writeWatchExpiry true l d f s ∧ ¬ completionEndsSegment l s := by
  obtain ⟨-, hst, hl, -, hn, hend, -, ⟨hx, hf⟩, hp, hsy, hlag, hns, hlt⟩ := h
  refine ⟨⟨hst, hl, by simp [hx, hf], rfl, hp, hsy, hlag, hns, hlt⟩, ?_⟩
  rintro (he | ⟨hn0, he⟩)
  · simp [hend] at he
  · exact hn.elim hn0 fun h => h he

/-- R79: with the rail neither off nor in a retry only the measurement of a shot to come may be asked. -/
theorem railAfterShot_plain (s : State) :
    (railAfterShot false false s).engine.retrying = s.engine.retrying ∧
    (railAfterShot false false s).notices = s.notices := by
  simp [railAfterShot]

/-- R80, R81: the completion that begins a camera retry, in a run that goes on with its segment. -/
theorem exec_retry {c : Instr} {miss : Bool} {l : Live} {d : Tick} {f : Flight} {s : State}
    (hc : completion c miss l d f s) (hends : ¬ completionEndsSegment l s) (hsusp : s.seq.suspWaiting = false)
    (hretry : callsRetry miss s) : ∃ x, Counted miss s x ∧
      exec c s = .next (beginRetry { resumed d x with seq := { (resumed d x).seq with
        retryGrid := gridOfRetry d (resumed d x) } }) := by
  obtain ⟨x, hx, hexec⟩ := exec_completed hc
  have hfault : ¬ callsFault miss s := fun ⟨_, _, h1⟩ => by
    obtain ⟨-, -, -, h0⟩ := hretry
    omega
  have hact : (resumed d x).seq.run = .active := by simp [resumed, indexCounted, hx.seq, hretry.2.1]
  refine ⟨x, hx, ?_⟩
  rw [hexec, if_neg hends, decide_eq_false hends, decide_eq_true hretry, decide_eq_false hfault, runGoesOn,
    runSettled_calm hsusp]
  simp only [hact, decide_true, if_true, Bool.false_eq_true, if_false, railAfterShot]

/-- R80, R83: the completion that gives a camera fault, in a run that keeps its segment. -/
theorem exec_fault {c : Instr} {miss : Bool} {l : Live} {d : Tick} {f : Flight} {s : State}
    (hc : completion c miss l d f s) (hends : ¬ completionEndsSegment l s) (hcur : s.seq.current.isSome = true)
    (hfault : callsFault miss s) : ∃ x, Counted miss s x ∧
      exec c s = .next (raise .cameraFault (railOff { indexCounted d x with seq := { (indexCounted d x).seq with
        run := .paused .camera, wait := none, opening := none, suspWaiting := false, anchorWaiting := false } })) := by
  obtain ⟨x, hx, hexec⟩ := exec_completed hc
  have hretry : ¬ callsRetry miss s := fun ⟨_, _, _, h0⟩ => by
    obtain ⟨-, -, h1⟩ := hfault
    omega
  refine ⟨x, hx, ?_⟩
  have hcur' : (indexCounted d x).seq.current.isSome = true := by simp [indexCounted, hx.seq, hcur]
  rw [hexec, if_neg hends, decide_eq_false hends, decide_eq_true hfault, decide_eq_false hretry, runGoesOn]
  rcases runSettled_cases true s.seq.suspWaiting (indexCounted d x) with ⟨-, h⟩ | ⟨hn, -⟩ | ⟨hn, -⟩
  · rw [h]
    simp [railAfterShot]
  · simp [hcur'] at hn
  · simp [hcur'] at hn

/-- Settles O35: the misses by what their completion reports. -/
theorem missesCallRetryAndFault : Obligations.MissesCallRetryAndFault := by
  intro l x f d s h
  obtain ⟨hc, hends⟩ := missEnds_completion h
  obtain ⟨hrun, -, -, hcur, -, -, hsusp, -⟩ := h
  refine ⟨fun h2 h0 => ?_, fun h5 h1 => ?_, fun hbetween => ?_⟩
  · obtain ⟨y, hy, hexec⟩ := exec_retry hc hends hsusp ⟨rfl, hrun, h2, h0⟩
    refine ⟨_, hexec, ?_⟩
    simp [beginRetry, resumed, indexCounted, hy.seq, hrun, hy.misses, hy.retries, h0, Config.retryHoldCycles]
  · obtain ⟨y, hy, hexec⟩ := exec_fault hc hends hcur ⟨rfl, h5, h1⟩
    refine ⟨_, hexec, ?_⟩
    have hmin : min 6 (s.engine.misses + 1) = 6 := by omega
    simp [indexCounted, hy.misses, hy.retries, h1, hmin]
  · have hretry : ¬ callsRetry true s := fun ⟨_, _, h2, h0⟩ => by omega
    have hfault : ¬ callsFault true s := fun ⟨_, h5, h1⟩ => by omega
    obtain ⟨y, hy, hexec⟩ := exec_goesOn hc hrun hends hsusp hretry hfault
    obtain ⟨h1, h2⟩ := railAfterShot_plain (nextAfterShot s.seq.anchorWaiting d (resumed d y))
    refine ⟨_, hexec, ?_, ?_, run_goesOn _ hy hrun, ?_, ?_⟩
    · have hmin : min 6 (s.engine.misses + 1) = s.engine.misses + 1 := by omega
      simp [resumed, indexCounted, hy.misses, hmin]
    · simp [resumed, indexCounted, hy.retries]
    · rw [h1]; simp [resumed, indexCounted, hy.retrying]
    · rw [h2]; simp [resumed, indexCounted, hy.notices]

/-! ### What follows a completion (R37) -/

theorem resumed_stage (d : Tick) (x : State) : (resumed d x).seq.stage = .none := rfl

/-- R40, R41: the first point of the grid later than now, or the opening instant of its window. -/
theorem goesOn_timed {c : Instr} {miss : Bool} {l : Live} {d : Tick} {f : Flight} {s : State}
    (h : completionGoesOn c miss l d f s) (ha : s.seq.anchorWaiting = false) (hsrc : l.seg.src = .timed)
    (k : Nat) (hk : k = gridPoints d (l.seg.iv * 64 * stretch s) (now s)) :
    leadsTo c s fun t =>
      (if windowOpen l.seg.win l.seg.days (d + (k + 1) * (l.seg.iv * 64 * stretch s)) = true then
        t.seq.wait = some .between ∧ nextDue t = some (d + (k + 1) * (l.seg.iv * 64 * stretch s))
      else t.seq.wait = some .closed ∧
        t.seq.opening = nextOpening l.seg.win l.seg.days (d + (k + 1) * (l.seg.iv * 64 * stretch s)) ∧
        nextDue t = nextOpening l.seg.win l.seg.days (d + (k + 1) * (l.seg.iv * 64 * stretch s))) ∧
      t.seq.skip = min 255 (s.seq.skip + (k + 1 - 1)) ∧ t.seq.run = .active ∧ completionCounted d miss s t := by
  obtain ⟨hc, hrun, hends, hsusp, hretry, hfault, -⟩ := h
  obtain ⟨x, hx, hexec⟩ := exec_goesOn hc hrun hends hsusp hretry hfault
  have hcounted := completionCounted_goesOn (d := d) s.seq.anchorWaiting hx
  have hactive := run_goesOn (d := d) s.seq.anchorWaiting hx hrun
  obtain ⟨hgrid, hskip⟩ := nextAfterShot_grid (d := d) (resumed_live d hx hc.2.1) hsrc (resumed_stage d x) k
    (by rw [gridStep_resumed l.seg hx, now_resumed hx, hk])
  rw [gridStep_resumed l.seg hx] at hgrid
  rw [ha] at hexec hcounted hactive
  refine ⟨_, hexec, by simpa using hgrid, ?_, hactive, hcounted⟩
  have hsame : (resumed d x).seq.skip = s.seq.skip := by simp [resumed, indexCounted, hx.seq]
  simpa [hsame] using hskip

/-- R46, R48: a TRIP segment stays in its wait. -/
theorem goesOn_trip {c : Instr} {miss : Bool} {l : Live} {d : Tick} {f : Flight} {s : State}
    (h : completionGoesOn c miss l d f s) (ha : s.seq.anchorWaiting = false) (hsrc : l.seg.src = .trip) :
    leadsTo c s fun t =>
      t.seq.wait = s.seq.wait ∧ t.seq.opening = s.seq.opening ∧ t.seq.stage = .none ∧ t.seq.skip = s.seq.skip ∧
        t.seq.run = .active ∧ completionCounted d miss s t := by
  obtain ⟨hc, hrun, hends, hsusp, hretry, hfault, -⟩ := h
  obtain ⟨x, hx, hexec⟩ := exec_goesOn hc hrun hends hsusp hretry hfault
  have hcounted := completionCounted_goesOn (d := d) s.seq.anchorWaiting hx
  have hactive := run_goesOn (d := d) s.seq.anchorWaiting hx hrun
  rw [ha, nextAfterShot_trip (resumed_live d hx hc.2.1) hsrc] at hexec hcounted hactive
  refine ⟨_, hexec, ?_, ?_, ?_, ?_, hactive, hcounted⟩ <;> simp [resumed, indexCounted, hx.seq]

/-- R42: a re-anchor that waited is made from now. -/
theorem goesOn_anchor {c : Instr} {miss : Bool} {l : Live} {d : Tick} {f : Flight} {s : State}
    (h : completionGoesOn c miss l d f s) (ha : s.seq.anchorWaiting = true) :
    leadsTo c s fun t =>
      scheduledAt l.seg (now s + completionPreparation s) s t ∧ t.seq.skip = s.seq.skip ∧ t.seq.run = .active ∧
        completionCounted d miss s t := by
  obtain ⟨hc, hrun, hends, hsusp, hretry, hfault, hcalm⟩ := h
  obtain ⟨x, hx, hexec⟩ := exec_goesOn hc hrun hends hsusp hretry hfault
  have hcounted := completionCounted_goesOn (d := d) s.seq.anchorWaiting hx
  have hactive := run_goesOn (d := d) s.seq.anchorWaiting hx hrun
  have hanchor : nextAfterShot true d (resumed d x) = startSchedule true (now (resumed d x)) (resumed d x) := rfl
  rw [ha, hanchor] at hexec hcounted hactive
  have hspec := startSchedule_spec true (now (resumed d x)) (resumed_live d hx hc.2.1)
    (hx.retrying.trans hcalm) (resumed_stage d x)
  rw [now_resumed hx, prepTicks_completion hx, max_eq_right (Nat.le_add_right _ _)] at hspec
  refine ⟨_, hexec, ?_, ?_, hactive, hcounted⟩
  · rw [now_resumed hx]
    exact scheduledAt_congr hspec hx.cal.symm (by simp) (by simp) (by simp) (by simp)
  · simp [resumed, indexCounted, hx.seq]

/-- R79 steps 2 to 4: the rail after the shot. -/
theorem goesOn_rail {c : Instr} {miss : Bool} {l : Live} {d : Tick} {f : Flight} {s : State}
    (h : completionGoesOn c miss l d f s) (hcam : s.pins.camPwr = true) :
    leadsTo c s fun t =>
      (s.power.level = .thrift → t.pins.camPwr = false ∧ t.pins.gain = 0 ∧ t.engine.phase = .dormant) ∧
      (s.power.level = .normal → (t.pins.camPwr = match l.seg.src, nextDue t with
          | .timed, some due => decide (due ≤ now s + (s.settings.lm + s.settings.cs + s.settings.pl) * 64)
          | .timed, none => false
          | .trip, _ => decide (t.seq.wait = some .tripWait)) ∧
        (t.pins.camPwr = true ↔ t.engine.phase = .ready ∨ t.engine.phase = .prime)) := by
  obtain ⟨hc, hrun, hends, hsusp, hretry, hfault, hcalm⟩ := h
  obtain ⟨x, hx, hexec⟩ := exec_goesOn hc hrun hends hsusp hretry hfault
  have hlive := resumed_live d hx hc.2.1
  have hrail := railAfterShot_goesOn (g := l.seg) (s := nextAfterShot s.seq.anchorWaiting d (resumed d x))
    (by simpa [liveSeg] using hlive) (by simp [resumed, indexCounted, hx.seq, hrun])
    (by simp [resumed, indexCounted, hx.retrying, hcalm]) (by simp [resumed, indexCounted, hx.camPwr, hcam])
    (nextAfterShot_agrees _ d (resumed_stage d x)) (fun hs => nextAfterShot_trip_stage _ d hlive hs)
  have hpower : (nextAfterShot s.seq.anchorWaiting d (resumed d x)).power = s.power := by
    simp [resumed, indexCounted, hx.power]
  have hset : (nextAfterShot s.seq.anchorWaiting d (resumed d x)).settings = s.settings := by
    simp [resumed, indexCounted, hx.settings]
  have hnow : now (nextAfterShot s.seq.anchorWaiting d (resumed d x)) = now s := now_congr (by
    simp [resumed, indexCounted, hx.cal])
  rw [hpower, keepsRail, hset, hnow] at hrail
  refine ⟨_, hexec, hrail.1, fun hn => ⟨(hrail.2 hn).1.trans ?_, (hrail.2 hn).2⟩⟩
  rcases hsrc : l.seg.src
  · have hd := (railAfterShot_stage false false (nextAfterShot s.seq.anchorWaiting d (resumed d x))).1
    rw [hd]
    rcases nextDue (nextAfterShot s.seq.anchorWaiting d (resumed d x)) <;> rfl
  · simp

/-- R37 step 4, R43, R83: a completion after which the run is not ACTIVE, its segment standing. -/
theorem completion_halts {c : Instr} {miss : Bool} {l : Live} {d : Tick} {f : Flight} {s : State}
    (hc : completion c miss l d f s) (hends : ¬ completionEndsSegment l s) (hcur : s.seq.current.isSome = true)
    (hcalm : s.engine.retrying = false) (hrun : runAfterCompletion miss s ≠ .active) :
    leadsTo c s fun t =>
      t.seq.run = runAfterCompletion miss s ∧ t.seq.stage = .none ∧
        (s.seq.run = .active ∨ s.seq.wait = none → t.seq.wait = none) ∧ t.seq.skip = s.seq.skip ∧
        t.pins.camPwr = false ∧ t.pins.gain = 0 ∧ t.engine.phase = .dormant ∧ completionCounted d miss s t := by
  obtain ⟨x, hx, hexec⟩ := exec_completed hc
  have hsettled := runSettled_run (miss := miss) (s := s) (y := indexCounted d x)
    (by simp [indexCounted, hx.seq, hcur]) (by simp [indexCounted, hx.seq])
  have hwait : s.seq.run = .active ∨ s.seq.wait = none →
      (runSettled (decide (callsFault miss s)) s.seq.suspWaiting (indexCounted d x)).seq.wait = none := fun hw =>
    runSettled_wait (by rw [hsettled]; exact hrun) (by simpa [indexCounted, hx.seq] using hw)
  rw [if_neg hends, runGoesOn] at hexec
  simp only [hsettled, hrun, decide_false, Bool.false_eq_true, if_false] at hexec
  obtain ⟨h1, h2, h3⟩ := railAfterShot_idle (retry := decide (callsRetry miss s)) (fault := decide (callsFault miss s))
    (s := runSettled (decide (callsFault miss s)) s.seq.suspWaiting (indexCounted d x))
    (by simp [indexCounted, hx.retrying, hcalm]) (by simp [indexCounted]) (by rw [hsettled]; exact hrun)
  refine ⟨_, hexec, (railAfterShot_runFrame _ _ _).1.trans hsettled, by simp [indexCounted],
    fun hw => by simpa using hwait hw,
    by simp [indexCounted, hx.seq], h1, h2, h3, completionCounted_of hx ?_ ?_ ?_⟩ <;> simp [indexCounted]

/-! ### A completion that ends the segment (R37 steps 2 and 3) -/

/-- R37 steps 3 to 6, the segment ended: only a retry's grid is dropped besides. -/
theorem runGoesOn_ended (retry fault susp anchor : Bool) (d : Tick) (s : State) :
    ∃ g, runGoesOn retry fault susp anchor true d s =
      { runSettled fault susp s with seq := { (runSettled fault susp s).seq with retryGrid := g } } := by
  by_cases hr : (runSettled fault susp s).seq.run = .active
  · cases retry
    · have h : runGoesOn false fault susp anchor true d s = runSettled fault susp s := by
        simp only [runGoesOn, hr, decide_true, if_true, Bool.false_eq_true, if_false]
      exact ⟨(runSettled fault susp s).seq.retryGrid, h⟩
    · exact ⟨none, by simp only [runGoesOn, hr, decide_true, if_true]⟩
  · have h : runGoesOn retry fault susp anchor true d s = runSettled fault susp s := by
      simp only [runGoesOn, hr, decide_false, Bool.false_eq_true, if_false]
    exact ⟨(runSettled fault susp s).seq.retryGrid, h⟩

/-- A completion of the segment of `l` that ends it, by what it goes on with after the handoffs. -/
def afterEnd (retry fault susp anchor : Bool) (d : Tick) (s : State) : State :=
  railAfterShot retry fault (runGoesOn retry fault susp anchor true d s)

theorem afterEnd_notices (retry fault susp anchor : Bool) (d : Tick) (s : State) {k : Notice} (h : k ∈ endNotices) :
    k ∈ (afterEnd retry fault susp anchor d s).notices ↔ k ∈ s.notices := by
  obtain ⟨g, hg⟩ := runGoesOn_ended retry fault susp anchor d s
  rw [afterEnd, railAfterShot_notices h, hg]
  simp

/-- A run that has ended stays so. -/
theorem afterEnd_endedIn (retry fault susp anchor : Bool) (d : Tick) {r : RunState} {s : State}
    (hr : hasSegment r = false) (h : runEndedIn r s) : runEndedIn r (afterEnd retry fault susp anchor d s) := by
  obtain ⟨hrun, hcur, harm, hlive⟩ := h
  obtain ⟨g, hg⟩ := runGoesOn_ended retry fault susp anchor d s
  have hne : s.seq.run ≠ .active := fun ha => by simp [← hrun, ha, hasSegment] at hr
  have hcalm : runSettled fault susp s = { s with seq := { s.seq with suspWaiting := false, anchorWaiting := false } } := by
    rcases runSettled_cases fault susp s with ⟨hf, -⟩ | ⟨-, hs, -⟩ | ⟨-, -, h⟩
    · simp [hcur] at hf
    · simp [hne] at hs
    · exact h
  simp [afterEnd, hg, hcalm, runEndedIn, hrun, hcur, harm, hlive]

theorem exec_ends {c : Instr} {miss : Bool} {l : Live} {d : Tick} {f : Flight} {s : State}
    (hc : completion c miss l d f s) (hends : completionEndsSegment l s) : ∃ x, Counted miss s x ∧
      exec c s = .next (afterEnd (decide (callsRetry miss s)) (decide (callsFault miss s)) s.seq.suspWaiting
        s.seq.anchorWaiting d
        (endSegment (decide (callsRetry miss s) || decide (callsFault miss s) || s.seq.suspWaiting) true
          (handoffsLeft (indexCounted d x)) (indexCounted d x))) := by
  obtain ⟨x, hx, hexec⟩ := exec_completed hc
  rw [if_pos hends, decide_eq_true hends] at hexec
  exact ⟨x, hx, hexec⟩

theorem nextDue_congr {s t : State} (h : t.seq.stage = s.seq.stage) : nextDue t = nextDue s := by
  simp only [nextDue, h]

theorem afterEnd_seq (retry fault susp anchor : Bool) (d : Tick) (s : State) :
    (afterEnd retry fault susp anchor d s).seq.run = (runSettled fault susp s).seq.run ∧
    (afterEnd retry fault susp anchor d s).seq.current = s.seq.current ∧
    (afterEnd retry fault susp anchor d s).seq.live = s.seq.live ∧
    (afterEnd retry fault susp anchor d s).seq.armed = s.seq.armed ∧
    (afterEnd retry fault susp anchor d s).seq.shotIndex = s.seq.shotIndex ∧
    (afterEnd retry fault susp anchor d s).seq.lastDue = s.seq.lastDue ∧
    (afterEnd retry fault susp anchor d s).seq.skip = s.seq.skip ∧
    (afterEnd retry fault susp anchor d s).seq.ignored = s.seq.ignored ∧
    (afterEnd retry fault susp anchor d s).seq.edges = s.seq.edges ∧
    (afterEnd retry fault susp anchor d s).seq.handoffs = s.seq.handoffs ∧
    (afterEnd retry fault susp anchor d s).seq.wait = (runSettled fault susp s).seq.wait ∧
    (afterEnd retry fault susp anchor d s).seq.opening = (runSettled fault susp s).seq.opening := by
  obtain ⟨g, hg⟩ := runGoesOn_ended retry fault susp anchor d s
  simp [afterEnd, hg]

theorem afterEnd_stage (retry fault susp anchor : Bool) (d : Tick) (s : State) :
    nextDue (afterEnd retry fault susp anchor d s) = nextDue s ∧
    ((afterEnd retry fault susp anchor d s).seq.stage = .none ↔ s.seq.stage = .none) := by
  obtain ⟨g, hg⟩ := runGoesOn_ended retry fault susp anchor d s
  have hstage : (runGoesOn retry fault susp anchor true d s).seq.stage = s.seq.stage := by simp [hg]
  obtain ⟨hdue, hnone, -⟩ := railAfterShot_stage retry fault (runGoesOn retry fault susp anchor true d s)
  exact ⟨hdue.trans (nextDue_congr hstage), by rw [afterEnd, hnone, hstage]⟩

/-- R81: a retry that begins after the handoff. -/
theorem afterEnd_retrying (fault susp anchor : Bool) (d : Tick) {s : State}
    (h : (runSettled fault susp s).seq.run = .active) : (afterEnd true fault susp anchor d s).engine.retrying = true := by
  obtain ⟨g, hg⟩ := runGoesOn_ended true fault susp anchor d s
  simp only [afterEnd, hg, railAfterShot, h, if_true]
  rfl

/-- A schedule held back, or a run that is not ACTIVE, gives the segment no shot. -/
theorem beginSegment_stage_none {hold b : Bool} {s : State} (hs : s.seq.stage = .none)
    (h : hold = true ∨ s.seq.run ≠ .active) : (beginSegment hold b s).seq.stage = .none := by
  by_cases hr : s.seq.run = .active
  · simp [beginSegment, hr, h.resolve_right (not_not_intro hr), hs]
  · rw [beginSegment_inactive _ _ hr, hs]

theorem runAfterCompletion_active {miss : Bool} {s : State} (h : runAfterCompletion miss s = .active) :
    s.seq.run = .active ∧ ¬ callsFault miss s ∧ s.seq.suspWaiting = false := by
  unfold runAfterCompletion at h
  split at h
  · cases h
  · next hf =>
    split at h
    · cases h
    · next hs => exact ⟨h, hf, by simpa [h] using hs⟩

/-- R35, R37 steps 2 to 5: what the segment handed to by a completion is left with. -/
theorem afterEnd_handedTo {miss : Bool} {m k : Nat} {g : Segment} {d : Tick} {s x y : State} (hx : Counted miss s x)
    (hy : HandedOver m g k (indexCounted d x) y) (hfly : s.seq.stage ≠ .none) :
    handedTo m g k s s (now s + completionPreparation s) (runAfterCompletion miss s) (callsRetry miss s)
      (afterEnd (decide (callsRetry miss s)) (decide (callsFault miss s)) s.seq.suspWaiting s.seq.anchorWaiting d
        (beginSegment (decide (callsRetry miss s) || decide (callsFault miss s) || s.seq.suspWaiting) true y)) := by
  generalize hhold : (decide (callsRetry miss s) || decide (callsFault miss s) || s.seq.suspWaiting) = hold
  obtain ⟨q1, q2, q3, q4, q5, q6, q7, q8, q9, q10, q11, q12⟩ :=
    afterEnd_seq (decide (callsRetry miss s)) (decide (callsFault miss s)) s.seq.suspWaiting s.seq.anchorWaiting d
      (beginSegment hold true y)
  obtain ⟨q13, q14⟩ :=
    afterEnd_stage (decide (callsRetry miss s)) (decide (callsFault miss s)) s.seq.suspWaiting s.seq.anchorWaiting d
      (beginSegment hold true y)
  have hyrun : y.seq.run = s.seq.run := by rw [hy.run]; simp [indexCounted, hx.seq]
  have hcal : y.cal = s.cal := by rw [hy.cal]; exact hx.cal
  have hsettled := runSettled_run (miss := miss) (s := s) (y := beginSegment hold true y)
    (by simp [hy.made.1]) (by simp [hyrun])
  refine ⟨?_, q1.trans hsettled, ?_, ?_, fun hne => ⟨?_, ?_⟩, fun hr hheld => ?_, fun hr hheld hsound => ?_⟩
  · exact madeCurrent_congr (madeCurrent_beginSegment hold true hy.made) hx.plan.symm
      (by rw [show (indexCounted d x).notices = s.notices from hx.notices]) ⟨q2, q3, q4, q5, q6, q7, q8, q9⟩
      (afterEnd_notices _ _ _ _ d _ (by decide))
  · rw [q10, (beginSegment_seqFrame hold true y).2.2.2.1, hy.handoffs]
    simp [indexCounted, hx.seq]
  · exact (afterEnd_notices _ _ _ _ d _ (by decide)).2 (by simpa using hy.segmentEnd)
  · refine q14.2 (beginSegment_stage_none hy.stage ?_)
    by_contra hcon
    obtain ⟨h1, h2⟩ := not_or.1 hcon
    refine hne ?_
    simp only [Bool.not_eq_true] at h1
    rw [h1] at hhold
    obtain ⟨hrf, hs⟩ := Bool.or_eq_false_iff.1 hhold
    obtain ⟨-, hf⟩ := Bool.or_eq_false_iff.1 hrf
    rw [runAfterCompletion, if_neg (of_decide_eq_false hf), if_neg (by simp [hs])]
    exact hyrun.symm.trans (not_not.1 h2)
  · rw [q11]
    refine runSettled_wait (by rw [hsettled]; exact hne) ?_
    by_cases ha : y.seq.run = .active
    · exact .inl (by simpa using ha)
    · exact .inr (by rw [beginSegment_inactive _ _ ha, hy.wait])
  · have hact := hsettled.trans hr
    have hhold' : hold = true := by rw [← hhold, decide_eq_true hheld]; rfl
    obtain ⟨hzrun, hcalm⟩ := runSettled_active hact
    have hyact : y.seq.run = .active := by simpa using hzrun
    rw [hcalm] at q11 q12
    have hz := beginSegment_held (hold := hold) true hy.live hyact (.inl hhold')
    refine ⟨?_, q14.2 (beginSegment_stage_none hy.stage (.inl hhold')), ?_⟩
    · rw [decide_eq_true hheld]
      exact afterEnd_retrying _ _ _ d hact
    · refine waitsUnscheduled_congr (waitUnscheduled_spec g y) (by rw [hcal]) (now_congr hcal.symm) ?_ ?_
      · rw [q11, ← hz]
      · rw [q12, ← hz]
  · obtain ⟨hact, hfault, hsusp⟩ := runAfterCompletion_active hr
    have hhold' : hold = false := by
      rw [← hhold, decide_eq_false hheld, decide_eq_false hfault, hsusp]; rfl
    obtain ⟨-, hcalm⟩ := runSettled_active (hsettled.trans hr)
    rw [hcalm] at q11 q12
    have hretry : y.engine.retrying = false := by
      rw [hy.engine, show (indexCounted d x).engine.retrying = s.engine.retrying from hx.retrying]
      exact Bool.eq_false_iff.2 fun h => hfly (engineSound_retrying (hsound.resolve_left hfly) h)
    have hsched := beginSegment_scheduled (s := y) true hy.live (hyrun.trans hact) hretry hy.stage
    have hprep : prepTicks true y = completionPreparation s :=
      (prepTicks_congr (s := resumed d x) true hy.engine hy.power hy.settings).trans (prepTicks_completion hx)
    rw [hprep, now_congr hcal, ← hhold'] at hsched
    exact scheduledAt_congr hsched hcal.symm q11 q12 q13 q14.2

/-- Settles O37: a completion by its report: the run that goes on, the segment that ends, the run that is halted. -/
theorem completionFollowsGrid : Obligations.CompletionFollowsGrid := by
  refine ⟨fun c miss l d f s h => ⟨fun ha hsrc hiv hst => ?_, goesOn_trip h, goesOn_anchor h, goesOn_rail h⟩,
    fun c miss l d f s hc hends => ?_, fun c miss l d f s hc hends _ hcur hcalm hrun =>
      completion_halts hc hends hcur hcalm hrun⟩
  · have hstretch : 0 < stretch s := by unfold stretch; split <;> omega
    have hstep : 0 < l.seg.iv * 64 * stretch s := Nat.mul_pos (Nat.mul_pos hiv (by decide)) hstretch
    obtain ⟨hlater, hearlier⟩ := gridPoints_next (d := d) (x := now s) hstep
    exact ⟨_, Nat.le_add_left 1 _, hlater, hearlier, goesOn_timed h ha hsrc _ rfl⟩
  · obtain ⟨x, hx, hexec⟩ := exec_ends hc hends
    exact endsSegment_intro hexec (by simpa [indexCounted, hx.seq] using hc.2.1) (by simp [indexCounted, hx.seq])
      (by simp [indexCounted, hx.plan]) (by simp [indexCounted, hx.notices]) (by simp [indexCounted, hx.seq])
      (by simp [indexCounted, hx.cal]) (by simp [indexCounted, hx.cal]) (fun y k hk => afterEnd_notices _ _ _ _ d y hk)
      (fun r y hr h => afterEnd_endedIn _ _ _ _ d hr h)
      (fun m g k y hy => afterEnd_handedTo hx hy (by simp [hc.1]))

end Sys2Proof.Sequencing
end

