-- ==== Sys2Proof/Proofs/SpecialSettings.lean ====
section
/-! SUPPORT. SET (R136, R138, R170, R180): the fields that are read, applied and answered, and a line refused. -/

namespace Sys2Proof.Sequencing

open Sys2Proof Sys2Proof.Machine

/-! ### The line (R170) -/

theorem exec_set {args : List Token} {s : State} (hf : LinkFree s) :
    exec (.set args) s = .next ((ownSet args s).1.answering (ownSet args s).2) :=
  exec_line (v := .set) (p := ownSet args s) hf rfl rfl

theorem readSets_cons {k : SetKey} {u : Text} {v : SetValue} {seen : List SetKey} {ts : List Token}
    {rest : List (SetKey × SetValue)} (hk : seen.contains k = false) (hv : readSetValue k u = some v)
    (hts : readSets (k :: seen) ts = .ok rest) : readSets seen ((k.text ++ '=' :: u) :: ts) = .ok ((k, v) :: rest) := by
  have hcut : cutAt '=' (k.text ++ '=' :: u) = some (k.text, u) := cutAt_fieldText (setKey_noEquals k)
  simp only [readSets, hcut, readSetKey_text, hk, hv, hts]
  rfl

theorem readSets_one {k : SetKey} {u : Text} {v : SetValue} (hv : readSetValue k u = some v) :
    readSets [] [k.text ++ '=' :: u] = .ok [(k, v)] := readSets_cons rfl hv rfl

theorem readSets_two {k j : SetKey} {u w : Text} {v x : SetValue} (hkj : k ≠ j) (hv : readSetValue k u = some v)
    (hx : readSetValue j w = some x) :
    readSets [] [k.text ++ '=' :: u, j.text ++ '=' :: w] = .ok [(k, v), (j, x)] :=
  readSets_cons rfl hv (readSets_cons (by simpa using hkj.symm) hx rfl)

/-- What SET says of a VR that a VT has moved (R136). -/
def movedField (fields : List (SetKey × SetValue)) (s : State) : List Text :=
  if reserveMoved fields s.settings then [settingField (applySets fields s).1.settings .vr] else []

/-- R170: an accepted line. -/
theorem exec_set_ok {args : List Token} {fields : List (SetKey × SetValue)} {s : State} (hf : LinkFree s)
    (hne : args ≠ []) (hr : readSets [] args = .ok fields) : exec (.set args) s =
      .next ((applySets fields s).1.answering (okLine .set ((applySets fields s).2 ++ movedField fields s))) := by
  rw [exec_set hf]
  simp only [ownSet, if_neg hne, hr, movedField]

/-- R170: one field. -/
theorem exec_set_one {k : SetKey} {u : Text} {v : SetValue} {s : State} (hf : LinkFree s)
    (hv : readSetValue k u = some v) : exec (.set [k.text ++ '=' :: u]) s =
      .next ((applySetting (k, v) s).answering
        (okLine .set (settingField (applySetting (k, v) s).settings k :: movedField [(k, v)] s))) :=
  exec_set_ok hf (by simp) (readSets_one hv)

/-- R170: two fields, applied from left to right. -/
theorem exec_set_two {k j : SetKey} {u w : Text} {v x : SetValue} {s : State} (hf : LinkFree s) (hkj : k ≠ j)
    (hv : readSetValue k u = some v) (hx : readSetValue j w = some x) :
    exec (.set [k.text ++ '=' :: u, j.text ++ '=' :: w]) s =
      .next ((applySetting (j, x) (applySetting (k, v) s)).answering
        (okLine .set (settingField (applySetting (k, v) s).settings k ::
          settingField (applySetting (j, x) (applySetting (k, v) s)).settings j :: movedField [(k, v), (j, x)] s))) :=
  exec_set_ok hf (by simp) (readSets_two hkj hv hx)

/-- R170: a line at fault. -/
theorem exec_set_refused {args : List Token} {key : Option Text} {s : State} (hf : LinkFree s) (hne : args ≠ [])
    (hr : readSets [] args = .error key) : exec (.set args) s = .next (s.answering [refusal .malformed .set key]) := by
  rw [exec_set hf]
  simp only [ownSet, if_neg hne, hr, refuse]

theorem readSetValue_num {k : SetKey} {v : Int} (hv : v.natAbs < 10 ^ 10) (hk : k ≠ .sy ∧ k ≠ .te ∧ k ≠ .atOn ∧ k ≠ .ar) :
    readSetValue k (intText v) = some (.num v) := by
  obtain ⟨h1, h2, h3, h4⟩ := hk
  cases k <;> simp_all [readSetValue, readNumber_intText hv]

/-! ### VT and VR (R136) -/

theorem clampNat_eq {lo hi n : Nat} {v : Int} (h : (n : Int) = max (lo : Int) (min (hi : Int) v)) :
    clampNat lo hi v = n := by
  simp only [clampNat, clampInt, ← h, Int.toNat_natCast]

theorem applySetting_vt {vt : Nat} {v : Int} (s : State) (h : (vt : Int) = max 3000 (min 4500 v)) :
    applySetting (.vt, .num v) s =
      withSettings { s.settings with vt := vt, vr := min s.settings.vr (vt - 50) } s := by
  simp [applySetting, settingActs, takeSetting, capReserve, clampNat_eq (lo := 3000) (hi := 4500) h, withSettings,
    Config.thresholdGap]

theorem applySetting_vr {vr : Nat} {w : Int} (s : State) (h : (vr : Int) = max 2800 (min 4400 w)) :
    applySetting (.vr, .num w) s = withSettings { s.settings with vr := min vr (s.settings.vt - 50) } s := by
  simp [applySetting, settingActs, takeSetting, capReserve, clampNat_eq (lo := 2800) (hi := 4400) h, withSettings,
    Config.thresholdGap]

/-- R136: only a VT moves VR. -/
theorem movedField_calm {fields : List (SetKey × SetValue)} (s : State) (h : ∀ p ∈ fields, p.1 ≠ .vt) :
    movedField fields s = [] := by
  have hm : ∀ c, reserveMoved fields c = false := by
    induction fields with
    | nil => intro c; rfl
    | cons p ps ih =>
      intro c
      have hp : p.1 ≠ .vt := h p (by simp)
      simp [reserveMoved, movesReserve, hp, ih fun q hq => h q (by simp [hq])]
  simp [movedField, hm]

/-- R136: a VT that moves VR says so. -/
theorem movedField_vt {vt : Nat} {v : Int} (s : State) (h : (vt : Int) = max 3000 (min 4500 v)) :
    movedField [(.vt, .num v)] s =
      if vt - 50 < s.settings.vr then ["VR=".toList ++ natText (vt - 50)] else [] := by
  have hset : takeSetting .vt (.num v) s.settings = { s.settings with vt := vt, vr := min s.settings.vr (vt - 50) } :=
    congrArg State.settings (applySetting_vt s h)
  have hmoves : reserveMoved [(.vt, .num v)] s.settings = decide (vt - 50 < s.settings.vr) := by
    rw [Bool.eq_iff_iff]
    simp only [reserveMoved, movesReserve, hset]
    simp
  have happly : (applySets [(.vt, .num v)] s).1 = applySetting (.vt, .num v) s := rfl
  rw [movedField, hmoves, happly, applySetting_vt s h]
  by_cases hlt : vt - 50 < s.settings.vr
  · have hmin : min s.settings.vr (vt - 50) = vt - 50 := by omega
    simp [hlt, settingField, settingText, hmin, fieldText, SetKey.text, SetKey.word]
  · simp [hlt]

/-- R136: a VR given later on the line is answered as given. -/
theorem movedField_vt_vr (v w : SetValue) (s : State) : movedField [(.vt, v), (.vr, w)] s = [] := by
  simp [movedField, reserveMoved, movesReserve]

/-- An owner's reply lines, written as the statement writes them. -/
theorem answering_congr {s : State} {r r' : List Text} (h : r = r') :
    (.next (s.answering r) : Out) = .next (s.answering r') := by rw [h]

theorem exec_set_vt {vt : Nat} {v : Int} {s : State} (hf : LinkFree s) (hv : v.natAbs < 10 ^ 10)
    (h : (vt : Int) = max 3000 (min 4500 v)) : exec (.set ["VT=".toList ++ intText v]) s = .next
      ((withSettings { s.settings with vt := vt, vr := min s.settings.vr (vt - 50) } s).answering
        ["=SET VT=".toList ++ natText vt ++
          (if vt - 50 < s.settings.vr then " VR=".toList ++ natText (vt - 50) else [])]) := by
  have hexec := exec_set_one (k := .vt) hf (readSetValue_num hv (by decide))
  rw [movedField_vt s h, applySetting_vt s h] at hexec
  refine hexec.trans (answering_congr ?_)
  split <;>
    simp [okLine, success, joinWith, settingField, settingText, fieldText, Verb.text, Verb.word, SetKey.text, SetKey.word]

theorem exec_set_vt_vr {vt vr : Nat} {v w : Int} {s : State} (hf : LinkFree s) (hv : v.natAbs < 10 ^ 10)
    (hw : w.natAbs < 10 ^ 10) (h : (vt : Int) = max 3000 (min 4500 v)) (h' : (vr : Int) = max 2800 (min 4400 w)) :
    exec (.set ["VT=".toList ++ intText v, "VR=".toList ++ intText w]) s = .next
      ((withSettings { s.settings with vt := vt, vr := min vr (vt - 50) } s).answering
        ["=SET VT=".toList ++ natText vt ++ " VR=".toList ++ natText (min vr (vt - 50))]) := by
  have hexec := exec_set_two (k := .vt) (j := .vr) hf (by decide) (readSetValue_num hv (by decide))
    (readSetValue_num hw (by decide))
  rw [movedField_vt_vr, applySetting_vt s h, applySetting_vr _ h'] at hexec
  refine hexec.trans (answering_congr ?_)
  simp [okLine, success, joinWith, settingField, settingText, fieldText, Verb.text, Verb.word, SetKey.text, SetKey.word]

theorem exec_set_vr {vr : Nat} {v : Int} {s : State} (hf : LinkFree s) (hv : v.natAbs < 10 ^ 10)
    (h : (vr : Int) = max 2800 (min 4400 v)) : exec (.set ["VR=".toList ++ intText v]) s = .next
      ((withSettings { s.settings with vr := min vr (s.settings.vt - 50) } s).answering
        ["=SET VR=".toList ++ natText (min vr (s.settings.vt - 50))]) := by
  have hexec := exec_set_one (k := .vr) hf (readSetValue_num hv (by decide))
  rw [movedField_calm s (by simp), applySetting_vr s h] at hexec
  exact hexec

/-! ### ST (R43, R138) -/

/-- R138: the factor in force stands. -/
theorem applySetting_st_calm {v : Int} {s : State} (h : s.power.level ≠ .thrift ∨ stretchOf v = s.settings.st) :
    applySetting (.st, .num v) s = withSettings { s.settings with st := stretchOf v } s := by
  have hn : ¬ (s.power.level = .thrift ∧ stretchOf v ≠ s.settings.st ∧
      (restretched (withSettings { s.settings with st := stretchOf v } s)).isSome = true) :=
    fun ⟨h1, h2, _⟩ => h.elim (fun h => h h1) h2
  exact if_neg hn

theorem exec_set_st {v : Int} {s : State} (hf : LinkFree s) (hv : v.natAbs < 10 ^ 10) :
    exec (.set ["ST=".toList ++ intText v]) s = .next ((applySetting (.st, .num v) s).answering
      ["=SET ST=".toList ++ natText (applySetting (.st, .num v) s).settings.st]) := by
  have hexec := exec_set_one (k := .st) hf (readSetValue_num hv (by decide))
  rw [movedField_calm s (by simp)] at hexec
  exact hexec

theorem restretched_some {l : Live} {y : Shot} {s : State} (hr : s.seq.run = .active) (hw : s.seq.wait = some .between)
    (hl : s.seq.live = some l) (hsrc : l.seg.src = .timed) (hp : pendingShot s = some y) :
    restretched s = some l.seg := by
  obtain ⟨d, hd⟩ := pendingShot_stage hp
  simp [restretched, hd, liveSeg_of_live hl, hr, hw, hsrc]

theorem withdrawShot_stage {d : Tick} {s : State} (h : s.seq.stage = .pending d) :
    (withdrawShot s).seq.stage = .none := by
  simp [withdrawShot, h]

/-- R43: the pending shot of a grid is re-anchored to the last due time plus the step, or to now. -/
theorem stretchChange_scheduled {l : Live} {y : Shot} {s : State} (hr : s.seq.run = .active)
    (hw : s.seq.wait = some .between) (hl : s.seq.live = some l) (hsrc : l.seg.src = .timed)
    (hp : pendingShot s = some y) (hcalm : s.engine.retrying = false) :
    scheduledAt l.seg (max (s.seq.lastDue.elim (now s) (· + gridStep l.seg s)) (now s + preparation s)) s
      (stretchChange s) := by
  obtain ⟨d, hd⟩ := pendingShot_stage hp
  have hlive : liveSeg (withdrawShot s) = some l.seg := liveSeg_of_live (by simpa using hl)
  have hnow : now (withdrawShot s) = now s := now_congr (by simp)
  have hprep : prepTicks false (withdrawShot s) = preparation s := by
    rw [prepTicks_eq]
    simp [preparation, withdrawShot, hd]
  have hsched : ∀ target,
      scheduledAt l.seg (max target (now s + preparation s)) s (startSchedule false target (withdrawShot s)) := by
    intro target
    have hspec := startSchedule_spec (s := withdrawShot s) false target hlive (by simpa using hcalm)
      (withdrawShot_stage hd)
    rw [hnow, hprep] at hspec
    exact scheduledAt_congr hspec (by simp) rfl rfl rfl id
  have hst := restretched_some hr hw hl hsrc hp
  rcases hx : s.seq.lastDue with _ | x
  · have hc : stretchChange s = startSchedule false (now s) (withdrawShot s) := by simp only [stretchChange, hst, hx]
    rw [hc]
    exact hsched _
  · have hc : stretchChange s = startSchedule false (x + gridStep l.seg s) (withdrawShot s) := by
      simp only [stretchChange, hst, hx]
    rw [hc]
    exact hsched _

/-- R138: SET ST in THRIFT is a change of the factor in force. -/
theorem applySetting_st_thrift {v : Int} {l : Live} {y : Shot} {s : State} (ht : s.power.level = .thrift)
    (hne : stretchOf v ≠ s.settings.st) (hr : s.seq.run = .active) (hw : s.seq.wait = some .between)
    (hl : s.seq.live = some l) (hsrc : l.seg.src = .timed) (hp : pendingShot s = some y) :
    applySetting (.st, .num v) s =
      afterReplan (stretchChange (withSettings { s.settings with st := stretchOf v } s)) := by
  have hst : (restretched (withSettings { s.settings with st := stretchOf v } s)).isSome = true := by
    rw [restretched_some (s := withSettings { s.settings with st := stretchOf v } s) hr hw hl hsrc hp]
    rfl
  exact if_pos ⟨ht, hne, hst⟩

/-! ### Words and refusals -/

theorem applySetting_at (v : Bool) (s : State) : applySetting (.atOn, .attention v) s =
    withSettings { s.settings with atOn := v }
      { s with pins := { s.pins with attn := !s.notices.isEmpty && v } } := rfl

theorem readSetValue_ar {v : Int} (hv : v.natAbs < 10 ^ 10) : readSetValue .ar (intText v) = some (.num v) := by
  have hoff : intText v ≠ "OFF".toList := by
    intro h
    have hnone : readNumber "OFF".toList = none := by decide
    have hread := readNumber_intText hv
    rw [h, hnone] at hread
    cases hread
  simp only [readSetValue, if_neg hoff, readNumber_intText hv, Option.map_some]

theorem exec_set_ar {n : Nat} {v : Int} {s : State} (hf : LinkFree s) (hv : v.natAbs < 10 ^ 10)
    (h : (n : Int) = max 0 (min 47 v)) : exec (.set ["AR=".toList ++ intText v]) s =
      .next ((withSettings { s.settings with ar := some n } s).answering ["=SET AR=".toList ++ natText n]) := by
  have hset : applySetting (.ar, .num v) s = withSettings { s.settings with ar := some n } s := by
    simp [applySetting, settingActs, takeSetting, clampNat_eq (lo := 0) (hi := 47) h, withSettings]
  have hexec := exec_set_one (k := .ar) hf (readSetValue_ar hv)
  rw [movedField_calm s (by simp), hset] at hexec
  exact hexec

theorem exec_set_at (v : Bool) {s : State} (hf : LinkFree s) :
    exec (.set [SetKey.atOn.text ++ '=' :: (if v then "ON".toList else "OFF".toList)]) s =
      .next ((withSettings { s.settings with atOn := v }
        { s with pins := { s.pins with attn := !s.notices.isEmpty && v } }).answering
          ["=SET AT=".toList ++ (if v then "ON".toList else "OFF".toList)]) := by
  have hread : readSetValue .atOn (if v then "ON".toList else "OFF".toList) = some (.attention v) := by
    cases v <;> rfl
  have hexec := exec_set_one (k := .atOn) hf hread
  rw [movedField_calm s (by simp), applySetting_at] at hexec
  exact hexec

/-- R170: two settings that set nothing going. -/
theorem exec_set_words {k j : SetKey} {u w : Text} {v x : SetValue} {s : State} (hf : LinkFree s) (hkj : k ≠ j)
    (hk : k ∈ [SetKey.sy, .te, .ar]) (hj : j ∈ [SetKey.sy, .te, .ar]) (hv : readSetValue k u = some v)
    (hx : readSetValue j w = some x) :
    exec (.set [k.text ++ '=' :: u, j.text ++ '=' :: w]) s =
      .next ((withSettings (takeSetting j x (takeSetting k v s.settings)) s).answering
        (okLine .set [settingField (takeSetting k v s.settings) k,
          settingField (takeSetting j x (takeSetting k v s.settings)) j])) := by
  have happly : ∀ (i : SetKey) (y : SetValue) (c : State), i ∈ [SetKey.sy, .te, .ar] →
      applySetting (i, y) c = withSettings (takeSetting i y c.settings) c := by
    intro i y c hi
    simp only [List.mem_cons, List.not_mem_nil, or_false] at hi
    rcases hi with rfl | rfl | rfl <;> rfl
  have hvt : ∀ i ∈ [SetKey.sy, .te, .ar], i ≠ SetKey.vt := by decide
  have hexec := exec_set_two hf hkj hv hx
  rw [movedField_calm s (by simp [hvt k hk, hvt j hj]), happly k v s hk, happly j x _ hj] at hexec
  exact hexec

/-- R170: a key that is none of the settings'. -/
theorem exec_set_unknownKey {k u : Text} {ts : List Token} {s : State} (hf : LinkFree s) (hk : ∀ c ∈ k, c ≠ '=')
    (hne : k ≠ []) (hall : ∀ j ∈ SetKey.all, j.text ≠ k) :
    exec (.set ((k ++ '=' :: u) :: ts)) s = .next (s.answering ["!SYNTAX SET ".toList ++ k]) := by
  have hcut : cutAt '=' (k ++ '=' :: u) = some (k, u) := cutAt_fieldText fun h => hk _ h rfl
  have hread : readSetKey k = none := by
    rw [readSetKey, List.find?_eq_none]
    simpa using hall
  have hkey : keyNamed k = some k := by simp [keyNamed, hne]
  rw [exec_set_refused hf (by simp) (key := some k) (by simp only [readSets, hcut, hread, hkey])]
  rfl

/-- R170: a value that the setting does not take. -/
theorem exec_set_badValue {k : SetKey} {u : Text} {ts : List Token} {s : State} (hf : LinkFree s)
    (hu : readSetValue k u = none) :
    exec (.set ((k.text ++ '=' :: u) :: ts)) s = .next (s.answering ["!SYNTAX SET ".toList ++ k.text]) := by
  have hcut : cutAt '=' (k.text ++ '=' :: u) = some (k.text, u) := cutAt_fieldText (setKey_noEquals k)
  have hread : readSets [] ((k.text ++ '=' :: u) :: ts) = .error (some k.text) := by
    simp only [readSets, hcut, readSetKey_text, hu]
    rfl
  rw [exec_set_refused hf (by simp) hread]
  rfl

/-- R170: a setting given twice. -/
theorem exec_set_twice {k : SetKey} {u w : Text} {v : SetValue} {ts : List Token} {s : State} (hf : LinkFree s)
    (hv : readSetValue k u = some v) :
    exec (.set ((k.text ++ '=' :: u) :: (k.text ++ '=' :: w) :: ts)) s =
      .next (s.answering ["!SYNTAX SET ".toList ++ k.text]) := by
  have hcut : ∀ x, cutAt '=' (k.text ++ '=' :: x) = some (k.text, x) := fun x => cutAt_fieldText (setKey_noEquals k)
  have hseen : ([k] : List SetKey).contains k = true := by simp
  have hread : readSets [] ((k.text ++ '=' :: u) :: (k.text ++ '=' :: w) :: ts) = .error (some k.text) := by
    simp only [readSets, hcut, readSetKey_text, hv, hseen]
    rfl
  rw [exec_set_refused hf (by simp) hread]
  rfl

/-- Settles O52: SET field by field. -/
theorem setTakesSpecialSettings : Obligations.SetTakesSpecialSettings := by
  refine fun v w s hf hv hw => ⟨fun vt h => ⟨exec_set_vt hf hv h, fun vr h' => exec_set_vt_vr hf hv hw h h'⟩,
    fun vr h => exec_set_vr hf hv h, fun h => ?_, fun ht hne hr hcalm hwait l hl hsrc y hp x hx => ?_,
    ?_, ?_, ?_, ?_, ?_, fun n h => exec_set_ar hf hv h, ?_,
    fun k hk hne hall u ts => exec_set_unknownKey hf hk hne hall,
    fun k _ hn => ⟨fun u hu ts => exec_set_badValue hf ?_, fun u ts => exec_set_twice (v := .num v) hf ?_⟩⟩
  · rw [exec_set_st hf hv, applySetting_st_calm h]
  · have hexec := exec_set_st (v := v) hf hv
    rw [applySetting_st_thrift ht hne hr hwait hl hsrc hp] at hexec
    have hsched := stretchChange_scheduled (s := withSettings { s.settings with st := stretchOf v } s) hr hwait hl hsrc
      hp hcalm
    have hstep : gridStep l.seg (withSettings { s.settings with st := stretchOf v } s) =
        l.seg.iv * 64 * stretchOf v := by
      simp [gridStep, stretch, ht, Config.sixteenthTicks]
    rw [show (withSettings { s.settings with st := stretchOf v } s).seq.lastDue = some x from hx, Option.elim_some, hstep]
      at hsched
    refine ⟨_, hexec, by simp, ?_, by simp [replies], by simp [hr], by simp⟩
    exact scheduledAt_congr (scheduledAt_afterReplan hsched) rfl rfl rfl rfl id
  · exact (exec_set_at true hf).trans (by simp)
  · exact (exec_set_at false hf).trans (by simp)
  · exact exec_set_words (k := .sy) (j := .te) (u := "NONE".toList) (w := "FALL".toList) (v := .sync .none)
      (x := .edge .fall) hf (by decide) (by decide) (by decide) rfl rfl
  · exact exec_set_words (k := .sy) (j := .te) (u := "BUSYH".toList) (w := "RISE".toList) (v := .sync .busyHigh)
      (x := .edge .rise) hf (by decide) (by decide) (by decide) rfl rfl
  · exact exec_set_words (k := .sy) (j := .ar) (u := "BUSYL".toList) (w := "OFF".toList) (v := .sync .busyLow)
      (x := .noAutorun) hf (by decide) (by decide) (by decide) rfl rfl
  · exact exec_set hf
  · cases k <;> simp_all [readSetValue]
  · refine readSetValue_num hv ?_
    cases k <;> simp at hn ⊢

end Sys2Proof.Sequencing
end

