-- ==== Sys2Proof/Proofs/LevelAndRun.lean ====
section
/-! SUPPORT. A change of level and the run (R43, R79, R137), and the rail-on that a measurement serves (R67, R132). -/

namespace Sys2Proof.Sequencing

open Sys2Proof Sys2Proof.Machine

/-! ### The measurement that changes the level (R133, R135, R137) -/

theorem decidedLevel_eq {m : Measuring} {volts : Nat} {temp : Int} {s : State} (h : measurementEnds m volts temp s) :
    decidedLevel (finishedMeasurement volts temp m.kind s) s = levelDecided (effectiveOf m.kind volts temp s) s := by
  obtain ⟨-, -, hv, hlo, hhi⟩ := h
  have hvolts : min Config.maxMillivolts volts = volts := Nat.min_eq_right hv
  have heff : (finishedMeasurement volts temp m.kind s).veff = effectiveOf m.kind volts temp s := by
    simp only [finishedMeasurement, clampInt_id hlo hhi, hvolts]
    cases m.kind <;> rfl
  rw [decidedLevel, heff]
  cases hl : s.power.level <;> simp [levelAfter, levelDecided, hl]

/-- R135, R143: the new level is raised, and HEAT and its permission are taken from a frame begun in NORMAL. -/
def levelTaken (r : Measurement) (new : Level) (s : State) : State :=
  let s1 := raise .level { s with power := { s.power with measuring := none, last := some r, level := new } }
  if s.power.level = .normal then heaterLosesPermission s1 else s1

/-- What the run and the rail go by is as it was, but for the level and the measurement that has ended. -/
structure LevelTaken (new : Level) (s x : State) : Prop where
  seq : x.seq = s.seq
  cal : x.cal = s.cal
  engine : x.engine = s.engine
  settings : x.settings = s.settings
  camPwr : x.pins.camPwr = s.pins.camPwr
  level : x.power.level = new
  measuring : x.power.measuring = none

theorem levelTaken_taken (r : Measurement) (new : Level) (s : State) : LevelTaken new s (levelTaken r new s) := by
  unfold levelTaken
  split <;> constructor <;> simp

/-- What the run and the rail go by is the same in both. -/
structure SameShot (t u : State) : Prop where
  seq : u.seq = t.seq
  cal : u.cal = t.cal
  engine : u.engine = t.engine
  settings : u.settings = t.settings
  camPwr : u.pins.camPwr = t.pins.camPwr
  gain : u.pins.gain = t.pins.gain
  power : u.power = t.power

/-- R101, R143: the drift test and HEAT leave the run and the rail alone. -/
theorem driveHeat_driftTest_same (b : Bool) (temp : Int) (t : State) :
    SameShot t (driveHeat (if b then driftTest temp t else t)) := by
  cases b <;> constructor <;> simp

/-- R133, R137: the end of a measurement by the change of level that it makes. -/
theorem exec_measurementEnd {m : Measuring} {volts : Nat} {temp : Int} {new : Level} {s : State}
    (h : measurementEnds m volts temp s) (hu : s.startUp = .working)
    (hnew : new = levelDecided (effectiveOf m.kind volts temp s) s) (hne : new ≠ s.power.level) :
    ∃ r temp', exec (.measurementEnd volts temp) s =
      .next (afterMeasurement m temp' (afterReplan (seqLevelChange s.power.level new (levelTaken r new s)))) := by
  have hlevel := (decidedLevel_eq h).trans hnew.symm
  obtain ⟨hm, hleft, -⟩ := h
  refine ⟨finishedMeasurement volts temp m.kind s, (finishedMeasurement volts temp m.kind s).temp, ?_⟩
  have hexec : exec (.measurementEnd volts temp) s = .next (endMeasurement m volts temp s) := by
    simp only [exec, execMeasurementEnd, hm, (ranOut_iff m.left).2 hleft, if_true]
  rw [hexec]
  simp only [endMeasurement, hu, hlevel, changeLevel, if_neg hne, levelTaken]

/-! ### A rail-on that waits has its measurement (R67, R132) -/

/-- A rail-on is asked for only with a measurement in progress. -/
def AskServed (s : State) : Prop := s.engine.ask = .none ∨ s.power.measuring.isSome = true

theorem askRail_served (a : RailAsk) (s : State) : AskServed (askRail a s) := by
  unfold askRail
  split
  · next h => exact .inr (by simp [h])
  · exact .inr (by simp [startMeasurement])

theorem AskServed.of_eq {s t : State} (h : AskServed s) (ha : t.engine.ask = s.engine.ask)
    (hm : t.power.measuring = s.power.measuring) : AskServed t := by
  unfold AskServed
  rwa [ha, hm]

theorem arrivals_served {s : State} (h : AskServed s) : AskServed (arrivals s) := by
  unfold arrivals
  split
  · exact h
  · next x _ =>
    split
    · rcases measureArrives_cases x s with hx | ⟨-, -, hx⟩ <;> rw [hx]
      · exact h
      · exact askRail_served _ s
    · split
      · exact h.of_eq (by simp) (by simp)
      · exact h
    · exact h

theorem dropHoldAsk_served {s : State} (h : AskServed s) : AskServed (dropHoldAsk s) := by
  unfold dropHoldAsk
  split
  · exact .inl rfl
  · exact h

theorem railDecision_served {s : State} (h : AskServed s) : AskServed (railDecision s) := by
  have hoff : AskServed (arrivals (railOff s)) := arrivals_served (.inl rfl)
  unfold railDecision
  split
  · exact h
  · split
    case h_5 =>
      split
      · split
        · exact askRail_served _ s
        · exact h
      · exact arrivals_served (dropHoldAsk_served h)
    case h_6 | h_7 =>
      split
      · exact h
      · split
        · exact hoff
        · exact h
    all_goals exact h

theorem afterReplan_served {s : State} (h : AskServed s) : AskServed (afterReplan s) :=
  railDecision_served (arrivals_served h)

theorem dropShot_ask {s : State} (h : s.engine.ask = .none) : (dropShot s).engine.ask = .none := by
  rcases hs : s.seq.stage with _ | d | d | d
  case pending => simp [dropShot, withdrawShot, abandonPrime, hs, h, RailAsk.withoutShot]
  all_goals simp [dropShot, withdrawShot, hs, h]

theorem standDown_ask {s : State} (h : s.engine.ask = .none) : (standDown s).engine.ask = .none := by
  unfold standDown; split <;> simp [h]

/-- R43: the run's own reaction asks for no rail. -/
theorem seqLevelChange_ask {s : State} (old new : Level) (h : s.engine.ask = .none) :
    (seqLevelChange old new s).engine.ask = .none := by
  have henter : (enterReserve s).engine.ask = .none := by
    unfold enterReserve
    split
    · split
      · exact h
      · simpa using standDown_ask (dropShot_ask h)
    · exact h
  have hleave : (leaveReserve s).engine.ask = .none := by
    simp only [leaveReserve]
    split <;> simp [h]
  have hstretch : (stretchChange s).engine.ask = .none := by
    have hw : (withdrawShot s).engine.ask = .none := by
      unfold withdrawShot; split <;> simp [h, RailAsk.withoutShot]
    unfold stretchChange
    split
    · simpa using hw
    · exact h
  unfold seqLevelChange
  split
  · exact henter
  · exact hleave
  · split
    · exact h
    · exact hstretch

/-- R132: with no rail-on waiting, or a measurement for it in progress, the end of a measurement releases no rail. -/
theorem afterMeasurement_same {m : Measuring} {temp : Int} {t : State} (h : AskServed t) :
    SameShot t (afterMeasurement m temp t) := by
  have hsame := driveHeat_driftTest_same m.periodic temp t
  have hno : (railWaits (driveHeat (if m.periodic then driftTest temp t else t)) &&
      (driveHeat (if m.periodic then driftTest temp t else t)).power.measuring.isNone) = false := by
    rw [railWaits, hsame.engine, hsame.power]
    rcases h with h | h
    · simp [h]
    · simp [Option.isNone_eq_false_iff.2 h]
  simp only [afterMeasurement, hno, Bool.false_eq_true, if_false]
  exact hsame

/-- R137: a change of level with no rail-on asked, by the state that the sequencer and the rail make of it. -/
theorem exec_levelChange {m : Measuring} {volts : Nat} {temp : Int} {new : Level} {s : State}
    (h : measurementEnds m volts temp s) (hu : s.startUp = .working)
    (hnew : new = levelDecided (effectiveOf m.kind volts temp s) s) (hne : new ≠ s.power.level)
    (hask : s.engine.ask = .none) :
    ∃ x u, LevelTaken new s x ∧ SameShot (afterReplan (seqLevelChange s.power.level new x)) u ∧
      exec (.measurementEnd volts temp) s = .next u := by
  obtain ⟨r, temp', hexec⟩ := exec_measurementEnd h hu hnew hne
  have hx := levelTaken_taken r new s
  refine ⟨_, _, hx, afterMeasurement_same ?_, hexec⟩
  exact afterReplan_served (.inl (seqLevelChange_ask _ _ (by rw [hx.engine, hask])))

/-! ### What the run makes of it (R43, R79) -/

/-- R43: the pending shot of a grid, in the words of the statement. -/
theorem stretchTarget_eq {l : Live} {new : Level} {s x : State} (hx : LevelTaken new s x) :
    x.seq.lastDue.elim (now x) (· + gridStep l.seg x) = (match s.seq.lastDue with
      | some d => d + l.seg.iv * 64 * stretchIn new s
      | none => now s) := by
  have hstep : gridStep l.seg x = l.seg.iv * 64 * stretchIn new s := by
    simp [gridStep, stretch, stretchIn, hx.level, hx.settings, Config.sixteenthTicks]
  rw [hx.seq, now_congr hx.cal, hstep]
  cases s.seq.lastDue <;> rfl

/-- R43: without a pending shot of a grid a change of the stretch factor changes nothing. -/
theorem stretchChange_none {s : State} (h : restretched s = none) : stretchChange s = s := by
  simp only [stretchChange, h]

theorem restretched_none_of_stage {s : State} (h : s.seq.stage = .none) : restretched s = none := by
  simp only [restretched, h]

theorem restretched_none_of_trip {l : Live} {s : State} (hl : s.seq.live = some l) (hsrc : l.seg.src = .trip) :
    restretched s = none := by
  unfold restretched
  split
  · next g _ hg =>
    rw [liveSeg_of_live hl] at hg
    cases hg
    simp [hsrc]
  · rfl

/-- R137: between NORMAL and THRIFT. -/
theorem seqLevelChange_stretch {old new : Level} (s : State)
    (h : (old = .normal ∧ new = .thrift) ∨ (old = .thrift ∧ new = .normal)) :
    seqLevelChange old new s = if s.settings.st = 1 then s else stretchChange s := by
  rcases h with ⟨rfl, rfl⟩ | ⟨rfl, rfl⟩ <;> rfl

theorem seqLevelChange_calm {old new : Level} {s : State}
    (h : (old = .normal ∧ new = .thrift) ∨ (old = .thrift ∧ new = .normal)) (hr : restretched s = none) :
    seqLevelChange old new s = s := by
  rw [seqLevelChange_stretch s h, stretchChange_none hr, ite_self]

theorem arrivals_none {s : State} (h : s.seq.stage = .none) : arrivals s = s := by
  simp [arrivals, pendingShot, h]

/-- R43: entry to RESERVE. -/
theorem enterReserve_spec {s : State} (hr : s.seq.run = .active) :
    (∀ d, s.seq.stage = .inFlight d → (enterReserve s).seq.run = .active ∧
      (enterReserve s).seq.suspWaiting = true ∧ (enterReserve s).seq.stage = .inFlight d) ∧
    (inFlight s = false → (enterReserve s).seq.run = .suspended ∧ (enterReserve s).seq.wait = none ∧
      (enterReserve s).engine.retrying = false ∧ (enterReserve s).seq.stage = .none) := by
  refine ⟨fun d hd => ?_, fun hfl => ?_⟩
  · simp [enterReserve, hr, (inFlight_iff s).2 ⟨d, hd⟩, hd]
  · simp [enterReserve, hr, hfl, standDown_retrying, dropShot_stage hfl]

/-! ### The state reached, read through the rail decision -/

theorem pendingShot_congr {s t : State} (hs : t.seq.stage = s.seq.stage) (he : t.engine = s.engine) :
    pendingShot t = pendingShot s := by
  simp only [pendingShot, hs, he]

theorem preparation_congr {s t : State} (he : t.engine = s.engine) (hset : t.settings = s.settings) :
    preparation t = preparation s := by
  simp only [preparation, he, hset]

theorem SameShot.frame {y u : State} (h : SameShot (afterReplan y) u) :
    u.seq.run = y.seq.run ∧ u.seq.live = y.seq.live ∧ u.seq.armed = y.seq.armed ∧ u.seq.wait = y.seq.wait ∧
      u.seq.suspWaiting = y.seq.suspWaiting ∧ u.engine.retrying = y.engine.retrying := by
  simp [h.seq, h.engine]

theorem SameShot.stage {y u : State} (h : SameShot (afterReplan y) u) :
    nextDue u = nextDue y ∧ ∀ d, u.seq.stage = .inFlight d ↔ y.seq.stage = .inFlight d := by
  obtain ⟨hdue, -, hflight⟩ := afterReplan_stage y
  rw [h.seq, nextDue_congr (t := u) (s := afterReplan y) (by rw [h.seq])]
  exact ⟨hdue, hflight⟩

theorem SameShot.scheduled {g : Segment} {d : Tick} {s x y u : State} (h : SameShot (afterReplan y) u)
    (hs : scheduledAt g d x y) (hc : x.cal = s.cal) : scheduledAt g d s u :=
  scheduledAt_congr (scheduledAt_afterReplan hs) hc.symm (by rw [h.seq]) (by rw [h.seq]) (nextDue_congr (by rw [h.seq]))
    (by rw [h.seq]; exact id)

theorem SameShot.waits {g : Segment} {s x y u : State} (h : SameShot (afterReplan y) u)
    (hw : waitsUnscheduled g x y) (hc : x.cal = s.cal) : waitsUnscheduled g s u := by
  obtain ⟨hwait, hopen, -⟩ := afterReplan_seqFrame y
  exact waitsUnscheduled_congr hw (by rw [hc]) (now_congr hc.symm) (by rw [h.seq, hwait]) (by rw [h.seq, hopen])

/-! ### Each change of level -/

section
variable {old new : Level} {l : Live} {s x u : State}

/-- R43: entry to RESERVE. -/
theorem reserve_entered (hx : LevelTaken new s x) (hu : SameShot (afterReplan (enterReserve x)) u)
    (hr : s.seq.run = .active) :
    (inFlight s = true → u.seq.run = .active ∧ u.seq.suspWaiting = true ∧ u.seq.stage = s.seq.stage) ∧
      (inFlight s = false → u.seq.run = .suspended ∧ u.seq.wait = none ∧ u.engine.retrying = false ∧
        nextDue u = none) ∧ u.seq.live = s.seq.live ∧ u.seq.armed = s.seq.armed := by
  obtain ⟨hflight, hcalm⟩ := enterReserve_spec (s := x) (by rw [hx.seq, hr])
  obtain ⟨hrun, hlive, harmed, hwait, hsusp, hretry⟩ := hu.frame
  obtain ⟨hdue, hstage⟩ := hu.stage
  refine ⟨fun hf => ?_, fun hf => ?_, ?_, ?_⟩
  · obtain ⟨d, hd⟩ := (inFlight_iff s).1 hf
    obtain ⟨h1, h2, h3⟩ := hflight d (by rw [hx.seq, hd])
    exact ⟨hrun.trans h1, hsusp.trans h2, ((hstage d).2 h3).trans hd.symm⟩
  · obtain ⟨h1, h2, h3, h4⟩ := hcalm (by rw [inFlight_congr (s := s) (by rw [hx.seq]), hf])
    exact ⟨hrun.trans h1, hwait.trans h2, hretry.trans h3, hdue.trans (nextDue_none_of_stage (.inl h4))⟩
  · rw [hlive, ← hx.seq]; simp
  · rw [harmed, ← hx.seq]; simp

theorem activate_suspWaiting (s : State) : (activate s).seq.suspWaiting = s.seq.suspWaiting := by
  unfold activate; split <;> simp

/-- R43: leaving RESERVE with the run SUSPENDED. -/
theorem leaveReserve_suspended (h : s.seq.run = .suspended) :
    leaveReserve s = activate { s with seq := { s.seq with suspWaiting := false } } := by
  simp only [leaveReserve, h, if_true]

theorem reserve_left (hx : LevelTaken new s x) (hu : SameShot (afterReplan (leaveReserve x)) u)
    (hr : s.seq.run = .suspended) :
    u.seq.run = .active ∧ u.seq.suspWaiting = false ∧ u.seq.live = s.seq.live := by
  obtain ⟨hrun, hlive, -, -, hsusp, -⟩ := hu.frame
  rw [hrun, hlive, hsusp, leaveReserve_suspended (by rw [hx.seq, hr]), activate_run,
    activate_suspWaiting]
  simp [hx.seq]

theorem reserve_left_scheduled (hx : LevelTaken new s x) (hu : SameShot (afterReplan (leaveReserve x)) u)
    (hl : s.seq.live = some l) (hr : s.seq.run = .suspended) (hs : s.seq.stage = .none)
    (hcalm : s.engine.retrying = false) : scheduledAt l.seg (now s + preparation s) s u := by
  have hspec := activate_scheduled (s := { x with seq := { x.seq with suspWaiting := false } }) (l := l)
    (by simpa [hx.seq] using hl) (by simpa [hx.seq] using hs) (by simpa [hx.engine] using hcalm)
  rw [leaveReserve_suspended (by rw [hx.seq, hr])] at hu
  have hprep : preparation { x with seq := { x.seq with suspWaiting := false } } = preparation s :=
    preparation_congr hx.engine hx.settings
  have hnow : now { x with seq := { x.seq with suspWaiting := false } } = now s := now_congr hx.cal
  rw [hprep, hnow] at hspec
  exact hu.scheduled hspec hx.cal

theorem reserve_left_inFlight (hx : LevelTaken new s x) (hu : SameShot (afterReplan (leaveReserve x)) u)
    (hl : s.seq.live = some l) (hr : s.seq.run = .suspended) (hf : inFlight s = true) :
    u.seq.stage = s.seq.stage ∧ waitsUnscheduled l.seg s u := by
  rw [leaveReserve_suspended (by rw [hx.seq, hr]),
    activate_inFlight (by rw [inFlight_congr (s := s) (by simp [hx.seq]), hf]),
    holdSchedule_eq (liveSeg_of_live (l := l) (by simpa [hx.seq] using hl))] at hu
  obtain ⟨d, hd⟩ := (inFlight_iff s).1 hf
  exact ⟨((hu.stage.2 d).2 (by simp [hx.seq, hd])).trans hd.symm,
    hu.waits (waitsUnscheduled_congr (waitUnscheduled_spec _ _) rfl rfl rfl rfl) hx.cal⟩

/-- R43: the pending shot of a grid, re-anchored by the stretch of the new level. -/
theorem stretch_reanchors {y : Shot} (hx : LevelTaken new s x) (hu : SameShot (afterReplan (stretchChange x)) u)
    (hl : s.seq.live = some l) (hr : s.seq.run = .active) (hw : s.seq.wait = some .between)
    (hsrc : l.seg.src = .timed) (hcalm : s.engine.retrying = false) (hy : pendingShot s = some y) :
    scheduledAt l.seg (max (match s.seq.lastDue with
      | some d => d + l.seg.iv * 64 * stretchIn new s
      | none => now s) (now s + preparation s)) s u ∧ u.seq.run = .active := by
  have hspec := stretchChange_scheduled (l := l) (s := x) (by rw [hx.seq, hr]) (by rw [hx.seq, hw]) (by rw [hx.seq, hl]) hsrc
    (by rw [pendingShot_congr (by rw [hx.seq]) hx.engine, hy]) (by rw [hx.engine, hcalm])
  rw [stretchTarget_eq hx, preparation_congr hx.engine hx.settings, now_congr hx.cal] at hspec
  refine ⟨hu.scheduled hspec hx.cal, ?_⟩
  rw [hu.frame.1]
  simp [hx.seq, hr]

/-- R79: in THRIFT a rail that no shot needs goes off. -/
theorem thrift_rail_off (hx : LevelTaken .thrift s x) (hu : SameShot (afterReplan x) u) (hs : s.seq.stage = .none)
    (hcalm : s.engine.retrying = false) (hp : s.engine.phase = .powering ∨ s.engine.phase = .ready) :
    u.pins.camPwr = false ∧ u.pins.gain = 0 ∧ u.engine.phase = .dormant := by
  have hstage : x.seq.stage = .none := by rw [hx.seq, hs]
  have hhold : tripHold x = false := by simp [tripHold, hx.level]
  have hoff : railGoesOff x = true := by simp [railGoesOff, hx.level]
  have hafter : afterReplan x = railOff x := by
    have hrest : arrivals (railOff x) = railOff x := arrivals_none hstage
    rw [afterReplan, arrivals_none hstage]
    rcases hp with hp | hp <;> simp [railDecision, hx.engine, hcalm, hp, hhold, hoff, hrest]
  rw [hafter] at hu
  rw [hu.camPwr, hu.gain, hu.engine]
  exact ⟨rfl, rfl, rfl⟩

/-- R79: the trip hold begins with a rest measurement. -/
theorem normal_trip_hold (hx : LevelTaken .normal s x) (hu : SameShot (afterReplan x) u) (hl : s.seq.live = some l)
    (hsrc : l.seg.src = .trip) (hs : s.seq.stage = .none) (hcalm : s.engine.retrying = false)
    (hp : s.engine.phase = .dormant) (hoff : s.pins.camPwr = false) (hr : s.seq.run = .active)
    (hw : s.seq.wait = some .tripWait) (hask : s.engine.ask = .none) :
    u.engine.ask = .holdWaiting ∧ u.pins.camPwr = false ∧ u.seq.stage = .none ∧ u.seq.wait = some .tripWait ∧
      u.power.measuring = some { kind := .rest, periodic := false, left := 66 } := by
  have hhold : tripHold x = true := by
    have hlive : liveSeg x = some l.seg := liveSeg_of_live (by rw [hx.seq, hl])
    simp [tripHold, hx.level, hlive, hsrc, hx.seq, hr, hw]
  have hafter : afterReplan x = askRail .holdWaiting x := by
    rw [afterReplan, arrivals_none (by rw [hx.seq, hs])]
    simp [railDecision, hx.engine, hcalm, hp, hhold, hask]
  have hfresh : askRail .holdWaiting x =
      startMeasurement false { x with engine := { x.engine with ask := .holdWaiting } } := by
    simp [askRail, hx.measuring]
  rw [hafter, hfresh] at hu
  rw [hu.engine, hu.camPwr, hu.seq, hu.power]
  simp [startMeasurement, hx.camPwr, hoff, hx.seq, hs, hw, Config.measurementCycles]

end

/-! ### The measurement that a trip shot waits for (R67, R132; assumption log 20) -/

/-- R67: the rail rises for a shot whose rail-on instant has arrived. -/
theorem releaseRail_rises {y : Shot} {s : State} (hask : s.engine.ask = .shotWaiting) (hy : pendingShot s = some y)
    (hon : y.railOnAt ≤ now s) (hdue : now s < y.due) (hcs : 0 < s.settings.cs) :
    releaseRail s = { s with
      engine := { s.engine with phase := .powering, ask := .none, settleLeft := s.settings.cs * Config.sixteenthCycles }
      pins := { s.pins with camPwr := true } } := by
  have hrail : arrived s y.railOnAt = true := by simpa [arrived] using hon
  have hlate : ∀ t : State, t.cal = s.cal → arrived t y.due = false := by
    intro t hc
    rw [arrived, now_congr hc]
    exact decide_eq_false (Nat.not_le.2 hdue)
  have hp : ∀ t : State, t.seq = s.seq → t.engine.shot = s.engine.shot → pendingShot t = some y := by
    intro t hseq hshot
    rw [← hy]; simp only [pendingShot, hseq, hshot]
  simp [releaseRail, hask, hy, hrail]
  simp [railRise, hp, hlate, Nat.ne_of_gt hcs]

/-- R66, R79: in DORMANT with the shot asked for in THRIFT, nothing is left to arrive. -/
theorem afterReplan_waiting {s : State} (hp : s.engine.phase = .dormant) (hask : s.engine.ask = .shotWaiting)
    (hlevel : s.power.level = .thrift) : afterReplan s = s := by
  have hquiet : arrivals s = s := by
    unfold arrivals
    split
    · rfl
    · simp [hp, measureArrives, shotMayAsk, hask]
  have hhold : tripHold s = false := by simp [tripHold, hlevel]
  have hdrop : dropHoldAsk s = s := by simp [dropHoldAsk, hask]
  rw [afterReplan, hquiet]
  simp [railDecision, hp, hhold, hdrop, hquiet]

/-- R132: the rail-on that waited for the REST measurement that has ended. -/
theorem afterMeasurement_releases {m : Measuring} {t : State} (temp : Int) (hm : t.power.measuring = none)
    (hkind : m.kind = .rest) (hask : t.engine.ask = .shotWaiting) :
    ∃ v, SameShot t v ∧ afterMeasurement m temp t = releaseRail v := by
  have hsame := driveHeat_driftTest_same m.periodic temp t
  refine ⟨_, hsame, ?_⟩
  have hwaits : (railWaits (driveHeat (if m.periodic then driftTest temp t else t)) &&
      (driveHeat (if m.periodic then driftTest temp t else t)).power.measuring.isNone) = true := by
    rw [railWaits, hsame.engine, hsame.power, hask, hm]
    rfl
  simp only [afterMeasurement, hwaits, hkind, if_true]

theorem trip_shot_served {m : Measuring} {volts : Nat} {temp : Int} {l : Live} {y : Shot} {s : State}
    (h : measurementEnds m volts temp s) (hu : s.startUp = .working) (hl : s.seq.live = some l)
    (hsrc : l.seg.src = .trip) (hkind : m.kind = .rest) (hold : s.power.level = .normal)
    (hnew : levelDecided (effectiveOf m.kind volts temp s) s = .thrift) (hp : s.engine.phase = .dormant)
    (hask : s.engine.ask = .shotWaiting) (hy : pendingShot s = some y)
    (hon : y.railOnAt ≤ now s) (hdue : now s < y.due) (hcs : 0 < s.settings.cs) :
    leadsTo (.measurementEnd volts temp) s fun t =>
      t.pins.camPwr = true ∧ t.engine.phase = .powering ∧ t.engine.settleLeft = s.settings.cs * 2048 ∧
        t.seq.stage = s.seq.stage ∧ t.power.level = .thrift := by
  obtain ⟨r, temp', hexec⟩ := exec_measurementEnd h hu hnew.symm (by simp [hold])
  have hx := levelTaken_taken r .thrift s
  generalize levelTaken r .thrift s = x at hexec hx
  have hcalm : seqLevelChange s.power.level .thrift x = x :=
    seqLevelChange_calm (.inl ⟨hold, rfl⟩) (restretched_none_of_trip (by rw [hx.seq, hl]) hsrc)
  have hquiet : afterReplan x = x :=
    afterReplan_waiting (by rw [hx.engine, hp]) (by rw [hx.engine, hask]) hx.level
  obtain ⟨v, hv, hrelease⟩ := afterMeasurement_releases temp' hx.measuring hkind (by rw [hx.engine, hask])
  have hengine : v.engine = s.engine := hv.engine.trans hx.engine
  have hseq : v.seq = s.seq := hv.seq.trans hx.seq
  have hnow : now v = now s := now_congr (hv.cal.trans hx.cal)
  have hset : v.settings = s.settings := hv.settings.trans hx.settings
  have hrise := releaseRail_rises (s := v) (by rw [hengine, hask])
    ((pendingShot_congr (by rw [hseq]) hengine).trans hy) (by rw [hnow]; exact hon) (by rw [hnow]; exact hdue)
    (by rw [hset]; exact hcs)
  rw [hcalm, hquiet, hrelease, hrise] at hexec
  refine ⟨_, hexec, rfl, rfl, ?_, ?_, ?_⟩
  · simp [hset, Config.sixteenthCycles]
  · simp [hseq]
  · simp [hv.power, hx.level]

/-- R137: what a change of level leads to, from what the run and the rail make of it. -/
theorem leadsTo_levelChange {m : Measuring} {volts : Nat} {temp : Int} {old new : Level} {s : State} {P : State → Prop}
    (h : measurementEnds m volts temp s) (hu : s.startUp = .working)
    (hnew : new = levelDecided (effectiveOf m.kind volts temp s) s) (hask : s.engine.ask = .none)
    (hold : s.power.level = old) (hne : new ≠ old)
    (hP : ∀ x u, LevelTaken new s x → SameShot (afterReplan (seqLevelChange old new x)) u → P u) :
    leadsTo (.measurementEnd volts temp) s P := by
  obtain ⟨x, u, hx, hsame, hexec⟩ := exec_levelChange h hu hnew (by rwa [hold]) hask
  rw [hold] at hsame
  exact ⟨u, hexec, hP x u hx hsame⟩

/-- Settles O45: each change of level by what the run and the rail make of it, and the rail-on that waits by the
measurement that releases it. -/
theorem levelChangeReachesRun : Obligations.LevelChangeReachesRun := by
  refine ⟨fun m volts temp l new s h hu hl hnew hask => ?_,
    fun m volts temp l y s h hu hl hsrc hkind hold hnew hp _ hask hy hon hdue hcs =>
      trip_shot_served h hu hl hsrc hkind hold hnew hp hask hy hon hdue hcs⟩
  have lead := @leadsTo_levelChange m volts temp
  refine ⟨fun hold hn hr => ?entersReserve, fun hold hn hr hs hcalm _ => ?leavesReserve,
    fun hold hn hr hf => ?leavesReserveInFlight, fun hold hst hr hw hsrc hcalm _ y hy => ?stretched,
    fun hold hn hs hcalm hp => ?railOff, fun hold hn hs hcalm hp hoff hr hw hsrc => ?tripHold⟩
  case entersReserve =>
    subst hn
    exact lead h hu hnew hask hold (by simp) fun x u hx hsame => reserve_entered hx hsame hr
  case leavesReserve =>
    subst hn
    refine lead h hu hnew hask hold (by simp) fun x u hx hsame => ?_
    obtain ⟨hrun, hsusp, hlive⟩ := reserve_left hx hsame hr
    exact ⟨hrun, hsusp, hlive, reserve_left_scheduled hx hsame hl hr hs hcalm⟩
  case leavesReserveInFlight =>
    subst hn
    refine lead h hu hnew hask hold (by simp) fun x u hx hsame => ?_
    obtain ⟨hrun, hsusp, hlive⟩ := reserve_left hx hsame hr
    obtain ⟨hstage, hwait⟩ := reserve_left_inFlight hx hsame hl hr hf
    exact ⟨hrun, hsusp, hstage, hlive, hwait⟩
  case stretched =>
    have hne : new ≠ s.power.level := by rcases hold with ⟨ho, hn⟩ | ⟨ho, hn⟩ <;> simp [ho, hn]
    refine lead h hu hnew hask rfl hne fun x u hx hsame => ?_
    rw [seqLevelChange_stretch x hold, if_neg (by rw [hx.settings]; omega)] at hsame
    exact stretch_reanchors hx hsame hl hr hw hsrc hcalm hy
  case railOff =>
    subst hn
    refine lead h hu hnew hask hold (by simp) fun x u hx hsame => ?_
    rw [seqLevelChange_calm (.inl ⟨rfl, rfl⟩) (restretched_none_of_stage (by rw [hx.seq, hs]))] at hsame
    exact thrift_rail_off hx hsame hs hcalm hp
  case tripHold =>
    subst hn
    refine lead h hu hnew hask hold (by simp) fun x u hx hsame => ?_
    rw [seqLevelChange_calm (.inr ⟨rfl, rfl⟩) (restretched_none_of_stage (by rw [hx.seq, hs]))] at hsame
    exact normal_trip_hold hx hsame hl hsrc hs hcalm hp hoff hr hw hask

end Sys2Proof.Sequencing
end

