-- ==== Sys2Proof/Proofs/CalendarCounts.lean ====
section
/-! SUPPORT. The tick increment (R50, R57, R58): the four things it can do to the calendar, what each count of it
becomes, and the slow-clock counts that it moves besides. -/

namespace Sys2Proof.CalendarWindows

open Sys2Proof Sys2Proof.Machine Sys2Proof.Sequencing

/-! ### The calendar (R50, R57, R58) -/

theorem atEnd_iff (c : Calendar) : c.atEnd = true ↔ c.seconds = 4294967295 ∧ c.fraction = 1023 := by
  rw [Calendar.atEnd, Bool.and_eq_true, decide_eq_true_iff, decide_eq_true_iff]
  rfl

theorem tickAdds_eq (c : Calendar) : tickAdds c.correction = tickStep c := rfl

/-- R50: the last instant is kept, with any correction pending. -/
theorem tick_atEnd (tr : Int) {c : Calendar} (h : c.seconds = 4294967295 ∧ c.fraction = 1023) : c.tick tr = c := by
  simp [Calendar.tick, (atEnd_iff c).2 h]

/-- R50, R58: a tick increment within a second. -/
theorem tick_within (tr : Int) {c : Calendar} (hend : ¬ (c.seconds = 4294967295 ∧ c.fraction = 1023))
    (hf : c.fraction + tickStep c < 1024) :
    c.tick tr = { c with fraction := c.fraction + tickStep c, correction := correctionAfter c.correction } := by
  have hlt : c.fraction + tickAdds c.correction < Config.ticksPerSecond := hf
  simp only [Calendar.tick, mt (atEnd_iff c).1 hend, hlt, if_true]
  rfl

/-- R50: a doubled increment that would pass the last instant stops there. -/
theorem tick_stops (tr : Int) {c : Calendar} (hend : ¬ (c.seconds = 4294967295 ∧ c.fraction = 1023))
    (hf : 1024 ≤ c.fraction + tickStep c) (hs : c.seconds = 4294967295) :
    c.tick tr = { c with fraction := 1023, correction := correctionAfter c.correction } := by
  have hge : ¬ c.fraction + tickAdds c.correction < Config.ticksPerSecond := Nat.not_lt.2 hf
  have hmax : c.seconds = Config.maxSeconds := hs
  simp only [Calendar.tick, mt (atEnd_iff c).1 hend, hge, hmax, if_true]
  rfl

/-- R50, R57: the seconds count increases, and the span with it. -/
theorem tick_nextSecond (tr : Int) {c : Calendar} (hspan : c.span < 4096) (hf : 1024 ≤ c.fraction + tickStep c)
    (hs : c.seconds ≠ 4294967295) :
    c.tick tr = { c with
      seconds := c.seconds + 1, fraction := c.fraction + tickStep c - 1024, span := (c.span + 1) % 4096
      correction := if c.span = 4095 ∧ tr ≠ 0 then tr else correctionAfter c.correction } := by
  have hge : ¬ c.fraction + tickAdds c.correction < Config.ticksPerSecond := Nat.not_lt.2 hf
  have hmax : c.seconds ≠ Config.maxSeconds := hs
  have hend : ¬ c.atEnd = true := fun h => hs ((atEnd_iff c).1 h).1
  simp only [Calendar.tick, hend, hge, hmax, if_false, Calendar.nextSecond, Config.spanSeconds]
  by_cases hfull : c.span = 4095
  · by_cases htr : tr = 0 <;> simp [hfull, htr, tickAdds_eq, Config.ticksPerSecond]
  · have hmod : (c.span + 1) % 4096 = c.span + 1 := Nat.mod_eq_of_lt (by omega)
    simp [hfull, hmod, tickAdds_eq, Config.ticksPerSecond]

/-- R50: what one tick increment can do to a calendar whose counts are in range. -/
theorem tick_cases (tr : Int) {c : Calendar} (hc : calendarInRange c) :
    (c.seconds = 4294967295 ∧ c.fraction = 1023) ∧ c.tick tr = c ∨
    (¬ (c.seconds = 4294967295 ∧ c.fraction = 1023) ∧ c.fraction + tickStep c < 1024 ∧
      c.tick tr = { c with fraction := c.fraction + tickStep c, correction := correctionAfter c.correction }) ∨
    (¬ (c.seconds = 4294967295 ∧ c.fraction = 1023) ∧ 1024 ≤ c.fraction + tickStep c ∧ c.seconds = 4294967295 ∧
      c.tick tr = { c with fraction := 1023, correction := correctionAfter c.correction }) ∨
    (c.seconds < 4294967295 ∧ 1024 ≤ c.fraction + tickStep c ∧
      c.tick tr = { c with
        seconds := c.seconds + 1, fraction := c.fraction + tickStep c - 1024, span := (c.span + 1) % 4096
        correction := if c.span = 4095 ∧ tr ≠ 0 then tr else correctionAfter c.correction }) := by
  obtain ⟨hsec, -, hspan⟩ := hc
  by_cases hend : c.seconds = 4294967295 ∧ c.fraction = 1023
  · exact .inl ⟨hend, tick_atEnd tr hend⟩
  refine .inr ?_
  rcases Nat.lt_or_ge (c.fraction + tickStep c) 1024 with hf | hf
  · exact .inl ⟨hend, hf, tick_within tr hend hf⟩
  refine .inr ?_
  by_cases hs : c.seconds = 4294967295
  · exact .inl ⟨hend, hf, hs, tick_stops tr hend hf hs⟩
  · exact .inr ⟨by omega, hf, tick_nextSecond tr hspan hf hs⟩

theorem tickStep_le (c : Calendar) : tickStep c ≤ 2 := by
  unfold tickStep; (repeat' split) <;> omega

/-- R50: the instant moves by the step, never past the last one. -/
theorem tick_instant (tr : Int) {c : Calendar} (hc : calendarInRange c) :
    (c.tick tr).seconds * 1024 + (c.tick tr).fraction =
      min (4294967295 * 1024 + 1023) (c.seconds * 1024 + c.fraction + tickStep c) := by
  have ⟨hsec, hfrac, _⟩ := hc
  have hstep := tickStep_le c
  rcases tick_cases tr hc with ⟨hend, h⟩ | ⟨hend, hf, h⟩ | ⟨hend, hf, hs, h⟩ | ⟨hs, hf, h⟩ <;> simp only [h] <;> omega

theorem tick_inRange (tr : Int) {c : Calendar} (hc : calendarInRange c) : calendarInRange (c.tick tr) := by
  have ⟨hsec, hfrac, hspan⟩ := hc
  have hstep := tickStep_le c
  rcases tick_cases tr hc with ⟨hend, h⟩ | ⟨hend, hf, h⟩ | ⟨hend, hf, hs, h⟩ | ⟨hs, hf, h⟩ <;>
    simp only [h, calendarInRange] <;> omega

/-- R57: the span counts the increases of the seconds count. -/
theorem tick_span (tr : Int) {c : Calendar} (hc : calendarInRange c) :
    (c.tick tr).span = if c.seconds < (c.tick tr).seconds then (c.span + 1) % 4096 else c.span := by
  rcases tick_cases tr hc with ⟨hend, h⟩ | ⟨hend, hf, h⟩ | ⟨hend, hf, hs, h⟩ | ⟨hs, hf, h⟩ <;> simp [h]

/-- R57, R58: the end of a span sets a correction; an increment takes one from the correction pending. -/
theorem tick_correction (tr : Int) {c : Calendar} (hc : calendarInRange c) :
    (c.tick tr).correction =
      if c.seconds < (c.tick tr).seconds ∧ c.span = 4095 ∧ tr ≠ 0 then tr
      else if c.seconds = 4294967295 ∧ c.fraction = 1023 then c.correction else correctionAfter c.correction := by
  rcases tick_cases tr hc with ⟨hend, h⟩ | ⟨hend, hf, h⟩ | ⟨hend, hf, hs, h⟩ | ⟨hs, hf, h⟩
  · simp [h, hend]
  · simp [h, hend]
  · simp [h, hend]
  · have hne : c.seconds ≠ 4294967295 := Nat.ne_of_lt hs
    simp [h, hne]

@[simp] theorem tick_flags (tr : Int) (c : Calendar) : (c.tick tr).valid = c.valid ∧ (c.tick tr).lost = c.lost := by
  simp only [Calendar.tick, Calendar.nextSecond]; (repeat' split) <;> exact ⟨rfl, rfl⟩

/-! ### The tick increment -/

/-- R50: the tick increment on a domain that holds its state. -/
theorem exec_tickIncrement {s : State} (hp : s.cal.powered = true) :
    exec .tickIncrement s =
      .next (if s.cal.seconds < (ticked s).cal.seconds then secondPassed (ticked s) else ticked s) := by
  simp only [exec, execTickIncrement, restartDomain_powered hp]
  rfl

/-- R50: whatever the second brings the run, the calendar is what the increment made it. -/
theorem leadsTo_tickIncrement {s : State} (hp : s.cal.powered = true) :
    leadsTo .tickIncrement s fun t => t.cal = s.cal.tick s.settings.tr := by
  refine ⟨_, exec_tickIncrement hp, ?_⟩
  split
  · simp [ticked]
  · simp [ticked]

theorem supply_tick (x : Supply) :
    x.tick = match x with
      | .returning left => .returning (left - 32)
      | .below => .below
      | .good => .good := by
  cases x <;> rfl

/-- Settles O18: the calendar by the four cases of its increment, the counts by the tick within a second. -/
theorem tickAdvancesCalendarAndCounts : Obligations.TickAdvancesCalendarAndCounts := by
  refine ⟨fun s hp hc => ?_, fun s hp hf hlast => ?_⟩
  · obtain ⟨t, hexec, hcal⟩ := leadsTo_tickIncrement hp
    have hnow : now t = (s.cal.tick s.settings.tr).seconds * 1024 + (s.cal.tick s.settings.tr).fraction := by
      rw [← hcal]; rfl
    refine ⟨t, hexec, ?_⟩
    simp only [hnow, hcal]
    exact ⟨tick_instant _ hc, tick_inRange _ hc, (tick_flags _ _).1, (tick_flags _ _).2, tick_span _ hc,
      tick_correction _ hc⟩
  · have hend : ¬ (s.cal.seconds = 4294967295 ∧ s.cal.fraction = 1023) := fun h => by have := hlast h.1; omega
    have htick := tick_within s.settings.tr hend hf
    have hsame : ¬ s.cal.seconds < (ticked s).cal.seconds := by simp [ticked, htick]
    rw [exec_tickIncrement hp, if_neg hsame, ticked, htick]
    simp only [countSlow, supply_tick]
    rfl

end Sys2Proof.CalendarWindows
end

