-- ==== Sys2Proof/Proofs/CaptureWindows.lean ====
section
/-! SUPPORT. The window test and the opening instant (R59, R60). A window is a set of intervals, one for each included
day, from the instant at which that day opens it to the instant that closes it; with these two instants named, the
three shapes of a window need one argument. -/

namespace Sys2Proof.CalendarWindows

open Sys2Proof Sys2Proof.Machine

/-! ### The intervals of a window (R59) -/

/-- R59, R60: the instant at which day `d` opens the window. -/
def opensOn (a b d : Nat) : Tick := minuteStart d (if a = b then 0 else a)

/-- R59: the instant at which the window that day `d` opened closes. -/
def closesAfter (a b d : Nat) : Tick := minuteStart (if a < b then d else d + 1) (if a = b then 0 else b)

/-- R2: DAYS includes the weekday of day `d`. -/
def dayIncluded (days d : Nat) : Bool := includesDay days (weekdayOf d)

/-- R59: the morning of day 0 belongs to a window across midnight that weekday 6 opened before the calendar began. -/
def beforeDayZero (a b days : Nat) (x : Tick) : Prop := b < a ∧ x < minuteStart 0 b ∧ includesDay days 6 = true

theorem includesDay_before_succ (days d : Nat) : includesDay days (weekdayBefore (d + 1)) = dayIncluded days d := by
  have h : weekdayBefore (d + 1) = weekdayOf d := by unfold weekdayBefore weekdayOf; omega
  rw [h, dayIncluded]

/-- The start of a minute has been reached when its second has. -/
theorem minuteStart_le_iff (d m x : Nat) : minuteStart d m ≤ x ↔ d * 86400 + m * 60 ≤ x / 1024 :=
  (Nat.le_div_iff_mul_le (by decide)).symm

theorem lt_minuteStart_iff (d m x : Nat) : x < minuteStart d m ↔ x / 1024 < d * 86400 + m * 60 :=
  (Nat.div_lt_iff_lt_mul (by decide)).symm

/-- An instant lies on a day from its start to the start of the next. -/
theorem dayOf_iff (d : Nat) (x : Tick) :
    dayOf (x / Config.ticksPerSecond) = d ↔ minuteStart d 0 ≤ x ∧ x < minuteStart (d + 1) 0 := by
  simp only [minuteStart_le_iff, lt_minuteStart_iff, dayOf, Config.ticksPerSecond]; omega

/-- Minute `m` of a day has been reached exactly when its start has. -/
theorem minuteOf_iff {d : Nat} {x : Tick} (hd : dayOf (x / Config.ticksPerSecond) = d) (m : Nat) :
    m ≤ minuteOf (x / Config.ticksPerSecond) ↔ minuteStart d m ≤ x := by
  simp only [minuteStart_le_iff, dayOf, minuteOf, Config.ticksPerSecond] at *; omega

/-- R59: a window of whole days. -/
theorem windowOpen_wholeDays (a days : Nat) (x : Tick) :
    windowOpen (some (a, a)) days x = true ↔
      ∃ d, dayIncluded days d = true ∧ minuteStart d 0 ≤ x ∧ x < minuteStart (d + 1) 0 := by
  simp only [← dayOf_iff, windowOpen, if_true, dayIncluded]
  exact ⟨fun h => ⟨_, h, rfl⟩, fun ⟨d, h, hd⟩ => hd ▸ h⟩

/-- R59: a window within a day. -/
theorem windowOpen_sameDay {a b : Nat} (hab : a < b) (hb : b < 1440) (days : Nat) (x : Tick) :
    windowOpen (some (a, b)) days x = true ↔
      ∃ d, dayIncluded days d = true ∧ minuteStart d a ≤ x ∧ x < minuteStart d b := by
  have hday : ∀ d, minuteStart d a ≤ x → x < minuteStart d b → dayOf (x / Config.ticksPerSecond) = d := by
    intro d h1 h2
    rw [dayOf_iff]
    simp only [minuteStart_le_iff, lt_minuteStart_iff] at *; omega
  simp only [windowOpen, Nat.ne_of_lt hab, hab, if_true, if_false, Bool.and_eq_true, decide_eq_true_eq, ← not_le,
    minuteOf_iff rfl]
  exact ⟨fun ⟨⟨h1, h2⟩, h⟩ => ⟨_, h, h1, h2⟩, fun ⟨d, h, h1, h2⟩ => by
    obtain rfl := hday d h1 (not_le.1 h2)
    exact ⟨⟨h1, h2⟩, h⟩⟩

/-- R59: a window across midnight. -/
theorem windowOpen_overMidnight {a b : Nat} (hab : b < a) (ha : a < 1440) (days : Nat) (x : Tick) :
    windowOpen (some (a, b)) days x = true ↔
      (∃ d, dayIncluded days d = true ∧ minuteStart d a ≤ x ∧ x < minuteStart (d + 1) b) ∨
        beforeDayZero a b days x := by
  obtain ⟨e, he⟩ : ∃ e, dayOf (x / Config.ticksPerSecond) = e := ⟨_, rfl⟩
  have hlies := (dayOf_iff e x).1 he
  have hday : ∀ d, minuteStart d a ≤ x → x < minuteStart (d + 1) b → d = e ∨ d + 1 = e := by
    intro d h1 h2
    simp only [minuteStart_le_iff, lt_minuteStart_iff] at *; omega
  simp only [windowOpen, Nat.ne_of_gt hab, Nat.not_lt.2 (Nat.le_of_lt hab), if_false, Bool.or_eq_true, Bool.and_eq_true,
    decide_eq_true_eq, ← not_le, minuteOf_iff rfl, he]
  constructor
  · rintro (⟨h1, h⟩ | ⟨h2, h⟩)
    · refine .inl ⟨e, h, h1, ?_⟩
      simp only [minuteStart_le_iff, lt_minuteStart_iff] at *; omega
    · rcases e with _ | d
      · exact .inr ⟨hab, not_le.1 h2, h⟩
      · rw [includesDay_before_succ] at h
        refine .inl ⟨d, h, ?_, h2⟩
        simp only [minuteStart_le_iff, lt_minuteStart_iff] at *; omega
  · rintro (⟨d, h, h1, h2⟩ | ⟨-, h2, h⟩)
    · rcases hday d h1 (not_le.1 h2) with rfl | rfl
      · exact .inl ⟨h1, h⟩
      · exact .inr ⟨h2, by rwa [includesDay_before_succ]⟩
    · obtain rfl : e = 0 := by simp only [minuteStart_le_iff, lt_minuteStart_iff] at *; omega
      exact .inr ⟨not_le.2 h2, h⟩

/-- R59: the window is open exactly inside the interval of an included day, or on the morning of day 0 that weekday 6
holds open. -/
theorem windowOpen_iff {a b : Nat} (ha : a < 1440) (hb : b < 1440) (days : Nat) (x : Tick) :
    windowOpen (some (a, b)) days x = true ↔
      (∃ d, dayIncluded days d = true ∧ opensOn a b d ≤ x ∧ x < closesAfter a b d) ∨ beforeDayZero a b days x := by
  rcases Nat.lt_trichotomy a b with hab | rfl | hab
  · simp [windowOpen_sameDay hab hb, opensOn, closesAfter, beforeDayZero, hab, Nat.ne_of_lt hab,
      Nat.not_lt.2 (Nat.le_of_lt hab)]
  · simp [windowOpen_wholeDays, opensOn, closesAfter, beforeDayZero]
  · simp [windowOpen_overMidnight hab ha, opensOn, closesAfter, Nat.ne_of_gt hab, Nat.not_lt.2 (Nat.le_of_lt hab)]

/-- R60: a window that is closed at `x` and open at a later `y` was opened between them. -/
theorem opensOn_between {a b days : Nat} {x y : Tick} (ha : a < 1440) (hb : b < 1440)
    (hx : windowOpen (some (a, b)) days x = false) (hxy : x ≤ y) (hy : windowOpen (some (a, b)) days y = true) :
    ∃ d, dayIncluded days d = true ∧ x < opensOn a b d ∧ opensOn a b d ≤ y := by
  have hclosed := mt (windowOpen_iff ha hb days x).2 (by simp [hx])
  rcases (windowOpen_iff ha hb days y).1 hy with ⟨d, hd, hfrom, hto⟩ | ⟨hab, hto, h6⟩
  · refine ⟨d, hd, ?_, hfrom⟩
    by_contra hle
    exact hclosed (.inl ⟨d, hd, not_lt.1 hle, lt_of_le_of_lt hxy hto⟩)
  · exact absurd (.inr ⟨hab, lt_of_le_of_lt hxy hto, h6⟩) hclosed

theorem opensOn_lt_closesAfter {a b : Nat} (ha : a < 1440) (d : Nat) : opensOn a b d < closesAfter a b d := by
  simp only [opensOn, closesAfter, minuteStart]
  refine Nat.mul_lt_mul_of_pos_right ?_ (by decide)
  (repeat' split) <;> omega

theorem windowOpen_opensOn {a b days d : Nat} (ha : a < 1440) (hb : b < 1440) (hd : dayIncluded days d = true) :
    windowOpen (some (a, b)) days (opensOn a b d) = true :=
  (windowOpen_iff ha hb days _).2 (.inl ⟨d, hd, le_refl _, opensOn_lt_closesAfter ha d⟩)

/-! ### The search for the opening instant (R60) -/

/-- R60: the first day whose opening is a candidate: for whole days the day after `x`'s. -/
def firstDay (a b : Nat) (x : Tick) : Nat := dayOf (x / Config.ticksPerSecond) + if a = b then 1 else 0

/-- R60: the number of candidates. -/
def candidateCount (a b : Nat) : Nat := if a = b then 7 else 8

theorem openingCandidates_eq (a b : Nat) (x : Tick) : openingCandidates a b x =
    (List.range (candidateCount a b)).map fun i => (firstDay a b x + i, opensOn a b (firstDay a b x + i)) := by
  unfold openingCandidates candidateCount firstDay opensOn
  split <;> rfl

/-- R60: the search takes the first candidate that comes later than `x` on an included day. -/
theorem nextOpening_eq_some {a b days i : Nat} {x : Tick} (hi : i < candidateCount a b)
    (hlater : x < opensOn a b (firstDay a b x + i)) (hd : dayIncluded days (firstDay a b x + i) = true)
    (hfirst : ∀ j < i, x < opensOn a b (firstDay a b x + j) → dayIncluded days (firstDay a b x + j) = false) :
    nextOpening (some (a, b)) days x = some (opensOn a b (firstDay a b x + i)) := by
  have hfind : (List.range (candidateCount a b)).find?
      (fun i => decide (x < opensOn a b (firstDay a b x + i)) && dayIncluded days (firstDay a b x + i)) = some i := by
    rw [List.find?_range_eq_some]
    refine ⟨by simp [hlater, hd], List.mem_range.2 hi, fun j hj => ?_⟩
    by_cases h : x < opensOn a b (firstDay a b x + j) <;> simp [h, hfirst j hj]
  simp only [nextOpening, openingCandidates_eq, List.find?_map, Option.map_map]
  exact congrArg (Option.map _) hfind

theorem includesDay_some {days : Nat} (h1 : 1 ≤ days) (h127 : days ≤ 127) : ∃ w < 7, includesDay days w = true := by
  have h : ∀ days < 128, 1 ≤ days → ∃ w < 7, includesDay days w = true := by decide
  exact h days (by omega) h1

/-- R60: the days 1 to 7 after any day hold every weekday. -/
theorem dayIncluded_within {days : Nat} (h1 : 1 ≤ days) (h127 : days ≤ 127) (d : Nat) :
    ∃ i < 7, dayIncluded days (d + 1 + i) = true := by
  obtain ⟨w, hw, h⟩ := includesDay_some h1 h127
  refine ⟨(w + 13 - (d + 7) % 7) % 7, Nat.mod_lt _ (by omega), ?_⟩
  have hday : weekdayOf (d + 1 + (w + 13 - (d + 7) % 7) % 7) = w := by unfold weekdayOf; omega
  rw [dayIncluded, hday, h]

theorem opensOn_strictMono (a b : Nat) : StrictMono (opensOn a b) := by
  intro d e h
  refine Nat.mul_lt_mul_of_pos_right ?_ (by decide)
  omega

/-- R60: the days after `x`'s open the window later than `x`, those before it earlier; a window of whole days was opened
on `x`'s own day at its start. -/
theorem lt_opensOn_iff {a b d : Nat} (ha : a < 1440) (x : Nat) (hd : d ≠ dayOf (x / Config.ticksPerSecond) ∨ a = b) :
    x < opensOn a b d ↔ dayOf (x / Config.ticksPerSecond) < d := by
  unfold opensOn
  rw [lt_minuteStart_iff]
  simp only [dayOf, Config.ticksPerSecond] at *
  split <;> omega

/-- R60: a day whose opening comes later than `x` is not before the first candidate's. -/
theorem firstDay_le {a b d : Nat} {x : Tick} (ha : a < 1440) (h : x < opensOn a b d) : firstDay a b x ≤ d := by
  unfold firstDay
  by_contra hlt
  have hd : d ≠ dayOf (x / Config.ticksPerSecond) ∨ a = b := by split at hlt <;> omega
  have hday := (lt_opensOn_iff ha x hd).1 h
  split at hlt <;> omega

/-- R60: one of the candidates opens the window later than `x`. -/
theorem candidate_exists {a b days : Nat} (ha : a < 1440) (h1 : 1 ≤ days) (h127 : days ≤ 127) (x : Tick) :
    ∃ i, i < candidateCount a b ∧ x < opensOn a b (firstDay a b x + i) ∧
      dayIncluded days (firstDay a b x + i) = true := by
  obtain ⟨i, hi, hd⟩ := dayIncluded_within h1 h127 (dayOf (x / Config.ticksPerSecond))
  have hlater : x < opensOn a b (dayOf (x / Config.ticksPerSecond) + 1 + i) :=
    (lt_opensOn_iff ha x (.inl (by omega))).2 (by omega)
  unfold firstDay candidateCount
  split
  · exact ⟨i, hi, hlater, hd⟩
  · refine ⟨i + 1, by omega, ?_, ?_⟩ <;> rw [Nat.add_zero, ← Nat.add_assoc, Nat.add_right_comm]
    · exact hlater
    · exact hd

/-- R60: the search finds the first opening later than `x`. -/
theorem nextOpening_least {a b days : Nat} (ha : a < 1440) (h1 : 1 ≤ days) (h127 : days ≤ 127) (x : Tick) :
    ∃ d, nextOpening (some (a, b)) days x = some (opensOn a b d) ∧ dayIncluded days d = true ∧ x < opensOn a b d ∧
      ∀ e, dayIncluded days e = true → x < opensOn a b e → opensOn a b d ≤ opensOn a b e := by
  have hex := candidate_exists (b := b) ha h1 h127 x
  obtain ⟨hi, hlater, hd⟩ := Nat.find_spec hex
  have hfirst : ∀ j < Nat.find hex, x < opensOn a b (firstDay a b x + j) →
      dayIncluded days (firstDay a b x + j) = false :=
    fun j hj hx => Bool.eq_false_iff.2 fun h => Nat.find_min hex hj ⟨lt_trans hj hi, hx, h⟩
  refine ⟨_, nextOpening_eq_some hi hlater hd hfirst, hd, hlater, fun e he hx => ?_⟩
  obtain ⟨j, rfl⟩ := Nat.exists_eq_add_of_le (firstDay_le ha hx)
  refine (opensOn_strictMono a b).monotone (Nat.add_le_add_left (not_lt.1 fun hj => ?_) _)
  simp [hfirst j hj hx] at he

/-- Settles O19: the search finds the first opening instant after X, and a window that is closed at X stays closed until
one of its days opens it. -/
theorem openingIsFirstOpenInstant : Obligations.OpeningIsFirstOpenInstant := by
  intro a b days x ha hb h1 h127 hx
  obtain ⟨d, hfound, hd, hlater, hleast⟩ := nextOpening_least (b := b) ha h1 h127 x
  refine ⟨_, hfound, hlater, Nat.mul_mod_left _ _, windowOpen_opensOn ha hb hd, fun y hxy hyw => ?_⟩
  rw [Bool.eq_false_iff]
  intro hy
  obtain ⟨e, he, hxe, hey⟩ := opensOn_between ha hb hx hxy hy
  exact absurd (lt_of_le_of_lt hey hyw) (not_lt.2 (hleast e he hxe))

end Sys2Proof.CalendarWindows
end

