-- ==== Sys2Proof/Proofs/TimeAndBackup.lean ====
section
/-! SUPPORT. TIME alone and the checks of its arguments (R55, R56), and the backup domain that loses its state and
restarts (R53, R141). -/

namespace Sys2Proof.CalendarWindows

open Sys2Proof Sys2Proof.Machine Sys2Proof.Sequencing

/-! ### TIME (R55, R56) -/

theorem timeInRange_iff (sec frac : Int) :
    timeInRange sec frac = true ↔ 0 ≤ sec ∧ sec ≤ 4294967295 ∧ 0 ≤ frac ∧ frac < 1024 := by
  simp only [timeInRange, Bool.and_eq_true, decide_eq_true_iff, and_assoc]
  rfl

/-- R56: a malformed argument, or a third one. -/
theorem exec_timeSet_malformed {t : Token} {ts : List Token} {s : State} (hf : LinkFree s)
    (h : readTime (t :: ts) = none) :
    exec (.timeSet (t :: ts)) s = .next (s.answering ["!SYNTAX TIME".toList]) := by
  have ho : ownTime (t :: ts) s = (s, noLine .malformed .time) := by simp [ownTime, h]
  exact exec_line (v := .time) (p := (_, _)) hf rfl (congrArg replied ho)

/-- R56: a number out of its range. -/
theorem exec_timeSet_outOfRange {t : Token} {ts : List Token} {x y : Int} {s : State} (hf : LinkFree s)
    (h : readTime (t :: ts) = some (x, y)) (hr : x < 0 ∨ 4294967295 < x ∨ y < 0 ∨ 1023 < y) :
    exec (.timeSet (t :: ts)) s = .next (s.answering ["!RANGE TIME".toList]) := by
  have hnot : timeInRange x y = false := by
    rw [Bool.eq_false_iff, ne_eq, timeInRange_iff]; omega
  have ho : ownTime (t :: ts) s = (s, noLine .range .time) := by simp [ownTime, h, hnot]
  exact exec_line (v := .time) (p := (_, _)) hf rfl (congrArg replied ho)

/-- R56: the arguments of TIME act by the two numbers read from them. -/
theorem exec_timeSet_congr {t t' : Token} {ts ts' : List Token} {s : State} (hf : LinkFree s)
    (h : readTime (t :: ts) = readTime (t' :: ts')) : exec (.timeSet (t :: ts)) s = exec (.timeSet (t' :: ts')) s := by
  have ho : ownTime (t :: ts) s = ownTime (t' :: ts') s := by simp [ownTime, h]
  have hexec (u : Token) (us : List Token) := exec_line (c := .timeSet (u :: us)) (v := .time) hf rfl rfl
  rw [hexec, hexec, ho]

/-- Settles O22: TIME alone by its report, TIME with arguments by its reading of them. -/
theorem timeReportsAndChecks : Obligations.TimeReportsAndChecks := by
  refine ⟨fun s hf => ?_, fun s t u hf => ⟨fun sec hsec => ?_, fun x hx hr => ?_, fun x y hx hy hr => ?_, fun hn => ?_,
    fun v vs => exec_timeSet_malformed hf rfl⟩⟩
  · rw [← timeReply_eq]
    exact exec_line (v := .time) (p := (s, timeReply s)) hf rfl rfl
  · refine exec_timeSet_congr hf ?_
    simp [readTime, readNumber_natText (show sec < 10 ^ 10 by omega), readNumber_natText (show 0 < 10 ^ 10 by omega)]
  · exact exec_timeSet_outOfRange hf (x := x) (y := 0) (by simp [readTime, hx]) (by omega)
  · exact exec_timeSet_outOfRange hf (by simp [readTime, hx, hy]) hr
  · refine exec_timeSet_malformed hf ?_
    rcases hn with hn | hn
    · simp [readTime, hn]
    · cases ht : readNumber t <;> simp [readTime, hn, ht]

/-! ### The backup domain (R53, R141) -/

theorem exec_vbatReturn {s : State} (h : s.supply = .below) :
    exec .vbatReturn s = .next (restartDomain { s with supply := .returning 8192 }) := by
  simp only [exec, execVbatReturn, h, if_true]
  rfl

theorem exec_vbatReturn_fed {s : State} (h : s.supply ≠ .below) : exec .vbatReturn s = .next s := by
  simp only [exec, execVbatReturn, h, if_false]

theorem exec_backupDomainLoss {s : State} (h : s.supply = .below) :
    exec .backupDomainLoss s = .next (loseDomain s) := by
  simp only [exec, execBackupDomainLoss, h, if_true]

theorem exec_backupDomainLoss_fed {s : State} (h : s.supply ≠ .below) : exec .backupDomainLoss s = .next s := by
  simp only [exec, execBackupDomainLoss, h, if_false]

/-- R53: the restarted domain counts its first tick. -/
theorem tick_restarted : Calendar.restarted.tick 0 = { Calendar.restarted with fraction := 1 } := rfl

/-- R53: a tick that finds the domain without its state restarts it and counts from 0. -/
theorem exec_tickIncrement_unpowered {s : State} (h : s.cal.powered = false) :
    exec .tickIncrement s = .next (countSlow { s with
      cal := { Calendar.restarted with fraction := 1 }, settings := { s.settings with tr := 0 } }) := by
  simp only [exec, execTickIncrement, restartDomain_unpowered h, tick_restarted]
  rfl

/-- Settles O23: the loss by the values it sets, the return on VBAT by the restart, the return on VBKP by the tick. -/
theorem backupDomainRestarts : Obligations.BackupDomainRestarts := by
  refine fun s => ⟨fun hs => ⟨exec_backupDomainLoss_fed hs, exec_vbatReturn_fed hs⟩, fun hs hp => ?_, fun hs => ?_⟩
  · rw [exec_vbatReturn hs]
    exact congrArg Host.Outcome.next (restartDomain_powered hp)
  · have hbelow : (loseDomain s).supply = .below := hs
    refine ⟨_, exec_backupDomainLoss hs, rfl, rfl, rfl, ?_, _, exec_tickIncrement_unpowered rfl, rfl, rfl, ?_, rfl, rfl⟩
    · rw [exec_vbatReturn hbelow, restartDomain_unpowered rfl]
      rfl
    · exact congrArg Supply.tick hs

end Sys2Proof.CalendarWindows
end

