-- ==== Sys2Proof/Proofs/ColdStarts.lean ====
section
/-! SUPPORT. The cold start (R53, R141, R174, R187): what its steps leave of each block, and the four rows that make
one. -/

namespace Sys2Proof.CalendarWindows

open Sys2Proof Sys2Proof.Machine Sys2Proof.Sequencing

/-! ### The steps of a cold start (R187) -/

/-- R187 step 1: the lost marker is cleared, and it alone of the calendar. -/
theorem reportLost_cal (s : State) : (reportLost s).cal = { s.cal with lost := false } := by
  unfold reportLost
  cases h : s.cal.lost
  · exact congrArg (fun b => { s.cal with lost := b }) h
  · simp

/-- R187 step 1: with no notice standing, a lost calendar is the one reported. -/
theorem reportLost_notices {s : State} (h : s.notices = []) :
    (reportLost s).notices = if s.cal.lost then [Notice.timeLost] else [] := by
  unfold reportLost
  cases s.cal.lost
  · simpa using h
  · simp [raise, refreshAttn, h, Notice.all]

/-- R187 step 2: what the check of the image gives the plan, the settings and the meter. -/
theorem checkImage_loads (s : State) :
    (checkImage s).plan = { slots := if s.image.good then s.image.contents.slots else emptySlots, staging := none } ∧
    (checkImage s).settings = (if s.image.good then s.image.contents.settings else Settings.default) ∧
    (checkImage s).meter = { s.meter with
      dark := if s.image.good then s.image.contents.dark else 0
      tcal := if s.image.good then s.image.contents.tcal else none } := by
  unfold checkImage
  cases s.image.good <;> exact ⟨rfl, rfl, rfl⟩

/-- R187 step 2: a bad image is reported after what stands. -/
theorem checkImage_notices {s : State} (h : s.notices = [] ∨ s.notices = [Notice.timeLost]) :
    (checkImage s).notices = s.notices ++ if s.image.good then [] else [Notice.storeBad] := by
  unfold checkImage
  cases s.image.good
  · rcases h with h | h <;> simp [raise, refreshAttn, loadImage, h, Notice.all]
  · simp

/-- R181: the check of the image leaves ATTN following the notices and the attention enable. -/
theorem checkImage_pins (s : State) : (checkImage s).pins =
    { s.pins with attn := !(checkImage s).notices.isEmpty && (checkImage s).settings.atOn } := by
  unfold checkImage
  split <;> rfl

theorem reportLost_pins (s : State) : (reportLost s).pins = { s.pins with attn := (reportLost s).pins.attn } := by
  unfold reportLost
  split <;> rfl

/-- R187: the part with steps 1 and 2 of the start-up sequence taken. -/
def imageChecked (s : State) : State := checkImage (reportLost (powerOnValues s))

theorem coldStart_eq (s : State) : coldStart s = startMeasurement false
    { imageChecked s with startUp := .series { lost := s.cal.lost, trim := s.settings.tr } } := rfl

theorem imageChecked_notices (s : State) : (imageChecked s).notices =
    (if s.cal.lost then [Notice.timeLost] else []) ++ (if s.image.good then [] else [Notice.storeBad]) := by
  have hlost : (reportLost (powerOnValues s)).notices = if s.cal.lost then [Notice.timeLost] else [] :=
    reportLost_notices rfl
  rw [imageChecked, checkImage_notices (by rw [hlost]; cases s.cal.lost <;> simp), hlost]
  simp

/-- R182: after the sequence's two steps ATTN shows whether one of them had something to report. -/
theorem imageChecked_pins (s : State) : (imageChecked s).pins =
    { s.pins.rest with attn := (s.cal.lost || !s.image.good) && (imageChecked s).settings.atOn } := by
  have hstands : (!(imageChecked s).notices.isEmpty) = (s.cal.lost || !s.image.good) := by
    rw [imageChecked_notices]
    cases s.cal.lost <;> cases s.image.good <;> rfl
  rw [← hstands]
  exact (checkImage_pins _).trans (by rw [reportLost_pins]; rfl)

/-- R187: the blocks that the two steps leave at their power-on values, and the calendar with its marker cleared. -/
theorem imageChecked_blocks (s : State) :
    (imageChecked s).seq = Sequencer.cold ∧ (imageChecked s).engine = Engine.cold ∧
    (imageChecked s).expo = Calculator.cold ∧ (imageChecked s).clock = Clock.cold ∧
    (imageChecked s).link = Link.cold ∧ (imageChecked s).log = [] ∧ (imageChecked s).power = Supervisor.cold ∧
    (imageChecked s).cal = { s.cal with lost := false } ∧ (imageChecked s).image = s.image := by
  simp [imageChecked, powerOnValues, reportLost_cal]

/-- R187: a cold start, block by block. -/
theorem coldStart_coldStarted (s : State) : coldStarted s (coldStart s) := by
  obtain ⟨hplan, hset, hmeter⟩ := checkImage_loads (reportLost (powerOnValues s))
  obtain ⟨hseq, hengine, hexpo, hclock, hlink, hlog, hpower, hcal, himage⟩ := imageChecked_blocks s
  have hpins := imageChecked_pins s
  rw [coldStart_eq]
  refine ⟨hseq, hengine, hexpo, hclock, hlink, hlog, ?power, ?plan, ?settings, ?meter, imageChecked_notices s, hcal,
    himage, rfl, ?pins⟩
  case power => simp [startMeasurement, hpower, hpins, Supervisor.cold, Pins.rest, Config.measurementCycles]
  case plan => exact hplan.trans (by simp)
  case settings => exact hset.trans (by simp)
  case meter => exact hmeter.trans (by simp [powerOnValues])
  case pins => simp [startMeasurement, hpins, Pins.rest]

/-! ### The rows that make a cold start (R53, R141, R174, R187) -/

theorem exec_powerOn {s : State} (h : s.supply = .below) :
    (s.nrstLow = false → exec .powerOn s = .next (coldStart (restartDomain { s with supply := .good }))) ∧
    (s.nrstLow = true → exec .powerOn s = .next (restartDomain { s with supply := .good })) := by
  constructor <;> intro hn <;> simp [exec, execPowerOn, h, hn]

theorem exec_nrstRelease {s : State} (hn : s.nrstLow = true) :
    (s.supply = .good → exec .nrstRelease s = .next (coldStart { s with nrstLow := false })) ∧
    (s.supply ≠ .good → exec .nrstRelease s = .next { s with nrstLow := false }) := by
  constructor <;> intro h <;> simp [exec, execNrstRelease, h, hn]

theorem exec_brownoutRecovery {s : State} {left : Nat} (hl : left < 32) (h : s.supply = .returning left) :
    (s.nrstLow = false → exec .brownoutRecovery s = .next (coldStart { s with supply := .good })) ∧
    (s.nrstLow = true → exec .brownoutRecovery s = .next { s with supply := .good }) := by
  constructor <;> intro hn <;> simp [exec, execBrownoutRecovery, h, hn, (ranOut_iff left).2 hl]

theorem exec_replySent_cold {s : State} {r : List Text} (h : s.link.state = .sending r .cold) :
    exec .replySent s = .next (coldStart (setLink .ready s)) := by
  simp only [exec, execReplySent, replyDone, h]

/-- A row that makes a cold start leads to what the cold start makes of the state that it starts. -/
theorem leadsTo_coldStart {c : Instr} {s x : State} {P : State → Prop} (hexec : exec c s = .next (coldStart x))
    (hP : ∀ t, coldStarted x t → t.supply = x.supply → t.nrstLow = x.nrstLow → P t) : leadsTo c s P :=
  ⟨_, hexec, hP _ (coldStart_coldStarted x) (by simp) (by simp)⟩

/-- Settles O24: each row is the cold start of a state that differs from its own in the supply, nRST, the link or the
backup domain alone. -/
theorem coldStartsBegin : Obligations.ColdStartsBegin := by
  refine ⟨fun s => ⟨fun hs hn hp => ?powerOn, fun hs hn hp => ?powerOnLost, fun hs hn => ?release,
    fun left hl hs hn => ?recovery, fun left hl hs hn => ?recoveryHeld, fun hs hn hp => ?powerOnHeld,
    fun hs hn => ?releaseUnfed⟩, fun s r hr => ?resetCold⟩
  case powerOn =>
    have hexec := (exec_powerOn hs).1 hn
    rw [restartDomain_powered (by exact hp)] at hexec
    exact leadsTo_coldStart hexec fun t ht hsupply hlow => ⟨ht, hsupply, hlow.trans hn⟩
  case powerOnLost =>
    have hexec := (exec_powerOn hs).1 hn
    rw [restartDomain_unpowered (by exact hp)] at hexec
    exact leadsTo_coldStart hexec fun t ht hsupply _ => ⟨ht, hsupply⟩
  case release =>
    exact leadsTo_coldStart ((exec_nrstRelease hn).1 hs) fun t ht hsupply hlow => ⟨ht, hsupply.trans hs, hlow⟩
  case recovery =>
    exact leadsTo_coldStart ((exec_brownoutRecovery hl hs).1 hn)
      fun t ht hsupply hlow => ⟨ht, hsupply, hlow.trans hn⟩
  case recoveryHeld => exact (exec_brownoutRecovery hl hs).2 hn
  case powerOnHeld =>
    rw [(exec_powerOn hs).2 hn]
    exact congrArg Host.Outcome.next (restartDomain_powered hp)
  case releaseUnfed => exact (exec_nrstRelease hn).2 hs
  case resetCold => exact leadsTo_coldStart (exec_replySent_cold hr) fun t ht hsupply hlow => ⟨ht, hsupply, hlow⟩

end Sys2Proof.CalendarWindows
end

