-- ==== Sys2Proof/Proofs/FastClock.lean ====
section
/-! SUPPORT. The fast clock (R88, R144 to R148): the meter's request joined and left, the check periods, and what a
failure leaves. -/

namespace Sys2Proof.SceneMetering

open Sys2Proof Sys2Proof.Machine Sys2Proof.Sequencing

theorem fastRanOut_iff (left : Nat) : fastRanOut left = true ↔ left ≤ 4012 := decide_eq_true_iff

/-! ### The meter's request (R145, R148) -/

/-- R145: the meter joins the requester set, and a clock that is OFF or FAILED starts. -/
theorem request_meter {c : Clock} (h : c.meterAsks = false) : c.request .meter = clockAsked c := by
  rcases hstate : c.state <;> simp [Clock.request, Clock.asks, Clock.setAsk, Clock.begin, clockAsked, h, hstate,
    Config.clockStartCycles]

/-- R148: the meter leaves the requester set, and a clock that nobody else requests stops. -/
theorem drop_meter (c : Clock) : c.drop .meter = clockLeft c.shotAsks { c with meterAsks := false } := by
  rcases hshot : c.shotAsks with _ | _ <;> rcases hstate : c.state <;>
    simp [Clock.drop, Clock.setAsk, clockLeft, hshot, hstate]

/-- R148: a clock that has failed stays FAILED. -/
theorem drop_meter_failed {c : Clock} (h : c.state = .failed) : c.drop .meter = { c with meterAsks := false } := by
  simp [drop_meter, h]

/-- R88, R145: a request of the meter finds the clock RUNNING and its work begins, or it waits. -/
theorem requestClock_meter {s : State} (h : s.clock.meterAsks = false) : requestClock .meter s = { s with
    meter := { s.meter with
      state := if s.clock.state = .running then s.meter.state.clockReady else s.meter.state }
    clock := clockAsked s.clock } := by
  simp only [requestClock, request_meter h]
  rcases hstate : s.clock.state <;> simp [tellMeterRunning, clockAsked, hstate]

/-! ### Check periods (R146, R147) -/

theorem goodPeriod_iff (n : Nat) : goodPeriod n = true ↔ 3800 ≤ n ∧ n ≤ 4012 := by
  simp only [goodPeriod, Bool.and_eq_true, decide_eq_true_iff]; rfl

theorem goodPeriod_false {n : Nat} (h : n < 3800 ∨ 4012 < n) : goodPeriod n = false := by
  rw [Bool.eq_false_iff, ne_eq, goodPeriod_iff]; omega

/-- R146: the first good period of a start is counted, the second makes the clock stable. -/
theorem exec_clockPeriodEnd_starting_good {n : Nat} {s : State} (hs : s.clock.state = .starting)
    (hn : 3800 ≤ n ∧ n ≤ 4012) :
    (s.clock.goodPeriods = 0 →
      exec (.clockPeriodEnd n) s = .next { s with clock := { s.clock with goodPeriods := 1 } }) ∧
    (s.clock.goodPeriods = 1 → exec (.clockPeriodEnd n) s = .next (clockStable s)) := by
  constructor <;> intro hg <;>
    simp [exec, execClockPeriodEnd, hs, (goodPeriod_iff n).2 hn, hg, Config.goodPeriodsNeeded]

/-- R146: a period that is not good starts the count of a start afresh. -/
theorem exec_clockPeriodEnd_starting_bad {n : Nat} {s : State} (hs : s.clock.state = .starting)
    (hn : n < 3800 ∨ 4012 < n) :
    exec (.clockPeriodEnd n) s = .next { s with clock := { s.clock with goodPeriods := 0 } } := by
  simp [exec, execClockPeriodEnd, hs, goodPeriod_false hn]

/-- R146, R147: a period of the running clock counts for everything that the clock times, or fails it. -/
theorem exec_clockPeriodEnd_running {n : Nat} {s : State} (hs : s.clock.state = .running) :
    (3800 ≤ n ∧ n ≤ 4012 → exec (.clockPeriodEnd n) s = .next (countFast n s)) ∧
    (n < 3800 ∨ 4012 < n → exec (.clockPeriodEnd n) s = .next (failClock s)) := by
  constructor <;> intro hn
  · simp [exec, execClockPeriodEnd, hs, (goodPeriod_iff n).2 hn]
  · simp [exec, execClockPeriodEnd, hs, goodPeriod_false hn]

/-- R73, R90: a good period's count is taken off the meter's work and off the bulb that the clock times. -/
theorem countFast_eq (n : Nat) (s : State) : countFast n s =
    withMeter (s.meter.state.advance n) { s with engine := fastBulbCount (·.map (· - n)) s.engine } := rfl

/-- R146: the 655 cycles of a start run out. -/
theorem exec_clockStartTimeout {s : State} (hs : s.clock.state = .starting) (hl : s.clock.startLeft < 32) :
    exec .clockStartTimeout s = .next (failClock s) := by
  simp [exec, execClockStartTimeout, hs, (ranOut_iff _).2 hl]

/-! ### The clock fails (R88, R100, R146, R147) -/

/-- R107, R119: an unavailable reading gives the held shot of a MET segment the held path. -/
theorem requestExposure_held {l : Live} {x : Shot} {o u : Bool} {s : State} (hl : s.seq.live = some l)
    (hm : isMet l.seg = true) (hx : s.engine.shot = some x) :
    ∃ y ∈ (requestExposure .unavailable o u s).engine.shot, y.heldMeter = true ∧ ∃ e ∈ y.exposure, e.path = .held ∧
      (requestExposure .unavailable o u s).pins.gain = BitVec.ofNat 3 e.g := by
  have hpath : (exposureOf l s.seq.shotIndex s.expo .unavailable).path = .held := by
    unfold isMet at hm
    split at hm
    · next hmode => simp [exposureOf, hmode]
    · cases hm
  simp only [requestExposure, hl, hx]
  exact ⟨_, rfl, decide_eq_true hpath, _, rfl, hpath, rfl⟩

/-- R88, R147: the meter told of a failed clock is IDLE without its request, and raises nothing. -/
theorem meterClockFailed_quiet {s : State} (hs : s.clock.state = .failed) :
    (meterClockFailed s).meter.state = .idle ∧ (meterClockFailed s).notices = s.notices ∧
    (meterClockFailed s).clock =
      if s.meter.state = .idle then s.clock else { s.clock with meterAsks := false } := by
  rcases hm : s.meter.state with _ | ⟨who, g, k, step⟩ | ⟨temp, made, sum, left⟩
  case idle => simp [meterClockFailed, hm]
  case converting => cases who <;> simp [meterClockFailed, hm, drop_meter_failed hs]
  case calibrating => simp [meterClockFailed, hm, drop_meter_failed hs]

/-- R146, R147: the fast clock FAILED with CLOCK_FAIL raised and a bulb left to the slow clock, the meter not told. -/
def clockFailing (s : State) : State :=
  raise .clockFail { s with
    clock := { s.clock with state := .failed, goodPeriods := 0, startLeft := 0 }
    engine := fastBulbCount (fun _ => none) s.engine }

theorem failClock_eq (s : State) : failClock s = meterClockFailed (clockFailing s) := rfl

theorem clockFailing_clock (s : State) :
    (clockFailing s).clock = { s.clock with state := .failed, goodPeriods := 0, startLeft := 0 } := rfl

theorem clockFailing_meter (s : State) : (clockFailing s).meter = s.meter := rfl

theorem clockFailing_engine (s : State) : (clockFailing s).engine = fastBulbCount (fun _ => none) s.engine := rfl

theorem mem_clockFailing (k : Notice) (s : State) :
    k ∈ (clockFailing s).notices ↔ k = .clockFail ∨ k ∈ s.notices := mem_raise k .clockFail _

/-- R146, R147: what a failure of the fast clock leaves, by the work that the meter was doing. -/
theorem failClock_clockFailed (s : State) : clockFailed s (failClock s) := by
  obtain ⟨hidle, hnotices, hclock⟩ := meterClockFailed_quiet (s := clockFailing s) rfl
  rw [← failClock_eq] at hidle hnotices hclock
  refine ⟨?failed, ?shotAsks, ?raised, fun k hk => ?noOther, fun hm => ?idle, fun hm => ⟨hidle, ?dropped⟩,
    fun g k step hm => ?host, fun temp made sum left hm => ?calibrating, fun g k step hm l hl hmet hx => ?prime,
    by simp, by simp, by simp, by simp, by simp⟩
  case failed => rw [hclock]; split <;> rfl
  case shotAsks => rw [hclock]; split <;> rfl
  case raised => rw [hnotices, mem_clockFailing]; exact .inl rfl
  case noOther => rwa [hnotices, mem_clockFailing] at hk
  case idle => simp [failClock_eq, meterClockFailed, clockFailing_meter, clockFailing_clock, clockFailing_engine, hm]
  case dropped => simp [hclock, clockFailing_meter, hm]
  case host => simp [failClock_eq, meterClockFailed, clockFailing_meter, clockFailing_engine, hm]
  case calibrating => simp [failClock_eq, meterClockFailed, clockFailing_meter, hm]
  case prime =>
    obtain ⟨x, hx⟩ := Option.isSome_iff_exists.1 hx
    have htold : failClock s = requestExposure .unavailable false false (meterToIdle (clockFailing s)) := by
      simp [failClock_eq, meterClockFailed, clockFailing_meter, hm]
    rw [htold]
    exact requestExposure_held hl hmet (congrArg (Option.map _) hx)

/-- Settles O48: each row by the branch that the clock state and the count choose, a failure by what it leaves. -/
theorem clockStartsRunsAndFails : Obligations.ClockStartsRunsAndFails := by
  refine fun n s => ⟨fun hs hlo hhi => (exec_clockPeriodEnd_starting_good hs ⟨hlo, hhi⟩).1,
    fun hs hlo hhi hg => ?stable, fun hs hn => exec_clockPeriodEnd_starting_bad hs hn, fun hs hlo hhi => ?counted,
    fun hs hn => ⟨_, (exec_clockPeriodEnd_running hs).2 hn, failClock_clockFailed s⟩,
    fun hs hl => ⟨_, exec_clockStartTimeout hs hl, failClock_clockFailed s⟩⟩
  case stable =>
    refine ⟨_, (exec_clockPeriodEnd_starting_good hs ⟨hlo, hhi⟩).2 hg, rfl, rfl, rfl, rfl, ?_⟩
    change s.meter.state.clockReady = _
    rcases s.meter.state with _ | ⟨who, g, k, _ | left | ⟨left, c, dark, mc⟩⟩ | ⟨temp, made, sum, _ | left⟩ <;> rfl
  case counted =>
    rw [(exec_clockPeriodEnd_running hs).1 ⟨hlo, hhi⟩, countFast_eq]
    rcases s.meter.state with _ | ⟨who, g, k, _ | left | ⟨left, c, dark, mc⟩⟩ | ⟨temp, made, sum, _ | left⟩ <;> rfl

end Sys2Proof.SceneMetering
end

