-- ==== Sys2Proof/Proofs/SceneReadings.lean ====
section
/-! SUPPORT. Readings and calibrations of the scene meter (R90 to R97, R100): the ends of integrations and of
computations, the brightness of a count, and what a finished reading leaves. -/

namespace Sys2Proof.SceneMetering

open Sys2Proof Sys2Proof.Machine Sys2Proof.Sequencing

/-! ### Integrations (R90, R91) -/

/-- R90: the end of an integration in progress, its count taken as 65,535 at most. -/
theorem exec_integrationEnd {who : Requester} {g k left : Nat} {s : State} (n : Nat)
    (h : integrationEnds who g k left s) : exec (.integrationEnd n) s =
      .next (withMeter (afterIntegration who g k (min 65535 n) s.meter.dark s.settings.mc) s) := by
  obtain ⟨hl, hm⟩ := h
  simp [exec, execIntegrationEnd, hm, (fastRanOut_iff left).2 hl, Config.maxCount]

/-- R91: a saturated count goes to the faster stage. -/
theorem repeatStage_over {g k : Nat} (hg : 0 < g) (hk : k < 2) : repeatStage 65535 g k = some (g - 1) := by
  simp [repeatStage, Config.maxCount, hg, hk]

/-- R91: a small count goes to the slower stage. -/
theorem repeatStage_under {n g k : Nat} (hn : n < 64) (hg : g < 3) (hk : k < 2) : repeatStage n g k = some (g + 1) := by
  have hover : n ≠ 65535 := by omega
  simp [repeatStage, Config.maxCount, hover, hn, hg, hk]

/-- R91: after two repeats, and inside the range, a count is final. -/
theorem repeatStage_final {n g k : Nat} (h : 2 ≤ k ∨ (¬ (n = 65535 ∧ 0 < g) ∧ ¬ (n < 64 ∧ g < 3))) :
    repeatStage n g k = none := by
  rcases h with hk | ⟨hover, hunder⟩
  · simp [repeatStage, hk]
  · simp only [repeatStage, Config.maxCount, if_neg hover, if_neg hunder, ite_self]

/-- Settles O39: the end of an integration by what R91 makes of its count. -/
theorem integrationEndRepeatsOrComputes : Obligations.IntegrationEndRepeatsOrComputes := by
  intro who g k left n s h
  have hexec := exec_integrationEnd n h
  refine ⟨fun hn hg hk => ?_, fun hn hg hk => ?_, fun hn hfinal => ?_, fun hn => ?_⟩
  · rw [hexec, hn, afterIntegration, Nat.min_self, repeatStage_over hg hk]
    rfl
  · rw [hexec, afterIntegration, Nat.min_eq_right (by omega), repeatStage_under hn hg hk]
    rfl
  · rw [hexec, afterIntegration, Nat.min_eq_right hn, repeatStage_final hfinal]
    rfl
  · rw [hexec, exec_integrationEnd 65535 h, Nat.min_eq_left hn.le, Nat.min_self]

/-! ### From count to brightness (R93 to R96) -/

theorem netCount_le {n : Nat} (dark g : Nat) (h : n ≤ 65535) : netCount n dark g ≤ 65535 := by
  unfold netCount
  split
  · exact le_rfl
  · exact (Nat.sub_le _ _).trans h

/-- R94: the piecewise logarithm by the power of two below its number. -/
theorem log8_between {n k : Nat} (hlo : 2 ^ k ≤ n) (hhi : n < 2 ^ (k + 1)) :
    log8 n = 8 * k + (n - 2 ^ k) * 8 / 2 ^ k := by
  have hn : n ≠ 0 := (lt_of_lt_of_le (Nat.two_pow_pos k) hlo).ne'
  have hlog : n.log2 = k := (Nat.log2_eq_iff hn).2 ⟨hlo, hhi⟩
  simp only [log8, hn, if_false, hlog]

theorem isLogEighths_log8 (n : Nat) : isLogEighths n (log8 n) :=
  ⟨fun h => by rw [h]; rfl, fun _ _ hlo hhi => log8_between hlo hhi⟩

/-- R94: the logarithm of a 16-bit count is at most 127. -/
theorem log8_le {n : Nat} (h : n ≤ 65535) : log8 n ≤ 127 := by
  rcases Nat.eq_zero_or_pos n with rfl | hn
  · decide
  · have hhi : n < 2 ^ (n.log2 + 1) := Nat.lt_log2_self
    have hlog : n.log2 < 16 := (Nat.log2_lt hn.ne').2 (by omega)
    have heighths : (n - 2 ^ n.log2) * 8 / 2 ^ n.log2 < 8 := by
      rw [Nat.div_lt_iff_lt_mul (Nat.two_pow_pos _)]
      rw [Nat.pow_succ] at hhi
      omega
    rw [log8_between (Nat.log2_self_le hn.ne') hhi]
    omega

/-- R95: the brightness that the model computes is that of the rules. -/
theorem isBrightness_brightness {n : Nat} (dark g : Nat) (mc : Int) (h : n ≤ 65535) :
    isBrightness n dark g mc (brightness (netCount n dark g) g mc) := by
  refine ⟨log8 (netCount n dark g), log8_le (netCount_le dark g h), isLogEighths_log8 _, ?_⟩
  exact Int.toNat_of_nonneg (le_max_left _ _)

theorem overFlagOf_iff (n g : Nat) : overFlagOf n g = true ↔ readsOver n g := by
  simp only [overFlagOf, Bool.and_eq_true, decide_eq_true_iff]; rfl

theorem underFlagOf_iff (n dark g : Nat) : underFlagOf (netCount n dark g) g = true ↔ readsUnder n dark g := by
  simp only [underFlagOf, Bool.and_eq_true, decide_eq_true_iff]; rfl

/-! ### Readings are finished (R90, R91, R97, R103) -/

/-- R96: a reading raises OVER or UNDER where the sticky flag of it is clear. -/
theorem setsSticky_iff (m : Meter) (hi lo : Bool) : setsSticky m hi lo = true ↔
    (hi = true ∧ m.overSeen = false) ∨ (lo = true ∧ m.underSeen = false) := by
  simp [setsSticky]

/-- R91, R97: the range stage and the sticky flags after a reading. -/
def meterRead (g n dark : Nat) (m : Meter) : Meter :=
  { stickyAfter m (overFlagOf n g) (underFlagOf (netCount n dark g) g) with rangeStage := nextStage n g }

/-- R90, R91, R97: a reading is finished, its requester not told. -/
def readingDone (g n dark : Nat) (s : State) : State :=
  if setsSticky s.meter (overFlagOf n g) (underFlagOf (netCount n dark g) g) then
    raise .meterRange (meterToIdle { s with meter := meterRead g n dark s.meter })
  else meterToIdle { s with meter := meterRead g n dark s.meter }

/-- R103: a host's reading goes to its one-off result. -/
theorem finishReading_host (g n dark : Nat) (mc : Int) (s : State) : finishReading .host g n dark mc s =
    { readingDone g n dark s with meter := { (readingDone g n dark s).meter with
        oneOff := .done n g (brightness (netCount n dark g) g mc) (overFlagOf n g)
          (underFlagOf (netCount n dark g) g) } } := rfl

/-- R90, R148: what a finished reading leaves of the meter and of the requester set. -/
theorem readingDone_meter (g n dark : Nat) (s : State) :
    (readingDone g n dark s).meter = { meterRead g n dark s.meter with state := .idle } ∧
    (readingDone g n dark s).clock = s.clock.drop .meter := by
  unfold readingDone
  split <;> exact ⟨rfl, rfl⟩

/-- R97: METER_RANGE is raised for a flag that was clear. -/
theorem mem_readingDone (g n dark : Nat) (s : State) : Notice.meterRange ∈ (readingDone g n dark s).notices ↔
    Notice.meterRange ∈ s.notices ∨ (readsOver n g ∧ s.meter.overSeen = false) ∨
      (readsUnder n dark g ∧ s.meter.underSeen = false) := by
  rw [← overFlagOf_iff, ← underFlagOf_iff, ← setsSticky_iff, readingDone]
  split <;> next h => simp [h]

/-- A finished reading changes the meter, the requester set, the notices and with them ATTN alone. -/
@[simp] theorem readingDone_frame (g n dark : Nat) (s : State) :
    (readingDone g n dark s).seq = s.seq ∧ (readingDone g n dark s).cal = s.cal ∧
    (readingDone g n dark s).link = s.link ∧ (readingDone g n dark s).log = s.log ∧
    (readingDone g n dark s).settings = s.settings ∧ (readingDone g n dark s).power = s.power ∧
    (readingDone g n dark s).plan = s.plan ∧ (readingDone g n dark s).image = s.image ∧
    (readingDone g n dark s).expo = s.expo ∧ (readingDone g n dark s).engine = s.engine ∧
    (readingDone g n dark s).pins.gain = s.pins.gain := by
  unfold readingDone
  split <;> simp

/-- R90, R91, R97: what every finished reading does. -/
theorem readingDone_finished (g n dark : Nat) (s : State) : readingFinished n g dark s (readingDone g n dark s) := by
  obtain ⟨hmeter, hclock⟩ := readingDone_meter g n dark s
  rw [readingFinished, hmeter, hclock, mem_readingDone, ← overFlagOf_iff, ← underFlagOf_iff]
  refine ⟨rfl, rfl, ?overSeen, ?underSeen, Iff.rfl, drop_meter s.clock, rfl, rfl, rfl, ?frame⟩
  case overSeen => exact Bool.or_eq_true_iff
  case underSeen => exact Bool.or_eq_true_iff
  case frame => simp

/-- R90: the end of a computation in progress. -/
theorem exec_computationEnd {who : Requester} {g k left n dark : Nat} {mc : Int} {s : State}
    (h : computationEnds who g k left n dark mc s) :
    exec .computationEnd s = .next (finishReading who g n dark mc s) := by
  obtain ⟨-, -, hl, hm⟩ := h
  simp [exec, execComputationEnd, hm, (fastRanOut_iff left).2 hl]

/-- Settles O40: a host's reading ends as every reading does, and its result carries the brightness of its count. -/
theorem hostReadingIsDone : Obligations.HostReadingIsDone := by
  intro g k left n dark mc s h
  have hexec := exec_computationEnd h
  rw [finishReading_host] at hexec
  obtain ⟨hn, -⟩ := h
  refine ⟨_, hexec, readingDone_finished g n dark s, ?expo, ?engine, ?gain, rfl, rfl,
    isBrightness_brightness dark g mc hn, overFlagOf_iff n g, underFlagOf_iff n dark g⟩
  all_goals simp

/-! ### Calibrations (R100) -/

/-- R100: a DARK integration in progress ends. -/
theorem exec_darkIntegrationEnd {temp : Int} {made sum left n : Nat} {s : State}
    (h : darkIntegrationEnds temp made sum left s) (hn : n ≤ 65535) :
    (made < 7 → exec (.darkIntegrationEnd n) s =
      .next (withMeter (.calibrating temp (made + 1) (sum + n) (some 200000)) s)) ∧
    (made = 7 → exec (.darkIntegrationEnd n) s = .next (meterToIdle { s with
      meter := { s.meter with dark := darkFrom (sum + n), tcal := some temp, outcome := .done } })) := by
  obtain ⟨hl, hm⟩ := h
  have hcount : min Config.maxCount n = n := Nat.min_eq_right hn
  constructor <;> intro hmade <;>
    simp [exec, execDarkIntegrationEnd, hm, (fastRanOut_iff left).2 hl, hcount, hmade, Config.darkIntegrations,
      Config.integrationCycles]

/-- Settles O43: the counts are added, and the eighth gives D and takes the meter from the requester set. -/
theorem calibrationSetsDarkCount : Obligations.CalibrationSetsDarkCount := by
  intro temp made sum left n s h hn
  obtain ⟨hadds, hends⟩ := exec_darkIntegrationEnd h hn
  refine ⟨hadds, fun hmade => ?_⟩
  rw [hends hmade, meterToIdle, dropClock, drop_meter]
  rfl

end Sys2Proof.SceneMetering
end

