-- ==== Sys2Proof/Proofs/MeterCommands.lean ====
section
/-! SUPPORT. The host's commands of the scene meter (R98, R99, R102 to R104): METER in its five forms and CALIBRATE. -/

namespace Sys2Proof.SceneMetering

open Sys2Proof Sys2Proof.Machine Sys2Proof.Sequencing

theorem meterFree_iff (s : State) : meterFree s = true ↔ hostMeterFree s := by
  simp [meterFree, and_assoc]

theorem meterFree_false {s : State} (h : ¬ hostMeterFree s) : meterFree s = false := by
  rwa [Bool.eq_false_iff, ne_eq, meterFree_iff]

/-! ### Requests begin (R89, R99, R100, R102) -/

/-- R89, R102: the host's reading, with its one-off result PENDING. -/
theorem meterBegin_free {s : State} (hfree : hostMeterFree s) (hasks : s.clock.meterAsks = false) :
    meterBegin s = ({ s with
      meter := { s.meter with
        state := .converting .host s.meter.rangeStage 0
          (if s.clock.state = .running then .integrating 200000 else .waiting)
        oneOff := .pending s.meter.rangeStage }
      clock := clockAsked s.clock }, ["=METER BEGUN STAGE=".toList ++ natText s.meter.rangeStage]) := by
  rw [meterBegin, if_pos ((meterFree_iff s).2 hfree), beginReading, requestClock_meter (by exact hasks)]
  rcases hstate : s.clock.state <;> rfl

/-- R99, R100: the calibration, with the last temperature recorded. -/
theorem ownCalibrate_free {s : State} (hfree : hostMeterFree s) (hasks : s.clock.meterAsks = false) :
    ownCalibrate [] s = ({ s with
      meter := { s.meter with
        state := .calibrating (lastTemp s) 0 0 (if s.clock.state = .running then some 200000 else none) }
      clock := clockAsked s.clock }, ["=CALIBRATE BEGUN".toList]) := by
  rw [ownCalibrate, if_pos rfl, if_pos ((meterFree_iff s).2 hfree), beginCalibration,
    requestClock_meter (by exact hasks)]
  rcases hstate : s.clock.state <;> rfl

/-- R99, R102: a meter that takes no request. -/
theorem meter_busy {s : State} (h : ¬ hostMeterFree s) :
    ownMeter [] s = (s, ["!BUSY METER".toList]) ∧ ownCalibrate [] s = (s, ["!BUSY CALIBRATE".toList]) := by
  constructor <;> simp only [ownMeter, ownCalibrate, meterBegin, meterFree_false h] <;> rfl

/-! ### Reports (R103, R104) -/

theorem oneOffText_line (r : OneOff) : okLine .meter ("LAST".toList :: oneOffText r) = [oneOffLine r] := by
  rcases r with _ | g | ⟨n, g, b, hi, lo⟩ | _ | _ <;>
    simp [okLine, success, joinWith, oneOffText, oneOffLine, fieldText, rangeFlagText, Verb.text, Verb.word]

/-- R104: the line of METER DARK. -/
theorem meterDarkReply_line (s : State) : meterDarkReply s = ["=METER DARK D=".toList ++ natText s.meter.dark ++
    " TCAL=".toList ++ tcalText s.meter.tcal ++ " STATE=".toList ++ meterStateText s.meter.state ++ " LAST=".toList ++
    outcomeText s.meter.outcome] := by
  simp [meterDarkReply, okLine, success, joinWith, fieldText, Verb.text, Verb.word]

/-! ### The rows -/

theorem exec_meter {args : List Token} {s : State} (hf : LinkFree s) :
    exec (.meter args) s = .next ((ownMeter args s).1.answering (ownMeter args s).2) :=
  exec_line (v := .meter) (p := ownMeter args s) hf rfl rfl

theorem exec_calibrate {args : List Token} {s : State} (hf : LinkFree s) :
    exec (.calibrate args) s = .next ((ownCalibrate args s).1.answering (ownCalibrate args s).2) :=
  exec_line (v := .calibrate) (p := ownCalibrate args s) hf rfl rfl

/-- R98, R103, R104: the reports and METER CLEAR are METER with one word. -/
theorem exec_meterWords {s : State} (hf : LinkFree s) :
    exec .meterLast s = .next (s.answering [oneOffLine s.meter.oneOff]) ∧
    exec .meterDark s = .next (s.answering (meterDarkReply s)) ∧
    exec .meterClear s = .next ((clearSticky s).answering ["=METER CLEAR".toList]) := by
  refine ⟨?_, exec_line (v := .meter) (p := (s, meterDarkReply s)) hf rfl rfl,
    exec_line (v := .meter) (p := (clearSticky s, okLine .meter ["CLEAR".toList])) hf rfl rfl⟩
  rw [← oneOffText_line]
  exact exec_line (v := .meter) (p := (s, okLine .meter ("LAST".toList :: oneOffText s.meter.oneOff))) hf rfl rfl

/-- R168: METER with any other words. -/
theorem ownMeter_malformed {args : List Token} (s : State) (hne : args ≠ []) (hlast : args ≠ ["LAST".toList])
    (hclear : args ≠ ["CLEAR".toList]) (hdark : args ≠ ["DARK".toList]) :
    ownMeter args s = (s, ["!SYNTAX METER".toList]) := by
  rw [ownMeter, if_neg hne, if_neg hlast, if_neg hclear, if_neg hdark]
  rfl

/-- Settles O38: each form of METER by its own word, and CALIBRATE, on a meter that takes the request and on one that
does not. -/
theorem meterAnswersHost : Obligations.MeterAnswersHost := by
  intro s hf
  obtain ⟨hlast, hdark, hclear⟩ := exec_meterWords hf
  refine ⟨fun hfree hasks => ⟨?begun, ?calibration⟩, fun hbusy => ⟨?busy, ?calibrateBusy⟩, hlast, ?dark, hclear,
    fun t h1 h2 h3 => ?word, fun t u ts => ?words⟩
  case begun =>
    have ho : ownMeter [] s = meterBegin s := rfl
    rw [exec_meter hf, ho, meterBegin_free hfree hasks]
  case calibration => rw [exec_calibrate hf, ownCalibrate_free hfree hasks]
  case busy => rw [exec_meter hf, (meter_busy hbusy).1]
  case calibrateBusy => rw [exec_calibrate hf, (meter_busy hbusy).2]
  case dark =>
    rw [hdark, meterDarkReply_line]
    refine answering_congr (congrArg (fun line => [line]) ?_)
    congr 1
    · congr 2
      · congr 2
        rcases s.meter.tcal <;> rfl
      · rcases s.meter.state <;> rfl
    · rcases s.meter.outcome <;> rfl
  case word =>
    rw [exec_meter hf, ownMeter_malformed s (by simp) (by simpa using h1) (by simpa using h2) (by simpa using h3)]
  case words => rw [exec_meter hf, ownMeter_malformed s (by simp) (by simp) (by simp) (by simp)]

end Sys2Proof.SceneMetering
end

