-- ==== Sys2Proof/Proofs/Partition.lean ====
section
/-! SUPPORT. The partition of an exposure (R120 to R122): where the gain comes to rest, and what the shutter makes of
the rest of the exposure. -/

namespace Sys2Proof.ExposureCalculation

open Sys2Proof Sys2Proof.Machine

theorem limitsValid_iff (g : Segment) : limitsValid g = true ↔
    g.esMin ≤ g.esMax ∧ g.esMax ≤ 151 ∧ g.gm ≤ 6 ∧ (g.gm = 0 ∨ g.esMin + 12 ≤ g.esMax) := by
  simp only [limitsValid, Bool.and_eq_true, Bool.or_eq_true, decide_eq_true_eq, and_assoc]

/-! ### The gain is lowered (R121) -/

theorem lowerGain_step {e esMax g : Nat} (h : e + 4 ≤ esMax + 8 * g) :
    lowerGain e esMax (g + 1) = lowerGain e esMax g := if_pos h

theorem lowerGain_rest {e esMax g : Nat} (h : esMax + 8 * g < e + 4) : lowerGain e esMax (g + 1) = g + 1 :=
  if_neg (Nat.not_le.2 h)

/-- A gain above 0 is left only where the next step down is not taken. -/
theorem lt_of_lowerGain_pos {e esMax g : Nat} (h : 0 < lowerGain e esMax g) :
    esMax + 8 * (lowerGain e esMax g - 1) < e + 4 := by
  induction g with
  | zero => exact absurd h (Nat.lt_irrefl 0)
  | succ g ih =>
    rcases Nat.lt_or_ge (esMax + 8 * g) (e + 4) with hrest | hstep
    · rwa [lowerGain_rest hrest]
    · rw [lowerGain_step hstep] at h ⊢
      exact ih h

/-- Every step that was taken, from a gain `j` to the one below it, was allowed. -/
theorem le_of_lowerGain_lt {e esMax g j : Nat} (hlow : lowerGain e esMax g < j) (hj : j ≤ g) :
    e + 4 ≤ esMax + 8 * (j - 1) := by
  induction g with
  | zero => omega
  | succ g ih =>
    rcases Nat.lt_or_ge (esMax + 8 * g) (e + 4) with hrest | hstep
    · rw [lowerGain_rest hrest] at hlow
      omega
    · rw [lowerGain_step hstep] at hlow
      rcases Nat.le_succ_iff.1 hj with hle | rfl
      · exact ih hlow hle
      · exact hstep

/-! ### The gain of an exposure (R120, R121) -/

theorem gainFor_raised {e gPrev esMax : Nat} (gMax : Nat) (h : esMax + 8 * gPrev < e) :
    gainFor e gPrev esMax gMax = min gMax ((e - esMax + 7) / 8) := if_pos h

theorem gainFor_lowered {e gPrev esMax : Nat} (gMax : Nat) (h : e ≤ esMax + 8 * gPrev) :
    gainFor e gPrev esMax gMax = lowerGain e esMax (min gPrev gMax) := if_neg (Nat.not_lt.2 h)

/-- R121, R122: a gain above 0 leaves the shutter above its ceiling less 12 eighths. -/
theorem lt_of_gainFor_pos {e gPrev esMax gMax : Nat} (h : 0 < gainFor e gPrev esMax gMax) :
    esMax + 8 * gainFor e gPrev esMax gMax < e + 12 := by
  rcases Nat.lt_or_ge (esMax + 8 * gPrev) e with hraise | hlower
  · rw [gainFor_raised gMax hraise]
    omega
  · rw [gainFor_lowered gMax hlower] at h ⊢
    have hlast := lt_of_lowerGain_pos h
    omega

/-- R122: only the largest gain leaves more than the shutter's ceiling. -/
theorem gainFor_eq_max {e gPrev esMax gMax : Nat} (h : esMax + 8 * gainFor e gPrev esMax gMax < e) :
    gainFor e gPrev esMax gMax = gMax := by
  rcases Nat.lt_or_ge (esMax + 8 * gPrev) e with hraise | hlower
  · rw [gainFor_raised gMax hraise] at h ⊢
    omega
  · rw [gainFor_lowered gMax hlower] at h ⊢
    -- A step taken would have left the shutter 4 eighths below its ceiling.
    have hstay : ¬ lowerGain e esMax (min gPrev gMax) < min gPrev gMax := fun hlt => by
      have hstep := le_of_lowerGain_lt (Nat.lt_succ_self _) hlt
      omega
    have hle := lowerGain_le e esMax (min gPrev gMax)
    omega

/-- R122: only gain 0 leaves less than the shutter's floor, where a gain above 0 has 12 eighths of span. -/
theorem gainFor_eq_zero {e gPrev esMin esMax gMax : Nat} (hspan : gMax = 0 ∨ esMin + 12 ≤ esMax)
    (h : e < esMin + 8 * gainFor e gPrev esMax gMax) : gainFor e gPrev esMax gMax = 0 := by
  refine Nat.eq_zero_of_not_pos fun hpos => ?_
  have hshutter := lt_of_gainFor_pos hpos
  have hle := gainFor_le e gPrev esMax gMax
  omega

/-! ### The shutter of an exposure at a gain (R122) -/

theorem shutterFor_long {e g esMax : Nat} (esMin : Nat) (h : esMax + 8 * g < e) :
    shutterFor e g esMin esMax = (esMax, false, true) := if_pos (by omega)

theorem shutterFor_short {e g esMin esMax : Nat} (hspan : esMin ≤ esMax) (h : e < esMin + 8 * g) :
    shutterFor e g esMin esMax = (esMin, true, false) := by
  rw [shutterFor, if_neg (by omega), if_pos (by omega)]

theorem shutterFor_within {e g esMin esMax : Nat} (hlo : esMin + 8 * g ≤ e) (hhi : e ≤ esMax + 8 * g) :
    shutterFor e g esMin esMax = (e - 8 * g, false, false) := by
  have hes : ((e : Int) - 8 * g).toNat = e - 8 * g := by omega
  rw [shutterFor, if_neg (by omega), if_neg (by omega), hes]

/-- R122: the shutter is clamped from above, clamped from below, or what the gain leaves of the exposure. -/
theorem shutterFor_cases (e g : Nat) {esMin esMax : Nat} (hspan : esMin ≤ esMax) :
    (esMax + 8 * g < e ∧ shutterFor e g esMin esMax = (esMax, false, true)) ∨
    (e < esMin + 8 * g ∧ shutterFor e g esMin esMax = (esMin, true, false)) ∨
    (esMin + 8 * g ≤ e ∧ e ≤ esMax + 8 * g ∧ shutterFor e g esMin esMax = (e - 8 * g, false, false)) := by
  rcases Nat.lt_or_ge (esMax + 8 * g) e with hlong | hhi
  · exact .inl ⟨hlong, shutterFor_long esMin hlong⟩
  rcases Nat.lt_or_ge e (esMin + 8 * g) with hshort | hlo
  · exact .inr (.inl ⟨hshort, shutterFor_short hspan hshort⟩)
  · exact .inr (.inr ⟨hlo, hhi, shutterFor_within hlo hhi⟩)

theorem shutterFor_clampLo (e g : Nat) {esMin esMax : Nat} (hspan : esMin ≤ esMax) :
    (shutterFor e g esMin esMax).2.2 = true ↔ esMax + 8 * g < e := by
  rcases shutterFor_cases e g hspan with ⟨h, heq⟩ | ⟨h, heq⟩ | ⟨-, h, heq⟩ <;> simp [heq] <;> omega

theorem shutterFor_clampHi (e g : Nat) {esMin esMax : Nat} (hspan : esMin ≤ esMax) :
    (shutterFor e g esMin esMax).2.1 = true ↔ e < esMin + 8 * g := by
  rcases shutterFor_cases e g hspan with ⟨h, heq⟩ | ⟨h, heq⟩ | ⟨h, -, heq⟩ <;> simp [heq] <;> omega

/-- Settles O42: the gain by its raise or its descent, the shutter by its clamps at that gain. -/
theorem partitionSplitsExposure : Obligations.PartitionSplitsExposure := by
  intro e gPrev seg p hvalid
  obtain ⟨hspan, -, -, hgain⟩ := (limitsValid_iff seg).1 hvalid
  obtain ⟨hmin, hmax⟩ := shutterFor_bounds e (gainFor e gPrev seg.esMax seg.gm) _ _ hspan
  have hlo := shutterFor_clampLo e (gainFor e gPrev seg.esMax seg.gm) hspan
  have hhi := shutterFor_clampHi e (gainFor e gPrev seg.esMax seg.gm) hspan
  refine ⟨rfl, rfl, gainFor_le _ _ _ _, hmin, hmax, rfl, hlo, hhi, fun hclamp => ⟨?ceiling, ?largest⟩,
    fun hclamp => ⟨?floor, ?zero⟩, fun hnotLo hnotHi => ?exact, fun hpos => ?span, gainFor_raised seg.gm,
    fun hlower => ⟨?lowered, ?rest, ?descent⟩⟩
  case ceiling => exact congrArg Prod.fst (shutterFor_long _ (hlo.1 hclamp))
  case largest => exact gainFor_eq_max (hlo.1 hclamp)
  case floor => exact congrArg Prod.fst (shutterFor_short hspan (hhi.1 hclamp))
  case zero => exact gainFor_eq_zero hgain (hhi.1 hclamp)
  case exact =>
    have hle := Nat.not_lt.1 (mt hlo.2 (Bool.eq_false_iff.1 hnotLo))
    have hge := Nat.not_lt.1 (mt hhi.2 (Bool.eq_false_iff.1 hnotHi))
    simp only [partition, shutterFor_within hge hle]
    omega
  case span =>
    have hshutter := lt_of_gainFor_pos hpos
    simp only [partition]
    rcases shutterFor_cases e (gainFor e gPrev seg.esMax seg.gm) hspan with
      ⟨-, heq⟩ | ⟨hshort, -⟩ | ⟨-, -, heq⟩
    · rw [heq]
      exact Nat.lt_add_of_pos_right (by decide)
    · exact absurd (gainFor_eq_zero hgain hshort) (Nat.ne_of_gt hpos)
    · rw [heq]
      omega
  all_goals simp only [partition, gainFor_lowered seg.gm hlower]
  case lowered => exact lowerGain_le _ _ _
  case rest => exact lt_of_lowerGain_pos
  case descent => exact fun j => le_of_lowerGain_lt

end Sys2Proof.ExposureCalculation
end

