-- ==== Sys2Proof/Proofs/FrameReadout.lean ====
section
/-! SUPPORT. FRAMES (R157 to R159): the record line and the end line of a readout as texts, the operands of the
command, and its refusals. -/

namespace Sys2Proof.FrameLog

open Sys2Proof Sys2Proof.Machine Sys2Proof.Sequencing

/-! ### The lines of a readout (R154, R158, R159) -/

/-- Fields that follow others on a line: each after a space. -/
def spaced (fields : List Text) : Text := fields.flatMap (' ' :: ·)

@[simp] theorem spaced_nil : spaced [] = [] := rfl

@[simp] theorem spaced_cons (t : Text) (fields : List Text) : spaced (t :: fields) = ' ' :: t ++ spaced fields := rfl

@[simp] theorem spaced_append (xs ys : List Text) : spaced (xs ++ ys) = spaced xs ++ spaced ys := List.flatMap_append

/-- R168: a success line is its verb, then each field after a space. -/
theorem success_spaced (verb : Text) (fields : List Text) : success verb fields = '=' :: verb ++ spaced fields := by
  have hjoin : ∀ head : Text, joinWith [' '] (head :: fields) = head ++ spaced fields := by
    induction fields with
    | nil => simp [joinWith]
    | cons t ts ih => simp [joinWith, ih]
  rw [success, hjoin, List.cons_append]

/-- R154: an optional field of a line, left out with its space when absent. -/
theorem spaced_optField (key : String) (v : Option Text) :
    spaced (optField key.toList v) = optionalField (" " ++ key ++ "=") v := by
  cases v <;> simp [optField, optionalField, fieldText]

/-- R154, R159: the line of a record. -/
theorem recordLine_eq (r : FrameRecord) : recordLine r = frameLine r := by
  simp only [recordLine, success_spaced, spaced_append, spaced_optField, spaced_cons, spaced_nil, fieldText, pairText,
    List.append_assoc, List.cons_append, List.append_nil]
  rfl

/-- R158, R161: the GAP field of the end line stands where the start number lies before the oldest one held. -/
theorem spaced_gap (log : List FrameRecord) (n : Nat) : spaced (optField "GAP".toList ((gapNumber log n).map natText)) =
    (log.head?.elim [] fun r => if n < r.number then " GAP=".toList ++ natText r.number else []) := by
  rw [spaced_optField, gapNumber, oldestNumber]
  rcases log.head? with _ | r
  · rfl
  · by_cases hgap : n < r.number
    · simp only [Option.map_some, if_pos hgap, Option.elim_some]
      rfl
    · simp only [Option.map_some, if_neg hgap, Option.elim_some]
      rfl

/-- R159, R161: the end line names the newest number held, or NONE. -/
theorem newestText_eq (log : List FrameRecord) :
    optText (newestNumber log) = log.getLast?.elim "NONE".toList fun r => natText r.number := by
  rw [newestNumber]
  rcases log.getLast? with _ | r <;> rfl

/-- R158, R159: the lines of a readout. -/
theorem readout_eq (log : List FrameRecord) (n c : Nat) : readout log n c = readoutLines log n c := by
  have hrecords : (chosenRecords log n c).map recordLine = (framesFrom log n c).map fun r => frameLine r :=
    List.map_congr_left fun r _ => recordLine_eq r
  simp only [readout, readoutLines, hrecords, okLine, success_spaced, spaced_append, spaced_gap, newestText_eq]
  congr 2
  simp only [spaced_cons, spaced_nil, fieldText, List.append_assoc, List.cons_append, List.append_nil]
  rcases log.head? with _ | r <;> rcases log.getLast? with _ | x <;> rfl

/-! ### The operands (R157) -/

/-- R157: a start number alone takes the count 8. -/
theorem readFrames_one (t : Token) : readFrames [t] = (readNumber t).map (·, 8) := rfl

theorem readFrames_two {t u : Token} {x y : Int} (ht : readNumber t = some x) (hu : readNumber u = some y) :
    readFrames [t, u] = some (x, y) := by
  simp only [readFrames, ht, hu]

theorem readFrames_malformed {t u : Token} (h : readNumber t = none ∨ readNumber u = none) : readFrames [t, u] = none := by
  simp only [readFrames]
  rcases h with h | h
  · rw [h]
  · rw [h]
    cases readNumber t <;> rfl

/-! ### The row -/

theorem exec_frames {args : List Token} {s : State} (hf : LinkFree s) :
    exec (.frames args) s = .next (s.answering (ownFrames args s).2) := by
  have hstate : (ownFrames args s).1 = s := by
    rw [ownFrames]
    (repeat' split) <;> rfl
  rw [exec_line (v := .frames) (p := ownFrames args s) hf rfl rfl, hstate]

/-- R157, R158: a start number in range, with the count clamped to 1–8. -/
theorem exec_frames_reads {args : List Token} {n : Nat} {c : Int} {s : State} (hf : LinkFree s)
    (hargs : readFrames args = some ((n : Int), c)) (hlo : 1 ≤ n) (hhi : n ≤ 4294967295) :
    exec (.frames args) s = .next (s.answering (readoutLines s.log n (max 1 (min 8 c)).toNat)) := by
  have hrange : 1 ≤ (n : Int) ∧ (n : Int) ≤ (Config.maxFrame : Int) := by
    rw [Config.maxFrame]
    omega
  have hcount : clampNat 1 Config.readoutMax c = (max 1 (min 8 c)).toNat := rfl
  rw [exec_frames hf]
  simp only [ownFrames, hargs, if_pos hrange, readout_eq, Int.toNat_natCast, hcount]

/-- R157: a start number out of range. -/
theorem exec_frames_outOfRange {args : List Token} {v c : Int} {s : State} (hf : LinkFree s)
    (hargs : readFrames args = some (v, c)) (hv : v < 1 ∨ 4294967295 < v) :
    exec (.frames args) s = .next (s.answering ["!RANGE FRAMES".toList]) := by
  have hrange : ¬ (1 ≤ v ∧ v ≤ (Config.maxFrame : Int)) := by
    rw [Config.maxFrame]
    omega
  rw [exec_frames hf]
  simp only [ownFrames, hargs, if_neg hrange]
  rfl

/-- R157, R168: operands that are malformed, missing, or too many. -/
theorem exec_frames_malformed {args : List Token} {s : State} (hf : LinkFree s) (hargs : readFrames args = none) :
    exec (.frames args) s = .next (s.answering ["!SYNTAX FRAMES".toList]) := by
  rw [exec_frames hf]
  simp only [ownFrames, hargs]
  rfl

/-- Settles O49: by what the operands are read as, then by the range of the start number. -/
theorem framesReadsLog : Obligations.FramesReadsLog := by
  intro s hf
  refine ⟨fun n hlo hhi => ?reads, fun v hdigits hv => ?outOfRange, exec_frames_malformed hf rfl, fun t ht => ?malformed,
    fun t u h => exec_frames_malformed hf (readFrames_malformed h), fun t u v ts => exec_frames_malformed hf rfl⟩
  case reads =>
    have hn : readNumber (natText n) = some (n : Int) := readNumber_natText (by omega)
    have halone : readFrames [natText n] = some ((n : Int), 8) := by rw [readFrames_one, hn]; rfl
    exact ⟨exec_frames_reads hf halone hlo hhi,
      fun c hc => exec_frames_reads hf (readFrames_two hn (readNumber_intText hc)) hlo hhi⟩
  case outOfRange =>
    have halone : readFrames [intText v] = some (v, 8) := by rw [readFrames_one, readNumber_intText hdigits]; rfl
    exact exec_frames_outOfRange hf halone hv
  case malformed =>
    have hnone : readFrames [t] = none := by rw [readFrames_one, ht]; rfl
    exact exec_frames_malformed hf hnone

end Sys2Proof.FrameLog
end

