-- ==== Sys2Proof/Proofs/RowFrames.lean ====
section
/-! SUPPORT. What each row leaves as it was (00_scope.md 3.1, 95_what_each_step_holds.md). A line that is not taken changes
the link alone, and a line that is taken changes beside it what its verb's owner may change (R165 to R168); an event that
is awaited begins an operation whose frame Laws/ states, and any other changes nothing (assumption log 2). -/

namespace Sys2Proof.RowFrames

open Sys2Proof Sys2Proof.Machine

/-- A row goes on, leaves the queue, and leads to a state that `P` describes. -/
abbrev runsWithin (c : Instr) (s : State) (P : State → Prop) : Prop := leadsTo c s fun t => t.pending = s.pending ∧ P t

/-! ### A line meets the link -/

/-- The state with another command link. -/
def withLink (k : Link) (s : State) : State := { s with link := k }

@[simp] theorem withLink_frame (k : Link) (s : State) :
    (withLink k s).plan = s.plan ∧ (withLink k s).seq = s.seq ∧ (withLink k s).cal = s.cal ∧
    (withLink k s).engine = s.engine ∧ (withLink k s).pins = s.pins ∧ (withLink k s).meter = s.meter ∧
    (withLink k s).expo = s.expo ∧ (withLink k s).power = s.power ∧ (withLink k s).clock = s.clock ∧
    (withLink k s).log = s.log ∧ (withLink k s).notices = s.notices ∧ (withLink k s).settings = s.settings ∧
    (withLink k s).image = s.image ∧ (withLink k s).startUp = s.startUp ∧ (withLink k s).supply = s.supply ∧
    (withLink k s).nrstLow = s.nrstLow ∧ (withLink k s).pending = s.pending := by and_intros <;> rfl

/-- R166, R184: a reply that begins changes the link alone. -/
theorem beginReply_link (p : State × Answer) : ∃ k, beginReply p = withLink k p.1 := by
  rcases p with ⟨s, _ | _ | _⟩ <;> exact ⟨_, rfl⟩

/-- R165, R166: a line that reaches the link changes nothing else, or it is taken and answered. -/
theorem offerLine_cases (l : Line) (s : State) :
    (∃ k, offerLine l s = withLink k s) ∨ ∃ k k', offerLine l s = withLink k' (answerLine l (withLink k s)).1 := by
  rw [offerLine]
  split
  · exact .inl ⟨s.link, rfl⟩
  rw [completeLine]
  split
  case h_2 => exact .inl ⟨s.link, rfl⟩
  rw [takeLine]
  split
  case h_2 => exact .inl ⟨_, rfl⟩
  case h_1 l' hwaits _ =>
    obtain rfl : l = l' := Option.some.inj hwaits
    split
    · obtain ⟨k', hk'⟩ := beginReply_link (answerLine l (withLink { s.link with waiting := none } s))
      exact .inr ⟨_, k', hk'⟩
    · exact .inl ⟨_, rfl⟩

/-- A line command keeps what its line keeps where it only waits, and where its owner answers it. -/
theorem line_runsWithin {c : Instr} {l : Line} {s : State} {P : State → Prop} (hc : exec c s = .next (offerLine l s))
    (hwaits : ∀ k, P (withLink k s)) (htaken : ∀ k k', P (withLink k' (answerLine l (withLink k s)).1)) :
    runsWithin c s P := by
  refine ⟨_, hc, by simp, ?_⟩
  rcases offerLine_cases l s with ⟨k, h⟩ | ⟨k, k', h⟩ <;> rw [h]
  · exact hwaits k
  · exact htaken k k'

/-- R167: the same for the line of one of the twenty-two verbs. -/
theorem verb_runsWithin {c : Instr} {v : Verb} {args : List Token} {s : State} {P : State → Prop}
    (hc : exec c s = .next (offerCommand v args s)) (hwaits : ∀ k, P (withLink k s))
    (htaken : ∀ k k', P (withLink k' (owner v args (withLink k s)).1)) : runsWithin c s P :=
  line_runsWithin hc hwaits (by simpa only [answerLine, readVerb_text] using htaken)

/-! ### Lines that are only answered -/

/-- A line whose answer changes nothing changes the link alone. -/
theorem offerLine_onlyLink {l : Line} (h : ∀ u, (answerLine l u).1 = u) (s : State) : onlyLink s (offerLine l s) := by
  rcases offerLine_cases l s with ⟨k, hk⟩ | ⟨k, k', hk⟩ <;> rw [hk]
  · rfl
  · rw [h]
    rfl

/-- R168: a long line and a bad line are refused. -/
theorem refused_runsWithin {c : Instr} {l : Line} {s : State} (hl : l = .long ∨ l = .bad)
    (hc : exec c s = .next (offerLine l s)) : runsWithin c s (onlyLink s) :=
  ⟨_, hc, by simp, offerLine_onlyLink (fun _ => by rcases hl with rfl | rfl <;> rfl) s⟩

/-- R167: a text outside the table of verbs is no verb. -/
theorem readVerb_unknown {t : Token} (h : verbNames.contains t = false) : readVerb t = none := by
  have hnames : verbNames = Verb.all.map Verb.text := rfl
  rw [hnames] at h
  rw [readVerb, List.find?_eq_none]
  simpa using h

/-- R167, R168: the line of an unknown verb is refused. -/
theorem unknownVerb_runsWithin (verb : Token) (args : List Token) (s : State) : runsWithin (.unknownVerb verb args) s
    fun t => (Instr.unknownVerb verb args).wf = true → onlyLink s t := by
  refine ⟨_, rfl, by simp, fun hwf => offerLine_onlyLink (fun u => ?_) s⟩
  have hverb : verbNames.contains verb = false := by
    simp only [Instr.wf, Bool.and_eq_true, Bool.not_eq_true'] at hwf
    exact hwf.2
  rw [answerLine_unknown args u (readVerb_unknown hverb)]

/-- A verb whose owner changes nothing before the reply has been sent. -/
theorem reading_runsWithin {c : Instr} {v : Verb} {args : List Token} {s : State}
    (hc : exec c s = .next (offerCommand v args s)) (h : ∀ u, (owner v args u).1 = u) : runsWithin c s (onlyLink s) :=
  verb_runsWithin hc (fun _ => rfl) fun k k' => by rw [h]; rfl

/-- SHOW, FRAMES, STORE, ID, STATUS, GET and RESET read the state. -/
theorem owner_reads {v : Verb} (hv : v ∈ [Verb.show, .frames, .store, .ident, .status, .get, .reset]) (args : List Token)
    (s : State) : (owner v args s).1 = s := by
  simp only [List.mem_cons, List.not_mem_nil, or_false] at hv
  rcases hv with rfl | rfl | rfl | rfl | rfl | rfl | rfl
  all_goals
    simp only [owner, replied, ownShow, ownFrames, ownStore, ownIdent, ownStatus, ownGet, ownReset]
    (repeat' split) <;> rfl

/-! ### Lines that act -/

/-- Two states that agree in every block are one. -/
theorem state_ext {s t : State} (hlink : s.link = t.link) (hplan : s.plan = t.plan) (hseq : s.seq = t.seq)
    (hcal : s.cal = t.cal) (hengine : s.engine = t.engine) (hpins : s.pins = t.pins) (hmeter : s.meter = t.meter)
    (hexpo : s.expo = t.expo) (hpower : s.power = t.power) (hclock : s.clock = t.clock) (hlog : s.log = t.log)
    (hnotices : s.notices = t.notices) (hsettings : s.settings = t.settings) (himage : s.image = t.image)
    (hstartUp : s.startUp = t.startUp) (hsupply : s.supply = t.supply) (hnrst : s.nrstLow = t.nrstLow)
    (hpending : s.pending = t.pending) : s = t := by
  cases s
  cases t
  simp_all only

/-- Levels that agree on every pin are one. -/
theorem pins_ext {p q : Pins} (hcamPwr : p.camPwr = q.camPwr) (htrig : p.trig = q.trig) (hwake : p.wake = q.wake)
    (hgain : p.gain = q.gain) (hheat : p.heat = q.heat) (hattn : p.attn = q.attn) (hbusy : p.busy = q.busy)
    (htrip : p.trip = q.trip) : p = q := by
  cases p
  cases q
  simp_all only

/-- R5, R11, R16: LOAD and CLEAR change the plan table. -/
theorem planLine_runsWithin {c : Instr} {v : Verb} {args : List Token} {s : State} (hv : v = .load ∨ v = .clear)
    (hc : exec c s = .next (offerCommand v args s)) :
    runsWithin c s fun t => t = { s with link := t.link, plan := t.plan } := by
  refine verb_runsWithin hc (fun _ => rfl) fun k k' => ?_
  rcases hv with rfl | rfl <;> apply state_ext <;> simp [owner, replied]

/-- R18: ADJUST changes the live copy alone. -/
theorem ownAdjust_state (args : List Token) (s : State) :
    (ownAdjust args s).1 = { s with seq := { s.seq with live := (ownAdjust args s).1.seq.live } } := by
  simp only [ownAdjust]
  (repeat' split) <;> rfl

theorem adjust_runsWithin (args : List Token) (s : State) :
    runsWithin (.adjust args) s fun t => t = { s with link := t.link, seq := { s.seq with live := t.seq.live } } := by
  refine verb_runsWithin (v := .adjust) rfl (fun _ => rfl) fun k k' => ?_
  simp only [owner, replied]
  rw [ownAdjust_state]
  rfl

/-- What the commands of the run leave but STOP and TIME. -/
abbrev runLineKeeps (s t : State) : Prop := storesKept s t ∧ noFrame s t ∧ t.cal = s.cal

/-- R28, R30 to R33: START, PAUSE, RESUME, NEXT and QUEUE. -/
theorem runLine_runsWithin {c : Instr} {v : Verb} {args : List Token} {s : State}
    (hv : v ∈ [Verb.start, .pause, .resume, .next, .queue]) (hc : exec c s = .next (offerCommand v args s)) :
    runsWithin c s (runLineKeeps s) := by
  refine verb_runsWithin hc (fun _ => by simp [runLineKeeps, storesKept, noFrame]) fun k k' => ?_
  simp only [List.mem_cons, List.not_mem_nil, or_false] at hv
  rcases hv with rfl | rfl | rfl | rfl | rfl <;> simp [runLineKeeps, storesKept, noFrame, owner, replied]

/-- R29: STOP may write the frame of a shot in flight, and leaves the notices and the supervisor. -/
theorem stop_runsWithin (args : List Token) (s : State) : runsWithin (.stop args) s fun t =>
    storesKept s t ∧ t.cal = s.cal ∧ t.notices = s.notices ∧ t.power = s.power :=
  verb_runsWithin (v := .stop) rfl (fun _ => by simp [storesKept]) fun k k' => by simp [storesKept, owner, replied]

/-- R56: TIME that sets the calendar writes no frame. -/
theorem timeSet_runsWithin (args : List Token) (s : State) :
    runsWithin (.timeSet args) s fun t => storesKept s t ∧ noFrame s t :=
  verb_runsWithin (v := .time) rfl (fun _ => by simp [storesKept, noFrame]) fun k k' => by
    simp [storesKept, noFrame, owner, replied]

/-- R98, R99, R102: METER and CALIBRATE change the meter and the fast clock. -/
theorem meterLine_runsWithin {c : Instr} {v : Verb} {args : List Token} {s : State} (hv : v = .meter ∨ v = .calibrate)
    (hc : exec c s = .next (offerCommand v args s)) :
    runsWithin c s fun t => t = { s with link := t.link, meter := t.meter, clock := t.clock } := by
  refine verb_runsWithin hc (fun _ => rfl) fun k k' => ?_
  rcases hv with rfl | rfl <;> apply state_ext <;> simp [owner, replied]

/-- R178: POLL empties the notice set. -/
theorem poll_runsWithin (args : List Token) (s : State) : runsWithin (.poll args) s fun t =>
    t = { s with link := t.link, notices := t.notices, pins := { s.pins with attn := t.pins.attn } } := by
  refine verb_runsWithin (v := .poll) rfl (fun _ => rfl) fun k k' => ?_
  apply state_ext <;> simp only [owner, replied, ownPoll_frame, withLink_frame]
  apply pins_ext <;> simp

/-- R186: RECALL loads the image. -/
theorem recall_runsWithin (args : List Token) (s : State) : runsWithin (.recallImage args) s fun t =>
    t = { s with link := t.link, plan := t.plan, settings := t.settings, meter := t.meter, clock := t.clock,
                 notices := t.notices, pins := { s.pins with attn := t.pins.attn } } := by
  refine verb_runsWithin (v := .recall) rfl (fun _ => rfl) fun k k' => ?_
  apply state_ext <;> simp only [owner, replied, ownRecall_frame, withLink_frame]
  apply pins_ext <;> simp

/-! ### SET (R138, R170) -/

@[simp] theorem applySetting_history (p : SetKey × SetValue) (s : State) :
    (applySetting p s).expo.history = s.expo.history := by
  simp only [applySetting, settingActs]
  (repeat' split) <;> simp

@[simp] theorem applySets_history (ps : List (SetKey × SetValue)) (s : State) :
    (applySets ps s).1.expo.history = s.expo.history := by
  induction ps generalizing s with
  | nil => rfl
  | cons p ps ih => simp [applySets, ih]

@[simp] theorem ownSet_history (args : List Token) (s : State) : (ownSet args s).1.expo.history = s.expo.history := by
  simp only [ownSet]
  (repeat' split) <;> simp

/-- R138: a stretch change may begin a prime, which records nothing and joins nothing to the history. -/
theorem set_runsWithin (args : List Token) (s : State) : runsWithin (.set args) s fun t =>
    noFrame s t ∧ t.plan = s.plan ∧ t.cal = s.cal ∧ t.image = s.image ∧ t.notices = s.notices ∧
      t.power.level = s.power.level ∧ t.power.last = s.power.last ∧ t.expo.history = s.expo.history :=
  verb_runsWithin (v := .set) rfl (fun _ => by simp [noFrame]) fun k k' => by simp [noFrame, owner, replied]

/-! ### Characters and ends of replies -/

/-- What an event that may take a waiting line leaves, whatever that line is. -/
abbrev anyLineKeeps (s t : State) : Prop := t.supply = s.supply ∧ t.nrstLow = s.nrstLow ∧ t.image = s.image

/-- R163, R164: the character may end a line. -/
theorem receiveCharacter_runsWithin (v : BitVec 8) (framing : Bool) (s : State) :
    runsWithin (.receiveCharacter v framing) s (anyLineKeeps s) := by
  refine ⟨_, rfl, ?_⟩
  split <;> simp [anyLineKeeps]

/-- R166, R174: a waiting line is taken, or the reset that was ordered is made. -/
theorem replySent_runsWithin (s : State) : runsWithin .replySent s (anyLineKeeps s) :=
  ⟨_, rfl, by simp [anyLineKeeps]⟩

/-- R175, R188: after the autorun step the link takes its first line. -/
theorem autorunStart_runsWithin (s : State) : runsWithin .autorunStart s (anyLineKeeps s) := by
  refine ⟨_, rfl, ?_⟩
  split <;> simp [anyLineKeeps]

/-- R184, R185: the end of a STORE's verify writes the image. -/
theorem storeVerifyEnd_runsWithin (good : Bool) (s : State) :
    runsWithin (.storeVerifyEnd good) s fun t => t = { s with link := t.link, image := t.image } := by
  refine ⟨_, rfl, by simp, ?_⟩
  rw [verifyDone]
  split <;> rfl

/-! ### Supply, reset and the backup domain (R53, R141, R187) -/

/-- R187: a part that starts leaves the image, whether or not nRST holds the cold start back. -/
theorem start_keepsImage {c : Instr} (hc : c = .powerOn ∨ c = .nrstRelease ∨ c = .brownoutRecovery) (s : State) :
    runsWithin c s fun t => t.image = s.image := by
  rcases hc with rfl | rfl | rfl <;> refine ⟨_, rfl, ?_⟩ <;> (repeat' split) <;> simp

/-- What a stop of the part leaves (R141, R185, R187). -/
abbrev stopKeeps (s t : State) : Prop :=
  t.cal = { s.cal with lost := t.cal.lost } ∧ (s.startUp.found = none → t.cal = s.cal) ∧
    t.plan.slots = s.plan.slots ∧ t.image.contents = s.image.contents ∧ t.meter.dark = s.meter.dark ∧
    t.meter.tcal = s.meter.tcal

/-- R187: of the calendar a broken start-up sequence moves the lost marker alone. -/
theorem undoStartUp_cal (s : State) : (undoStartUp s).cal = { s.cal with lost := (undoStartUp s).cal.lost } ∧
    (s.startUp.found = none → (undoStartUp s).cal = s.cal) := by
  rcases undoStartUp_cases s with ⟨hnone, h⟩ | ⟨f, hsome, h⟩ <;> rw [h]
  · exact ⟨rfl, fun _ => rfl⟩
  · exact ⟨rfl, fun hnone => by simp [hnone] at hsome⟩

theorem stopPart_keeps (s : State) : stopKeeps s (stopPart s) := by
  have hcal := undoStartUp_cal s
  simpa [stopKeeps] using hcal

theorem nrstAssert_runsWithin (s : State) : runsWithin .nrstAssert s (stopKeeps s) :=
  ⟨_, rfl, by simp, stopPart_keeps { s with nrstLow := true }⟩

theorem brownout_runsWithin (s : State) : runsWithin .brownout s (stopKeeps s) :=
  ⟨_, rfl, by simp, stopPart_keeps { s with supply := .below }⟩

/-- R53: the backup domain holds the calendar and the trim value. -/
theorem restartDomain_state (s : State) : restartDomain s =
    { s with cal := (restartDomain s).cal, settings := { s.settings with tr := (restartDomain s).settings.tr } } := by
  rw [restartDomain]
  split <;> rfl

theorem backupDomainLoss_runsWithin (s : State) : runsWithin .backupDomainLoss s fun t =>
    t = { s with cal := t.cal, settings := { s.settings with tr := t.settings.tr } } := by
  refine ⟨_, rfl, ?_⟩
  split <;> exact ⟨rfl, rfl⟩

theorem vbatReturn_runsWithin (s : State) : runsWithin .vbatReturn s fun t =>
    t = { s with cal := t.cal, settings := { s.settings with tr := t.settings.tr }, supply := t.supply } := by
  refine ⟨_, rfl, ?_⟩
  split
  · rw [restartDomain_state]
    exact ⟨rfl, rfl⟩
  · exact ⟨rfl, rfl⟩

/-! ### The tick increment (R50, R53, R61, R62) -/

/-- What a tick increment leaves. -/
abbrev tickKeeps (s t : State) : Prop :=
  noFrame s t ∧ t.link = s.link ∧ t.plan = s.plan ∧ t.settings = { s.settings with tr := t.settings.tr } ∧
    (s.cal.powered = true → t.settings = s.settings) ∧ t.image = s.image ∧ t.startUp = s.startUp ∧
    t.nrstLow = s.nrstLow ∧ t.power.level = s.power.level ∧ t.power.last = s.power.last

theorem tickIncrement_runsWithin (s : State) : runsWithin .tickIncrement s (tickKeeps s) := by
  have htrim : (restartDomain s).settings = { s.settings with tr := (restartDomain s).settings.tr } := by
    rw [restartDomain_state]
  have hkept : s.cal.powered = true → (restartDomain s).settings = s.settings := fun h => by rw [restartDomain_powered h]
  refine ⟨_, rfl, ?_⟩
  split <;> simpa [tickKeeps, noFrame] using ⟨htrim, hkept⟩

/-! ### Instants of a shot, the rail and the trip input (R41, R46 to R48, R67 to R71, R81) -/

/-- What an event of the run leaves before a frame can be written. -/
abbrev runEventKeeps (s t : State) : Prop :=
  storesKept s t ∧ noFrame s t ∧ t.link = s.link ∧ t.cal = s.cal ∧ t.notices = s.notices

/-- R41, R48, R67 to R71, R81: the arrivals of instants, the settle and the end of a retry's hold. -/
theorem runEvent_runsWithin {c : Instr} (s : State) (hc : c ∈ [Instr.windowOpening, .measureInstant, .railOnInstant,
    .settleExpiry, .primeInstant, .dueTime, .retryHoldEnd]) : runsWithin c s (runEventKeeps s) := by
  simp only [List.mem_cons, List.not_mem_nil, or_false] at hc
  rcases hc with rfl | rfl | rfl | rfl | rfl | rfl | rfl
  all_goals
    refine ⟨_, rfl, ?_⟩
    (repeat' split) <;> simp [runEventKeeps, storesKept, noFrame]

/-- R46, R47: an edge on TRIP is counted, or makes a trip event. -/
theorem tripEdge_runsWithin (rising : Bool) (s : State) : runsWithin (.tripEdge rising) s (runEventKeeps s) := by
  refine ⟨_, rfl, ?_⟩
  (repeat' split) <;> simp [runEventKeeps, storesKept, noFrame]

/-! ### A shot in flight (R69, R73 to R77) -/

theorem wakePulseEnd_runsWithin (s : State) : runsWithin .wakePulseEnd s fun t =>
    t = { s with engine := { s.engine with wakeLeft := t.engine.wakeLeft }, pins := { s.pins with wake := t.pins.wake } } := by
  refine ⟨_, rfl, ?_⟩
  split <;> exact ⟨rfl, rfl⟩

theorem busyOpenEdge_runsWithin (cycles : Nat) (s : State) : runsWithin (.busyOpenEdge cycles) s fun t =>
    t = { s with engine := { s.engine with shot := t.engine.shot }, pins := { s.pins with busy := t.pins.busy } } := by
  refine ⟨_, rfl, ?_⟩
  (repeat' split) <;> exact ⟨rfl, rfl⟩

/-- What an event that may complete a shot leaves. -/
abbrev completionKeeps (s t : State) : Prop := storesKept s t ∧ t.link = s.link ∧ t.cal = s.cal

/-- R73 to R77: the release of TRIG, the end of the write and the expiries of the watches. -/
theorem completion_runsWithin {c : Instr} (s : State) (hc : (∃ busy, c = .bulbEnd busy) ∨
    (∃ cycles, c = .busyWriteEdge cycles) ∨ c ∈ [Instr.openWatchExpiry, .writeWatchExpiry, .writeFixedExpiry]) :
    runsWithin c s (completionKeeps s) := by
  simp only [List.mem_cons, List.not_mem_nil, or_false] at hc
  rcases hc with ⟨busy, rfl⟩ | ⟨cycles, rfl⟩ | rfl | rfl | rfl
  all_goals
    refine ⟨_, rfl, ?_⟩
    (repeat' split) <;> simp [completionKeeps, storesKept]

/-! ### The scene meter and the fast clock (R90, R100, R146, R147) -/

theorem integrationEnd_runsWithin (count : Nat) (s : State) : runsWithin (.integrationEnd count) s fun t =>
    t = { s with meter := { s.meter with state := t.meter.state } } := by
  refine ⟨_, rfl, ?_⟩
  (repeat' split) <;> exact ⟨rfl, rfl⟩

theorem darkIntegrationEnd_runsWithin (count : Nat) (s : State) : runsWithin (.darkIntegrationEnd count) s fun t =>
    t = { s with meter := t.meter, clock := t.clock } := by
  refine ⟨_, rfl, ?_⟩
  (repeat' split) <;> exact ⟨rfl, rfl⟩

/-- What the end of a reading and the fast clock's events leave. -/
abbrev meterEventKeeps (s t : State) : Prop :=
  storesKept s t ∧ noFrame s t ∧ t.link = s.link ∧ t.cal = s.cal ∧ t.seq = s.seq ∧ t.power = s.power ∧
    t.engine.phase = s.engine.phase

/-- R93: a reading leaves the dark count that it was taken with. -/
@[simp] theorem finishReading_dark (who : Requester) (stage count dark : Nat) (mc : Int) (s : State) :
    (finishReading who stage count dark mc s).meter.dark = s.meter.dark ∧
    (finishReading who stage count dark mc s).meter.tcal = s.meter.tcal := by
  simp only [finishReading]
  (repeat' split) <;> simp [stickyAfter]

/-- R90, R146, R147: a reading is finished, a check period ends, a start times out. -/
theorem meterEvent_runsWithin {c : Instr} (s : State)
    (hc : c = .computationEnd ∨ (∃ count, c = .clockPeriodEnd count) ∨ c = .clockStartTimeout) :
    runsWithin c s (meterEventKeeps s) := by
  rcases hc with rfl | ⟨count, rfl⟩ | rfl
  all_goals
    refine ⟨_, rfl, ?_⟩
    (repeat' split) <;> simp [meterEventKeeps, storesKept, noFrame]

/-! ### Measurements and the heater (R131, R133, R142) -/

theorem measurementTimerExpiry_runsWithin (s : State) : runsWithin .measurementTimerExpiry s fun t =>
    t = { s with power := { s.power with measuring := t.power.measuring, timer := t.power.timer }
                 pins := { s.pins with heat := t.pins.heat } } := by
  refine ⟨_, rfl, ?_⟩
  simp only [askPeriodic]
  (repeat' split) <;> exact ⟨rfl, rfl⟩

theorem measurementEnd_runsWithin (volts : Nat) (temp : Int) (s : State) :
    runsWithin (.measurementEnd volts temp) s fun t =>
      noFrame s t ∧ t.link = s.link ∧ t.plan = s.plan ∧ t.cal = s.cal ∧ t.settings = s.settings ∧ t.image = s.image ∧
        t.supply = s.supply ∧ t.nrstLow = s.nrstLow := by
  refine ⟨_, rfl, ?_⟩
  (repeat' split) <;> simp [noFrame]

/-- R142: the heater frame begins, or its on-time ends. -/
theorem heater_runsWithin {c : Instr} (s : State) (hc : c = .heaterFrameBoundary ∨ c = .heaterOnTimeEnd) :
    runsWithin c s fun t =>
      t = { s with power := { s.power with heater := t.power.heater }, pins := { s.pins with heat := t.pins.heat } } := by
  rcases hc with rfl | rfl
  all_goals
    refine ⟨_, rfl, ?_⟩
    (repeat' split) <;> exact ⟨rfl, rfl⟩

/-! ### Every row -/

/-- A row that keeps its frame in every state keeps it where the part can meet the row. -/
theorem runsWithin_keptBy {c : Instr} {s : State} (h : runsWithin c s (keptBy c s)) :
    runsWithin c s fun t => c.wf = true → keptBy c s t := by
  obtain ⟨t, hexec, hpending, hkept⟩ := h
  exact ⟨t, hexec, hpending, fun _ => hkept⟩

/-- Settles O2: row by row, each family by its own frame; only the row of an unknown verb needs that the part can meet
it. -/
theorem everyRowRunsWithinItsFrame : Obligations.EveryRowRunsWithinItsFrame := by
  intro c s
  cases c
  case unknownVerb verb args => exact unknownVerb_runsWithin verb args s
  all_goals refine runsWithin_keptBy ?_
  case receiveCharacter value framing => exact receiveCharacter_runsWithin value framing s
  case replySent => exact replySent_runsWithin s
  case longLine => exact refused_runsWithin (.inl rfl) rfl
  case badLine => exact refused_runsWithin (.inr rfl) rfl
  case load args | loadPart args => exact planLine_runsWithin (.inl rfl) rfl
  case clear args => exact planLine_runsWithin (.inr rfl) rfl
  case adjust args => exact adjust_runsWithin args s
  case showSlot args | showPlan => exact reading_runsWithin rfl (owner_reads (v := .show) (by decide) _)
  case frames args => exact reading_runsWithin rfl (owner_reads (v := .frames) (by decide) _)
  case store args => exact reading_runsWithin rfl (owner_reads (v := .store) (by decide) _)
  case ident args => exact reading_runsWithin rfl (owner_reads (v := .ident) (by decide) _)
  case status args => exact reading_runsWithin rfl (owner_reads (v := .status) (by decide) _)
  case get args => exact reading_runsWithin rfl (owner_reads (v := .get) (by decide) _)
  case resetWarm args | resetCold args => exact reading_runsWithin rfl (owner_reads (v := .reset) (by decide) _)
  case time => exact reading_runsWithin (v := .time) (args := []) rfl fun _ => rfl
  case meterLast => exact reading_runsWithin (v := .meter) (args := ["LAST".toList]) rfl fun _ => rfl
  case meterDark => exact reading_runsWithin (v := .meter) (args := ["DARK".toList]) rfl fun _ => rfl
  case meter args | meterClear => exact meterLine_runsWithin (.inl rfl) rfl
  case calibrate args => exact meterLine_runsWithin (.inr rfl) rfl
  case start args => exact runLine_runsWithin (v := .start) (by decide) rfl
  case pause args => exact runLine_runsWithin (v := .pause) (by decide) rfl
  case resume args => exact runLine_runsWithin (v := .resume) (by decide) rfl
  case nextSegment args => exact runLine_runsWithin (v := .next) (by decide) rfl
  case queue args => exact runLine_runsWithin (v := .queue) (by decide) rfl
  case stop args => exact stop_runsWithin args s
  case timeSet args => exact timeSet_runsWithin args s
  case poll args => exact poll_runsWithin args s
  case set args => exact set_runsWithin args s
  case storeVerifyEnd good => exact storeVerifyEnd_runsWithin good s
  case recallImage args => exact recall_runsWithin args s
  case powerOn => exact start_keepsImage (.inl rfl) s
  case nrstRelease => exact start_keepsImage (.inr (.inl rfl)) s
  case brownoutRecovery => exact start_keepsImage (.inr (.inr rfl)) s
  case nrstAssert => exact nrstAssert_runsWithin s
  case brownout => exact brownout_runsWithin s
  case backupDomainLoss => exact backupDomainLoss_runsWithin s
  case vbatReturn => exact vbatReturn_runsWithin s
  case autorunStart => exact autorunStart_runsWithin s
  case tickIncrement => exact tickIncrement_runsWithin s
  case windowOpening | measureInstant | railOnInstant | settleExpiry | primeInstant | dueTime | retryHoldEnd =>
    exact runEvent_runsWithin s (by decide)
  case tripEdge rising => exact tripEdge_runsWithin rising s
  case wakePulseEnd => exact wakePulseEnd_runsWithin s
  case busyOpenEdge cycles => exact busyOpenEdge_runsWithin cycles s
  case bulbEnd busy => exact completion_runsWithin s (.inl ⟨busy, rfl⟩)
  case busyWriteEdge cycles => exact completion_runsWithin s (.inr (.inl ⟨cycles, rfl⟩))
  case openWatchExpiry | writeWatchExpiry | writeFixedExpiry =>
    exact completion_runsWithin s (.inr (.inr (by decide)))
  case integrationEnd count => exact integrationEnd_runsWithin count s
  case darkIntegrationEnd count => exact darkIntegrationEnd_runsWithin count s
  case computationEnd => exact meterEvent_runsWithin s (.inl rfl)
  case clockPeriodEnd count => exact meterEvent_runsWithin s (.inr (.inl ⟨count, rfl⟩))
  case clockStartTimeout => exact meterEvent_runsWithin s (.inr (.inr rfl))
  case measurementTimerExpiry => exact measurementTimerExpiry_runsWithin s
  case measurementEnd volts temp => exact measurementEnd_runsWithin volts temp s
  case heaterFrameBoundary => exact heater_runsWithin s (.inl rfl)
  case heaterOnTimeEnd => exact heater_runsWithin s (.inr rfl)

end Sys2Proof.RowFrames
end

