-- ==== Sys2Proof/Proofs/LineHandling.lean ====
section
/-! SUPPORT. The command link (R163 to R166, R175): the row of a line, the characters that make a line, the line that
waits, and the bits of a reply on TXD. -/

namespace Sys2Proof.CommandLines

open Sys2Proof Sys2Proof.Machine

/-! ### The row of a line -/

/-- A row that stands for a line brings that line to the link (assumption log 5). -/
theorem exec_lineOf {c : Instr} {l : Line} (s : State) (h : lineOf c = some l) : exec c s = .next (offerLine l s) := by
  cases c <;> cases h <;> rfl

/-! ### Characters (R163, R164) -/

theorem exec_receiveCharacter {s : State} (v : BitVec 8) (framing : Bool) (hs : s.startUp ≠ .stopped) :
    exec (.receiveCharacter v framing) s = .next (receive (charKind v.toNat framing) s) := by
  simp only [exec, execReceiveCharacter, if_neg hs]

/-- R163, R164: the printable characters, letters as capitals. -/
theorem charKind_line {n : Nat} (hlo : 32 ≤ n) (hhi : n ≤ 126) :
    charKind n false = .line (Char.ofNat (if 97 ≤ n ∧ n ≤ 122 then n - 32 else n)) := by
  simp [charKind, hlo, hhi]

/-- R163: a framing error, and every character that is neither printable nor an ending. -/
theorem charKind_bad {n : Nat} {framing : Bool} (h : framing = true ∨ 126 < n ∨ (n < 32 ∧ n ≠ 13 ∧ n ≠ 10)) :
    charKind n framing = .bad := by
  cases framing
  case true => rfl
  case false =>
    have hn : 126 < n ∨ (n < 32 ∧ n ≠ 13 ∧ n ≠ 10) := by simpa using h
    rw [charKind, if_neg Bool.false_ne_true, if_neg (by omega), if_neg (by omega), if_neg (by omega)]

theorem receive_room {s : State} (c : Char) (h : s.link.buffer.length < 96) :
    receive (.line c) s = { s with link := { s.link with buffer := s.link.buffer ++ [c], afterCr := false } } :=
  if_pos h

/-- R164: the ninety-seventh character of a line marks it long. -/
theorem receive_full {s : State} (c : Char) (h : 96 ≤ s.link.buffer.length) :
    receive (.line c) s = { s with link := { s.link with longMark := true, afterCr := false } } :=
  if_neg (Nat.not_lt.2 h)

/-- R164: CR ends a line, and so does an LF that does not follow such a CR. -/
theorem exec_ending {v : BitVec 8} {s : State} (hs : s.startUp ≠ .stopped)
    (hv : v = 13 ∨ (v = 10 ∧ s.link.afterCr = false)) :
    exec (.receiveCharacter v false) s = .next (endLine (v = 13) s) := by
  rw [exec_receiveCharacter v false hs]
  rcases hv with rfl | ⟨rfl, hcr⟩
  · rfl
  · exact congrArg Host.Outcome.next (if_neg (by simp [hcr]))

/-- R164: at an ending the line that the buffer held meets the link as its own row does. -/
theorem endLine_some {l : Line} {s : State} (byCr : Bool) (hs : s.startUp ≠ .stopped)
    (hl : bufferLine s.link = some l) : endLine byCr s = offerLine l (emptiedBuffer byCr s) := by
  have hs' : (emptiedBuffer byCr s).startUp ≠ .stopped := hs
  rw [offerLine, if_neg hs', endLine, hl]
  rfl

theorem endLine_none {s : State} (byCr : Bool) (hl : bufferLine s.link = none) :
    endLine byCr s = emptiedBuffer byCr s := by
  rw [endLine, hl]
  rfl

/-- R164: what the buffer yields at an ending, met by the row of that line. -/
theorem exec_ending_line {v : BitVec 8} {c : Instr} {l : Line} {s : State} (hs : s.startUp ≠ .stopped)
    (hv : v = 13 ∨ (v = 10 ∧ s.link.afterCr = false)) (hl : bufferLine s.link = some l) (hc : lineOf c = some l) :
    exec (.receiveCharacter v false) s = exec c (emptiedBuffer (v = 13) s) := by
  rw [exec_ending hs hv, endLine_some _ hs hl, exec_lineOf _ hc]

theorem tokensOf_space (t : Text) : tokensOf (' ' :: t) = tokensOf t := by
  simp [tokensOf, splitOn]

/-- R167: a line of spaces holds no token. -/
theorem tokensOf_spaces {t : Text} (h : ∀ c ∈ t, c = ' ') : tokensOf t = [] := by
  induction t with
  | nil => rfl
  | cons c cs ih =>
    obtain rfl : c = ' ' := h c (by simp)
    rw [tokensOf_space, ih fun d hd => h d (by simp [hd])]

/-- Settles O3: each character by its kind, each ending by the line that the buffer yields. -/
theorem charactersMakeLines : Obligations.CharactersMakeLines := by
  refine ⟨fun v framing s hs => ⟨fun hframe hlo hhi hroom => ?room, fun hframe hlo hhi hfull => ?full, fun hbad => ?bad⟩,
    fun s hs => ⟨fun hcr => ?afterCr, fun v hv => ⟨fun hlong => ?long, fun hlong hbad => ?marked,
      fun hlong hbad hspaces => ?empty, fun hlong hbad c toks htoks hne hc => ?command⟩⟩⟩
  case room => rw [exec_receiveCharacter v framing hs, hframe, charKind_line hlo hhi, receive_room _ hroom]
  case full => rw [exec_receiveCharacter v framing hs, hframe, charKind_line hlo hhi, receive_full _ hfull]
  case bad =>
    rw [exec_receiveCharacter v framing hs, charKind_bad hbad]
    rfl
  case afterCr =>
    rw [exec_receiveCharacter 10 false hs]
    exact congrArg Host.Outcome.next (if_pos hcr)
  case long => exact exec_ending_line hs hv (l := .long) (by simp [bufferLine, hlong]) rfl
  case marked => exact exec_ending_line hs hv (l := .bad) (by simp [bufferLine, hlong, hbad]) rfl
  case empty =>
    have hnone : bufferLine s.link = none := by simp [bufferLine_plain _ hlong hbad, tokensOf_spaces hspaces]
    rw [exec_ending hs hv, endLine_none _ hnone]
  case command => exact exec_ending_line hs hv (by simp [bufferLine_plain _ hlong hbad, htoks, hne]) hc

/-! ### The line that waits (R165, R166, R175) -/

/-- R165, R175: a line waits while a reply is being sent, a STORE is being written or the start-up sequence runs. -/
theorem offerLine_waits {l : Line} {s : State} (hs : s.startUp ≠ .stopped) (hw : s.link.waiting = none)
    (hbusy : s.link.state ≠ .ready ∨ s.startUp ≠ .working) :
    offerLine l s = { s with link := { s.link with waiting := some l } } := by
  rcases hbusy with hbusy | hstart
  · rcases hk : s.link.state with _ | contents | ⟨reply, order⟩
    · exact absurd hk hbusy
    · exact offerLine_working l contents hs hw hk
    · exact offerLine_sending l reply order hs hw hk
  · exact offerLine_starting l hs hstart hw

/-- R166: the end of a reply that orders no reset. -/
theorem exec_replySent {r : List Text} {s : State} (hk : s.link.state = .sending r .none) :
    exec .replySent s = .next (takeLine (setLink .ready s)) := by
  simp only [exec, execReplySent, replyDone, hk]

/-- R166, R175: with no line waiting, or the start-up sequence running, none is taken. -/
theorem takeLine_idle {s : State} (h : s.link.waiting = none ∨ s.startUp ≠ .working) : takeLine s = s := by
  rw [takeLine]
  split
  case h_1 l hl hk =>
    have hwork : working s = false := by simpa [working, hl] using h
    rw [hwork]
    rfl
  case h_2 => rfl

/-- R166: the line that waits is taken as one that comes at this moment. -/
theorem takeLine_waiting {l : Line} {s : State} (hs : s.startUp = .working) (hk : s.link.state = .ready)
    (hw : s.link.waiting = some l) :
    takeLine s = offerLine l { s with link := { s.link with waiting := none } } := by
  have hfree : LinkFree { s with link := { s.link with waiting := none } } := ⟨hs, hk, rfl⟩
  have hwork : working s = true := by simp [working, hs]
  rw [offerLine_free l hfree]
  simp only [takeLine, hw, hk, hwork, if_true]

/-! ### TXD (R163) -/

/-- Each character of a reply takes ten levels, its own bits. -/
theorem flatMap_characterBits_getElem? {cs : Text} {c : Char} {i j : Nat} (hc : cs[i]? = some c) (hj : j < 10) :
    (cs.flatMap characterBits)[10 * i + j]? = (characterBits c)[j]? := by
  induction cs generalizing i with
  | nil => simp at hc
  | cons x xs ih =>
    rw [List.flatMap_cons]
    cases i with
    | zero =>
      obtain rfl : x = c := by simpa using hc
      rw [List.getElem?_append_left (by rw [characterBits_length]; omega), Nat.mul_zero, Nat.zero_add]
    | succ i =>
      have hi : 10 * (i + 1) + j - 10 = 10 * i + j := by omega
      rw [List.getElem?_append_right (by rw [characterBits_length]; omega), characterBits_length, hi]
      exact ih (by simpa using hc)

/-- R163: the data bits, the least significant first. -/
theorem characterBits_data (c : Char) {b : Nat} (hb : b < 8) :
    (characterBits c)[1 + b]? = some (decide (c.toNat / 2 ^ b % 2 = 1)) := by
  have hlen : 1 + b < (false :: (List.range 8).map c.toNat.testBit).length := by simp; omega
  rw [characterBits, List.getElem?_append_left hlen, Nat.add_comm, List.getElem?_cons_succ, List.getElem?_map,
    List.getElem?_range hb, Option.map_some, Nat.testBit_eq_decide_div_mod_eq]

/-- Settles O4: a line by the link it meets, the end of a reply by the line that waits, TXD by its characters. -/
theorem linesWaitTheirTurn : Obligations.LinesWaitTheirTurn := by
  refine ⟨fun c l s hc hs => ⟨fun hfull => ?full, fun hw hbusy => ?waits⟩,
    fun s r hk => ⟨fun h => ?none, fun c l hs hc hw => ?taken⟩,
    fun s r order => ⟨fun hk => ⟨?characters, fun i _ c hc => ⟨?start, ?stop, fun b hb => ?data⟩⟩, fun hrest => ?rest⟩⟩
  case full =>
    obtain ⟨w, hw⟩ := Option.isSome_iff_exists.1 hfull
    rw [exec_lineOf s hc, offerLine_full l w hw]
  case waits => rw [exec_lineOf s hc, offerLine_waits hs hw hbusy]
  case none => rw [exec_replySent hk, takeLine_idle (s := setLink .ready s) h]
  case taken =>
    rw [exec_replySent hk, takeLine_waiting (s := setLink .ready s) hs rfl hw, exec_lineOf _ hc]
    rfl
  case characters =>
    simp only [txdCharacters, hk, replyCharacters, List.flatMap_def]
  case start => exact flatMap_characterBits_getElem? (j := 0) hc (by omega)
  case stop => exact flatMap_characterBits_getElem? (j := 9) hc (by omega)
  case data =>
    rw [txdLevels, Nat.add_assoc, flatMap_characterBits_getElem? hc (by omega), characterBits_data c hb]
  case rest =>
    rcases hrest with hk | ⟨contents, hk⟩ <;> simp only [txdLevels, txdCharacters, hk, List.flatMap_nil]

end Sys2Proof.CommandLines
end

