-- ==== Sys2Proof/Proofs/RefusedLines.lean ====
section
/-! SUPPORT. Lines that are refused (R168, 2.3): by the link, by an owner that takes no token, by the slot number, and
by the run state. -/

namespace Sys2Proof.CommandLines

open Sys2Proof Sys2Proof.Machine Sys2Proof.Sequencing

/-! ### Refusals (R168) -/

/-- R168: a line that its verb's owner refuses is answered the refusal alone, and changes nothing. -/
theorem exec_refused {c : Instr} {args : List Token} {s : State} (v : Verb) (code : Code) (hf : LinkFree s)
    (hc : exec c s = .next (offerCommand v args s)) (ho : owner v args s = replied (s, noLine code v)) :
    exec c s = .next (s.answering [refusal code v none]) := exec_line hf hc ho

/-- R168: RESET with any words but the one WARM or COLD. -/
theorem ownReset_malformed {args : List Token} (s : State) (hw : args ≠ ["WARM".toList]) (hc : args ≠ ["COLD".toList]) :
    ownReset args s = replied (s, noLine .malformed .reset) := by
  rw [ownReset, if_neg hw, if_neg hc]
  rfl

/-- R168: a line that names no verb is answered the bare refusal. -/
theorem exec_unknownVerb {verb : Token} {args : List Token} {s : State} (hf : LinkFree s) (h : verb ∉ verbNames) :
    exec (.unknownVerb verb args) s = .next (s.answering [bareRefusal]) := by
  have hverb : readVerb verb = none := RowFrames.readVerb_unknown (by simpa using h)
  rw [exec_lineOf s rfl, offerLine_free _ hf, answerLine_unknown args s hverb]
  rfl

/-! ### The slot number of START and QUEUE (2.3) -/

/-- 2.3: the slot number is checked before the run state and the slot. -/
theorem exec_start_queue_badSlot {args : List Token} {s : State} (code : Code) (hf : LinkFree s)
    (h : ∀ v, slotArg v args = .error (noLine code v)) :
    exec (.start args) s = .next (s.answering [refusal code .start none]) ∧
      exec (.queue args) s = .next (s.answering [refusal code .queue none]) := by
  have hstart : ownStart args s = (s, noLine code .start) := by simp only [ownStart, h]
  have hqueue : ownQueue args s = (s, noLine code .queue) := by simp only [ownQueue, h]
  exact ⟨exec_refused .start code hf rfl (congrArg replied hstart),
    exec_refused .queue code hf rfl (congrArg replied hqueue)⟩

theorem slotArg_malformed {t : Token} (v : Verb) (h : readNumber t = none) :
    slotArg v [t] = .error (noLine .malformed v) := by
  simp only [slotArg, readSlot, h]

theorem slotArg_outOfRange {t : Token} {x : Int} (v : Verb) (h : readNumber t = some x) (hx : x < 0 ∨ 47 < x) :
    slotArg v [t] = .error (noLine .range v) := by
  have hr : slotInRange x = false := by
    rw [slotInRange, Config.slotCount, Bool.and_eq_false_iff, decide_eq_false_iff_not, decide_eq_false_iff_not]
    omega
  simp [slotArg, readSlot, h, hr]

/-! ### The run states that take no such command (2.3) -/

theorem ownStart_refused {n : Nat} {s : State} (hn : n < 48) :
    (s.seq.run ≠ .idle → ownStart [natText n] s = (s, noLine .state .start)) ∧
      (s.seq.run = .idle → slotAt s n = none → ownStart [natText n] s = (s, noLine .empty .start)) := by
  rw [ownStart, slotArg_natText .start hn]
  exact ⟨fun hrun => if_neg hrun, fun hrun hslot => by simp only [hrun, hslot, if_true]⟩

theorem ownQueue_refused {n : Nat} {s : State} (hn : n < 48) :
    (s.seq.run = .idle → ownQueue [natText n] s = (s, noLine .state .queue)) ∧
      (s.seq.run ≠ .idle → slotAt s n = none → ownQueue [natText n] s = (s, noLine .empty .queue)) := by
  rw [ownQueue, slotArg_natText .queue hn]
  exact ⟨fun hrun => if_pos hrun, fun hrun hslot => by simp only [hslot, if_neg hrun]⟩

theorem ownPause_refused {s : State} (ha : s.seq.run ≠ .active) (hs : s.seq.run ≠ .suspended) :
    ownPause [] s = (s, noLine .state .pause) := by
  rw [ownPause, if_pos rfl]
  split
  case h_1 hrun => exact absurd hrun ha
  case h_2 hrun => exact absurd hrun hs
  all_goals rfl

theorem ownResume_refused {s : State} (h : ∀ r, s.seq.run ≠ .paused r) :
    ownResume [] s = (s, noLine .state .resume) := by
  rw [ownResume, if_pos rfl]
  split
  case h_1 r hrun => exact absurd hrun (h r)
  all_goals rfl

theorem ownNext_refused {s : State} (h : s.seq.run = .idle ∨ s.seq.run = .starved) :
    ownNext [] s = (s, noLine .state .next) := by
  rw [ownNext, if_pos rfl]
  rcases h with hrun | hrun <;> rw [hrun]

/-- Settles O13: each line by the refusal of its owner, START and QUEUE by their slot number first. -/
theorem unfitCommandsRefused : Obligations.UnfitCommandsRefused := by
  refine ⟨fun s hf => ⟨?long, ?bad, fun verb args h => exec_unknownVerb hf h⟩, fun s t ts hf => ?tokens,
    fun n s hf hn => ⟨fun hrun => ?startState, fun hrun hslot => ?startEmpty, fun hrun => ?queueState,
      fun hrun hslot => ?queueEmpty, fun ha hs => ?pause, fun hrun => ?resume, fun hrun => ?next,
      (exec_start_queue_badSlot .malformed hf fun _ => rfl).1, (exec_start_queue_badSlot .malformed hf fun _ => rfl).2,
      fun t ht => exec_start_queue_badSlot .malformed hf fun v => slotArg_malformed v ht,
      fun t x ht hx => exec_start_queue_badSlot .range hf fun v => slotArg_outOfRange v ht hx⟩⟩
  case long =>
    rw [exec_lineOf s rfl, offerLine_free _ hf]
    rfl
  case bad =>
    rw [exec_lineOf s rfl, offerLine_free _ hf]
    rfl
  case tokens =>
    exact ⟨exec_refused .stop .malformed hf rfl rfl, exec_refused .pause .malformed hf rfl rfl,
      exec_refused .resume .malformed hf rfl rfl, exec_refused .next .malformed hf rfl rfl,
      exec_refused .calibrate .malformed hf rfl rfl, exec_refused .poll .malformed hf rfl rfl,
      exec_refused .store .malformed hf rfl rfl, exec_refused .recall .malformed hf rfl rfl,
      exec_refused .reset .malformed hf rfl (ownReset_malformed s (by simp) (by simp)),
      exec_refused .reset .malformed hf rfl (ownReset_malformed s (by simp) (by simp))⟩
  case startState => exact exec_refused .start .state hf rfl (congrArg replied ((ownStart_refused hn).1 hrun))
  case startEmpty => exact exec_refused .start .empty hf rfl (congrArg replied ((ownStart_refused hn).2 hrun hslot))
  case queueState => exact exec_refused .queue .state hf rfl (congrArg replied ((ownQueue_refused hn).1 hrun))
  case queueEmpty => exact exec_refused .queue .empty hf rfl (congrArg replied ((ownQueue_refused hn).2 hrun hslot))
  case pause => exact exec_refused .pause .state hf rfl (congrArg replied (ownPause_refused ha hs))
  case resume => exact exec_refused .resume .state hf rfl (congrArg replied (ownResume_refused hrun))
  case next => exact exec_refused .next .state hf rfl (congrArg replied (ownNext_refused hrun))

end Sys2Proof.CommandLines
end

