-- ==== Sys2Proof/Proofs/SettingsReports.lean ====
section
/-! SUPPORT. SET of a numeric setting, GET, ID and STATUS (R170 to R173): what is taken or read, and the line that
reports it. -/

namespace Sys2Proof.CommandLines

open Sys2Proof Sys2Proof.Machine Sys2Proof.Sequencing Sys2Proof.FrameLog

/-! ### SET of a numeric setting (R170) -/

theorem intText_nonneg {x : Int} (h : 0 ≤ x) : intText x = natText x.toNat := by
  have habs : x.natAbs = x.toNat := by omega
  rw [intText, if_neg (by omega), habs]

/-- R170: a numeric setting takes its number clamped. -/
theorem takeSetting_numeric {k : SetKey} {lo hi : Int} (v : Int) (c : Settings) (hk : numericRange k = some (lo, hi)) :
    takeSetting k (.num v) c = withNumber k (max lo (min hi v)) c := by
  cases k <;> cases hk <;> rfl

/-- R170: it sets nothing going. -/
theorem applySetting_numeric {k : SetKey} {lo hi : Int} (v : Int) (s : State) (hk : numericRange k = some (lo, hi)) :
    applySetting (k, .num v) s = withSettings (withNumber k (max lo (min hi v)) s.settings) s := by
  rw [← takeSetting_numeric v s.settings hk]
  cases k <;> cases hk <;> rfl

/-- R170, R171: the value taken is the value answered. -/
theorem settingText_withNumber {k : SetKey} {lo hi x : Int} (c : Settings) (hk : numericRange k = some (lo, hi))
    (hx : lo ≤ x) : settingText (withNumber k x c) k = intText x := by
  cases k <;> cases hk
  case hb | mc | tr => rfl
  all_goals exact (intText_nonneg (by omega)).symm

/-- R170: a numeric setting is read as a number, and is not VT. -/
theorem numericRange_plain {k : SetKey} {r : Int × Int} (hk : numericRange k = some r) :
    k ≠ .vt ∧ k ≠ .sy ∧ k ≠ .te ∧ k ≠ .atOn ∧ k ≠ .ar := by
  refine ⟨?_, ?_, ?_, ?_, ?_⟩ <;> rintro rfl <;> cases hk

/-- Settles O51: by what the setting takes and what it is answered with. -/
theorem setClampsNumbers : Obligations.SetClampsNumbers := by
  intro k lo hi v s hf hk hv
  obtain ⟨hvt, hwords⟩ := numericRange_plain hk
  have hexec := exec_set_one (k := k) hf (readSetValue_num hv hwords)
  rw [movedField_calm s (by simpa using hvt), applySetting_numeric v s hk, settingField,
    settingText_withNumber s.settings hk (Int.le_max_left _ _)] at hexec
  refine hexec.trans (answering_congr ?_)
  rw [okLine, success_spaced, spaced_cons, spaced_nil, List.append_nil, List.append_assoc]
  rfl

/-! ### GET (R171) -/

theorem settingField_eq (c : Settings) : settingField c = fun k => k.text ++ '=' :: settingValue c k := by
  funext k
  cases k <;> rfl

/-- R168, R171: the line that reports settings, one or more. -/
theorem okLine_get {ks : List SetKey} (c : Settings) (hne : ks ≠ []) : okLine .get (ks.map (settingField c)) =
    ["=GET ".toList ++ joinWith [' '] (ks.map fun k => k.text ++ '=' :: settingValue c k)] := by
  rw [settingField_eq]
  rcases ks with _ | ⟨k, ks⟩
  · exact absurd rfl hne
  · rfl

/-- R171: keys named once each are read in their order, whatever follows them. -/
theorem readKeys_append {seen ks : List SetKey} (ts : List Token) (hnew : ∀ k ∈ ks, k ∉ seen) (hnodup : ks.Nodup) :
    readKeys seen (ks.map SetKey.text ++ ts) = (readKeys (ks.reverse ++ seen) ts).map (ks ++ ·) := by
  induction ks generalizing seen with
  | nil => cases h : readKeys seen ts <;> simp [h, Except.map]
  | cons k ks ih =>
    obtain ⟨hk, hks⟩ := List.nodup_cons.1 hnodup
    have hseen : seen.contains k = false := by simpa using hnew k (by simp)
    have hrest := ih (seen := k :: seen) (fun j hj => by
      simp only [List.mem_cons, not_or]
      exact ⟨fun h => hk (h ▸ hj), hnew j (by simp [hj])⟩) hks
    simp only [List.map_cons, List.cons_append, readKeys, readSetKey_text, hseen, hrest, List.reverse_cons,
      List.append_assoc, List.nil_append]
    cases readKeys (ks.reverse ++ k :: seen) ts <;> rfl

/-- R171: a token that names no setting, or one that has been named. -/
theorem readKeys_fault {t : Token} {seen : List SetKey} (ts : List Token)
    (h : (∀ k ∈ setKeys, k.text ≠ t) ∨ t ∈ seen.map SetKey.text) : readKeys seen (t :: ts) = .error t := by
  rcases h with hnone | hseen
  · have hread : readSetKey t = none := by
      rw [readSetKey, List.find?_eq_none]
      exact fun k hk => by simpa using hnone k hk
    simp only [readKeys, hread]
  · obtain ⟨k, hk, rfl⟩ := List.mem_map.1 hseen
    have hcontains : seen.contains k = true := by simpa using hk
    simp only [readKeys, readSetKey_text, hcontains, if_true]

/-- R171: keys that are read are reported, all of them for GET alone. -/
theorem exec_get_reports {args : List Token} {keys ks : List SetKey} {s : State} (hf : LinkFree s)
    (hread : readKeys [] args = .ok keys) (hks : (if args = [] then SetKey.all else keys) = ks) (hne : ks ≠ []) :
    exec (.get args) s = .next (s.answering
      ["=GET ".toList ++ joinWith [' '] (ks.map fun k => k.text ++ '=' :: settingValue s.settings k)]) := by
  have ho : ownGet args s = (s, okLine .get (ks.map (settingField s.settings))) := by simp only [ownGet, hread, hks]
  rw [← okLine_get s.settings hne]
  exact exec_line (v := .get) (p := (_, _)) hf rfl (congrArg replied ho)

/-- R171: a token at fault is named. -/
theorem exec_get_refused {args : List Token} {t : Token} {s : State} (hf : LinkFree s)
    (hread : readKeys [] args = .error t) :
    exec (.get args) s = .next (s.answering ["!SYNTAX GET ".toList ++ t]) := by
  have ho : ownGet args s = (s, noLineKey .malformed .get t) := by simp only [ownGet, hread]
  exact exec_line (v := .get) (p := (_, _)) hf rfl (congrArg replied ho)

/-- Settles O53: by the keys that are read, or the token that stops the reading. -/
theorem getReportsSettings : Obligations.GetReportsSettings := by
  intro ks s hf hnodup
  refine ⟨fun hne => ?named, exec_get_reports hf rfl rfl (by decide), fun t ts hfault => exec_get_refused hf ?fault⟩
  case named =>
    have hread : readKeys [] (ks.map SetKey.text) = .ok ks := by
      simpa [readKeys, Except.map] using readKeys_append [] (seen := []) (by simp) hnodup
    exact exec_get_reports hf hread (if_neg (by simpa using hne)) hne
  case fault =>
    rw [readKeys_append (t :: ts) (by simp) hnodup, readKeys_fault ts (by simpa using hfault)]
    rfl

/-! ### ID and STATUS (R172, R173) -/

/-- R173: the due time as seconds and ticks. -/
theorem dueText_eq (s : State) : dueText s = match s.seq.stage with
    | .pending d | .priming d => natText (d / 1024) ++ ",".toList ++ natText (d % 1024)
    | .none | .inFlight _ => "NONE".toList := by
  rw [dueText, nextDue]
  cases s.seq.stage <;> simp [pairText, Config.ticksPerSecond]

/-- Settles O5: ID by its line, STATUS by its fields one after another, each with a token by its refusal. -/
theorem idAndStatusReport : Obligations.IdAndStatusReport := by
  refine ⟨fun s hf => ⟨?ident, fun t ts => exec_refused .ident .malformed hf rfl rfl⟩,
    fun s hf => ⟨?status, fun t ts => exec_refused .status .malformed hf rfl rfl⟩⟩
  case ident =>
    exact exec_line (v := .ident) (p := (s, okLine .ident ["AMELTRA".toList, "LZ420".toList, "2".toList])) hf rfl rfl
  case status =>
    refine (exec_line (v := .status) (p := (s, statusReply s)) hf rfl rfl).trans (answering_congr ?_)
    simp only [statusReply, okLine, success_spaced, spaced_append, spaced_cons, spaced_nil, fieldText, dueText_eq,
      List.append_assoc, List.cons_append, List.append_nil]
    rfl

end Sys2Proof.CommandLines
end

