-- ==== Sys2Proof/Proofs/NoticesPolled.lean ====
section
/-! SUPPORT. POLL and the notice set (R176, R178, R181, R182). -/

namespace Sys2Proof.CommandLines

open Sys2Proof Sys2Proof.Machine Sys2Proof.Sequencing

/-- R178, R182: the emptied set releases ATTN, whether attention is ON or OFF, and nothing else moves. -/
theorem clearNotices_state (s : State) :
    clearNotices s = { s with notices := [], pins := { s.pins with attn := false } } := rfl

/-- R176: the kinds of the table that `P` picks, written in its order. -/
theorem map_text_filter_all (P : Notice → Bool) :
    (Notice.all.filter P).map Notice.text = (noticeWords.filter fun p => P p.1).map Prod.snd := by
  have hwords : noticeWords = Notice.all.map fun k => (k, k.text) := rfl
  rw [hwords, List.filter_map, List.map_map]
  rfl

/-- R176: every notice held is a kind of the table, so a set that is not empty has a word to answer. -/
theorem filter_all_ne_nil {notices : List Notice} (h : notices ≠ []) :
    Notice.all.filter (fun k => notices.contains k) ≠ [] := by
  obtain ⟨k, hk⟩ := List.exists_mem_of_ne_nil notices h
  exact List.ne_nil_of_mem (List.mem_filter.2 ⟨k.mem_all, by simpa using hk⟩)

/-- R168: a success line with at least one field. -/
theorem success_of_fields (verb : Text) {fields : List Text} (h : fields ≠ []) :
    success verb fields = '=' :: verb ++ ' ' :: joinWith [' '] fields := by
  obtain ⟨t, ts, rfl⟩ := List.exists_cons_of_ne_nil h
  simp [success, joinWith]

/-- R178: the reply to POLL, the kinds present or NONE. -/
theorem pollReply_eq (s : State) : pollReply s =
    [if s.notices = [] then "=POLL NONE".toList
      else "=POLL ".toList ++
        joinWith [' '] ((noticeWords.filter (fun p => s.notices.contains p.1)).map Prod.snd)] := by
  rw [pollReply]
  split
  case isTrue => rfl
  case isFalse h =>
    rw [okLine, success_of_fields _ (by simpa only [ne_eq, List.map_eq_nil_iff] using filter_all_ne_nil h),
      map_text_filter_all]
    rfl

/-- Settles O50: by the state POLL leaves and the line it answers. -/
theorem pollEmptiesNotices : Obligations.PollEmptiesNotices := by
  intro s hf
  rw [← clearNotices_state, ← pollReply_eq]
  exact exec_line (v := .poll) (p := (clearNotices s, pollReply s)) hf rfl rfl

end Sys2Proof.CommandLines
end

