-- ==== Sys2Proof/Proofs/ImageStore.lean ====
section
/-! SUPPORT. STORE, the end of its verify and RECALL (R184 to R186): what each writes to the image or loads from it. -/

namespace Sys2Proof.CommandLines

open Sys2Proof Sys2Proof.Machine Sys2Proof.Sequencing Sys2Proof.SceneMetering

/-! ### STORE and its verify (R184, R185) -/

/-- R184: a free link takes STORE and is left WORKING with the contents fixed. -/
theorem exec_store {s : State} (hf : LinkFree s) :
    exec (.store []) s = .next (setLink (.working (imageNow s)) s) :=
  congrArg Host.Outcome.next (offerCommand_free .store [] hf)

/-- R184, R185: the verify of a STORE in progress marks the image and replies. -/
theorem verifyDone_working {s : State} {c : ImageContents} (good : Bool) (h : s.link.state = .working c) :
    verifyDone good s = { s with image := { contents := c, good := good } }.answering
      (if good then okLine .store [] else noLine .store .store) := by
  simp only [verifyDone, h]

/-- Assumption log 2: no verify ends while no STORE works. -/
theorem verifyDone_notWorking {s : State} (good : Bool) (h : writingContents s.link.state = none) :
    verifyDone good s = s := by
  rcases hk : s.link.state with _ | _ | c
  case working => rw [hk] at h; cases h
  all_goals simp only [verifyDone, hk]

/-! ### RECALL (R186) -/

theorem exec_recall {s : State} (hf : LinkFree s) :
    exec (.recallImage []) s = .next ((ownRecall [] s).1.answering (ownRecall [] s).2) :=
  exec_line (v := .recall) hf rfl rfl

/-- R186: in IDLE a bad image is reported and loads nothing. -/
theorem ownRecall_bad {s : State} (hrun : s.seq.run = .idle) (hbad : s.image.good = false) :
    ownRecall [] s = (raise .storeBad s, noLine .store .recall) := by
  simp [ownRecall, hrun, hbad]

/-- R186: in IDLE a good image is loaded over a calibration that is abandoned first. -/
theorem ownRecall_good {s : State} (hrun : s.seq.run = .idle) (hgood : s.image.good = true) :
    ownRecall [] s = (loadImage s.image.contents (abandonCalibration s), okLine .recall []) := by
  simp [ownRecall, hrun, hgood]

/-- R186: a meter that does not calibrate has nothing to abandon. -/
theorem abandonCalibration_notCalibrating {s : State}
    (h : ∀ temp made sum left, s.meter.state ≠ .calibrating temp made sum left) :
    abandonCalibration s = s := by
  rcases hm : s.meter.state with _ | _ | ⟨temp, made, sum, left⟩
  case calibrating => exact absurd hm (h temp made sum left)
  all_goals simp only [abandonCalibration, hm]

/-- R100, R148: the meter's calibration in progress is dropped, and its request of the fast clock with it. -/
theorem abandonCalibration_calibrating {s : State} {temp : Int} {made sum : Nat} {left : Option Nat}
    (h : s.meter.state = .calibrating temp made sum left) :
    abandonCalibration s = { s with
      meter := { s.meter with state := .idle, outcome := .abandoned }
      clock := clockLeft s.clock.shotAsks { s.clock with meterAsks := false } } := by
  simp only [abandonCalibration, h]
  rw [meterToIdle, dropClock, drop_meter]

/-- Settles O54: STORE and its verify by the states they leave, RECALL by the image and the calibration it meets. -/
theorem imageIsStoredAndRecalled : Obligations.ImageIsStoredAndRecalled := by
  refine ⟨fun s => ⟨exec_store, fun c hc => ⟨?verified, ?failed⟩, fun h good => ?noStore⟩,
    fun s hf => ⟨fun hrun => ?running, fun hrun hbad => ?bad, fun hrun hgood hcal => ?good,
      fun hrun hgood temp made sum left hcal => ?calibrating⟩⟩
  case verified => exact congrArg Host.Outcome.next (verifyDone_working true hc)
  case failed => exact ⟨_, congrArg Host.Outcome.next (verifyDone_working false hc), rfl, rfl⟩
  case noStore => exact congrArg Host.Outcome.next (verifyDone_notWorking good h)
  case running => exact exec_refused .recall .state hf rfl (by simp [owner, ownRecall, hrun])
  case bad =>
    rw [leadsTo, exec_recall hf, ownRecall_bad hrun hbad]
    refine ⟨_, rfl, rfl, (mem_raise _ _ _).2 (.inl rfl), fun k hk => (mem_raise _ _ _).1 hk, ?_⟩
    exact ⟨rfl, rfl, rfl, rfl, rfl, rfl, rfl⟩
  case good =>
    rw [exec_recall hf, ownRecall_good hrun hgood, abandonCalibration_notCalibrating hcal]
    rfl
  case calibrating =>
    rw [exec_recall hf, ownRecall_good hrun hgood, abandonCalibration_calibrating hcal]
    rfl

end Sys2Proof.CommandLines
end

