-- ==== Sys2Proof/Proofs/CommandQueue.lean ====
section
/-! SUPPORT. The queue of commands (assumption log 1): what a step does with its front command, and without one. -/

namespace Sys2Proof.CommandQueue

open Sys2Proof Sys2Proof.Machine

/-- The front command leaves the queue before it is carried out, so it runs with only the rest waiting. -/
theorem step_of_pending_cons {s : State} {c : Instr} {rest : List Instr} (h : s.pending = c :: rest) :
    step s = exec c { s with pending := rest } := by
  simp only [step, h]

/-- With no command waiting the part idles. -/
theorem step_of_pending_nil {s : State} (h : s.pending = []) : step s = .next s := by
  simp only [step, h]

/-- Settles O1: the two shapes of the queue, a front command and none. -/
theorem stepRunsFrontCommand : Obligations.StepRunsFrontCommand := by
  refine ⟨fun c rest s => ?front, fun s hidle => ?idle⟩
  case front => exact step_of_pending_cons (s := { s with pending := c :: rest }) rfl
  case idle => exact step_of_pending_nil hidle

end Sys2Proof.CommandQueue
end
